-- ==== Sys2Proof/Word.lean ====
section
/-! DEFINITION. The machine's word types (`spec/00_scope.md` R4, R5, R7): 64-bit registers and addresses,
32-bit instruction words, 5-bit register numbers, 3-bit condition register numbers, and the four operand sizes. -/

namespace Sys2Proof

/-- A general register, an address or an octa (XLEN of R4). -/
abbrev Word := BitVec 64

/-- One byte of memory (R60). -/
abbrev Byte := BitVec 8

/-- One 32-bit word of an instruction (R90). -/
abbrev InsnWord := BitVec 32

/-- A general register number, 0 to 31 (R20). -/
abbrev Reg := BitVec 5

/-- A condition register number, 0 to 7 (R28). -/
abbrev CReg := BitVec 3

/-- Operand size (R7): byte, wyde, tetra, octa. FCMP calls the first one `.h` (R181). -/
inductive Size where
  | b | w | t | o
deriving DecidableEq, Repr

/-- The half sizes SWAP supports (R220): `.b`, `.w`, `.t`. -/
inductive HalfSize where
  | b | w | t
deriving DecidableEq, Repr

/-- The sizes PEA supports (R275): `.t` and `.o`. -/
inductive PushSize where
  | t | o
deriving DecidableEq, Repr

end Sys2Proof
end

