-- ==== Sys2Proof/Config.lean ====
section
/-! DEFINITION. What an implementation fixes (`spec/00_scope.md` R4) and the values the spec leaves free.

The parameters of R4 that are plain data are the structure `Params`, held in the state (log entry 1), so that every
statement about every state holds for every value of them. The two that are functions, the values drawn by the spec's
`draw(N)` (R10) and the floating-point comparison (R181), are constants without a body: no proof can see a value. -/

namespace Sys2Proof

/-- NARROW_WB of R4: what a write narrower than a register does to the bits above it. -/
inductive NarrowWb where
  | preserve | sext | zext | any
deriving DecidableEq, Repr

/-- MISALIGNED of R4, R64: a data access whose address is no multiple of its size. -/
inductive Misaligned where
  | addressError | split
deriving DecidableEq, Repr

/-- UNMENTIONED_FLAGS of R4, D8: a flag that an instruction's text does not mention. -/
inductive UnmentionedFlags where
  | unchanged | any
deriving DecidableEq, Repr

/-- TRAP_NUM_MAP of R4, R242: from a trap number to a system vector. -/
inductive TrapNumMap where
  | defined31 | offset32
deriving DecidableEq, Repr

/-- The kinds of access the platform's `mem_ok` distinguishes (R68). -/
inductive AccessKind where
  | read | write | fetch
deriving DecidableEq, Repr

/-- A row of the platform's `mem_ok` (R68, R77): which accesses of one of the `widths` may have their first byte at `base` to
`base + size - 1`. Rows speak of whole accesses, so that a list of them can be any predicate of address, width and kind
(`memOk_any`). -/
structure Region where
  base   : Nat
  size   : Nat
  widths : List Nat
  read   : Bool
  write  : Bool
  fetch  : Bool
deriving DecidableEq, Repr

/-- The implementation parameters of R4 that are data. No instruction changes one. -/
structure Params where
  narrowWb         : NarrowWb
  misaligned       : Misaligned
  strictReserved   : Bool
  unmentionedFlags : UnmentionedFlags
  trapNumMap       : TrapNumMap
  ifetchCoherent   : Bool
  coreno           : Word
  map              : List Region
deriving DecidableEq, Repr

/-- The defaults of R4; core number 0 and one row that allows every access over the whole 64-bit address space
are the model's (log entry 1). -/
def defaultParams : Params where
  narrowWb         := .any
  misaligned       := .addressError
  strictReserved   := true
  unmentionedFlags := .unchanged
  trapNumMap       := .defined31
  ifetchCoherent   := false
  coreno           := 0#64
  map              := [⟨0, 0x10000000000000000, [1, 2, 4, 8], true, true, true⟩]

/-- What a floating-point comparison can report (R181). The four outcomes are those its constraint allows: unordered
has neither `lt` nor `eq`, and an ordered result has at most one of them. -/
inductive FloatOrder where
  | less | equal | greater | unordered
deriving DecidableEq, Repr, Inhabited

/-- The spec's `draw(N)` (R10): the k-th value drawn in a run, of which the drawing rule takes the low N bits. FREE VALUE
(log entry 2): nothing constrains it. -/
opaque Config.freeBits : Nat → BitVec 64

/-- The parameter `fcmp(Sz, a, b)` (R181, D37); the W-bit patterns are given zero-extended. FREE VALUE (log entry 3): the
source gives no floating-point format. -/
opaque Config.fcmp : Size → Word → Word → FloatOrder

end Sys2Proof
end

