-- ==== Sys2Proof/Syntax.lean ====
section
/-! DEFINITION. The instructions: one constructor of `Instr` for each row of `spec/opcode_table.json`, in the table's
order, with the operands of its figure (`spec/30_encoding.md`). -/

namespace Sys2Proof

/-- The 24 branch conditions of R230 in the order of their codes 0x00 to 0x17, by the manual's mnemonics. -/
inductive Cond where
  | ra | sr | hi | ls | cc | cs | ne | eq | vc | vs | pl | mi | ge | lt | gt | le
  | fOr | fUn | fGt | fLe | fGe | fLt | fNe | fEq
deriving DecidableEq, Repr

/-- The address modes with one register (R270): `D(Rn)`, `D(Rn)+` (post update), `+D(Rn)` (pre update). -/
inductive UpdMode where
  | indirect | postUpdate | preUpdate
deriving DecidableEq, Repr

/-- A displacement (R281): the short field of the first word, or the extension words an escape value selects. -/
inductive Disp (n : Nat) where
  | short (d : BitVec n)
  | ext32 (d : BitVec 32)
  | ext64 (d : BitVec 64)
deriving DecidableEq, Repr

/-- The immediate of STORE #imm (R278): the 5-bit field, or the extension words its escape selects. -/
inductive StoreImm where
  | short (i : BitVec 5)
  | ext32 (i : BitVec 32)
  | ext64 (i : BitVec 64)
deriving DecidableEq, Repr

/-- A CSR number (R37): the 7-bit field, or the extension word that a field of zero selects. -/
inductive CsrNum where
  | field (n : BitVec 7)
  | extended (n : BitVec 32)
deriving DecidableEq, Repr

/-- The instructions of the opcode table, one constructor a row. -/
inductive Instr where
  /-- BRK, the all-zero word (R234). -/
  | brk
  /-- TRAP Rt, Ra, #Data (R242). -/
  | trapReg (data : BitVec 11) (rt ra : Reg)
  /-- TRAP Rt, #Num, #Data (R242). -/
  | trapImm (num : BitVec 8) (data : BitVec 11) (rt : Reg)
  /-- TRAPV Rt, #Data (R243). -/
  | trapv (cr : CReg) (data : BitVec 11) (rt : Reg)
  /-- ATRAP Rt, Ra, #Data (R231). -/
  | atrapReg (data : BitVec 11) (rt ra : Reg)
  /-- ATRAP Rt, #Num, #Data (R231). -/
  | atrapImm (num : BitVec 5) (data : BitVec 11) (rt : Reg)
  /-- SWAP, swap register halves (R220). -/
  | swap (ct : CReg) (sz : HalfSize) (rt ra : Reg)
  /-- ABS, absolute value (R132). -/
  | abs (sz : Size) (rt rb : Reg)
  /-- MOVE from CSR (R138). -/
  | moveFromCsr (csr : CsrNum) (rb : Reg)
  /-- MOVE to CSR (R139). -/
  | moveToCsr (csr : CsrNum) (rb : Reg)
  /-- OR to CSR, set bits (R140). -/
  | orCsr (csr : CsrNum) (rb : Reg)
  /-- ANDC to CSR, clear bits (R141). -/
  | andcCsr (csr : CsrNum) (rb : Reg)
  /-- EOR to CSR, flip bits (R142). -/
  | eorCsr (csr : CsrNum) (rb : Reg)
  /-- CMP register form (R136). -/
  | cmpRR (ct : CReg) (sz : Size) (ra rb : Reg)
  /-- CMP Imm32 form (R136). -/
  | cmpI32 (ct : CReg) (sz : Size) (ra : Reg) (swap : Bool) (imm : BitVec 32)
  /-- CMP Imm64 form (R136). -/
  | cmpI64 (ct : CReg) (sz : Size) (ra : Reg) (swap : Bool) (imm : BitVec 64)
  /-- CMP Imm10 form (R136). -/
  | cmpI10 (ct : CReg) (sz : Size) (ra : Reg) (swap : Bool) (imm : BitVec 10)
  /-- FCMP register form (R180). -/
  | fcmpRR (ct : CReg) (sz : Size) (ra rb : Reg)
  /-- FCMP Imm32 form (R180). -/
  | fcmpI32 (ct : CReg) (sz : Size) (ra : Reg) (swap : Bool) (imm : BitVec 32)
  /-- FCMP Imm64 form (R180). -/
  | fcmpI64 (ct : CReg) (sz : Size) (ra : Reg) (swap : Bool) (imm : BitVec 64)
  /-- FCMP Imm10 form (R180). -/
  | fcmpI10 (ct : CReg) (sz : Size) (ra : Reg) (swap : Bool) (imm : BitVec 10)
  /-- ADC register form (R133). -/
  | adcRR (ct : CReg) (sz : Size) (rt ra : Reg) (rb : Reg)
  /-- ADC Imm32 form (R133). -/
  | adcI32 (ct : CReg) (sz : Size) (rt ra : Reg) (imm : BitVec 32)
  /-- ADC Imm64 form (R133). -/
  | adcI64 (ct : CReg) (sz : Size) (rt ra : Reg) (imm : BitVec 64)
  /-- ADC Imm10 form (R133). -/
  | adcI10 (ct : CReg) (sz : Size) (rt ra : Reg) (imm : BitVec 10)
  /-- ADD register form (R134). -/
  | addRR (ct : CReg) (sz : Size) (rt ra : Reg) (rb : Reg)
  /-- ADD Imm32 form (R134). -/
  | addI32 (ct : CReg) (sz : Size) (rt ra : Reg) (imm : BitVec 32)
  /-- ADD Imm64 form (R134). -/
  | addI64 (ct : CReg) (sz : Size) (rt ra : Reg) (imm : BitVec 64)
  /-- ADD Imm10 form (R134). -/
  | addI10 (ct : CReg) (sz : Size) (rt ra : Reg) (imm : BitVec 10)
  /-- SUB register form (R150). -/
  | subRR (ct : CReg) (sz : Size) (rt ra : Reg) (rb : Reg)
  /-- SUB Imm32 form (R150). -/
  | subI32 (ct : CReg) (sz : Size) (rt ra : Reg) (swap : Bool) (imm : BitVec 32)
  /-- SUB Imm64 form (R150). -/
  | subI64 (ct : CReg) (sz : Size) (rt ra : Reg) (swap : Bool) (imm : BitVec 64)
  /-- SUB Imm10 form (R150). -/
  | subI10 (ct : CReg) (sz : Size) (rt ra : Reg) (swap : Bool) (imm : BitVec 10)
  /-- MULS register form (R147). -/
  | mulsRR (ct : CReg) (sz : Size) (rt ra : Reg) (rb rp : Reg)
  /-- MULS Imm32 form (R147). -/
  | mulsI32 (ct : CReg) (sz : Size) (rt ra : Reg) (imm : BitVec 32)
  /-- MULS Imm64 form (R147). -/
  | mulsI64 (ct : CReg) (sz : Size) (rt ra : Reg) (imm : BitVec 64)
  /-- MULS Imm10 form (R147). -/
  | mulsI10 (ct : CReg) (sz : Size) (rt ra : Reg) (imm : BitVec 10)
  /-- MULU register form (R148). -/
  | muluRR (ct : CReg) (sz : Size) (rt ra : Reg) (rb rp : Reg)
  /-- MULU Imm32 form (R148). -/
  | muluI32 (ct : CReg) (sz : Size) (rt ra : Reg) (imm : BitVec 32)
  /-- MULU Imm64 form (R148). -/
  | muluI64 (ct : CReg) (sz : Size) (rt ra : Reg) (imm : BitVec 64)
  /-- MULU Imm10 form (R148). -/
  | muluI10 (ct : CReg) (sz : Size) (rt ra : Reg) (imm : BitVec 10)
  /-- DIVU register form (R144). -/
  | divuRR (ct : CReg) (sz : Size) (rt ra : Reg) (rb rr : Reg)
  /-- DIVU Imm32 form (R144). -/
  | divuI32 (ct : CReg) (sz : Size) (rt ra : Reg) (swap : Bool) (imm : BitVec 32)
  /-- DIVU Imm64 form (R144). -/
  | divuI64 (ct : CReg) (sz : Size) (rt ra : Reg) (swap : Bool) (imm : BitVec 64)
  /-- DIVS register form (R143). -/
  | divsRR (ct : CReg) (sz : Size) (rt ra : Reg) (rb rr : Reg)
  /-- DIVS Imm32 form (R143). -/
  | divsI32 (ct : CReg) (sz : Size) (rt ra : Reg) (swap : Bool) (imm : BitVec 32)
  /-- DIVS Imm64 form (R143). -/
  | divsI64 (ct : CReg) (sz : Size) (rt ra : Reg) (swap : Bool) (imm : BitVec 64)
  /-- DIVS Imm10 form (R143). -/
  | divsI10 (ct : CReg) (sz : Size) (rt ra : Reg) (swap : Bool) (imm : BitVec 10)
  /-- AND register form (R135). -/
  | andRR (ct : CReg) (sz : Size) (rt ra : Reg) (rb : Reg)
  /-- AND Imm32 form (R135). -/
  | andI32 (ct : CReg) (sz : Size) (rt ra : Reg) (imm : BitVec 32)
  /-- AND Imm64 form (R135). -/
  | andI64 (ct : CReg) (sz : Size) (rt ra : Reg) (imm : BitVec 64)
  /-- AND Imm10 form (R135). -/
  | andI10 (ct : CReg) (sz : Size) (rt ra : Reg) (imm : BitVec 10)
  /-- OR register form (R149). -/
  | orRR (ct : CReg) (sz : Size) (rt ra : Reg) (rb : Reg)
  /-- OR Imm32 form (R149). -/
  | orI32 (ct : CReg) (sz : Size) (rt ra : Reg) (imm : BitVec 32)
  /-- OR Imm64 form (R149). -/
  | orI64 (ct : CReg) (sz : Size) (rt ra : Reg) (imm : BitVec 64)
  /-- OR Imm10 form (R149). -/
  | orI10 (ct : CReg) (sz : Size) (rt ra : Reg) (imm : BitVec 10)
  /-- EOR register form (R145). -/
  | eorRR (ct : CReg) (sz : Size) (rt ra : Reg) (rb : Reg)
  /-- EOR Imm32 form (R145). -/
  | eorI32 (ct : CReg) (sz : Size) (rt ra : Reg) (imm : BitVec 32)
  /-- EOR Imm64 form (R145). -/
  | eorI64 (ct : CReg) (sz : Size) (rt ra : Reg) (imm : BitVec 64)
  /-- EOR Imm10 form (R145). -/
  | eorI10 (ct : CReg) (sz : Size) (rt ra : Reg) (imm : BitVec 10)
  /-- BCLR register form (R192). -/
  | bclrReg (ct : CReg) (sz : Size) (rt ra rb : Reg)
  /-- BCLR Imm7 form (R192). -/
  | bclrImm (ct : CReg) (sz : Size) (rt ra : Reg) (imm : BitVec 7)
  /-- BSET register form (R197). -/
  | bsetReg (ct : CReg) (sz : Size) (rt ra rb : Reg)
  /-- BSET Imm7 form (R197). -/
  | bsetImm (ct : CReg) (sz : Size) (rt ra : Reg) (imm : BitVec 7)
  /-- BCHG register form (R193). -/
  | bchgReg (ct : CReg) (sz : Size) (rt ra rb : Reg)
  /-- BCHG Imm7 form (R193). -/
  | bchgImm (ct : CReg) (sz : Size) (rt ra : Reg) (imm : BitVec 7)
  /-- BTST register form (R198). -/
  | btstReg (ct : CReg) (sz : Size) (ra rb : Reg)
  /-- BTST Imm7 form (R198). -/
  | btstImm (ct : CReg) (sz : Size) (ra : Reg) (imm : BitVec 7)
  /-- BPCLR register form (R195). -/
  | bpclrReg (ct : CReg) (sz : Size) (rt ra rb : Reg)
  /-- BPCLR Imm7 form (R195). -/
  | bpclrImm (ct : CReg) (sz : Size) (rt ra : Reg) (imm : BitVec 7)
  /-- BPCHG register form (R194). -/
  | bpchgReg (ct : CReg) (sz : Size) (rt ra rb : Reg)
  /-- BPCHG Imm7 form (R194). -/
  | bpchgImm (ct : CReg) (sz : Size) (rt ra : Reg) (imm : BitVec 7)
  /-- BPTST register form (R196). -/
  | bptstReg (ct : CReg) (sz : Size) (ra rb : Reg)
  /-- BPTST Imm7 form (R196). -/
  | bptstImm (ct : CReg) (sz : Size) (ra : Reg) (imm : BitVec 7)
  /-- ASL register form (R212). -/
  | aslReg (ct : CReg) (sz : Size) (fill : Bool) (rt ra rb : Reg)
  /-- ASL Imm6 form (R212). -/
  | aslImm (ct : CReg) (sz : Size) (fill : Bool) (rt ra : Reg) (imm : BitVec 6)
  /-- ASR register form (R213). -/
  | asrReg (ct : CReg) (sz : Size) (rt ra rb : Reg)
  /-- ASR Imm6 form (R213). -/
  | asrImm (ct : CReg) (sz : Size) (rt ra : Reg) (imm : BitVec 6)
  /-- LSL register form (R214). -/
  | lslReg (ct : CReg) (sz : Size) (fill : Bool) (rt ra rb : Reg)
  /-- LSL Imm6 form (R214). -/
  | lslImm (ct : CReg) (sz : Size) (fill : Bool) (rt ra : Reg) (imm : BitVec 6)
  /-- LSR register form (R215). -/
  | lsrReg (ct : CReg) (sz : Size) (fill : Bool) (rt ra rb : Reg)
  /-- LSR Imm6 form (R215). -/
  | lsrImm (ct : CReg) (sz : Size) (fill : Bool) (rt ra : Reg) (imm : BitVec 6)
  /-- ROL register form (R216). -/
  | rolReg (ct : CReg) (sz : Size) (fill : Bool) (rt ra rb : Reg)
  /-- ROL Imm6 form (R216). -/
  | rolImm (ct : CReg) (sz : Size) (fill : Bool) (rt ra : Reg) (imm : BitVec 6)
  /-- ROLC register form (R217). -/
  | rolcReg (ct : CReg) (sz : Size) (fill : Bool) (rt ra rb : Reg)
  /-- ROLC Imm6 form (R217). -/
  | rolcImm (ct : CReg) (sz : Size) (fill : Bool) (rt ra : Reg) (imm : BitVec 6)
  /-- ROR register form (R218). -/
  | rorReg (ct : CReg) (sz : Size) (fill : Bool) (rt ra rb : Reg)
  /-- ROR Imm6 form (R218). -/
  | rorImm (ct : CReg) (sz : Size) (fill : Bool) (rt ra : Reg) (imm : BitVec 6)
  /-- RORC register form (R219). -/
  | rorcReg (ct : CReg) (sz : Size) (fill : Bool) (rt ra rb : Reg)
  /-- RORC Imm6 form (R219). -/
  | rorcImm (ct : CReg) (sz : Size) (fill : Bool) (rt ra : Reg) (imm : BitVec 6)
  /-- RTS #Arg, #Rpt (R241). -/
  | rts (arg : BitVec 10) (rpt : BitVec 5)
  /-- RTI #Arg, #Rpt (R239). -/
  | rti (arg : BitVec 10) (rpt : BitVec 5)
  /-- ARTI #Arg, #Rpt (R240). -/
  | arti (arg : BitVec 10) (rpt : BitVec 5)
  /-- LOAD Rt, D(Rb, Rc) (R273). -/
  | loadX (sz : Size) (rt rb rc : Reg) (d : Disp 6)
  /-- LOAD Rt, in the modes D(Rb), D(Rb)+, +D(Rb) (R273). -/
  | load (sz : Size) (md : UpdMode) (rt rb : Reg) (d : Disp 11)
  /-- LOADM, D(Rb, Rc) (R274). -/
  | loadmX (sz : Size) (skip : Bool) (list : BitVec 32) (special : BitVec 5) (rb rc : Reg) (d : Disp 6)
  /-- LOADM, the other modes (R274). -/
  | loadm (sz : Size) (md : UpdMode) (skip : Bool) (list : BitVec 32) (special : BitVec 5) (rb : Reg) (d : Disp 11)
  /-- PUSH.t Ra (R276). -/
  | pushT (ra : Reg)
  /-- PUSH.o Ra (R276). -/
  | pushO (ra : Reg)
  /-- STORE Ra, D(Rb, Rc) (R277). -/
  | storeX (sz : Size) (ra rb rc : Reg) (d : Disp 5)
  /-- STORE Ra, the other modes (R277). -/
  | store (sz : Size) (md : UpdMode) (ra rb : Reg) (d : Disp 10)
  /-- STORE #imm, D(Rb, Rc) (R278). -/
  | storeImmX (sz : Size) (imm : StoreImm) (rb rc : Reg) (d : Disp 5)
  /-- STORE #imm, the other modes (R278). -/
  | storeImm (sz : Size) (md : UpdMode) (imm : StoreImm) (rb : Reg) (d : Disp 10)
  /-- STOREM, D(Rb, Rc) (R279). -/
  | storemX (sz : Size) (skip : Bool) (list : BitVec 32) (special : BitVec 5) (rb rc : Reg) (d : Disp 5)
  /-- STOREM, the other modes (R279). -/
  | storem (sz : Size) (md : UpdMode) (skip : Bool) (list : BitVec 32) (special : BitVec 5) (rb : Reg) (d : Disp 10)
  /-- PEA D(Rb, Rc) (R275). -/
  | peaX (sz : PushSize) (rb rc : Reg) (d : Disp 5)
  /-- PEA, the other modes (R275). -/
  | pea (sz : PushSize) (md : UpdMode) (rb : Reg) (d : Disp 10)
  /-- FMA, named only; bits 31..5 have no format (R183). -/
  | fma (bits : BitVec 27)
  /-- FMS, named only; bits 31..5 have no format (R184). -/
  | fms (bits : BitVec 27)
  /-- FNMA, named only; bits 31..5 have no format (R185). -/
  | fnma (bits : BitVec 27)
  /-- FNMS, named only; bits 31..5 have no format (R186). -/
  | fnms (bits : BitVec 27)
  /-- JMP (Ra, Rb) (R237). -/
  | jmpReg (ra rb : Reg)
  /-- JMP Imm32 (Ra) (R237). -/
  | jmpI32 (ra : Reg) (imm : BitVec 32)
  /-- JMP Imm64 (Ra) (R237). -/
  | jmpI64 (ra : Reg) (imm : BitVec 64)
  /-- JMP Imm10 (Ra) (R237). -/
  | jmpI10 (ra : Reg) (imm : BitVec 10)
  /-- JSR (Ra, Rb) (R238). -/
  | jsrReg (g : Bool) (ra rb : Reg)
  /-- JSR Imm32 (Ra) (R238). -/
  | jsrI32 (g : Bool) (ra : Reg) (imm : BitVec 32)
  /-- JSR Imm64 (Ra) (R238). -/
  | jsrI64 (g : Bool) (ra : Reg) (imm : BitVec 64)
  /-- JSR Imm10 (Ra) (R238). -/
  | jsrI10 (g : Bool) (ra : Reg) (imm : BitVec 10)
  /-- LOADQ Rt, Imm17 (R146). -/
  | loadq (ct : CReg) (sz : Size) (rt : Reg) (imm : BitVec 17)
  /-- BRA label, the displacement without its two low bits (R233). -/
  | bra (disp : BitVec 22)
  /-- BSR label, the displacement without its two low bits (R235). -/
  | bsr (disp : BitVec 22)
  /-- Bcc Cn, label (R232). -/
  | bcc (cond : Cond) (cr : CReg) (disp : BitVec 19)
  /-- DBcc Cn, label (R236). -/
  | dbcc (cond : Cond) (cr : CReg) (disp : BitVec 19)
deriving DecidableEq, Repr

end Sys2Proof
end

