-- ==== Sys2Proof/WellFormed.lean ====
section
/-! DEFINITION. Which terms of `Instr` are instructions the encoding can express (`spec/30_encoding.md`): the operand
values that an escape takes away, and the words that an earlier row of the opcode table claims. -/

namespace Sys2Proof

/-- R94: `Imm10` cannot have 16 or 17 in its high five bits; they select the Imm32 and Imm64 forms. -/
def wfImm10 (imm : BitVec 10) : Bool :=
  imm.extractLsb' 5 5 != 16#5 && imm.extractLsb' 5 5 != 17#5

/-- R114: the high part of a short displacement must be none of the escapes 0x80, 0x81, 0x82. -/
def wfDispHigh (high : BitVec 8) : Bool :=
  high != 0x80#8 && high != 0x81#8 && high != 0x82#8

/-- The displacement of LOAD and LOADM outside the indexed mode (R108, R114). -/
def Disp.wf11 : Disp 11 → Bool
  | .short d => wfDispHigh (d.extractLsb' 3 8)
  | .ext32 _ => true
  | .ext64 _ => true

/-- The displacement of the STORE family outside the indexed mode (R110, R114). -/
def Disp.wf10 : Disp 10 → Bool
  | .short d => wfDispHigh (d.extractLsb' 2 8)
  | .ext32 _ => true
  | .ext64 _ => true

/-- The displacement of LOAD and LOADM in the indexed mode (R109): 32, 33 and 34 are escapes. -/
def Disp.wfIndexed6 : Disp 6 → Bool
  | .short d => d != 32#6 && d != 33#6 && d != 34#6
  | .ext32 _ => true
  | .ext64 _ => true

/-- The displacement of the STORE family in the indexed mode (R110): 16, 17 and 18 are escapes. -/
def Disp.wfIndexed5 : Disp 5 → Bool
  | .short d => d != 16#5 && d != 17#5 && d != 18#5
  | .ext32 _ => true
  | .ext64 _ => true

/-- The immediate of STORE #imm (R111): 16, 17 and 18 are escapes. -/
def StoreImm.wf : StoreImm → Bool
  | .short i => i != 16#5 && i != 17#5 && i != 18#5
  | .ext32 _ => true
  | .ext64 _ => true

/-- R116: a CSR number field of zero says that the number is in the next word. -/
def CsrNum.wf : CsrNum → Bool
  | .field n => n != 0#7
  | .extended _ => true

/-- R104: TRAP r0, r0, #0 is the all-zero word, which is BRK. -/
def isBrkWord (data : BitVec 11) (rt ra : Reg) : Bool :=
  data == 0#11 && rt == 0#5 && ra == 0#5

/-- R122: STORE in mode `+D(Rn)` on register 31 with displacement -4 (`.t`) or -8 (`.o`) is PUSH. -/
def isPush (sz : Size) (md : UpdMode) (rb : Reg) (d : Disp 10) : Bool :=
  md == .preUpdate && rb == 31#5 &&
    ((sz == .t && d == .short 0x3FC#10) || (sz == .o && d == .short 0x3F8#10))

/-- The instructions that have a word: exactly those the decoder can read back (see the round trip obligation). -/
def Instr.wellFormed : Instr → Bool
  | .brk => true
  | .trapReg data rt ra => isBrkWord data rt ra == false
  | .trapImm _ _ _ => true
  | .trapv _ _ _ => true
  | .atrapReg _ _ _ => true
  | .atrapImm _ _ _ => true
  | .swap _ _ _ _ => true
  | .abs _ _ _ => true
  | .moveFromCsr csr _ => csr.wf
  | .moveToCsr csr _ => csr.wf
  | .orCsr csr _ => csr.wf
  | .andcCsr csr _ => csr.wf
  | .eorCsr csr _ => csr.wf
  | .cmpRR _ _ _ _ => true
  | .cmpI32 _ _ _ _ _ => true
  | .cmpI64 _ _ _ _ _ => true
  | .cmpI10 _ _ _ _ imm => wfImm10 imm
  | .fcmpRR _ _ _ _ => true
  | .fcmpI32 _ _ _ _ _ => true
  | .fcmpI64 _ _ _ _ _ => true
  | .fcmpI10 _ _ _ _ imm => wfImm10 imm
  | .adcRR _ _ _ _ _ => true
  | .adcI32 _ _ _ _ _ => true
  | .adcI64 _ _ _ _ _ => true
  | .adcI10 _ _ _ _ imm => wfImm10 imm
  | .addRR _ _ _ _ _ => true
  | .addI32 _ _ _ _ _ => true
  | .addI64 _ _ _ _ _ => true
  | .addI10 _ _ _ _ imm => wfImm10 imm
  | .subRR _ _ _ _ _ => true
  | .subI32 _ _ _ _ _ _ => true
  | .subI64 _ _ _ _ _ _ => true
  | .subI10 _ _ _ _ _ imm => wfImm10 imm
  | .mulsRR _ _ _ _ _ _ => true
  | .mulsI32 _ _ _ _ _ => true
  | .mulsI64 _ _ _ _ _ => true
  | .mulsI10 _ _ _ _ imm => wfImm10 imm
  | .muluRR _ _ _ _ _ _ => true
  | .muluI32 _ _ _ _ _ => true
  | .muluI64 _ _ _ _ _ => true
  | .muluI10 _ _ _ _ imm => wfImm10 imm
  | .divuRR _ _ _ _ _ _ => true
  | .divuI32 _ _ _ _ _ _ => true
  | .divuI64 _ _ _ _ _ _ => true
  | .divsRR _ _ _ _ _ _ => true
  | .divsI32 _ _ _ _ _ _ => true
  | .divsI64 _ _ _ _ _ _ => true
  | .divsI10 _ _ _ _ _ imm => wfImm10 imm
  | .andRR _ _ _ _ _ => true
  | .andI32 _ _ _ _ _ => true
  | .andI64 _ _ _ _ _ => true
  | .andI10 _ _ _ _ imm => wfImm10 imm
  | .orRR _ _ _ _ _ => true
  | .orI32 _ _ _ _ _ => true
  | .orI64 _ _ _ _ _ => true
  | .orI10 _ _ _ _ imm => wfImm10 imm
  | .eorRR _ _ _ _ _ => true
  | .eorI32 _ _ _ _ _ => true
  | .eorI64 _ _ _ _ _ => true
  | .eorI10 _ _ _ _ imm => wfImm10 imm
  | .bclrReg _ _ _ _ _ => true
  | .bclrImm _ _ _ _ _ => true
  | .bsetReg _ _ _ _ _ => true
  | .bsetImm _ _ _ _ _ => true
  | .bchgReg _ _ _ _ _ => true
  | .bchgImm _ _ _ _ _ => true
  | .btstReg _ _ _ _ => true
  | .btstImm _ _ _ _ => true
  | .bpclrReg _ _ _ _ _ => true
  | .bpclrImm _ _ _ _ _ => true
  | .bpchgReg _ _ _ _ _ => true
  | .bpchgImm _ _ _ _ _ => true
  | .bptstReg _ _ _ _ => true
  | .bptstImm _ _ _ _ => true
  | .aslReg _ _ _ _ _ _ => true
  | .aslImm _ _ _ _ _ _ => true
  | .asrReg _ _ _ _ _ => true
  | .asrImm _ _ _ _ _ => true
  | .lslReg _ _ _ _ _ _ => true
  | .lslImm _ _ _ _ _ _ => true
  | .lsrReg _ _ _ _ _ _ => true
  | .lsrImm _ _ _ _ _ _ => true
  | .rolReg _ _ _ _ _ _ => true
  | .rolImm _ _ _ _ _ _ => true
  | .rolcReg _ _ _ _ _ _ => true
  | .rolcImm _ _ _ _ _ _ => true
  | .rorReg _ _ _ _ _ _ => true
  | .rorImm _ _ _ _ _ _ => true
  | .rorcReg _ _ _ _ _ _ => true
  | .rorcImm _ _ _ _ _ _ => true
  | .rts _ _ => true
  | .rti _ _ => true
  | .arti _ _ => true
  | .loadX _ _ _ _ d => d.wfIndexed6
  | .load _ _ _ _ d => d.wf11
  | .loadmX _ _ _ _ _ _ d => d.wfIndexed6
  | .loadm _ _ _ _ _ _ d => d.wf11
  | .pushT _ => true
  | .pushO _ => true
  | .storeX _ _ _ _ d => d.wfIndexed5
  | .store sz md _ rb d => d.wf10 && !isPush sz md rb d
  | .storeImmX _ imm _ _ d => imm.wf && d.wfIndexed5
  | .storeImm _ _ imm _ d => imm.wf && d.wf10
  | .storemX _ _ _ _ _ _ d => d.wfIndexed5
  | .storem _ _ _ _ _ _ d => d.wf10
  | .peaX _ _ _ d => d.wfIndexed5
  | .pea _ _ _ d => d.wf10
  | .fma _ => true
  | .fms _ => true
  | .fnma _ => true
  | .fnms _ => true
  | .jmpReg _ _ => true
  | .jmpI32 _ _ => true
  | .jmpI64 _ _ => true
  | .jmpI10 _ imm => wfImm10 imm
  | .jsrReg _ _ _ => true
  | .jsrI32 _ _ _ => true
  | .jsrI64 _ _ _ => true
  | .jsrI10 _ _ imm => wfImm10 imm
  | .loadq _ _ _ _ => true
  | .bra _ => true
  | .bsr _ => true
  | .bcc cond _ _ => cond != .ra && cond != .sr
  | .dbcc _ _ _ => true

end Sys2Proof
end

