-- ==== Sys2Proof/Decode.lean ====
section
/-! DEFINITION. The decoder and the encoder (`spec/30_encoding.md`).

A first word is cut once into the fields of its layout: `Fields` for the layout that most formats share, `BranchFields`
for ops 28 and 29, `LegacyFields` for ABS and the CSR operations. Decoding works on the fields; encoding puts fields
together. `decodeWord` is total: a word gives an instruction or a reason by name (R117, R118). -/

namespace Sys2Proof

/-! ## The three layouts of a first word -/

/-- The layout of the formats RR, RI10, RI32, RI64, CMP, BIT, SH, LQ, TR, RT, JP and of the memory formats (R93 to R113,
R125), named as in format RR: bits 31..29, 28..24, 23, 22..18, 17, 16..12, 11..7, 6..5, 4..0. The other formats cut or join
these fields further. -/
structure Fields where
  ct  : BitVec 3
  hi  : BitVec 5
  b23 : Bool
  rb  : BitVec 5
  b17 : Bool
  ra  : BitVec 5
  rt  : BitVec 5
  sz  : BitVec 2
  op  : BitVec 5
deriving DecidableEq, Repr

/-- Cuts a word into the fields of the shared layout. -/
def Fields.ofWord (w : InsnWord) : Fields where
  ct  := w.extractLsb' 29 3
  hi  := w.extractLsb' 24 5
  b23 := w.getLsbD 23
  rb  := w.extractLsb' 18 5
  b17 := w.getLsbD 17
  ra  := w.extractLsb' 12 5
  rt  := w.extractLsb' 7 5
  sz  := w.extractLsb' 5 2
  op  := w.extractLsb' 0 5

/-- Joins the fields of the shared layout into a word. -/
def Fields.word (f : Fields) : InsnWord :=
  f.ct ++ f.hi ++ BitVec.ofBool f.b23 ++ f.rb ++ BitVec.ofBool f.b17 ++ f.ra ++ f.rt ++ f.sz ++ f.op

/-- The layout of format BR (R105): bits 31..13, 12..10, 9..5, 4..0. -/
structure BranchFields where
  disp : BitVec 19
  cr   : BitVec 3
  cond : BitVec 5
  op   : BitVec 5
deriving DecidableEq, Repr

/-- Cuts a word into the fields of format BR. -/
def BranchFields.ofWord (w : InsnWord) : BranchFields where
  disp := w.extractLsb' 13 19
  cr   := w.extractLsb' 10 3
  cond := w.extractLsb' 5 5
  op   := w.extractLsb' 0 5

/-- Joins the fields of format BR into a word. -/
def BranchFields.word (f : BranchFields) : InsnWord :=
  f.disp ++ f.cr ++ f.cond ++ f.op

/-- The older layout of ABS and the CSR operations (R115, R116): bits 31..27, 26, 25..21, 20..18, 17..8, 7..6, 5, 4..0.
Bits 17..8 are the function code and `Rt` of ABS, and `CSRt` and `Op3` of a CSR operation. -/
structure LegacyFields where
  rc   : BitVec 5
  b26  : Bool
  rb   : BitVec 5
  mode : BitVec 3
  mid  : BitVec 10
  sz   : BitVec 2
  b5   : Bool
  op   : BitVec 5
deriving DecidableEq, Repr

/-- Cuts a word into the fields of the older layout. -/
def LegacyFields.ofWord (w : InsnWord) : LegacyFields where
  rc   := w.extractLsb' 27 5
  b26  := w.getLsbD 26
  rb   := w.extractLsb' 21 5
  mode := w.extractLsb' 18 3
  mid  := w.extractLsb' 8 10
  sz   := w.extractLsb' 6 2
  b5   := w.getLsbD 5
  op   := w.extractLsb' 0 5

/-- Joins the fields of the older layout into a word. -/
def LegacyFields.word (f : LegacyFields) : InsnWord :=
  f.rc ++ BitVec.ofBool f.b26 ++ f.rb ++ f.mode ++ f.mid ++ f.sz ++ BitVec.ofBool f.b5 ++ f.op

/-! ## Codes of sizes, conditions and modes -/

/-- The 2-bit size code of R92. -/
def Size.code : Size → BitVec 2
  | .b => 0#2
  | .w => 1#2
  | .t => 2#2
  | .o => 3#2

/-- The size a 2-bit code names (R92). -/
def Size.ofCode (c : BitVec 2) : Size :=
  match c.toNat with
  | 0 => .b
  | 1 => .w
  | 2 => .t
  | _ => .o

/-- The size code of a SWAP (R220). -/
def HalfSize.code : HalfSize → BitVec 2
  | .b => 0#2
  | .w => 1#2
  | .t => 2#2

/-- The half size a code names; 3 is not supported (R92). -/
def HalfSize.ofCode (c : BitVec 2) : Option HalfSize :=
  match c.toNat with
  | 0 => some .b
  | 1 => some .w
  | 2 => some .t
  | _ => none

/-- The size code of a PEA (R275). -/
def PushSize.code : PushSize → BitVec 2
  | .t => 2#2
  | .o => 3#2

/-- The push size a code names; 0 and 1 are not supported (R92). -/
def PushSize.ofCode (c : BitVec 2) : Option PushSize :=
  match c.toNat with
  | 2 => some .t
  | 3 => some .o
  | _ => none

/-- The 5-bit code of a condition (R230). -/
def Cond.code : Cond → BitVec 5
  | .ra => 0x00#5
  | .sr => 0x01#5
  | .hi => 0x02#5
  | .ls => 0x03#5
  | .cc => 0x04#5
  | .cs => 0x05#5
  | .ne => 0x06#5
  | .eq => 0x07#5
  | .vc => 0x08#5
  | .vs => 0x09#5
  | .pl => 0x0A#5
  | .mi => 0x0B#5
  | .ge => 0x0C#5
  | .lt => 0x0D#5
  | .gt => 0x0E#5
  | .le => 0x0F#5
  | .fOr => 0x10#5
  | .fUn => 0x11#5
  | .fGt => 0x12#5
  | .fLe => 0x13#5
  | .fGe => 0x14#5
  | .fLt => 0x15#5
  | .fNe => 0x16#5
  | .fEq => 0x17#5

/-- The condition a code names; 0x18 to 0x1F name none (R230). -/
def Cond.ofCode (c : BitVec 5) : Option Cond :=
  match c.toNat with
  | 0x00 => some .ra
  | 0x01 => some .sr
  | 0x02 => some .hi
  | 0x03 => some .ls
  | 0x04 => some .cc
  | 0x05 => some .cs
  | 0x06 => some .ne
  | 0x07 => some .eq
  | 0x08 => some .vc
  | 0x09 => some .vs
  | 0x0A => some .pl
  | 0x0B => some .mi
  | 0x0C => some .ge
  | 0x0D => some .lt
  | 0x0E => some .gt
  | 0x0F => some .le
  | 0x10 => some .fOr
  | 0x11 => some .fUn
  | 0x12 => some .fGt
  | 0x13 => some .fLe
  | 0x14 => some .fGe
  | 0x15 => some .fLt
  | 0x16 => some .fNe
  | 0x17 => some .fEq
  | _ => none

/-- The 2-bit `Md` of LOAD and LOADM (R108). -/
def UpdMode.code2 : UpdMode → BitVec 2
  | .indirect => 0#2
  | .postUpdate => 1#2
  | .preUpdate => 2#2

/-- The 3-bit `Md` of the STORE family (R110). -/
def UpdMode.code3 : UpdMode → BitVec 3
  | .indirect => 1#3
  | .postUpdate => 2#3
  | .preUpdate => 3#3

/-! ## Reasons a word is no instruction -/

/-- Why a word gives no instruction. The first two raise Unimplemented Instruction (R118); the others are refused
(R117). -/
inductive Reject where
  /-- An unassigned encoding (R118). -/
  | unassigned
  /-- An operand size outside the instruction's list (R92). -/
  | unsupportedSize
  /-- A bit drawn `~` is 1 under STRICT_RESERVED (R117 a). -/
  | reservedField
  /-- `Rc` or bit 26 of the older layout is not zero (R115, R116). -/
  | legacyRegister
  /-- An address mode of the older layout other than register direct (R115, R116). -/
  | legacyMode
  /-- The `T` bit of JMP or JSR (R237). -/
  | callTargetBit
  /-- A `Sz` of JMP or JSR other than 3 (R237). -/
  | jumpSize
  /-- The `C` bit of LOAD or STORE (R108, D42). -/
  | cacheBit
  /-- A reserved escape value (R114, R278). -/
  | reservedEscape
  /-- Low displacement bits that are not zero beside an escape (R114, D51). -/
  | lowDisplacement
  /-- A mode of the STORE family that is not supported (R110). -/
  | unsupportedMode
  /-- Fewer words than the first one calls for (only where words are given as a list). -/
  | truncated
deriving DecidableEq, Repr

/-- What the decoder answers. -/
inductive Decoded where
  | instr (i : Instr)
  | reject (r : Reject)
deriving DecidableEq, Repr

/-- Rejects for reason `r` where `bad` holds, and goes on to `k` otherwise. -/
def rejectIf (bad : Bool) (r : Reject) (k : Decoded) : Decoded :=
  if bad then .reject r else k

/-- The instruction where there is one, else the rejection `r`. -/
def Decoded.ofOption (r : Reject) : Option Instr → Decoded
  | some i => .instr i
  | none => .reject r

/-! ## Extension words (R96) -/

/-- The k-th extension word. -/
def extWord (ext : List InsnWord) (k : Nat) : BitVec 32 := ext.getD k 0#32

/-- The 64-bit quantity in two extension words, low half first (R96). -/
def extPair (ext : List InsnWord) (k : Nat) : BitVec 64 := extWord ext (k + 1) ++ extWord ext k

/-- The two words of a 64-bit quantity, low half first (R96). -/
def words64 (v : BitVec 64) : List InsnWord := [v.extractLsb' 0 32, v.extractLsb' 32 32]

/-! ## Operand fields -/

/-- Which operand form the word of an ALU format has (R93 to R95). -/
inductive Form where
  | reg | imm32 | imm64 | imm10
deriving DecidableEq, Repr

/-- The operand form: bit 17, and the escapes 16 and 17 in bits 28..24 (R94, R95). -/
def Fields.form (f : Fields) : Form :=
  if f.b17 then
    if f.hi = 16#5 then .imm32 else if f.hi = 17#5 then .imm64 else .imm10
  else .reg

/-- `Data[10:0]` of the trap formats, bits 28..18 (R104). -/
def Fields.data11 (f : Fields) : BitVec 11 := f.hi ++ BitVec.ofBool f.b23 ++ f.rb

/-- `Imm17` of LOADQ, bits 28..12 (R103). -/
def Fields.imm17 (f : Fields) : BitVec 17 :=
  f.hi ++ BitVec.ofBool f.b23 ++ f.rb ++ BitVec.ofBool f.b17 ++ f.ra

/-- The displacement of LOAD and LOADM outside the indexed mode from its high eight and low three bits (R108, R114);
`k` is where its extension words start. -/
def decodeDisp11 (high : BitVec 8) (low : BitVec 3) (ext : List InsnWord) (k : Nat) : Except Reject (Disp 11) :=
  if high = 0x80#8 then
    if low = 0#3 then .ok (.ext32 (extWord ext k)) else .error .lowDisplacement
  else if high = 0x81#8 then
    if low = 0#3 then .ok (.ext64 (extPair ext k)) else .error .lowDisplacement
  else if high = 0x82#8 then .error .reservedEscape
  else .ok (.short (high ++ low))

/-- The displacement of the STORE family outside the indexed mode (R110, R114). -/
def decodeDisp10 (high : BitVec 8) (low : BitVec 2) (ext : List InsnWord) (k : Nat) : Except Reject (Disp 10) :=
  if high = 0x80#8 then
    if low = 0#2 then .ok (.ext32 (extWord ext k)) else .error .lowDisplacement
  else if high = 0x81#8 then
    if low = 0#2 then .ok (.ext64 (extPair ext k)) else .error .lowDisplacement
  else if high = 0x82#8 then .error .reservedEscape
  else .ok (.short (high ++ low))

/-- The displacement of LOAD and LOADM in the indexed mode (R109): the escapes are 32 and 33, and 34 is reserved. -/
def decodeDisp6 (d : BitVec 6) (ext : List InsnWord) (k : Nat) : Except Reject (Disp 6) :=
  if d = 32#6 then .ok (.ext32 (extWord ext k))
  else if d = 33#6 then .ok (.ext64 (extPair ext k))
  else if d = 34#6 then .error .reservedEscape
  else .ok (.short d)

/-- The displacement of the STORE family in the indexed mode (R110): the escapes are 16 and 17, and 18 is reserved. -/
def decodeDisp5 (d : BitVec 5) (ext : List InsnWord) (k : Nat) : Except Reject (Disp 5) :=
  if d = 16#5 then .ok (.ext32 (extWord ext k))
  else if d = 17#5 then .ok (.ext64 (extPair ext k))
  else if d = 18#5 then .error .reservedEscape
  else .ok (.short d)

/-- The immediate of STORE #imm (R111, R278); its extension words come before the displacement's. -/
def decodeStoreImm (i : BitVec 5) (ext : List InsnWord) : Except Reject StoreImm :=
  if i = 16#5 then .ok (.ext32 (extWord ext 0))
  else if i = 17#5 then .ok (.ext64 (extPair ext 0))
  else if i = 18#5 then .error .reservedEscape
  else .ok (.short i)

/-- How many extension words a displacement takes (R120). -/
def Disp.extWords {n : Nat} : Disp n → Nat
  | .short _ => 0
  | .ext32 _ => 1
  | .ext64 _ => 2

/-- How many extension words an immediate of STORE #imm takes (R120). -/
def StoreImm.extWords : StoreImm → Nat
  | .short _ => 0
  | .ext32 _ => 1
  | .ext64 _ => 2

/-- Goes on with a decoded operand, or rejects. -/
def withOperand {α : Type} (x : Except Reject α) (k : α → Decoded) : Decoded :=
  match x with
  | .ok a => k a
  | .error r => .reject r

/-! ## The groups of the opcode map (R91, R119) -/

/-- Op 0, format TR (R104). -/
def decodeTrap (strict : Bool) (f : Fields) : Decoded :=
  match f.sz.toNat with
  | 0 =>
    if f.b17 then .instr (.trapImm (f.ct ++ f.ra) f.data11 f.rt)
    else rejectIf (strict && f.ct != 0#3) .reservedField
      (if isBrkWord f.data11 f.rt f.ra then .instr .brk else .instr (.trapReg f.data11 f.rt f.ra))
  | 2 =>
    if f.b17 && f.ra == 31#5 then .instr (.trapv f.ct f.data11 f.rt) else .reject .unassigned
  | 3 =>
    rejectIf (strict && f.ct != 0#3) .reservedField
      (if f.b17 then .instr (.atrapImm f.ra f.data11 f.rt) else .instr (.atrapReg f.data11 f.rt f.ra))
  | _ => .reject .unassigned

/-- ABS, op 1 with bit 26 = 1 (R115). -/
def decodeAbs (g : LegacyFields) : Decoded :=
  if g.b5 || g.mid.extractLsb' 5 5 != 6#5 then .reject .unassigned
  else rejectIf (g.rc != 0#5) .legacyRegister
    (rejectIf (g.mode != 0#3) .legacyMode
      (.instr (.abs (Size.ofCode g.sz) (g.mid.extractLsb' 0 5) g.rb)))

/-- SWAP, op 1 with bit 26 = 0 (R93, R220). -/
def decodeSwap (strict : Bool) (f : Fields) : Decoded :=
  if f.b23 || f.b17 || f.rb != 16#5 then .reject .unassigned
  else rejectIf (strict && f.hi != 0#5) .reservedField
    (.ofOption .unsupportedSize ((HalfSize.ofCode f.sz).map fun sz => .swap f.ct sz f.rt f.ra))

/-- The CSR number of a CSR operation: the 7-bit field, or the extension word where it is zero (R116). -/
def decodeCsrNum (n : BitVec 7) (ext : List InsnWord) : CsrNum :=
  if n = 0#7 then .extended (extWord ext 0) else .field n

/-- Op 2, format CSRL (R116). A size other than octa is an unassigned encoding (R118). -/
def decodeCsr (g : LegacyFields) (ext : List InsnWord) : Decoded :=
  if g.b5 || g.sz != 3#2 then .reject .unassigned
  else
    let csr := decodeCsrNum (g.mid.extractLsb' 3 7) ext
    let checked (i : Instr) : Decoded :=
      rejectIf (g.rc != 0#5 || g.b26) .legacyRegister (rejectIf (g.mode != 0#3) .legacyMode (.instr i))
    match (g.mid.extractLsb' 0 3).toNat with
    | 0 => checked (.moveFromCsr csr g.rb)
    | 1 => checked (.moveToCsr csr g.rb)
    | 2 => checked (.orCsr csr g.rb)
    | 3 => checked (.andcCsr csr g.rb)
    | 4 => checked (.eorCsr csr g.rb)
    | _ => .reject .unassigned

/-- The three immediate forms of an ALU format (R94, R95); `unused` says that a `~` field the three share is not zero.
In the register form the answer is `reg`. -/
def decodeForms (strict : Bool) (f : Fields) (ext : List InsnWord) (unused : Bool) (reg : Decoded)
    (i32 : BitVec 32 → Instr) (i64 : BitVec 64 → Instr) (i10 : BitVec 10 → Instr) : Decoded :=
  match f.form with
  | .reg => reg
  | .imm32 => rejectIf (strict && (unused || f.rb != 0#5)) .reservedField (.instr (i32 (extWord ext 0)))
  | .imm64 => rejectIf (strict && (unused || f.rb != 0#5)) .reservedField (.instr (i64 (extPair ext 0)))
  | .imm10 => rejectIf (strict && unused) .reservedField (.instr (i10 (f.hi ++ f.rb)))

/-- The register form of an ALU format whose bits 28..24 are unused (R93). -/
def decodeReg (strict : Bool) (f : Fields) (i : Instr) : Decoded :=
  rejectIf (strict && f.hi != 0#5) .reservedField (.instr i)

/-- Op 3, CMP and FCMP (R100). -/
def decodeCompare (strict : Bool) (f : Fields) (ext : List InsnWord) : Decoded :=
  let sz := Size.ofCode f.sz
  let unused := f.rt.extractLsb' 1 4 != 0#4
  if f.rt.getLsbD 0 then
    decodeForms strict f ext unused
      (if f.b23 then .reject .unassigned
       else rejectIf (strict && unused) .reservedField (decodeReg strict f (.fcmpRR f.ct sz f.ra f.rb)))
      (.fcmpI32 f.ct sz f.ra f.b23) (.fcmpI64 f.ct sz f.ra f.b23) (.fcmpI10 f.ct sz f.ra f.b23)
  else
    decodeForms strict f ext unused
      (if f.b23 then .reject .unassigned
       else rejectIf (strict && unused) .reservedField (decodeReg strict f (.cmpRR f.ct sz f.ra f.rb)))
      (.cmpI32 f.ct sz f.ra f.b23) (.cmpI64 f.ct sz f.ra f.b23) (.cmpI10 f.ct sz f.ra f.b23)

/-- Op 4, ADD and ADC by bit 23 (R93, R94). -/
def decodeAdd (strict : Bool) (f : Fields) (ext : List InsnWord) : Decoded :=
  let sz := Size.ofCode f.sz
  if f.b23 then
    decodeForms strict f ext false (decodeReg strict f (.adcRR f.ct sz f.rt f.ra f.rb))
      (.adcI32 f.ct sz f.rt f.ra) (.adcI64 f.ct sz f.rt f.ra) (.adcI10 f.ct sz f.rt f.ra)
  else
    decodeForms strict f ext false (decodeReg strict f (.addRR f.ct sz f.rt f.ra f.rb))
      (.addI32 f.ct sz f.rt f.ra) (.addI64 f.ct sz f.rt f.ra) (.addI10 f.ct sz f.rt f.ra)

/-- Op 5, SUB; bit 23 is the swap bit of the immediate forms and 0 in the register form (R93, R99). -/
def decodeSub (strict : Bool) (f : Fields) (ext : List InsnWord) : Decoded :=
  let sz := Size.ofCode f.sz
  decodeForms strict f ext false
    (if f.b23 then .reject .unassigned else decodeReg strict f (.subRR f.ct sz f.rt f.ra f.rb))
    (.subI32 f.ct sz f.rt f.ra f.b23) (.subI64 f.ct sz f.rt f.ra f.b23) (.subI10 f.ct sz f.rt f.ra f.b23)

/-- Op 6, MULS and MULU by bit 23; bits 28..24 of the register form are `Rp` (R93). -/
def decodeMul (strict : Bool) (f : Fields) (ext : List InsnWord) : Decoded :=
  let sz := Size.ofCode f.sz
  if f.b23 then
    decodeForms strict f ext false (.instr (.muluRR f.ct sz f.rt f.ra f.rb f.hi))
      (.muluI32 f.ct sz f.rt f.ra) (.muluI64 f.ct sz f.rt f.ra) (.muluI10 f.ct sz f.rt f.ra)
  else
    decodeForms strict f ext false (.instr (.mulsRR f.ct sz f.rt f.ra f.rb f.hi))
      (.mulsI32 f.ct sz f.rt f.ra) (.mulsI64 f.ct sz f.rt f.ra) (.mulsI10 f.ct sz f.rt f.ra)

/-- Op 7, DIVS and DIVU: by bit 23 in the register form, by bits 22..18 in RI32 and RI64; RI10 is DIVS (R94, R95). -/
def decodeDiv (f : Fields) (ext : List InsnWord) : Decoded :=
  let sz := Size.ofCode f.sz
  match f.form with
  | .reg =>
    if f.b23 then .instr (.divuRR f.ct sz f.rt f.ra f.rb f.hi) else .instr (.divsRR f.ct sz f.rt f.ra f.rb f.hi)
  | .imm32 =>
    if f.rb = 0#5 then .instr (.divsI32 f.ct sz f.rt f.ra f.b23 (extWord ext 0))
    else if f.rb = 1#5 then .instr (.divuI32 f.ct sz f.rt f.ra f.b23 (extWord ext 0))
    else .reject .unassigned
  | .imm64 =>
    if f.rb = 0#5 then .instr (.divsI64 f.ct sz f.rt f.ra f.b23 (extPair ext 0))
    else if f.rb = 1#5 then .instr (.divuI64 f.ct sz f.rt f.ra f.b23 (extPair ext 0))
    else .reject .unassigned
  | .imm10 => .instr (.divsI10 f.ct sz f.rt f.ra f.b23 (f.hi ++ f.rb))

/-- Op 8, AND; bit 23 must be 0 in every form (R118). -/
def decodeAnd (strict : Bool) (f : Fields) (ext : List InsnWord) : Decoded :=
  let sz := Size.ofCode f.sz
  if f.b23 then .reject .unassigned
  else decodeForms strict f ext false (decodeReg strict f (.andRR f.ct sz f.rt f.ra f.rb))
    (.andI32 f.ct sz f.rt f.ra) (.andI64 f.ct sz f.rt f.ra) (.andI10 f.ct sz f.rt f.ra)

/-- Op 9, OR; bit 23 must be 0 in every form (R118). -/
def decodeOr (strict : Bool) (f : Fields) (ext : List InsnWord) : Decoded :=
  let sz := Size.ofCode f.sz
  if f.b23 then .reject .unassigned
  else decodeForms strict f ext false (decodeReg strict f (.orRR f.ct sz f.rt f.ra f.rb))
    (.orI32 f.ct sz f.rt f.ra) (.orI64 f.ct sz f.rt f.ra) (.orI10 f.ct sz f.rt f.ra)

/-- Op 10, EOR (XOR in the opcode map); bit 23 must be 0 in every form (R118). -/
def decodeEor (strict : Bool) (f : Fields) (ext : List InsnWord) : Decoded :=
  let sz := Size.ofCode f.sz
  if f.b23 then .reject .unassigned
  else decodeForms strict f ext false (decodeReg strict f (.eorRR f.ct sz f.rt f.ra f.rb))
    (.eorI32 f.ct sz f.rt f.ra) (.eorI64 f.ct sz f.rt f.ra) (.eorI10 f.ct sz f.rt f.ra)

/-- The register form or the Imm7 form of a BIT instruction (R101); `unused` says that a `~` field of both is not zero. -/
def decodeBitForms (strict : Bool) (f : Fields) (unused : Bool) (reg : Instr) (imm : BitVec 7 → Instr) : Decoded :=
  if f.b17 then rejectIf (strict && unused) .reservedField (.instr (imm (f.hi.extractLsb' 0 2 ++ f.rb)))
  else rejectIf (strict && (unused || f.hi.extractLsb' 0 2 != 0#2)) .reservedField (.instr reg)

/-- Op 13, the BIT group by bits 28..26 (R101). -/
def decodeBit (strict : Bool) (f : Fields) : Decoded :=
  let sz := Size.ofCode f.sz
  if f.b23 then .reject .unassigned
  else match (f.hi.extractLsb' 2 3).toNat with
    | 0 => decodeBitForms strict f false (.bclrReg f.ct sz f.rt f.ra f.rb) (.bclrImm f.ct sz f.rt f.ra)
    | 1 => decodeBitForms strict f false (.bsetReg f.ct sz f.rt f.ra f.rb) (.bsetImm f.ct sz f.rt f.ra)
    | 2 => decodeBitForms strict f false (.bchgReg f.ct sz f.rt f.ra f.rb) (.bchgImm f.ct sz f.rt f.ra)
    | 3 => decodeBitForms strict f (f.rt != 0#5) (.btstReg f.ct sz f.ra f.rb) (.btstImm f.ct sz f.ra)
    | 4 => decodeBitForms strict f false (.bpclrReg f.ct sz f.rt f.ra f.rb) (.bpclrImm f.ct sz f.rt f.ra)
    | 6 => decodeBitForms strict f false (.bpchgReg f.ct sz f.rt f.ra f.rb) (.bpchgImm f.ct sz f.rt f.ra)
    | 7 => decodeBitForms strict f (f.rt != 0#5) (.bptstReg f.ct sz f.ra f.rb) (.bptstImm f.ct sz f.ra)
    | _ => .reject .unassigned

/-- The register form or the Imm6 form of a shift (R102): bit 26 is unused in both, bit 24 in the register form. -/
def decodeShiftForms (strict : Bool) (f : Fields) (unused : Bool) (reg : Instr) (imm : BitVec 6 → Instr) : Decoded :=
  if f.b17 then
    rejectIf (strict && (unused || f.hi.getLsbD 2)) .reservedField
      (.instr (imm (BitVec.ofBool (f.hi.getLsbD 0) ++ f.rb)))
  else rejectIf (strict && (unused || f.hi.getLsbD 2 || f.hi.getLsbD 0)) .reservedField (.instr reg)

/-- Op 14, shifts and rotates by bits 28..27 and the direction bit 23 (R102). ASR has no `N`; its bit 25 is unused. -/
def decodeShift (strict : Bool) (f : Fields) : Decoded :=
  let sz := Size.ofCode f.sz
  let fill := f.hi.getLsbD 1
  match (f.hi.extractLsb' 3 2).toNat, f.b23 with
  | 0, false => decodeShiftForms strict f false (.aslReg f.ct sz fill f.rt f.ra f.rb) (.aslImm f.ct sz fill f.rt f.ra)
  | 0, true => decodeShiftForms strict f fill (.asrReg f.ct sz f.rt f.ra f.rb) (.asrImm f.ct sz f.rt f.ra)
  | 1, false => decodeShiftForms strict f false (.lslReg f.ct sz fill f.rt f.ra f.rb) (.lslImm f.ct sz fill f.rt f.ra)
  | 1, true => decodeShiftForms strict f false (.lsrReg f.ct sz fill f.rt f.ra f.rb) (.lsrImm f.ct sz fill f.rt f.ra)
  | 2, false => decodeShiftForms strict f false (.rolReg f.ct sz fill f.rt f.ra f.rb) (.rolImm f.ct sz fill f.rt f.ra)
  | 2, true => decodeShiftForms strict f false (.rorReg f.ct sz fill f.rt f.ra f.rb) (.rorImm f.ct sz fill f.rt f.ra)
  | _, false => decodeShiftForms strict f false (.rolcReg f.ct sz fill f.rt f.ra f.rb) (.rolcImm f.ct sz fill f.rt f.ra)
  | _, true => decodeShiftForms strict f false (.rorcReg f.ct sz fill f.rt f.ra f.rb) (.rorcImm f.ct sz fill f.rt f.ra)

/-- Op 15, the returns by bits 28..24 (R106). -/
def decodeReturn (strict : Bool) (f : Fields) : Decoded :=
  let checked (i : Instr) : Decoded := rejectIf (strict && (f.ct != 0#3 || f.sz != 0#2)) .reservedField (.instr i)
  if f.b23 || f.b17 then .reject .unassigned
  else match f.hi.toNat with
    | 0 => checked (.rts (f.rb ++ f.ra) f.rt)
    | 1 => checked (.rti (f.rb ++ f.ra) f.rt)
    | 2 => checked (.arti (f.rb ++ f.ra) f.rt)
    | _ => .reject .unassigned

/-- Op 16, LOAD (R108, R109). -/
def decodeLoad (f : Fields) (ext : List InsnWord) : Decoded :=
  let sz := Size.ofCode f.sz
  if f.b17 then .reject .unassigned
  else rejectIf f.b23 .cacheBit
    (match (f.rt.extractLsb' 3 2).toNat with
    | 0 => withOperand (decodeDisp11 (f.ct ++ f.hi) (f.rt.extractLsb' 0 3) ext 0) fun d => .instr (.load sz .indirect f.ra f.rb d)
    | 1 => withOperand (decodeDisp11 (f.ct ++ f.hi) (f.rt.extractLsb' 0 3) ext 0) fun d => .instr (.load sz .postUpdate f.ra f.rb d)
    | 2 => withOperand (decodeDisp11 (f.ct ++ f.hi) (f.rt.extractLsb' 0 3) ext 0) fun d => .instr (.load sz .preUpdate f.ra f.rb d)
    | _ => withOperand (decodeDisp6 (f.ct ++ f.rt.extractLsb' 0 3) ext 0) fun d => .instr (.loadX sz f.ra f.rb f.hi d))

/-- Op 17, LOADM (R112): bit 23 is the skip bit and the register list is the first extension word. -/
def decodeLoadm (f : Fields) (ext : List InsnWord) : Decoded :=
  let sz := Size.ofCode f.sz
  let list := extWord ext 0
  if f.b17 then .reject .unassigned
  else match (f.rt.extractLsb' 3 2).toNat with
    | 0 => withOperand (decodeDisp11 (f.ct ++ f.hi) (f.rt.extractLsb' 0 3) ext 1) fun d => .instr (.loadm sz .indirect f.b23 list f.ra f.rb d)
    | 1 => withOperand (decodeDisp11 (f.ct ++ f.hi) (f.rt.extractLsb' 0 3) ext 1) fun d => .instr (.loadm sz .postUpdate f.b23 list f.ra f.rb d)
    | 2 => withOperand (decodeDisp11 (f.ct ++ f.hi) (f.rt.extractLsb' 0 3) ext 1) fun d => .instr (.loadm sz .preUpdate f.b23 list f.ra f.rb d)
    | _ => withOperand (decodeDisp6 (f.ct ++ f.rt.extractLsb' 0 3) ext 1) fun d => .instr (.loadmX sz f.b23 list f.ra f.rb f.hi d)

/-- The address operand of the STORE family (R110): the mode in bits 11..9, and the displacement, whose extension words
start at `k`. `upd` and `idx` build the instruction from it. -/
def decodeDestination (f : Fields) (ext : List InsnWord) (k : Nat)
    (upd : UpdMode → Disp 10 → Decoded) (idx : Disp 5 → Decoded) : Decoded :=
  match (f.rt.extractLsb' 2 3).toNat with
  | 1 => withOperand (decodeDisp10 (f.ct ++ f.hi) (f.rt.extractLsb' 0 2) ext k) (upd .indirect)
  | 2 => withOperand (decodeDisp10 (f.ct ++ f.hi) (f.rt.extractLsb' 0 2) ext k) (upd .postUpdate)
  | 3 => withOperand (decodeDisp10 (f.ct ++ f.hi) (f.rt.extractLsb' 0 2) ext k) (upd .preUpdate)
  | 4 => withOperand (decodeDisp5 (f.ct ++ f.rt.extractLsb' 0 2) ext k) idx
  | _ => .reject .unsupportedMode

/-- A STORE of a register, or the PUSH it is another name of (R122). -/
def storeOrPush (sz : Size) (md : UpdMode) (ra rb : Reg) (d : Disp 10) : Instr :=
  if isPush sz md rb d then (if sz = .t then .pushT ra else .pushO ra) else .store sz md ra rb d

/-- Op 18, STORE, STORE #imm (bit 17) and PUSH (R110, R111). -/
def decodeStore (f : Fields) (ext : List InsnWord) : Decoded :=
  let sz := Size.ofCode f.sz
  rejectIf f.b23 .cacheBit
    (if f.b17 then
      withOperand (decodeStoreImm f.ra ext) fun imm =>
        decodeDestination f ext imm.extWords
          (fun md d => .instr (.storeImm sz md imm f.rb d)) (fun d => .instr (.storeImmX sz imm f.rb f.hi d))
    else
      decodeDestination f ext 0
        (fun md d => .instr (storeOrPush sz md f.ra f.rb d)) (fun d => .instr (.storeX sz f.ra f.rb f.hi d)))

/-- Op 19, STOREM (R113). -/
def decodeStorem (f : Fields) (ext : List InsnWord) : Decoded :=
  let sz := Size.ofCode f.sz
  let list := extWord ext 0
  if f.b17 then .reject .unassigned
  else decodeDestination f ext 1
    (fun md d => .instr (.storem sz md f.b23 list f.ra f.rb d))
    (fun d => .instr (.storemX sz f.b23 list f.ra f.rb f.hi d))

/-- Op 27, PEA (R125). -/
def decodePea (strict : Bool) (f : Fields) (ext : List InsnWord) : Decoded :=
  if f.b17 then .reject .unassigned
  else rejectIf (strict && (f.b23 || f.ra != 0#5)) .reservedField
    (decodeDestination f ext 0
      (fun md d => .ofOption .unsupportedSize ((PushSize.ofCode f.sz).map fun sz => .pea sz md f.rb d))
      (fun d => .ofOption .unsupportedSize ((PushSize.ofCode f.sz).map fun sz => .peaX sz f.rb f.hi d)))

/-- Op 24, JMP and JSR (R107): bit 31 is unused, bit 30 is `T`, bit 29 is `G`, bit 23 is `J`. -/
def decodeJump (strict : Bool) (f : Fields) (ext : List InsnWord) : Decoded :=
  let g := f.ct.getLsbD 0
  if !f.b23 && g then .reject .unassigned
  else rejectIf (strict && (f.ct.getLsbD 2 || f.rt != 0#5)) .reservedField
    (rejectIf (f.ct.getLsbD 1) .callTargetBit
      (rejectIf (f.sz != 3#2) .jumpSize
        (if f.b23 then
          decodeForms strict f ext false (decodeReg strict f (.jsrReg g f.ra f.rb)) (.jsrI32 g f.ra) (.jsrI64 g f.ra) (.jsrI10 g f.ra)
        else
          decodeForms strict f ext false (decodeReg strict f (.jmpReg f.ra f.rb)) (.jmpI32 f.ra) (.jmpI64 f.ra) (.jmpI10 f.ra))))

/-- Op 28, Bcc, and BRA and BSR whose displacement continues in bits 12..10 (R105). -/
def decodeBcc (h : BranchFields) : Decoded :=
  match Cond.ofCode h.cond with
  | none => .reject .unassigned
  | some .ra => .instr (.bra (h.cr ++ h.disp))
  | some .sr => .instr (.bsr (h.cr ++ h.disp))
  | some c => .instr (.bcc c h.cr h.disp)

/-- Op 29, DBcc (R105); every condition is ordinary (D33). -/
def decodeDbcc (h : BranchFields) : Decoded :=
  .ofOption .unassigned ((Cond.ofCode h.cond).map fun c => .dbcc c h.cr h.disp)

/-- The decode procedure of R119 on a first word and its extension words. `strict` is STRICT_RESERVED (R117). -/
def decodeWord (strict : Bool) (w : InsnWord) (ext : List InsnWord) : Decoded :=
  let f := Fields.ofWord w
  match f.op.toNat with
  | 0 => decodeTrap strict f
  | 1 => if w.getLsbD 26 then decodeAbs (LegacyFields.ofWord w) else decodeSwap strict f
  | 2 => decodeCsr (LegacyFields.ofWord w) ext
  | 3 => decodeCompare strict f ext
  | 4 => decodeAdd strict f ext
  | 5 => decodeSub strict f ext
  | 6 => decodeMul strict f ext
  | 7 => decodeDiv f ext
  | 8 => decodeAnd strict f ext
  | 9 => decodeOr strict f ext
  | 10 => decodeEor strict f ext
  | 13 => decodeBit strict f
  | 14 => decodeShift strict f
  | 15 => decodeReturn strict f
  | 16 => decodeLoad f ext
  | 17 => decodeLoadm f ext
  | 18 => decodeStore f ext
  | 19 => decodeStorem f ext
  | 20 => .instr (.fma (w.extractLsb' 5 27))
  | 21 => .instr (.fms (w.extractLsb' 5 27))
  | 22 => .instr (.fnma (w.extractLsb' 5 27))
  | 23 => .instr (.fnms (w.extractLsb' 5 27))
  | 24 => decodeJump strict f ext
  | 25 => .instr (.loadq f.ct (Size.ofCode f.sz) f.rt f.imm17)
  | 27 => decodePea strict f ext
  | 28 => decodeBcc (BranchFields.ofWord w)
  | 29 => decodeDbcc (BranchFields.ofWord w)
  | _ => .reject .unassigned

/-! ## The length of an instruction (R120) -/

/-- How many extension words the displacement of LOAD or LOADM takes. -/
def loadDispWords (f : Fields) : Nat :=
  if f.rt.extractLsb' 3 2 = 3#2 then
    if f.ct ++ f.rt.extractLsb' 0 3 = 32#6 then 1 else if f.ct ++ f.rt.extractLsb' 0 3 = 33#6 then 2 else 0
  else if f.ct ++ f.hi = 0x80#8 then 1 else if f.ct ++ f.hi = 0x81#8 then 2 else 0

/-- How many extension words the displacement of an instruction of the STORE family takes; none in the modes that have no
displacement. -/
def storeDispWords (f : Fields) : Nat :=
  match (f.rt.extractLsb' 2 3).toNat with
  | 1 | 2 | 3 => if f.ct ++ f.hi = 0x80#8 then 1 else if f.ct ++ f.hi = 0x81#8 then 2 else 0
  | 4 => if f.ct ++ f.rt.extractLsb' 0 2 = 16#5 then 1 else if f.ct ++ f.rt.extractLsb' 0 2 = 17#5 then 2 else 0
  | _ => 0

/-- How many extension words the immediate of STORE #imm takes. -/
def storeImmWords (f : Fields) : Nat :=
  if f.b17 then (if f.ra = 16#5 then 1 else if f.ra = 17#5 then 2 else 0) else 0

/-- How many extension words an ALU format takes. -/
def formWords (f : Fields) : Nat :=
  match f.form with
  | .imm32 => 1
  | .imm64 => 2
  | _ => 0

/-- How many extension words the first word of an instruction calls for (R120). -/
def extWordsOf (w : InsnWord) : Nat :=
  let f := Fields.ofWord w
  match f.op.toNat with
  | 2 => if w.extractLsb' 11 7 = 0#7 then 1 else 0
  | 3 | 4 | 5 | 6 | 7 | 8 | 9 | 10 | 24 => formWords f
  | 16 => loadDispWords f
  | 17 => 1 + loadDispWords f
  | 18 => storeImmWords f + storeDispWords f
  | 19 => 1 + storeDispWords f
  | 27 => storeDispWords f
  | _ => 0

/-! ## Bytes (R62) and the opcode table's numbering -/

/-- The 32-bit word in four bytes, the lowest address first: little-endian (R62). -/
def wordOfBytes (b0 b1 b2 b3 : Byte) : InsnWord := b3 ++ b2 ++ b1 ++ b0

/-- The words in a list of bytes; a last group of fewer than four is no word. -/
def wordsOfBytes : List Byte → List InsnWord
  | b0 :: b1 :: b2 :: b3 :: rest => wordOfBytes b0 b1 b2 b3 :: wordsOfBytes rest
  | _ => []

/-- The four bytes of a word, the lowest address first (R62). -/
def bytesOfWord (w : InsnWord) : List Byte :=
  [w.extractLsb' 0 8, w.extractLsb' 8 8, w.extractLsb' 16 8, w.extractLsb' 24 8]

/-- The decoder on the bytes of an instruction, total on any bytes. -/
def decodeBytes (strict : Bool) (bs : List Byte) : Decoded :=
  match wordsOfBytes bs with
  | [] => .reject .truncated
  | w :: ext => if ext.length < extWordsOf w then .reject .truncated else decodeWord strict w ext

/-- The longest instruction has five words (R90, R120). -/
def maxWords : Nat := 5

/-- The words of an instruction given as the opcode table numbers its bits: bit 0 is the least significant bit of the
first word and later words count on; bits from `nbits` up are 0. -/
def tableWords (nbits w : Nat) : List InsnWord :=
  (List.range maxWords).map fun k => BitVec.ofNat 32 ((w % 2 ^ nbits) >>> (32 * k))

/-- The instruction the decoder reads from the bytes of an instruction given as the opcode table numbers its bits, under
the default STRICT_RESERVED. -/
def decodeTableWord (nbits w : Nat) : Option Instr :=
  match decodeBytes defaultParams.strictReserved ((tableWords nbits w).flatMap bytesOfWord) with
  | .instr i => some i
  | .reject _ => none

/-! ## The encoder -/

/-- Bits 31..24 of a displacement outside the indexed mode of LOAD and LOADM (R108, R114). -/
def Disp.high11 : Disp 11 → BitVec 8
  | .short d => d.extractLsb' 3 8
  | .ext32 _ => 0x80#8
  | .ext64 _ => 0x81#8

/-- Its low three bits, zero beside an escape (R114). -/
def Disp.low11 : Disp 11 → BitVec 3
  | .short d => d.extractLsb' 0 3
  | .ext32 _ => 0#3
  | .ext64 _ => 0#3

/-- Bits 31..24 of a displacement outside the indexed mode of the STORE family (R110, R114). -/
def Disp.high10 : Disp 10 → BitVec 8
  | .short d => d.extractLsb' 2 8
  | .ext32 _ => 0x80#8
  | .ext64 _ => 0x81#8

/-- Its low two bits, zero beside an escape (R114). -/
def Disp.low10 : Disp 10 → BitVec 2
  | .short d => d.extractLsb' 0 2
  | .ext32 _ => 0#2
  | .ext64 _ => 0#2

/-- The field `D` of the indexed mode of LOAD and LOADM (R109). -/
def Disp.index6 : Disp 6 → BitVec 6
  | .short d => d
  | .ext32 _ => 32#6
  | .ext64 _ => 33#6

/-- The field `D` of the indexed mode of the STORE family (R110). -/
def Disp.index5 : Disp 5 → BitVec 5
  | .short d => d
  | .ext32 _ => 16#5
  | .ext64 _ => 17#5

/-- The extension words of a displacement (R96). -/
def Disp.words {n : Nat} : Disp n → List InsnWord
  | .short _ => []
  | .ext32 d => [d]
  | .ext64 d => words64 d

/-- The field `Imm5` of STORE #imm (R111). -/
def StoreImm.field5 : StoreImm → BitVec 5
  | .short i => i
  | .ext32 _ => 16#5
  | .ext64 _ => 17#5

/-- The extension words of the immediate of STORE #imm (R96). -/
def StoreImm.words : StoreImm → List InsnWord
  | .short _ => []
  | .ext32 i => [i]
  | .ext64 i => words64 i

/-- The field `CSRt` (R116). -/
def CsrNum.field7 : CsrNum → BitVec 7
  | .field n => n
  | .extended _ => 0#7

/-- The extension word of a CSR number (R116). -/
def CsrNum.words : CsrNum → List InsnWord
  | .field _ => []
  | .extended n => [n]

/-- Bits 28..24 of a shift (R102): `fn`, bit 26 unused, `N`, and bit 5 of an immediate count. -/
def shiftHigh (fn : BitVec 2) (fill top : Bool) : BitVec 5 :=
  fn ++ 0#1 ++ BitVec.ofBool fill ++ BitVec.ofBool top

/-- Bits 31..29 of a JSR (R107): unused, `T` = 0, `G`. -/
def jsrTop (g : Bool) : BitVec 3 := 0#2 ++ BitVec.ofBool g

/-- The words of an instruction, written from the figures of `spec/30_encoding.md`. The nine fields of `Fields.word` are
bits 31..29, 28..24, 23, 22..18, 17, 16..12, 11..7, 6..5, 4..0. -/
def encode : Instr → List InsnWord
  | .brk => [0x00000000#32]
  | .trapReg data rt ra => [Fields.word ⟨0#3, data.extractLsb' 6 5, data.getLsbD 5, data.extractLsb' 0 5, false, ra, rt, 0#2, 0#5⟩]
  | .trapImm num data rt => [Fields.word ⟨num.extractLsb' 5 3, data.extractLsb' 6 5, data.getLsbD 5, data.extractLsb' 0 5, true, num.extractLsb' 0 5, rt, 0#2, 0#5⟩]
  | .trapv cr data rt => [Fields.word ⟨cr, data.extractLsb' 6 5, data.getLsbD 5, data.extractLsb' 0 5, true, 31#5, rt, 2#2, 0#5⟩]
  | .atrapReg data rt ra => [Fields.word ⟨0#3, data.extractLsb' 6 5, data.getLsbD 5, data.extractLsb' 0 5, false, ra, rt, 3#2, 0#5⟩]
  | .atrapImm num data rt => [Fields.word ⟨0#3, data.extractLsb' 6 5, data.getLsbD 5, data.extractLsb' 0 5, true, num, rt, 3#2, 0#5⟩]
  | .swap ct sz rt ra => [Fields.word ⟨ct, 0#5, false, 16#5, false, ra, rt, sz.code, 1#5⟩]
  | .abs sz rt rb => [LegacyFields.word ⟨0#5, true, rb, 0#3, 6#5 ++ rt, sz.code, false, 1#5⟩]
  | .moveFromCsr csr rb => LegacyFields.word ⟨0#5, false, rb, 0#3, csr.field7 ++ 0#3, 3#2, false, 2#5⟩ :: csr.words
  | .moveToCsr csr rb => LegacyFields.word ⟨0#5, false, rb, 0#3, csr.field7 ++ 1#3, 3#2, false, 2#5⟩ :: csr.words
  | .orCsr csr rb => LegacyFields.word ⟨0#5, false, rb, 0#3, csr.field7 ++ 2#3, 3#2, false, 2#5⟩ :: csr.words
  | .andcCsr csr rb => LegacyFields.word ⟨0#5, false, rb, 0#3, csr.field7 ++ 3#3, 3#2, false, 2#5⟩ :: csr.words
  | .eorCsr csr rb => LegacyFields.word ⟨0#5, false, rb, 0#3, csr.field7 ++ 4#3, 3#2, false, 2#5⟩ :: csr.words
  | .cmpRR ct sz ra rb => [Fields.word ⟨ct, 0#5, false, rb, false, ra, 0#5, sz.code, 3#5⟩]
  | .cmpI32 ct sz ra swap imm => Fields.word ⟨ct, 16#5, swap, 0#5, true, ra, 0#5, sz.code, 3#5⟩ :: [imm]
  | .cmpI64 ct sz ra swap imm => Fields.word ⟨ct, 17#5, swap, 0#5, true, ra, 0#5, sz.code, 3#5⟩ :: words64 imm
  | .cmpI10 ct sz ra swap imm => [Fields.word ⟨ct, imm.extractLsb' 5 5, swap, imm.extractLsb' 0 5, true, ra, 0#5, sz.code, 3#5⟩]
  | .fcmpRR ct sz ra rb => [Fields.word ⟨ct, 0#5, false, rb, false, ra, 1#5, sz.code, 3#5⟩]
  | .fcmpI32 ct sz ra swap imm => Fields.word ⟨ct, 16#5, swap, 0#5, true, ra, 1#5, sz.code, 3#5⟩ :: [imm]
  | .fcmpI64 ct sz ra swap imm => Fields.word ⟨ct, 17#5, swap, 0#5, true, ra, 1#5, sz.code, 3#5⟩ :: words64 imm
  | .fcmpI10 ct sz ra swap imm => [Fields.word ⟨ct, imm.extractLsb' 5 5, swap, imm.extractLsb' 0 5, true, ra, 1#5, sz.code, 3#5⟩]
  | .adcRR ct sz rt ra rb => [Fields.word ⟨ct, 0#5, true, rb, false, ra, rt, sz.code, 4#5⟩]
  | .adcI32 ct sz rt ra imm => Fields.word ⟨ct, 16#5, true, 0#5, true, ra, rt, sz.code, 4#5⟩ :: [imm]
  | .adcI64 ct sz rt ra imm => Fields.word ⟨ct, 17#5, true, 0#5, true, ra, rt, sz.code, 4#5⟩ :: words64 imm
  | .adcI10 ct sz rt ra imm => [Fields.word ⟨ct, imm.extractLsb' 5 5, true, imm.extractLsb' 0 5, true, ra, rt, sz.code, 4#5⟩]
  | .addRR ct sz rt ra rb => [Fields.word ⟨ct, 0#5, false, rb, false, ra, rt, sz.code, 4#5⟩]
  | .addI32 ct sz rt ra imm => Fields.word ⟨ct, 16#5, false, 0#5, true, ra, rt, sz.code, 4#5⟩ :: [imm]
  | .addI64 ct sz rt ra imm => Fields.word ⟨ct, 17#5, false, 0#5, true, ra, rt, sz.code, 4#5⟩ :: words64 imm
  | .addI10 ct sz rt ra imm => [Fields.word ⟨ct, imm.extractLsb' 5 5, false, imm.extractLsb' 0 5, true, ra, rt, sz.code, 4#5⟩]
  | .subRR ct sz rt ra rb => [Fields.word ⟨ct, 0#5, false, rb, false, ra, rt, sz.code, 5#5⟩]
  | .subI32 ct sz rt ra swap imm => Fields.word ⟨ct, 16#5, swap, 0#5, true, ra, rt, sz.code, 5#5⟩ :: [imm]
  | .subI64 ct sz rt ra swap imm => Fields.word ⟨ct, 17#5, swap, 0#5, true, ra, rt, sz.code, 5#5⟩ :: words64 imm
  | .subI10 ct sz rt ra swap imm => [Fields.word ⟨ct, imm.extractLsb' 5 5, swap, imm.extractLsb' 0 5, true, ra, rt, sz.code, 5#5⟩]
  | .mulsRR ct sz rt ra rb rp => [Fields.word ⟨ct, rp, false, rb, false, ra, rt, sz.code, 6#5⟩]
  | .mulsI32 ct sz rt ra imm => Fields.word ⟨ct, 16#5, false, 0#5, true, ra, rt, sz.code, 6#5⟩ :: [imm]
  | .mulsI64 ct sz rt ra imm => Fields.word ⟨ct, 17#5, false, 0#5, true, ra, rt, sz.code, 6#5⟩ :: words64 imm
  | .mulsI10 ct sz rt ra imm => [Fields.word ⟨ct, imm.extractLsb' 5 5, false, imm.extractLsb' 0 5, true, ra, rt, sz.code, 6#5⟩]
  | .muluRR ct sz rt ra rb rp => [Fields.word ⟨ct, rp, true, rb, false, ra, rt, sz.code, 6#5⟩]
  | .muluI32 ct sz rt ra imm => Fields.word ⟨ct, 16#5, true, 0#5, true, ra, rt, sz.code, 6#5⟩ :: [imm]
  | .muluI64 ct sz rt ra imm => Fields.word ⟨ct, 17#5, true, 0#5, true, ra, rt, sz.code, 6#5⟩ :: words64 imm
  | .muluI10 ct sz rt ra imm => [Fields.word ⟨ct, imm.extractLsb' 5 5, true, imm.extractLsb' 0 5, true, ra, rt, sz.code, 6#5⟩]
  | .divuRR ct sz rt ra rb rr => [Fields.word ⟨ct, rr, true, rb, false, ra, rt, sz.code, 7#5⟩]
  | .divuI32 ct sz rt ra swap imm => Fields.word ⟨ct, 16#5, swap, 1#5, true, ra, rt, sz.code, 7#5⟩ :: [imm]
  | .divuI64 ct sz rt ra swap imm => Fields.word ⟨ct, 17#5, swap, 1#5, true, ra, rt, sz.code, 7#5⟩ :: words64 imm
  | .divsRR ct sz rt ra rb rr => [Fields.word ⟨ct, rr, false, rb, false, ra, rt, sz.code, 7#5⟩]
  | .divsI32 ct sz rt ra swap imm => Fields.word ⟨ct, 16#5, swap, 0#5, true, ra, rt, sz.code, 7#5⟩ :: [imm]
  | .divsI64 ct sz rt ra swap imm => Fields.word ⟨ct, 17#5, swap, 0#5, true, ra, rt, sz.code, 7#5⟩ :: words64 imm
  | .divsI10 ct sz rt ra swap imm => [Fields.word ⟨ct, imm.extractLsb' 5 5, swap, imm.extractLsb' 0 5, true, ra, rt, sz.code, 7#5⟩]
  | .andRR ct sz rt ra rb => [Fields.word ⟨ct, 0#5, false, rb, false, ra, rt, sz.code, 8#5⟩]
  | .andI32 ct sz rt ra imm => Fields.word ⟨ct, 16#5, false, 0#5, true, ra, rt, sz.code, 8#5⟩ :: [imm]
  | .andI64 ct sz rt ra imm => Fields.word ⟨ct, 17#5, false, 0#5, true, ra, rt, sz.code, 8#5⟩ :: words64 imm
  | .andI10 ct sz rt ra imm => [Fields.word ⟨ct, imm.extractLsb' 5 5, false, imm.extractLsb' 0 5, true, ra, rt, sz.code, 8#5⟩]
  | .orRR ct sz rt ra rb => [Fields.word ⟨ct, 0#5, false, rb, false, ra, rt, sz.code, 9#5⟩]
  | .orI32 ct sz rt ra imm => Fields.word ⟨ct, 16#5, false, 0#5, true, ra, rt, sz.code, 9#5⟩ :: [imm]
  | .orI64 ct sz rt ra imm => Fields.word ⟨ct, 17#5, false, 0#5, true, ra, rt, sz.code, 9#5⟩ :: words64 imm
  | .orI10 ct sz rt ra imm => [Fields.word ⟨ct, imm.extractLsb' 5 5, false, imm.extractLsb' 0 5, true, ra, rt, sz.code, 9#5⟩]
  | .eorRR ct sz rt ra rb => [Fields.word ⟨ct, 0#5, false, rb, false, ra, rt, sz.code, 10#5⟩]
  | .eorI32 ct sz rt ra imm => Fields.word ⟨ct, 16#5, false, 0#5, true, ra, rt, sz.code, 10#5⟩ :: [imm]
  | .eorI64 ct sz rt ra imm => Fields.word ⟨ct, 17#5, false, 0#5, true, ra, rt, sz.code, 10#5⟩ :: words64 imm
  | .eorI10 ct sz rt ra imm => [Fields.word ⟨ct, imm.extractLsb' 5 5, false, imm.extractLsb' 0 5, true, ra, rt, sz.code, 10#5⟩]
  | .bclrReg ct sz rt ra rb => [Fields.word ⟨ct, 0#3 ++ 0#2, false, rb, false, ra, rt, sz.code, 13#5⟩]
  | .bclrImm ct sz rt ra imm => [Fields.word ⟨ct, 0#3 ++ imm.extractLsb' 5 2, false, imm.extractLsb' 0 5, true, ra, rt, sz.code, 13#5⟩]
  | .bsetReg ct sz rt ra rb => [Fields.word ⟨ct, 1#3 ++ 0#2, false, rb, false, ra, rt, sz.code, 13#5⟩]
  | .bsetImm ct sz rt ra imm => [Fields.word ⟨ct, 1#3 ++ imm.extractLsb' 5 2, false, imm.extractLsb' 0 5, true, ra, rt, sz.code, 13#5⟩]
  | .bchgReg ct sz rt ra rb => [Fields.word ⟨ct, 2#3 ++ 0#2, false, rb, false, ra, rt, sz.code, 13#5⟩]
  | .bchgImm ct sz rt ra imm => [Fields.word ⟨ct, 2#3 ++ imm.extractLsb' 5 2, false, imm.extractLsb' 0 5, true, ra, rt, sz.code, 13#5⟩]
  | .btstReg ct sz ra rb => [Fields.word ⟨ct, 3#3 ++ 0#2, false, rb, false, ra, 0#5, sz.code, 13#5⟩]
  | .btstImm ct sz ra imm => [Fields.word ⟨ct, 3#3 ++ imm.extractLsb' 5 2, false, imm.extractLsb' 0 5, true, ra, 0#5, sz.code, 13#5⟩]
  | .bpclrReg ct sz rt ra rb => [Fields.word ⟨ct, 4#3 ++ 0#2, false, rb, false, ra, rt, sz.code, 13#5⟩]
  | .bpclrImm ct sz rt ra imm => [Fields.word ⟨ct, 4#3 ++ imm.extractLsb' 5 2, false, imm.extractLsb' 0 5, true, ra, rt, sz.code, 13#5⟩]
  | .bpchgReg ct sz rt ra rb => [Fields.word ⟨ct, 6#3 ++ 0#2, false, rb, false, ra, rt, sz.code, 13#5⟩]
  | .bpchgImm ct sz rt ra imm => [Fields.word ⟨ct, 6#3 ++ imm.extractLsb' 5 2, false, imm.extractLsb' 0 5, true, ra, rt, sz.code, 13#5⟩]
  | .bptstReg ct sz ra rb => [Fields.word ⟨ct, 7#3 ++ 0#2, false, rb, false, ra, 0#5, sz.code, 13#5⟩]
  | .bptstImm ct sz ra imm => [Fields.word ⟨ct, 7#3 ++ imm.extractLsb' 5 2, false, imm.extractLsb' 0 5, true, ra, 0#5, sz.code, 13#5⟩]
  | .aslReg ct sz fill rt ra rb => [Fields.word ⟨ct, shiftHigh 0#2 fill false, false, rb, false, ra, rt, sz.code, 14#5⟩]
  | .aslImm ct sz fill rt ra imm => [Fields.word ⟨ct, shiftHigh 0#2 fill (imm.getLsbD 5), false, imm.extractLsb' 0 5, true, ra, rt, sz.code, 14#5⟩]
  | .asrReg ct sz rt ra rb => [Fields.word ⟨ct, shiftHigh 0#2 false false, true, rb, false, ra, rt, sz.code, 14#5⟩]
  | .asrImm ct sz rt ra imm => [Fields.word ⟨ct, shiftHigh 0#2 false (imm.getLsbD 5), true, imm.extractLsb' 0 5, true, ra, rt, sz.code, 14#5⟩]
  | .lslReg ct sz fill rt ra rb => [Fields.word ⟨ct, shiftHigh 1#2 fill false, false, rb, false, ra, rt, sz.code, 14#5⟩]
  | .lslImm ct sz fill rt ra imm => [Fields.word ⟨ct, shiftHigh 1#2 fill (imm.getLsbD 5), false, imm.extractLsb' 0 5, true, ra, rt, sz.code, 14#5⟩]
  | .lsrReg ct sz fill rt ra rb => [Fields.word ⟨ct, shiftHigh 1#2 fill false, true, rb, false, ra, rt, sz.code, 14#5⟩]
  | .lsrImm ct sz fill rt ra imm => [Fields.word ⟨ct, shiftHigh 1#2 fill (imm.getLsbD 5), true, imm.extractLsb' 0 5, true, ra, rt, sz.code, 14#5⟩]
  | .rolReg ct sz fill rt ra rb => [Fields.word ⟨ct, shiftHigh 2#2 fill false, false, rb, false, ra, rt, sz.code, 14#5⟩]
  | .rolImm ct sz fill rt ra imm => [Fields.word ⟨ct, shiftHigh 2#2 fill (imm.getLsbD 5), false, imm.extractLsb' 0 5, true, ra, rt, sz.code, 14#5⟩]
  | .rolcReg ct sz fill rt ra rb => [Fields.word ⟨ct, shiftHigh 3#2 fill false, false, rb, false, ra, rt, sz.code, 14#5⟩]
  | .rolcImm ct sz fill rt ra imm => [Fields.word ⟨ct, shiftHigh 3#2 fill (imm.getLsbD 5), false, imm.extractLsb' 0 5, true, ra, rt, sz.code, 14#5⟩]
  | .rorReg ct sz fill rt ra rb => [Fields.word ⟨ct, shiftHigh 2#2 fill false, true, rb, false, ra, rt, sz.code, 14#5⟩]
  | .rorImm ct sz fill rt ra imm => [Fields.word ⟨ct, shiftHigh 2#2 fill (imm.getLsbD 5), true, imm.extractLsb' 0 5, true, ra, rt, sz.code, 14#5⟩]
  | .rorcReg ct sz fill rt ra rb => [Fields.word ⟨ct, shiftHigh 3#2 fill false, true, rb, false, ra, rt, sz.code, 14#5⟩]
  | .rorcImm ct sz fill rt ra imm => [Fields.word ⟨ct, shiftHigh 3#2 fill (imm.getLsbD 5), true, imm.extractLsb' 0 5, true, ra, rt, sz.code, 14#5⟩]
  | .rts arg rpt => [Fields.word ⟨0#3, 0#5, false, arg.extractLsb' 5 5, false, arg.extractLsb' 0 5, rpt, 0#2, 15#5⟩]
  | .rti arg rpt => [Fields.word ⟨0#3, 1#5, false, arg.extractLsb' 5 5, false, arg.extractLsb' 0 5, rpt, 0#2, 15#5⟩]
  | .arti arg rpt => [Fields.word ⟨0#3, 2#5, false, arg.extractLsb' 5 5, false, arg.extractLsb' 0 5, rpt, 0#2, 15#5⟩]
  | .loadX sz rt rb rc d => Fields.word ⟨d.index6.extractLsb' 3 3, rc, false, rb, false, rt, 3#2 ++ d.index6.extractLsb' 0 3, sz.code, 16#5⟩ :: d.words
  | .load sz md rt rb d => Fields.word ⟨d.high11.extractLsb' 5 3, d.high11.extractLsb' 0 5, false, rb, false, rt, md.code2 ++ d.low11, sz.code, 16#5⟩ :: d.words
  | .loadmX sz skip list special rb rc d => Fields.word ⟨d.index6.extractLsb' 3 3, rc, skip, rb, false, special, 3#2 ++ d.index6.extractLsb' 0 3, sz.code, 17#5⟩ :: list :: d.words
  | .loadm sz md skip list special rb d => Fields.word ⟨d.high11.extractLsb' 5 3, d.high11.extractLsb' 0 5, skip, rb, false, special, md.code2 ++ d.low11, sz.code, 17#5⟩ :: list :: d.words
  | .pushT ra => [Fields.word ⟨7#3, 31#5, false, 31#5, false, ra, 3#3 ++ 0#2, 2#2, 18#5⟩]
  | .pushO ra => [Fields.word ⟨7#3, 30#5, false, 31#5, false, ra, 3#3 ++ 0#2, 3#2, 18#5⟩]
  | .storeX sz ra rb rc d => Fields.word ⟨d.index5.extractLsb' 2 3, rc, false, rb, false, ra, 4#3 ++ d.index5.extractLsb' 0 2, sz.code, 18#5⟩ :: d.words
  | .store sz md ra rb d => Fields.word ⟨d.high10.extractLsb' 5 3, d.high10.extractLsb' 0 5, false, rb, false, ra, md.code3 ++ d.low10, sz.code, 18#5⟩ :: d.words
  | .storeImmX sz imm rb rc d => Fields.word ⟨d.index5.extractLsb' 2 3, rc, false, rb, true, imm.field5, 4#3 ++ d.index5.extractLsb' 0 2, sz.code, 18#5⟩ :: (imm.words ++ d.words)
  | .storeImm sz md imm rb d => Fields.word ⟨d.high10.extractLsb' 5 3, d.high10.extractLsb' 0 5, false, rb, true, imm.field5, md.code3 ++ d.low10, sz.code, 18#5⟩ :: (imm.words ++ d.words)
  | .storemX sz skip list special rb rc d => Fields.word ⟨d.index5.extractLsb' 2 3, rc, skip, rb, false, special, 4#3 ++ d.index5.extractLsb' 0 2, sz.code, 19#5⟩ :: list :: d.words
  | .storem sz md skip list special rb d => Fields.word ⟨d.high10.extractLsb' 5 3, d.high10.extractLsb' 0 5, skip, rb, false, special, md.code3 ++ d.low10, sz.code, 19#5⟩ :: list :: d.words
  | .peaX sz rb rc d => Fields.word ⟨d.index5.extractLsb' 2 3, rc, false, rb, false, 0#5, 4#3 ++ d.index5.extractLsb' 0 2, sz.code, 27#5⟩ :: d.words
  | .pea sz md rb d => Fields.word ⟨d.high10.extractLsb' 5 3, d.high10.extractLsb' 0 5, false, rb, false, 0#5, md.code3 ++ d.low10, sz.code, 27#5⟩ :: d.words
  | .fma bits => [bits ++ 20#5]
  | .fms bits => [bits ++ 21#5]
  | .fnma bits => [bits ++ 22#5]
  | .fnms bits => [bits ++ 23#5]
  | .jmpReg ra rb => [Fields.word ⟨0#3, 0#5, false, rb, false, ra, 0#5, 3#2, 24#5⟩]
  | .jmpI32 ra imm => Fields.word ⟨0#3, 16#5, false, 0#5, true, ra, 0#5, 3#2, 24#5⟩ :: [imm]
  | .jmpI64 ra imm => Fields.word ⟨0#3, 17#5, false, 0#5, true, ra, 0#5, 3#2, 24#5⟩ :: words64 imm
  | .jmpI10 ra imm => [Fields.word ⟨0#3, imm.extractLsb' 5 5, false, imm.extractLsb' 0 5, true, ra, 0#5, 3#2, 24#5⟩]
  | .jsrReg g ra rb => [Fields.word ⟨jsrTop g, 0#5, true, rb, false, ra, 0#5, 3#2, 24#5⟩]
  | .jsrI32 g ra imm => Fields.word ⟨jsrTop g, 16#5, true, 0#5, true, ra, 0#5, 3#2, 24#5⟩ :: [imm]
  | .jsrI64 g ra imm => Fields.word ⟨jsrTop g, 17#5, true, 0#5, true, ra, 0#5, 3#2, 24#5⟩ :: words64 imm
  | .jsrI10 g ra imm => [Fields.word ⟨jsrTop g, imm.extractLsb' 5 5, true, imm.extractLsb' 0 5, true, ra, 0#5, 3#2, 24#5⟩]
  | .loadq ct sz rt imm => [Fields.word ⟨ct, imm.extractLsb' 12 5, imm.getLsbD 11, imm.extractLsb' 6 5, imm.getLsbD 5, imm.extractLsb' 0 5, rt, sz.code, 25#5⟩]
  | .bra disp => [BranchFields.word ⟨disp.extractLsb' 0 19, disp.extractLsb' 19 3, 0#5, 28#5⟩]
  | .bsr disp => [BranchFields.word ⟨disp.extractLsb' 0 19, disp.extractLsb' 19 3, 1#5, 28#5⟩]
  | .bcc cond cr disp => [BranchFields.word ⟨disp, cr, cond.code, 28#5⟩]
  | .dbcc cond cr disp => [BranchFields.word ⟨disp, cr, cond.code, 29#5⟩]

end Sys2Proof
end

