-- ==== Sys2Proof/Machine/Memory.lean ====
section
/-! DEFINITION. Memory (`spec/20_memory.md` R60, R63): the map `M` from 64-bit byte addresses to bytes, as a list of
(address, byte) pairs in one canonical form, and the set of addresses written by stores (R74). -/

namespace Sys2Proof.Machine

/-- Memory: the bytes that differ from what an unlisted address reads as, by strictly rising address. -/
abbrev Memory := List Host.Cell

/-- What an address that is not listed reads as. DESIGN CHOICE (log entry 4): zero. The spec gives memory no reset
contents (R42); a platform's image is listed. -/
def unlistedByte : Byte := 0#8

/-- The byte at address `a`. -/
def Memory.read : Memory → Nat → Byte
  | [], _ => unlistedByte
  | (k, b) :: rest, a => if k = a then b else Memory.read rest a

/-- A cell in front of the cells above it, unless it holds what an unlisted address reads as. -/
def Memory.cons (a : Nat) (v : Byte) (rest : Memory) : Memory :=
  if v = unlistedByte then rest else (a, v) :: rest

/-- Stores `v` at address `a`, keeping the canonical form. -/
def Memory.write : Memory → Nat → Byte → Memory
  | [], a, v => Memory.cons a v []
  | (k, b) :: rest, a, v =>
    if k < a then (k, b) :: Memory.write rest a v
    else if k = a then Memory.cons a v rest
    else Memory.cons a v ((k, b) :: rest)

/-- The cells of `m` have addresses from `lo` up, strictly rising and below 2^64, and none holds the unlisted byte. -/
def Memory.wfFrom : Nat → Memory → Bool
  | _, [] => true
  | lo, (k, b) :: rest => decide (lo ≤ k) && decide (k < 2 ^ 64) && b != unlistedByte && Memory.wfFrom (k + 1) rest

/-- The canonical form of a memory. -/
def Memory.wf (m : Memory) : Bool := Memory.wfFrom 0 m

/-- The bytes written by stores since reset (R74): their addresses, strictly rising. -/
abbrev AddrSet := List Nat

/-- Adds an address to a set. -/
def AddrSet.insert : AddrSet → Nat → AddrSet
  | [], a => [a]
  | k :: rest, a => if k < a then k :: AddrSet.insert rest a else if k = a then k :: rest else a :: k :: rest

/-- Takes an address out of a set. -/
def AddrSet.remove : AddrSet → Nat → AddrSet
  | [], _ => []
  | k :: rest, a => if k = a then rest else k :: AddrSet.remove rest a

/-- Whether an address is in a set. -/
def AddrSet.has : AddrSet → Nat → Bool
  | [], _ => false
  | k :: rest, a => k == a || AddrSet.has rest a

/-- The addresses of a set are from `lo` up, strictly rising and below 2^64. -/
def AddrSet.wfFrom : Nat → AddrSet → Bool
  | _, [] => true
  | lo, k :: rest => decide (lo ≤ k) && decide (k < 2 ^ 64) && AddrSet.wfFrom (k + 1) rest

/-- The canonical form of a set of addresses. -/
def AddrSet.wf (m : AddrSet) : Bool := AddrSet.wfFrom 0 m

/-- The n bytes from address `a` up as one number, little-endian (R62, R63); addresses wrap modulo 2^64. -/
def Memory.readLE (m : Memory) (a : Word) : Nat → Word
  | 0 => 0#64
  | n + 1 => (Memory.readLE m (a + 1#64) n <<< 8) ||| (Memory.read m a.toNat).setWidth 64

/-- Stores the low n bytes of `v` from address `a` up, little-endian, in ascending address order (R62, R63). -/
def Memory.writeLE (m : Memory) (a : Word) : Nat → Word → Memory
  | 0, _ => m
  | n + 1, v => Memory.writeLE (Memory.write m a.toNat (v.setWidth 8)) (a + 1#64) n (v >>> 8)

/-- Adds the n addresses from `a` up to a set. -/
def AddrSet.insertRange (m : AddrSet) (a : Word) : Nat → AddrSet
  | 0 => m
  | n + 1 => AddrSet.insertRange (AddrSet.insert m a.toNat) (a + 1#64) n

/-- Whether one of the n addresses from `a` up is in a set. -/
def AddrSet.hasRange (m : AddrSet) (a : Word) : Nat → Bool
  | 0 => false
  | n + 1 => AddrSet.has m a.toNat || AddrSet.hasRange m (a + 1#64) n

/-- Whether a row of the platform's map allows an access of n bytes and kind `k` at address `a` (R68). -/
def regionAllows (r : Region) (a : Word) (n : Nat) (k : AccessKind) : Bool :=
  decide (r.base ≤ a.toNat) && decide (a.toNat < r.base + r.size) && r.widths.contains n &&
    (match k with
    | .read => r.read
    | .write => r.write
    | .fetch => r.fetch)

/-- The platform's `mem_ok(addr, n, kind)` (R68, R76): some row of its map allows the access. -/
def memOk (map : List Region) (a : Word) (n : Nat) (k : AccessKind) : Bool := map.any fun r => regionAllows r a n k

end Sys2Proof.Machine
end

