-- ==== Sys2Proof/Machine/State.lean ====
section
/-! DEFINITION. The state of the machine (`spec/10_state.md`), the reasons a step can stop, and the state after reset. -/

namespace Sys2Proof.Machine

/-- Why the machine stops with a fault. -/
inductive Fault where
  /-- R355 (a): the machine is stuck after a fault inside system exception entry (R328), and no step is defined. Raised by
  `step`. Safe: only a reset revives the processor this stands for. -/
  | stuck
deriving DecidableEq, Repr

/-- Why the spec gives a step no meaning (`refuse` of R10, R355 b). Every one is safe: nothing is claimed of what the
hardware does there. -/
inductive Refusal where
  /-- An instruction whose meaning is not written yet, by its mnemonic. Raised by `exec`; safe. -/
  | notModelled (mnemonic : String)
  /-- FMA is a name in the opcode map and nothing else (R183). Raised by its meaning; safe. -/
  | fmaUndefined
  /-- FMS is a name in the opcode map and nothing else (R184). Raised by its meaning; safe. -/
  | fmsUndefined
  /-- FNMA is a name in the opcode map and nothing else (R185). Raised by its meaning; safe. -/
  | fnmaUndefined
  /-- FNMS is a name in the opcode map and nothing else (R186). Raised by its meaning; safe. -/
  | fnmsUndefined
  /-- ADD or ADC with `AC[2]` = 1 (R157). Raised by their meanings; safe. -/
  | decimalMode
  /-- FCMP with `AC[1:0]` not zero (R187). Raised by its meaning; safe. -/
  | decimalFloat
  /-- Two destination fields name one register that is not 0 (R154). Raised by MULS, MULU, DIVS, DIVU; safe. -/
  | sameDestination
  /-- A CSR number without a register (R37). Raised by the CSR operations; safe. -/
  | undocumentedCsr
  /-- A write to `Tick` or `Coreno` (R40). Raised by the CSR operations; safe. -/
  | readOnlyCsr
  /-- A trap number that has no vector under TRAP_NUM_MAP, or is above 255 (R242). Raised by TRAP; safe. -/
  | trapNumber
  /-- An application trap number above 31 (R231). Raised by ATRAP; safe. -/
  | appTrapNumber
  /-- Trap data into register 31 (D30). Raised by TRAP, ATRAP and a taken TRAPV; safe. -/
  | trapDataIntoStackPointer
  /-- An update address mode whose base is the program counter (R272 b). Raised by loads and stores; safe. -/
  | updateOfProgramCounter
  /-- An updating LOAD or LOADM that also loads its base (R272 c). Raised by LOAD and LOADM; safe. -/
  | updateOfLoadedRegister
  /-- A special register in a list of a size other than octa (R282). Raised by LOADM and STOREM; safe. -/
  | specialNeedsOcta
  /-- A bit drawn `~` is 1 under STRICT_RESERVED (R117 a). Raised at decode; safe. -/
  | reservedField
  /-- `Rc` or bit 26 of ABS or a CSR operation is not zero (R115, R116). Raised at decode; safe. -/
  | legacyRegister
  /-- An address mode of ABS or a CSR operation other than register direct (R115, R116). Raised at decode; safe. -/
  | legacyMode
  /-- The call target check, `T` = 1 in JMP or JSR (R237). Raised at decode; safe. -/
  | callTargetCheck
  /-- A `Sz` of JMP or JSR other than 3 (R237). Raised at decode; safe. -/
  | jumpSize
  /-- The `C` bit of LOAD or STORE (D42). Raised at decode; safe. -/
  | cacheBit
  /-- An escape value the source calls reserved (R114, R278). Raised at decode; safe. -/
  | reservedEscape
  /-- Low displacement bits beside an escape that are not zero (D51). Raised at decode; safe. -/
  | lowDisplacement
  /-- An address mode of the STORE family that is not supported (R110). Raised at decode; safe. -/
  | unsupportedMode
  /-- A step with `SR.T` = 1 (R320). Raised by `step`; safe. -/
  | traceMode
  /-- A step with `SR.N` = 1 (R69). Raised by `step`; safe. -/
  | shortAddressing
  /-- A fetch of a byte written by a store since reset, where IFETCH_COHERENT is false (R74). Raised at fetch; safe. -/
  | fetchOfStoredByte
  /-- An instruction that reaches past address 2^64 - 1, or a sequential advance to 2^64 (R26). Raised at fetch and by
  `advance`; safe. -/
  | pastTopOfMemory
deriving DecidableEq, Repr

/-- All the state the spec gives the machine, and the model's own fields at the end. -/
structure State where
  /-- General registers 1 to 30 (R20); register 0 is hard-wired (R21) and 31 is `usp` or `ssp` (R22). -/
  gpr    : Vector Word 30
  /-- User stack pointer, register 31 where `SR.S` = 0 (R22). -/
  usp    : Word
  /-- System stack pointer, register 31 where `SR.S` = 1 (R22). -/
  ssp    : Word
  /-- Program counter (R25). -/
  pc     : Word
  /-- Loop counter (R27). -/
  lc     : Word
  /-- Condition codes register group: Cr n at bits 4n+3 to 4n (R28). -/
  ccrg   : BitVec 32
  /-- Status register (R31). -/
  sr     : BitVec 32
  /-- Application control register (R34). -/
  ac     : Word
  /-- Vector base register (R36). -/
  vb     : Word
  /-- Memory (R60). -/
  mem    : Memory
  /-- The bytes written by stores since reset (R74). -/
  stored : AddrSet
  /-- The machine is stuck (R355 a). -/
  stuck  : Bool
  /-- The input `irq_level` (R41, R322): the levels at the next instruction boundaries, nearest first; 0 when the list is
  empty (log entry 5). -/
  irq    : List (BitVec 3)
  /-- The implementation parameters (R4; log entry 1). The model's own field. -/
  params : Params
  /-- How many free values have been drawn (R10; log entry 2). The model's own field. -/
  draws  : Nat
deriving DecidableEq, Repr

/-- The machine right after reset (R42, R350), with no memory listed: VB 0; supervisor mode with interrupt mask 7, T and N
0; SSP and pc as read at addresses 0 and 8, which read zero (log entries 4, 6). The registers without a reset value are 0 by DESIGN CHOICE
(log entry 7). -/
def State.reset : State where
  gpr    := Vector.replicate 30 0#64
  usp    := 0#64
  ssp    := 0#64
  pc     := 0#64
  lc     := 0#64
  ccrg   := 0#32
  sr     := 0x00002700#32
  ac     := 0#64
  vb     := 0#64
  mem    := []
  stored := []
  stuck  := false
  irq    := []
  params := defaultParams
  draws  := 0

end Sys2Proof.Machine
end

