-- ==== Sys2Proof/Machine/Ops.lean ====
section
/-! DEFINITION. The named operations over registers, memory and the stack, and taking an exception
(`spec/00_scope.md` R8 to R10, `spec/10_state.md`, `spec/20_memory.md`, `spec/60_exceptions.md`). -/

namespace Sys2Proof.Machine

/-- What an instruction or a step answers. -/
abbrev Result := Host.Outcome State Fault Refusal

/-! ## Status register and application control register -/

/-- The bits of SR that have a field (R31): CPL, T, S, IPL, N, RT. The others read zero and ignore writes. -/
def srMask : BitVec 32 := 0xFF00A707#32

/-- The bit S of SR (R31). -/
def srS : BitVec 32 := 0x00002000#32

/-- Supervisor mode: `SR.S` (R31, R331). -/
def State.supervisor (s : State) : Bool := s.sr.getLsbD 13

/-- Trace mode: `SR.T` (R31). -/
def State.trace (s : State) : Bool := s.sr.getLsbD 15

/-- Short addressing: `SR.N` (R31). -/
def State.near (s : State) : Bool := s.sr.getLsbD 2

/-- The interrupt mask level: `SR.IPL` (R31). -/
def State.ipl (s : State) : BitVec 3 := s.sr.extractLsb' 8 3

/-- A write to SR: the bits without a field stay zero (R31, R39). -/
def State.writeSr (v : BitVec 32) (s : State) : State := { s with sr := v &&& srMask }

/-- `SR.S <- 1` (R313). -/
def State.enterSupervisor (s : State) : State := { s with sr := s.sr ||| srS }

/-- `SR.IPL <- l` (R322). -/
def State.setIpl (l : BitVec 3) (s : State) : State :=
  { s with sr := (s.sr &&& ~~~0x00000700#32) ||| (l.setWidth 32 <<< 8) }

/-- The bits of AC that are not drawn `~` (R34). -/
def acMask : Word := 0xFFFFFFFFFFFFFF07#64

/-- A write to AC: bits 7..3 stay zero (R34, R282). -/
def State.writeAc (v : Word) (s : State) : State := { s with ac := v &&& acMask }

/-- Decimal mode of the integer arithmetic: `AC[2]` (R35). -/
def State.decimal (s : State) : Bool := s.ac.getLsbD 2

/-- Decimal mode of floating point: `AC[1:0]` (R35). -/
def State.decimalFp (s : State) : BitVec 2 := s.ac.extractLsb' 0 2

/-! ## General registers (R8, R20 to R22) -/

/-- `x[i]`: register 0 is zero, 31 is the stack pointer of the current mode. -/
def State.x (s : State) (i : Reg) : Word :=
  if i = 0#5 then 0#64
  else if i = 31#5 then (if s.supervisor then s.ssp else s.usp)
  else s.gpr[i.toNat - 1]?.getD 0#64

/-- `x[i] <- v`: a write to register 0 is discarded. -/
def State.setX (i : Reg) (v : Word) (s : State) : State :=
  if i = 0#5 then s
  else if i = 31#5 then (if s.supervisor then { s with ssp := v } else { s with usp := v })
  else { s with gpr := s.gpr.setIfInBounds (i.toNat - 1) v }

/-- The k-th value drawn from here on (`draw(N)` of R10). -/
def State.free (s : State) (k : Nat) : Word := Config.freeBits (s.draws + k)

/-- The low bit of the k-th free value (R10). -/
def State.freeBit (s : State) (k : Nat) : Bool := (s.free k).getLsbD 0

/-- Counts n values as drawn. -/
def State.drawn (n : Nat) (s : State) : State := { s with draws := s.draws + n }

/-- The low w bits of the result, below the bits 63..w of `up`. -/
def withLow {w : Nat} (up : Word) (r : BitVec w) : Word := ((up >>> w) <<< w) ||| r.setWidth 64

/-- `wb(i, Sz, r)`: writes a W-bit result; the bits above follow NARROW_WB (R8, D5). -/
def State.wb {w : Nat} (i : Reg) (r : BitVec w) (s : State) : State :=
  if 64 ≤ w then s.setX i (r.setWidth 64)
  else match s.params.narrowWb with
    | .preserve => s.setX i (withLow (s.x i) r)
    | .sext => s.setX i (r.signExtend 64)
    | .zext => s.setX i (r.setWidth 64)
    | .any => (s.setX i (withLow (s.free 0) r)).drawn 1

/-! ## Condition registers (R9, R28) -/

/-- `CR[n]`, bits 4n+3 to 4n of CCRG. -/
def State.cr (s : State) (n : CReg) : BitVec 4 := s.ccrg.extractLsb' (4 * n.toNat) 4

/-- `CR[n] <- v`. -/
def State.setCr (n : CReg) (v : BitVec 4) (s : State) : State :=
  { s with ccrg := (s.ccrg &&& ~~~(0xF#32 <<< (4 * n.toNat))) ||| (v.setWidth 32 <<< (4 * n.toNat)) }

/-- Writes the flags of `mentioned` in `CR[n]`; the others keep their values or are drawn, by UNMENTIONED_FLAGS (R9, R131, D8). -/
def State.writeFlags (n : CReg) (mentioned v : BitVec 4) (s : State) : State :=
  if mentioned = 0xF#4 then s.setCr n v
  else match s.params.unmentionedFlags with
    | .unchanged => s.setCr n ((v &&& mentioned) ||| (s.cr n &&& ~~~mentioned))
    | .any => (s.setCr n ((v &&& mentioned) ||| ((s.free 0).setWidth 4 &&& ~~~mentioned))).drawn 1

/-! ## The end of an instruction -/

/-- The address of the next instruction, `pc + len`, modulo 2^64 (R10, R26). -/
def State.pcNext (words : Nat) (s : State) : Word := s.pc + BitVec.ofNat 64 (4 * words)

/-- `pc <- target` (R10). -/
def State.jump (target : Word) (s : State) : State := { s with pc := target }

/-- `pc <- pc_next`: the end of an instruction that does not transfer control. R26: `pc + len` at or above 2^64 is
refused. -/
def advance (words : Nat) (s : State) : Result :=
  if s.pc.toNat + 4 * words < 2 ^ 64 then .next (s.jump (s.pcNext words)) else .refused .pastTopOfMemory

/-! ## Memory accesses (R63) -/

/-- A system vector number (R311). -/
abbrev SysVector := BitVec 8

/-- System vector 2, Bus Error. -/
def vecBusError : SysVector := 2#8

/-- System vector 3, Address Error. -/
def vecAddressError : SysVector := 3#8

/-- System vector 4, Unimplemented Instruction. -/
def vecUnimplemented : SysVector := 4#8

/-- System vector 8, Privilege Violation. -/
def vecPrivilege : SysVector := 8#8

/-- System vector 32, Breakpoint and trap number 0. -/
def vecBreakpoint : SysVector := 32#8

/-- A rule that makes accesses: it goes on with a value, or an access raises a system exception with the program counter
of the instruction (R10); the state holds what is written by then and stays written (R77). -/
inductive Act (α : Type) where
  | ok (a : α) (s : State)
  | raise (v : SysVector) (s : State)
deriving DecidableEq, Repr

/-- One part of a rule after another. -/
def Act.andThen {α β : Type} (m : Act α) (k : α → State → Act β) : Act β :=
  match m with
  | .ok a s => k a s
  | .raise v s => .raise v s

/-- The exception an access raises, if any: Address Error before Bus Error (R63, R326). -/
def State.accessFault (s : State) (k : AccessKind) (a : Word) (n : Nat) : Option SysVector :=
  if s.params.misaligned = .addressError ∧ a.toNat % n ≠ 0 then some vecAddressError
  else if memOk s.params.map a n k then none
  else some vecBusError

/-- `MemRead(a, n)` (R63), the n bytes as a number. -/
def memRead (a : Word) (n : Nat) (s : State) : Act Word :=
  match s.accessFault .read a n with
  | some v => .raise v s
  | none => .ok (s.mem.readLE a n) s

/-- The state after the n low bytes of `v` are stored at `a`; the bytes are recorded as stored (R63, R74). -/
def State.storeBytes (a : Word) (n : Nat) (v : Word) (s : State) : State :=
  { s with mem := s.mem.writeLE a n v, stored := s.stored.insertRange a n }

/-- `MemWrite(a, n, v)` (R63). -/
def memWrite (a : Word) (n : Nat) (v : Word) (s : State) : Act Unit :=
  match s.accessFault .write a n with
  | some e => .raise e s
  | none => .ok () (s.storeBytes a n v)

/-- `push8(v)` (R66): the stack pointer moves only after the access has succeeded. -/
def push8 (v : Word) (s : State) : Act Unit :=
  (memWrite (s.x 31#5 - 8#64) 8 v s).andThen fun _ t => .ok () (t.setX 31#5 (s.x 31#5 - 8#64))

/-- `pop8()` (R66). -/
def pop8 (s : State) : Act Word :=
  (memRead (s.x 31#5) 8 s).andThen fun v t => .ok v (t.setX 31#5 (s.x 31#5 + 8#64))

/-! ## Taking an exception (R313, R314, R328) -/

/-- The address of a system vector: `(VB & ~0x7FF) + 8v` (R67). -/
def State.sysVectorAddr (s : State) (v : SysVector) : Word := (s.vb &&& ~~~0x7FF#64) + (v.setWidth 64 <<< 3)

/-- An application vector number (R312). -/
abbrev AppVector := BitVec 5

/-- The address of an application vector: `(AC & ~0xFF) + 8v` (R67). -/
def State.appVectorAddr (s : State) (v : AppVector) : Word := (s.ac &&& ~~~0xFF#64) + (v.setWidth 64 <<< 3)

/-- The three pushes and the vector read of R313, after `SR.S` is set; the value is the handler's address. -/
def sysFrame (v : SysVector) (ret : Word) (old : BitVec 32) (s : State) : Act Word :=
  (push8 ret s).andThen fun _ s =>
  (push8 (s.ccrg.setWidth 64) s).andThen fun _ s =>
  (push8 (old.setWidth 64) s).andThen fun _ s =>
  memRead (s.sysVectorAddr v) 8 s

/-- `SysException(v, ret)` (R313): supervisor mode, PC, CCRG and the old SR pushed on SSP, and the handler's address from
the table at VB. A fault in one of the four accesses leaves the machine stuck (R328, D49). -/
def sysException (v : SysVector) (ret : Word) (s : State) : State :=
  match sysFrame v ret s.sr s.enterSupervisor with
  | .ok target t => t.jump target
  | .raise _ t => { t with stuck := true }

/-- The two pushes and the vector read of R314; the value is the handler's address. -/
def appFrame (v : AppVector) (ret : Word) (s : State) : Act Word :=
  (push8 ret s).andThen fun _ s =>
  (push8 (s.ccrg.setWidth 64) s).andThen fun _ s =>
  memRead (s.appVectorAddr v) 8 s

/-- `AppException(v, ret)` (R314): PC and CCRG pushed on the stack of the current mode, and the handler's address from the
table at AC; SR does not change. A fault in one of the accesses is a system exception with the program counter of the
instruction, and the pushes already made stay (R328). -/
def appException (v : AppVector) (ret : Word) (s : State) : State :=
  match appFrame v ret s with
  | .ok target t => t.jump target
  | .raise e t => sysException e t.pc t

/-- Ends a rule that makes accesses: goes on with `k`, or takes the system exception of the access that failed, with the
program counter of the instruction (R10, R315). -/
def Act.finish {α : Type} (m : Act α) (k : α → State → Result) : Result :=
  match m with
  | .ok a s => k a s
  | .raise v s => .next (sysException v s.pc s)

/-! ## Returning from an exception (R239, R240, R327) -/

/-- What a return does after its pops: removes `4 * Arg` bytes from the stack the frame was on, and goes to the popped
address plus `4 * Rpt` (R239 to R241, D34). -/
def State.dropArgs (arg : BitVec 10) (s : State) : State :=
  s.setX 31#5 (s.x 31#5 + (arg.setWidth 64 <<< 2))

/-- The address a return goes to (R239 to R241). -/
def returnTarget (ret : Word) (rpt : BitVec 5) : Word := ret + (rpt.setWidth 64 <<< 2)

/-- The return from a system exception in supervisor mode (R239): pops SR, CCRG and PC from SSP; the popped SR takes
effect when all else is done. -/
def sysReturn (arg : BitVec 10) (rpt : BitVec 5) (s : State) : Result :=
  Act.finish
    ((pop8 s).andThen fun sr s => (pop8 s).andThen fun c s => (pop8 s).andThen fun ret s => .ok (sr, c, ret) s)
    fun p s =>
      .next ((({ s.dropArgs arg with ccrg := p.2.1.setWidth 32 } : State).writeSr (p.1.setWidth 32)).jump (returnTarget p.2.2 rpt))

/-- The return from an application exception (R240): pops CCRG and PC from the stack of the current mode. -/
def appReturn (arg : BitVec 10) (rpt : BitVec 5) (s : State) : Result :=
  Act.finish
    ((pop8 s).andThen fun c s => (pop8 s).andThen fun ret s => .ok (c, ret) s)
    fun p s => .next (({ s.dropArgs arg with ccrg := p.1.setWidth 32 } : State).jump (returnTarget p.2 rpt))

/-! ## Interrupts (R322) and reset (R350) -/

/-- The level `irq_level` has at this instruction boundary. -/
def State.irqLevel (s : State) : BitVec 3 := s.irq.headD 0#3

/-- The input moves on to the next instruction boundary. -/
def State.nextBoundary (s : State) : State := { s with irq := s.irq.tail }

/-- Whether the request at this boundary is accepted: its level is above the mask (R322). -/
def State.interruptAccepted (s : State) : Bool := decide (s.ipl.toNat < s.irqLevel.toNat)

/-- Accepting a request of level L (R322): vector 24 + L with the program counter of the instruction that would have run,
and then `SR.IPL <- L`. -/
def takeInterrupt (l : BitVec 3) (s : State) : State :=
  (sysException (24#8 + l.setWidth 8) s.pc s).setIpl l

/-- The reset sequence of R350 on a machine whose platform has put `s.mem` in place: VB 0, `S` 1, `IPL` 7, `T` 0, `N` 0, then SSP
from address 0, then pc from address 8; a fault in one of these reads leaves the machine stuck, with what was done before it.
Nothing is stored since this reset. The other registers are unspecified and keep what they hold. -/
def resetSequence (s : State) : State :=
  let s0 : State := { s with vb := 0#64, sr := (s.sr &&& 0xFF000003#32) ||| 0x00002700#32, stored := [], stuck := false }
  match (memRead 0#64 8 s0).andThen fun sp t => memRead 8#64 8 { t with ssp := sp } with
  | .ok target t => t.jump target
  | .raise _ t => { t with stuck := true }

end Sys2Proof.Machine
end

