-- ==== Sys2Proof/Machine/Flags.lean ====
section
/-! DEFINITION. Flag computations and branch conditions: `add_W` and `sub_W` of `spec/00_scope.md` R11, the condition register
values of `spec/10_state.md` R29 and R30, the one-hot flags of the bit pairs (R191), and the conditions of R230. -/

namespace Sys2Proof.Machine

/-- The four flags nf, zf, vf, cf of a condition register (R29). -/
def flags (nf zf vf cf : Bool) : BitVec 4 :=
  BitVec.ofBool nf ++ BitVec.ofBool zf ++ BitVec.ofBool vf ++ BitVec.ofBool cf

/-- Which flags an instruction mentions, in the order nf, zf, vf, cf: all four. -/
def allFlags : BitVec 4 := 0b1111#4

/-- nf and zf only. -/
def nzFlags : BitVec 4 := 0b1100#4

/-- zf only. -/
def zFlag : BitVec 4 := 0b0100#4

/-- A W-bit sum or difference with its carry (or borrow) and overflow (R11). -/
structure SumResult (w : Nat) where
  r : BitVec w
  c : Bool
  v : Bool
deriving DecidableEq, Repr

/-- `add_W(a, b, cin)` (R11). -/
def addW {w : Nat} (a b : BitVec w) (cin : Bool) : SumResult w :=
  let s := a.toNat + b.toNat + cin.toNat
  let r := BitVec.ofNat w s
  { r := r, c := decide (2 ^ w ≤ s), v := a.msb == b.msb && r.msb != a.msb }

/-- `sub_W(a, b, bin)` (R11); `c` is the borrow. -/
def subW {w : Nat} (a b : BitVec w) (bin : Bool) : SumResult w :=
  let d : Int := (a.toNat : Int) - b.toNat - bin.toNat
  let r := BitVec.ofInt w d
  { r := r, c := decide (d < 0), v := a.msb != b.msb && r.msb != a.msb }

/-- `neg_flag` and `zero_flag` of a result, with the given overflow and carry (R11, R131). -/
def resultFlags {w : Nat} (r : BitVec w) (vf cf : Bool) : BitVec 4 := flags r.msb (r == 0#w) vf cf

/-- The flags of a sum or a difference (R134, R150). -/
def SumResult.flags {w : Nat} (x : SumResult w) : BitVec 4 := resultFlags x.r x.v x.c

/-- The carry flag of a condition register value (R29). -/
def carryOf (f : BitVec 4) : Bool := f.getLsbD 0

/-- The overflow flag of a condition register value (R29). -/
def overflowOf (f : BitVec 4) : Bool := f.getLsbD 1

/-- The one-hot flags of the pair instructions from the pair's old value (R191). -/
def pairFlags (old : BitVec 2) : BitVec 4 := flags (old == 2#2) (old == 0#2) (old == 3#2) (old == 1#2)

/-- The float format of a condition register: lt, eq, ord, and 0 in the unused bit (R30, R180). -/
def floatFlags : FloatOrder → BitVec 4
  | .less => 0b1010#4
  | .equal => 0b0110#4
  | .greater => 0b0010#4
  | .unordered => 0b0000#4

/-- `cond(c, f)` (R230). -/
def condHolds (c : Cond) (f : BitVec 4) : Bool :=
  let nf := f.getLsbD 3
  let zf := f.getLsbD 2
  let vf := f.getLsbD 1
  let cf := f.getLsbD 0
  match c with
  | .ra => true
  | .sr => false
  | .hi => !cf && !zf
  | .ls => cf || zf
  | .cc => !cf
  | .cs => cf
  | .ne => !zf
  | .eq => zf
  | .vc => !vf
  | .vs => vf
  | .pl => !nf
  | .mi => nf
  | .ge => (nf && vf) || (!nf && !vf)
  | .lt => (nf && !vf) || (!nf && vf)
  | .gt => (nf && vf && !zf) || (!nf && !vf && !zf)
  | .le => zf || (nf && !vf) || (!nf && vf)
  | .fOr => vf
  | .fUn => !vf
  | .fGt => !(nf || zf)
  | .fLe => nf || zf
  | .fGe => !nf
  | .fLt => nf
  | .fNe => !zf
  | .fEq => zf && vf

end Sys2Proof.Machine
end

