-- ==== Sys2Proof/Machine/Operands.lean ====
section
/-! DEFINITION. Operands: sizes in bits and bytes (`spec/00_scope.md` R7), register and immediate sources (R8, `30_encoding.md`
R97), effective addresses (`45_memory_ops.md` R270, R271, R281) and register lists (R280). -/

namespace Sys2Proof.Machine

/-- `W = 8 << Sz` (R7). -/
def sizeBits : Size → Nat
  | .b => 8
  | .w => 16
  | .t => 32
  | .o => 64

/-- `nbytes(Sz)` (R7). -/
def sizeBytes : Size → Nat
  | .b => 1
  | .w => 2
  | .t => 4
  | .o => 8

/-- The bytes of a PEA (R275). -/
def pushBytes : PushSize → Nat
  | .t => 4
  | .o => 8

/-- The size `U` of the halves a SWAP exchanges, in bits (R220). -/
def halfBits : HalfSize → Nat
  | .b => 8
  | .w => 16
  | .t => 32

/-- `src_W(i)`: the low W bits of a register (R8). -/
def State.src (s : State) (sz : Size) (i : Reg) : BitVec (sizeBits sz) := (s.x i).setWidth (sizeBits sz)

/-- An Imm10 at the operand width: sign-extended to 64 bits and cut (R97, R130). -/
def imm10 (sz : Size) (i : BitVec 10) : BitVec (sizeBits sz) := (i.signExtend 64).setWidth (sizeBits sz)

/-- An Imm32 at the operand width (R97, R130). -/
def imm32 (sz : Size) (i : BitVec 32) : BitVec (sizeBits sz) := (i.signExtend 64).setWidth (sizeBits sz)

/-- An Imm64 at the operand width (R97, R130). -/
def imm64 (sz : Size) (i : BitVec 64) : BitVec (sizeBits sz) := i.setWidth (sizeBits sz)

/-- The Imm17 of LOADQ at the operand width (R97, R146). -/
def imm17 (sz : Size) (i : BitVec 17) : BitVec (sizeBits sz) := (i.signExtend 64).setWidth (sizeBits sz)

/-- The operands in the order the swap bit gives (R99, R130). -/
def swapped {α : Type} (swap : Bool) (a b : α) : α × α := if swap then (b, a) else (a, b)

/-- The value of a STORE #imm (R278). -/
def storeImmValue : StoreImm → Word
  | .short i => i.signExtend 64
  | .ext32 i => i.signExtend 64
  | .ext64 i => i

/-- The displacement of a branch: `sext_21({disp, 00})` (R105). -/
def branchDisp (d : BitVec 19) : Word := (d ++ 0#2).signExtend 64

/-- The displacement of BRA and BSR: `sext_24({disp, 00})` (R105). -/
def longBranchDisp (d : BitVec 22) : Word := (d ++ 0#2).signExtend 64

/-- The 64-bit value of a displacement (R281). -/
def dispValue {n : Nat} : Disp n → Word
  | .short d => d.signExtend 64
  | .ext32 d => d.signExtend 64
  | .ext64 d => d

/-- `xa[i]`: in an effective address register 0 is the address of the instruction (R8, R271). -/
def State.xa (s : State) (i : Reg) : Word := if i = 0#5 then s.pc else s.x i

/-- The effective address of a mode with one register (R270). -/
def State.ea {n : Nat} (s : State) (md : UpdMode) (rb : Reg) (d : Disp n) : Word :=
  match md with
  | .indirect => s.xa rb + dispValue d
  | .postUpdate => s.xa rb
  | .preUpdate => s.xa rb + dispValue d

/-- The effective address of `D(Rn, Rn)`; the index is not scaled (R270). -/
def State.eaIndexed {n : Nat} (s : State) (rb rc : Reg) (d : Disp n) : Word := s.xa rb + s.xa rc + dispValue d

/-- The base register and its new value in an update mode (R270). -/
def State.baseUpdate {n : Nat} (s : State) (md : UpdMode) (rb : Reg) (d : Disp n) : Option (Reg × Word) :=
  match md with
  | .indirect => none
  | .postUpdate => some (rb, s.x rb + dispValue d)
  | .preUpdate => some (rb, s.x rb + dispValue d)

/-- Writes the base register in an update mode (R270, R272 a). -/
def State.updateBase (u : Option (Reg × Word)) (s : State) : State :=
  match u with
  | none => s
  | some (rb, v) => s.setX rb v

/-- Whether an update would move the program counter (R272 b). -/
def updatesPc : Option (Reg × Word) → Bool
  | none => false
  | some (rb, _) => rb == 0#5

/-- Whether an update and a load write the same register (R272 c). -/
def updatesReg (u : Option (Reg × Word)) (r : Reg) : Bool :=
  match u with
  | none => false
  | some (rb, _) => rb == r

/-- Whether an update writes a register that the list of a LOADM holds (R272 c). -/
def updatesListed (u : Option (Reg × Word)) (list : BitVec 32) : Bool :=
  match u with
  | none => false
  | some (rb, _) => list.getLsbD rb.toNat

/-! ## Register lists (R280, R282) -/

/-- The special registers of a list, in the order of their Special bits (R282). -/
inductive Special where
  | pc | ccrg | sr | ac | lc
deriving DecidableEq, Repr

/-- What a slot of a list holds (R280). -/
inductive Slot where
  | general (r : Reg)
  | special (p : Special)
deriving DecidableEq, Repr

/-- The 37 places of a list in ascending order, each with whether it is selected (R280). -/
def listPlaces (list : BitVec 32) (special : BitVec 5) : List (Bool × Slot) :=
  (List.range 32).map (fun i => (list.getLsbD i, Slot.general (BitVec.ofNat 5 i))) ++
    [(special.getLsbD 0, .special .pc), (special.getLsbD 1, .special .ccrg), (special.getLsbD 2, .special .sr),
      (special.getLsbD 3, .special .ac), (special.getLsbD 4, .special .lc)]

/-- The selected places with their slot numbers from `k` on; with `skip` a place not selected keeps its slot (R280). -/
def numberSlots (skip : Bool) : Nat → List (Bool × Slot) → List (Nat × Slot)
  | _, [] => []
  | k, (true, x) :: rest => (k, x) :: numberSlots skip (k + 1) rest
  | k, (false, _) :: rest => numberSlots skip (if skip then k + 1 else k) rest

/-- `layout(Reglist, Special, S)` (R280). -/
def slotLayout (list : BitVec 32) (special : BitVec 5) (skip : Bool) : List (Nat × Slot) :=
  numberSlots skip 0 (listPlaces list special)

/-- The address of slot k: `EA + k*n` (R280). -/
def slotAddr (ea : Word) (n k : Nat) : Word := ea + BitVec.ofNat 64 (k * n)

/-- What STOREM stores for a special register (R282); `next` is the address of the next instruction. -/
def State.readSpecial (s : State) (next : Word) : Special → Word
  | .pc => next
  | .ccrg => s.ccrg.setWidth 64
  | .sr => s.sr.setWidth 64
  | .ac => s.ac
  | .lc => s.lc

/-- The effect of a LOADM of a special register other than PC (R282). -/
def State.writeSpecial (p : Special) (v : Word) (s : State) : State :=
  match p with
  | .pc => s
  | .ccrg => { s with ccrg := v.setWidth 32 }
  | .sr => s.writeSr (v.setWidth 32)
  | .ac => s.writeAc v
  | .lc => { s with lc := v }

end Sys2Proof.Machine
end

