-- ==== Sys2Proof/Machine/Arith.lean ====
section
/-! DEFINITION. ADD, ADC, SUB, CMP, MULS, MULU, DIVS, DIVU, ABS, LOADQ, AND, OR, EOR (`spec/40_arithmetic.md`). The shared
operations come first; each form of each instruction is then one definition over them. -/

namespace Sys2Proof.Machine

/-! ## Shared operations -/

/-- The end of an instruction with a result and flags: `wb`, the flags of `CR[Ct]` it mentions, the next instruction
(R131). -/
def finishAlu {w : Nat} (ct : CReg) (rt : Reg) (r : BitVec w) (mentioned f : BitVec 4) (words : Nat) (s : State) : Result :=
  advance words ((s.wb rt r).writeFlags ct mentioned f)

/-- ADD (R134), refused in decimal mode (R157). -/
def addOp {w : Nat} (ct : CReg) (rt : Reg) (a b : BitVec w) (words : Nat) (s : State) : Result :=
  if s.decimal then .refused .decimalMode
  else finishAlu ct rt (addW a b false).r allFlags (addW a b false).flags words s

/-- ADC (R133): the carry in is that of `CR[Ct]`; a zero result leaves zf as it was. Refused in decimal mode (R157). -/
def adcOp {w : Nat} (ct : CReg) (rt : Reg) (a b : BitVec w) (words : Nat) (s : State) : Result :=
  if s.decimal then .refused .decimalMode
  else
    let x := addW a b (carryOf (s.cr ct))
    let zf := if x.r = 0#w then (s.cr ct).getLsbD 2 else false
    finishAlu ct rt x.r allFlags (flags x.r.msb zf x.v x.c) words s

/-- SUB (R150); the carry flag is the borrow. -/
def subOp {w : Nat} (ct : CReg) (rt : Reg) (p : BitVec w × BitVec w) (words : Nat) (s : State) : Result :=
  finishAlu ct rt (subW p.1 p.2 false).r allFlags (subW p.1 p.2 false).flags words s

/-- CMP (R136): the flags of the subtraction, and no register. -/
def cmpOp {w : Nat} (ct : CReg) (p : BitVec w × BitVec w) (words : Nat) (s : State) : Result :=
  advance words (s.writeFlags ct allFlags (subW p.1 p.2 false).flags)

/-- A result whose text mentions the zero and negative flags only (R135, R145, R146, R149). -/
def logicOp {w : Nat} (ct : CReg) (rt : Reg) (r : BitVec w) (words : Nat) (s : State) : Result :=
  finishAlu ct rt r nzFlags (resultFlags r false false) words s

/-- Bits W-1..0 of an exact product (R147, R148). -/
def lowHalf (w : Nat) (p : Int) : BitVec w := BitVec.ofInt w p

/-- Bits 2W-1..W of an exact product (R147, R148). -/
def highHalf (w : Nat) (p : Int) : BitVec w := BitVec.ofInt w (p / (2 ^ w : Nat))

/-- Signed overflow of a product: the high half is not the sign extension of the low half (R147). -/
def mulsOverflow {w : Nat} (r hi : BitVec w) : Bool := hi != (if r.msb then BitVec.allOnes w else 0#w)

/-- The end of a multiplication: the flags with a drawn carry (R147, R148, D19). -/
def finishMul {w : Nat} (ct : CReg) (r : BitVec w) (v : Bool) (words : Nat) (s : State) : Result :=
  advance words ((s.setCr ct (resultFlags r v (s.freeBit 0))).drawn 1)

/-- MULS and MULU without `Rp`, from the exact product and its overflow (R147, R148). -/
def mulOp {w : Nat} (ct : CReg) (rt : Reg) (r : BitVec w) (v : Bool) (words : Nat) (s : State) : Result :=
  finishMul ct r v words (s.wb rt r)

/-- The register form of MULS and MULU, which also writes the high half to `Rp`; refused where `Rp = Rt` is not 0 (R147,
R148, R154). -/
def mulOpHigh {w : Nat} (ct : CReg) (rt rp : Reg) (r hi : BitVec w) (v : Bool) (s : State) : Result :=
  if rp = rt ∧ rt ≠ 0#5 then .refused .sameDestination
  else finishMul ct r v 1 ((s.wb rt r).wb rp hi)

/-- The exact signed product (R147). -/
def signedProduct {w : Nat} (a b : BitVec w) : Int := a.toInt * b.toInt

/-- The exact unsigned product (R148). -/
def unsignedProduct {w : Nat} (a b : BitVec w) : Int := ((a.toNat * b.toNat : Nat) : Int)

/-- MULS with an immediate (R147). -/
def mulsOp {w : Nat} (ct : CReg) (rt : Reg) (a b : BitVec w) (words : Nat) (s : State) : Result :=
  let r := lowHalf w (signedProduct a b)
  mulOp ct rt r (mulsOverflow r (highHalf w (signedProduct a b))) words s

/-- MULU with an immediate (R148). -/
def muluOp {w : Nat} (ct : CReg) (rt : Reg) (a b : BitVec w) (words : Nat) (s : State) : Result :=
  mulOp ct rt (lowHalf w (unsignedProduct a b)) (highHalf w (unsignedProduct a b) != 0#w) words s

/-- The register form of MULS (R147). -/
def mulsOpHigh {w : Nat} (ct : CReg) (rt rp : Reg) (a b : BitVec w) (s : State) : Result :=
  let r := lowHalf w (signedProduct a b)
  let hi := highHalf w (signedProduct a b)
  mulOpHigh ct rt rp r hi (mulsOverflow r hi) s

/-- The register form of MULU (R148). -/
def muluOpHigh {w : Nat} (ct : CReg) (rt rp : Reg) (a b : BitVec w) (s : State) : Result :=
  let hi := highHalf w (unsignedProduct a b)
  mulOpHigh ct rt rp (lowHalf w (unsignedProduct a b)) hi (hi != 0#w) s

/-- The result of a division: quotient, remainder and flags, after the values it draws are counted (R143, R144). -/
structure DivResult (w : Nat) where
  q     : BitVec w
  rem   : BitVec w
  flags : BitVec 4
  draws : Nat
deriving DecidableEq, Repr

/-- DIVS of `a` by a `b` that is not zero (R143): rounded toward zero. Where the quotient cannot be represented the
quotient, the remainder, nf and zf are drawn. -/
def divsW {w : Nat} (a b : BitVec w) (s : State) : DivResult w :=
  if a = BitVec.intMin w ∧ b = BitVec.allOnes w then
    { q := (s.free 0).setWidth w, rem := (s.free 1).setWidth w,
      flags := flags (s.freeBit 2) (s.freeBit 3) true false, draws := 4 }
  else
    let q := a.toInt.tdiv b.toInt
    { q := BitVec.ofInt w q, rem := BitVec.ofInt w (a.toInt - q * b.toInt),
      flags := flags (decide (q < 0)) (decide (q = 0)) false false, draws := 0 }

/-- DIVU of `a` by a `b` that is not zero (R144). -/
def divuW {w : Nat} (a b : BitVec w) : DivResult w :=
  let q := BitVec.ofNat w (a.toNat / b.toNat)
  { q := q, rem := BitVec.ofNat w (a.toNat % b.toNat), flags := resultFlags q false false, draws := 0 }

/-- A division with an immediate: by zero it is application exception 0 (R143, R144, R324). -/
def divOp {w : Nat} (ct : CReg) (rt : Reg) (b : BitVec w) (x : DivResult w) (words : Nat) (s : State) : Result :=
  if b = 0#w then .next (appException 0#5 (s.pcNext words) s)
  else advance words ((((s.drawn x.draws).wb rt x.q)).setCr ct x.flags)

/-- The register form of a division, which also writes the remainder to `Rr`; refused where `Rr = Rt` is not 0 (R143, R144,
R154). -/
def divOpRem {w : Nat} (ct : CReg) (rt rr : Reg) (b : BitVec w) (x : DivResult w) (s : State) : Result :=
  if rr = rt ∧ rt ≠ 0#5 then .refused .sameDestination
  else if b = 0#w then .next (appException 0#5 (s.pcNext 1) s)
  else advance 1 ((((s.drawn x.draws).wb rt x.q).wb rr x.rem).setCr ct x.flags)

/-- `|a|`; the most negative value wraps to itself (R132). -/
def absW {w : Nat} (a : BitVec w) : BitVec w := if a.msb then 0#w - a else a

/-! ## The instructions, form by form -/

/-- ADD Rt, Ra, Rb (R134). -/
def execAddRR (ct : CReg) (sz : Size) (rt ra rb : Reg) (s : State) : Result :=
  addOp ct rt (s.src sz ra) (s.src sz rb) 1 s

/-- ADD Rt, Ra, Imm32 (R134). -/
def execAddI32 (ct : CReg) (sz : Size) (rt ra : Reg) (imm : BitVec 32) (s : State) : Result :=
  addOp ct rt (s.src sz ra) (imm32 sz imm) 2 s

/-- ADD Rt, Ra, Imm64 (R134). -/
def execAddI64 (ct : CReg) (sz : Size) (rt ra : Reg) (imm : BitVec 64) (s : State) : Result :=
  addOp ct rt (s.src sz ra) (imm64 sz imm) 3 s

/-- ADD Rt, Ra, Imm10 (R134). -/
def execAddI10 (ct : CReg) (sz : Size) (rt ra : Reg) (imm : BitVec 10) (s : State) : Result :=
  addOp ct rt (s.src sz ra) (imm10 sz imm) 1 s

/-- ADC Rt, Ra, Rb (R133). -/
def execAdcRR (ct : CReg) (sz : Size) (rt ra rb : Reg) (s : State) : Result :=
  adcOp ct rt (s.src sz ra) (s.src sz rb) 1 s

/-- ADC Rt, Ra, Imm32 (R133). -/
def execAdcI32 (ct : CReg) (sz : Size) (rt ra : Reg) (imm : BitVec 32) (s : State) : Result :=
  adcOp ct rt (s.src sz ra) (imm32 sz imm) 2 s

/-- ADC Rt, Ra, Imm64 (R133). -/
def execAdcI64 (ct : CReg) (sz : Size) (rt ra : Reg) (imm : BitVec 64) (s : State) : Result :=
  adcOp ct rt (s.src sz ra) (imm64 sz imm) 3 s

/-- ADC Rt, Ra, Imm10 (R133). -/
def execAdcI10 (ct : CReg) (sz : Size) (rt ra : Reg) (imm : BitVec 10) (s : State) : Result :=
  adcOp ct rt (s.src sz ra) (imm10 sz imm) 1 s

/-- SUB Rt, Ra, Rb (R150). -/
def execSubRR (ct : CReg) (sz : Size) (rt ra rb : Reg) (s : State) : Result :=
  subOp ct rt (s.src sz ra, s.src sz rb) 1 s

/-- SUB Rt, Ra, Imm32 with the swap bit (R150). -/
def execSubI32 (ct : CReg) (sz : Size) (rt ra : Reg) (swap : Bool) (imm : BitVec 32) (s : State) : Result :=
  subOp ct rt (swapped swap (s.src sz ra) (imm32 sz imm)) 2 s

/-- SUB Rt, Ra, Imm64 with the swap bit (R150). -/
def execSubI64 (ct : CReg) (sz : Size) (rt ra : Reg) (swap : Bool) (imm : BitVec 64) (s : State) : Result :=
  subOp ct rt (swapped swap (s.src sz ra) (imm64 sz imm)) 3 s

/-- SUB Rt, Ra, Imm10 with the swap bit (R150). -/
def execSubI10 (ct : CReg) (sz : Size) (rt ra : Reg) (swap : Bool) (imm : BitVec 10) (s : State) : Result :=
  subOp ct rt (swapped swap (s.src sz ra) (imm10 sz imm)) 1 s

/-- CMP Ct, Ra, Rb (R136). -/
def execCmpRR (ct : CReg) (sz : Size) (ra rb : Reg) (s : State) : Result :=
  cmpOp ct (s.src sz ra, s.src sz rb) 1 s

/-- CMP Ct, Ra, Imm32 with the swap bit (R136). -/
def execCmpI32 (ct : CReg) (sz : Size) (ra : Reg) (swap : Bool) (imm : BitVec 32) (s : State) : Result :=
  cmpOp ct (swapped swap (s.src sz ra) (imm32 sz imm)) 2 s

/-- CMP Ct, Ra, Imm64 with the swap bit (R136). -/
def execCmpI64 (ct : CReg) (sz : Size) (ra : Reg) (swap : Bool) (imm : BitVec 64) (s : State) : Result :=
  cmpOp ct (swapped swap (s.src sz ra) (imm64 sz imm)) 3 s

/-- CMP Ct, Ra, Imm10 with the swap bit (R136). -/
def execCmpI10 (ct : CReg) (sz : Size) (ra : Reg) (swap : Bool) (imm : BitVec 10) (s : State) : Result :=
  cmpOp ct (swapped swap (s.src sz ra) (imm10 sz imm)) 1 s

/-- MULS Rt, Ra, Rb, Rp (R147). -/
def execMulsRR (ct : CReg) (sz : Size) (rt ra rb rp : Reg) (s : State) : Result :=
  mulsOpHigh ct rt rp (s.src sz ra) (s.src sz rb) s

/-- MULS Rt, Ra, Imm32 (R147). -/
def execMulsI32 (ct : CReg) (sz : Size) (rt ra : Reg) (imm : BitVec 32) (s : State) : Result :=
  mulsOp ct rt (s.src sz ra) (imm32 sz imm) 2 s

/-- MULS Rt, Ra, Imm64 (R147). -/
def execMulsI64 (ct : CReg) (sz : Size) (rt ra : Reg) (imm : BitVec 64) (s : State) : Result :=
  mulsOp ct rt (s.src sz ra) (imm64 sz imm) 3 s

/-- MULS Rt, Ra, Imm10 (R147). -/
def execMulsI10 (ct : CReg) (sz : Size) (rt ra : Reg) (imm : BitVec 10) (s : State) : Result :=
  mulsOp ct rt (s.src sz ra) (imm10 sz imm) 1 s

/-- MULU Rt, Ra, Rb, Rp (R148). -/
def execMuluRR (ct : CReg) (sz : Size) (rt ra rb rp : Reg) (s : State) : Result :=
  muluOpHigh ct rt rp (s.src sz ra) (s.src sz rb) s

/-- MULU Rt, Ra, Imm32 (R148). -/
def execMuluI32 (ct : CReg) (sz : Size) (rt ra : Reg) (imm : BitVec 32) (s : State) : Result :=
  muluOp ct rt (s.src sz ra) (imm32 sz imm) 2 s

/-- MULU Rt, Ra, Imm64 (R148). -/
def execMuluI64 (ct : CReg) (sz : Size) (rt ra : Reg) (imm : BitVec 64) (s : State) : Result :=
  muluOp ct rt (s.src sz ra) (imm64 sz imm) 3 s

/-- MULU Rt, Ra, Imm10 (R148). -/
def execMuluI10 (ct : CReg) (sz : Size) (rt ra : Reg) (imm : BitVec 10) (s : State) : Result :=
  muluOp ct rt (s.src sz ra) (imm10 sz imm) 1 s

/-- DIVS Rt, Ra, Rb, Rr (R143). -/
def execDivsRR (ct : CReg) (sz : Size) (rt ra rb rr : Reg) (s : State) : Result :=
  divOpRem ct rt rr (s.src sz rb) (divsW (s.src sz ra) (s.src sz rb) s) s

/-- DIVS Rt, Ra, Imm32 with the swap bit (R143). -/
def execDivsI32 (ct : CReg) (sz : Size) (rt ra : Reg) (swap : Bool) (imm : BitVec 32) (s : State) : Result :=
  let p := swapped swap (s.src sz ra) (imm32 sz imm)
  divOp ct rt p.2 (divsW p.1 p.2 s) 2 s

/-- DIVS Rt, Ra, Imm64 with the swap bit (R143). -/
def execDivsI64 (ct : CReg) (sz : Size) (rt ra : Reg) (swap : Bool) (imm : BitVec 64) (s : State) : Result :=
  let p := swapped swap (s.src sz ra) (imm64 sz imm)
  divOp ct rt p.2 (divsW p.1 p.2 s) 3 s

/-- DIVS Rt, Ra, Imm10 with the swap bit (R143). -/
def execDivsI10 (ct : CReg) (sz : Size) (rt ra : Reg) (swap : Bool) (imm : BitVec 10) (s : State) : Result :=
  let p := swapped swap (s.src sz ra) (imm10 sz imm)
  divOp ct rt p.2 (divsW p.1 p.2 s) 1 s

/-- DIVU Rt, Ra, Rb, Rr (R144). -/
def execDivuRR (ct : CReg) (sz : Size) (rt ra rb rr : Reg) (s : State) : Result :=
  divOpRem ct rt rr (s.src sz rb) (divuW (s.src sz ra) (s.src sz rb)) s

/-- DIVU Rt, Ra, Imm32 with the swap bit (R144). -/
def execDivuI32 (ct : CReg) (sz : Size) (rt ra : Reg) (swap : Bool) (imm : BitVec 32) (s : State) : Result :=
  let p := swapped swap (s.src sz ra) (imm32 sz imm)
  divOp ct rt p.2 (divuW p.1 p.2) 2 s

/-- DIVU Rt, Ra, Imm64 with the swap bit (R144). -/
def execDivuI64 (ct : CReg) (sz : Size) (rt ra : Reg) (swap : Bool) (imm : BitVec 64) (s : State) : Result :=
  let p := swapped swap (s.src sz ra) (imm64 sz imm)
  divOp ct rt p.2 (divuW p.1 p.2) 3 s

/-- AND Rt, Ra, Rb (R135). -/
def execAndRR (ct : CReg) (sz : Size) (rt ra rb : Reg) (s : State) : Result :=
  logicOp ct rt (s.src sz ra &&& s.src sz rb) 1 s

/-- AND Rt, Ra, Imm32 (R135). -/
def execAndI32 (ct : CReg) (sz : Size) (rt ra : Reg) (imm : BitVec 32) (s : State) : Result :=
  logicOp ct rt (s.src sz ra &&& imm32 sz imm) 2 s

/-- AND Rt, Ra, Imm64 (R135). -/
def execAndI64 (ct : CReg) (sz : Size) (rt ra : Reg) (imm : BitVec 64) (s : State) : Result :=
  logicOp ct rt (s.src sz ra &&& imm64 sz imm) 3 s

/-- AND Rt, Ra, Imm10 (R135). -/
def execAndI10 (ct : CReg) (sz : Size) (rt ra : Reg) (imm : BitVec 10) (s : State) : Result :=
  logicOp ct rt (s.src sz ra &&& imm10 sz imm) 1 s

/-- OR Rt, Ra, Rb (R149). -/
def execOrRR (ct : CReg) (sz : Size) (rt ra rb : Reg) (s : State) : Result :=
  logicOp ct rt (s.src sz ra ||| s.src sz rb) 1 s

/-- OR Rt, Ra, Imm32 (R149). -/
def execOrI32 (ct : CReg) (sz : Size) (rt ra : Reg) (imm : BitVec 32) (s : State) : Result :=
  logicOp ct rt (s.src sz ra ||| imm32 sz imm) 2 s

/-- OR Rt, Ra, Imm64 (R149). -/
def execOrI64 (ct : CReg) (sz : Size) (rt ra : Reg) (imm : BitVec 64) (s : State) : Result :=
  logicOp ct rt (s.src sz ra ||| imm64 sz imm) 3 s

/-- OR Rt, Ra, Imm10 (R149). -/
def execOrI10 (ct : CReg) (sz : Size) (rt ra : Reg) (imm : BitVec 10) (s : State) : Result :=
  logicOp ct rt (s.src sz ra ||| imm10 sz imm) 1 s

/-- EOR Rt, Ra, Rb (R145). -/
def execEorRR (ct : CReg) (sz : Size) (rt ra rb : Reg) (s : State) : Result :=
  logicOp ct rt (s.src sz ra ^^^ s.src sz rb) 1 s

/-- EOR Rt, Ra, Imm32 (R145). -/
def execEorI32 (ct : CReg) (sz : Size) (rt ra : Reg) (imm : BitVec 32) (s : State) : Result :=
  logicOp ct rt (s.src sz ra ^^^ imm32 sz imm) 2 s

/-- EOR Rt, Ra, Imm64 (R145). -/
def execEorI64 (ct : CReg) (sz : Size) (rt ra : Reg) (imm : BitVec 64) (s : State) : Result :=
  logicOp ct rt (s.src sz ra ^^^ imm64 sz imm) 3 s

/-- EOR Rt, Ra, Imm10 (R145). -/
def execEorI10 (ct : CReg) (sz : Size) (rt ra : Reg) (imm : BitVec 10) (s : State) : Result :=
  logicOp ct rt (s.src sz ra ^^^ imm10 sz imm) 1 s

/-- ABS Rt, Rb: no flag is written (R132). -/
def execAbs (sz : Size) (rt rb : Reg) (s : State) : Result :=
  advance 1 (s.wb rt (absW (s.src sz rb)))

/-- LOADQ Rt, Imm17 (R146). -/
def execLoadq (ct : CReg) (sz : Size) (rt : Reg) (imm : BitVec 17) (s : State) : Result :=
  logicOp ct rt (imm17 sz imm) 1 s

end Sys2Proof.Machine
end

