-- ==== Sys2Proof/Machine/Bits.lean ====
section
/-! DEFINITION. Bit and bit-pair manipulation (`spec/42_bit_manipulation.md`). -/

namespace Sys2Proof.Machine

/-- The bit number of a single-bit instruction: the index modulo the operand width (R190). -/
def bitNumber (sz : Size) (idx : Nat) : Nat := idx % sizeBits sz

/-- The pair number of a pair instruction: the index modulo the number of pairs (R190). -/
def pairNumber (sz : Size) (idx : Nat) : Nat := idx % (sizeBits sz / 2)

/-- Bit i alone. -/
def bitMask (sz : Size) (i : Nat) : BitVec (sizeBits sz) := 1#(sizeBits sz) <<< i

/-- Pair p alone: bits 2p+1 and 2p. -/
def pairMask (sz : Size) (p : Nat) : BitVec (sizeBits sz) := 3#(sizeBits sz) <<< (2 * p)

/-- The flags of a single-bit instruction: zf says that the bit was 0 (R192, R193, R197, R198). -/
def bitFlags {w : Nat} (a : BitVec w) (i : Nat) : BitVec 4 := flags false (!a.getLsbD i) false false

/-- The flags of a pair instruction (R191). -/
def pairStatus {w : Nat} (a : BitVec w) (p : Nat) : BitVec 4 := pairFlags (a.extractLsb' (2 * p) 2)

/-- The end of an instruction that changes one bit: the result and the zero flag (R192, R193, R197). -/
def finishBit {w : Nat} (ct : CReg) (rt : Reg) (a r : BitVec w) (i : Nat) (s : State) : Result :=
  advance 1 ((s.wb rt r).writeFlags ct zFlag (bitFlags a i))

/-- The end of an instruction that changes a pair: the result and all flags (R194, R195). -/
def finishPair {w : Nat} (ct : CReg) (rt : Reg) (a r : BitVec w) (p : Nat) (s : State) : Result :=
  advance 1 ((s.wb rt r).writeFlags ct allFlags (pairStatus a p))

/-- BCLR of bit `idx` (R192). -/
def bclrOp (ct : CReg) (sz : Size) (rt : Reg) (a : BitVec (sizeBits sz)) (idx : Nat) (s : State) : Result :=
  finishBit ct rt a (a &&& ~~~bitMask sz (bitNumber sz idx)) (bitNumber sz idx) s

/-- BSET of bit `idx` (R197). -/
def bsetOp (ct : CReg) (sz : Size) (rt : Reg) (a : BitVec (sizeBits sz)) (idx : Nat) (s : State) : Result :=
  finishBit ct rt a (a ||| bitMask sz (bitNumber sz idx)) (bitNumber sz idx) s

/-- BCHG of bit `idx` (R193). -/
def bchgOp (ct : CReg) (sz : Size) (rt : Reg) (a : BitVec (sizeBits sz)) (idx : Nat) (s : State) : Result :=
  finishBit ct rt a (a ^^^ bitMask sz (bitNumber sz idx)) (bitNumber sz idx) s

/-- BTST of bit `idx`; no register is written (R198). -/
def btstOp (ct : CReg) (sz : Size) (a : BitVec (sizeBits sz)) (idx : Nat) (s : State) : Result :=
  advance 1 (s.writeFlags ct zFlag (bitFlags a (bitNumber sz idx)))

/-- BPCLR of pair `idx` (R195). -/
def bpclrOp (ct : CReg) (sz : Size) (rt : Reg) (a : BitVec (sizeBits sz)) (idx : Nat) (s : State) : Result :=
  finishPair ct rt a (a &&& ~~~pairMask sz (pairNumber sz idx)) (pairNumber sz idx) s

/-- BPCHG of pair `idx` (R194). -/
def bpchgOp (ct : CReg) (sz : Size) (rt : Reg) (a : BitVec (sizeBits sz)) (idx : Nat) (s : State) : Result :=
  finishPair ct rt a (a ^^^ pairMask sz (pairNumber sz idx)) (pairNumber sz idx) s

/-- BPTST of pair `idx`; no register is written (R196). -/
def bptstOp (ct : CReg) (sz : Size) (a : BitVec (sizeBits sz)) (idx : Nat) (s : State) : Result :=
  advance 1 (s.writeFlags ct allFlags (pairStatus a (pairNumber sz idx)))

/-! ## The instructions, form by form -/

/-- BCLR with the index in Rb (R192). -/
def execBclrReg (ct : CReg) (sz : Size) (rt ra rb : Reg) (s : State) : Result :=
  bclrOp ct sz rt (s.src sz ra) (s.x rb).toNat s

/-- BCLR with Imm7 (R192). -/
def execBclrImm (ct : CReg) (sz : Size) (rt ra : Reg) (imm : BitVec 7) (s : State) : Result :=
  bclrOp ct sz rt (s.src sz ra) imm.toNat s

/-- BSET with the index in Rb (R197). -/
def execBsetReg (ct : CReg) (sz : Size) (rt ra rb : Reg) (s : State) : Result :=
  bsetOp ct sz rt (s.src sz ra) (s.x rb).toNat s

/-- BSET with Imm7 (R197). -/
def execBsetImm (ct : CReg) (sz : Size) (rt ra : Reg) (imm : BitVec 7) (s : State) : Result :=
  bsetOp ct sz rt (s.src sz ra) imm.toNat s

/-- BCHG with the index in Rb (R193). -/
def execBchgReg (ct : CReg) (sz : Size) (rt ra rb : Reg) (s : State) : Result :=
  bchgOp ct sz rt (s.src sz ra) (s.x rb).toNat s

/-- BCHG with Imm7 (R193). -/
def execBchgImm (ct : CReg) (sz : Size) (rt ra : Reg) (imm : BitVec 7) (s : State) : Result :=
  bchgOp ct sz rt (s.src sz ra) imm.toNat s

/-- BTST with the index in Rb (R198). -/
def execBtstReg (ct : CReg) (sz : Size) (ra rb : Reg) (s : State) : Result :=
  btstOp ct sz (s.src sz ra) (s.x rb).toNat s

/-- BTST with Imm7 (R198). -/
def execBtstImm (ct : CReg) (sz : Size) (ra : Reg) (imm : BitVec 7) (s : State) : Result :=
  btstOp ct sz (s.src sz ra) imm.toNat s

/-- BPCLR with the index in Rb (R195). -/
def execBpclrReg (ct : CReg) (sz : Size) (rt ra rb : Reg) (s : State) : Result :=
  bpclrOp ct sz rt (s.src sz ra) (s.x rb).toNat s

/-- BPCLR with Imm7 (R195). -/
def execBpclrImm (ct : CReg) (sz : Size) (rt ra : Reg) (imm : BitVec 7) (s : State) : Result :=
  bpclrOp ct sz rt (s.src sz ra) imm.toNat s

/-- BPCHG with the index in Rb (R194). -/
def execBpchgReg (ct : CReg) (sz : Size) (rt ra rb : Reg) (s : State) : Result :=
  bpchgOp ct sz rt (s.src sz ra) (s.x rb).toNat s

/-- BPCHG with Imm7 (R194). -/
def execBpchgImm (ct : CReg) (sz : Size) (rt ra : Reg) (imm : BitVec 7) (s : State) : Result :=
  bpchgOp ct sz rt (s.src sz ra) imm.toNat s

/-- BPTST with the index in Rb (R196). -/
def execBptstReg (ct : CReg) (sz : Size) (ra rb : Reg) (s : State) : Result :=
  bptstOp ct sz (s.src sz ra) (s.x rb).toNat s

/-- BPTST with Imm7 (R196). -/
def execBptstImm (ct : CReg) (sz : Size) (ra : Reg) (imm : BitVec 7) (s : State) : Result :=
  bptstOp ct sz (s.src sz ra) imm.toNat s

end Sys2Proof.Machine
end

