-- ==== Sys2Proof/Machine/Csr.lean ====
section
/-! DEFINITION. The operations on control and special registers (`spec/40_arithmetic.md` R137 to R142, `10_state.md` R37 to
R40). -/

namespace Sys2Proof.Machine

/-- The registers that have a CSR number (R37): 1, 2, 120, 121. -/
inductive CsrReg where
  | ccr | sr | tick | coreno
deriving DecidableEq, Repr

/-- The register a number names; there is none under any other number, and none under an extended number (R37). -/
def csrReg : CsrNum → Option CsrReg
  | .extended _ => none
  | .field n =>
    if n = 1#7 then some .ccr
    else if n = 2#7 then some .sr
    else if n = 120#7 then some .tick
    else if n = 121#7 then some .coreno
    else none

/-- The registers that only supervisor mode may access (R37, R319). -/
def CsrReg.privileged : CsrReg → Bool
  | .ccr => false
  | .sr => true
  | .tick => false
  | .coreno => true

/-- `csr_read(n)` (R137): the value, and the state after it; a read of `Tick` draws a value (R40). -/
def State.csrRead (s : State) : CsrReg → Word × State
  | .ccr => (s.ccrg.setWidth 64, s)
  | .sr => (s.sr.setWidth 64, s)
  | .tick => (s.free 0, s.drawn 1)
  | .coreno => (s.params.coreno, s)

/-- `csr_write(n, v)` (R137); a write to `Tick` or `Coreno` is refused (R40). -/
def csrWrite (r : CsrReg) (v : Word) (s : State) : Result :=
  match r with
  | .ccr => advance 1 { s with ccrg := v.setWidth 32 }
  | .sr => advance 1 (s.writeSr (v.setWidth 32))
  | .tick => .refused .readOnlyCsr
  | .coreno => .refused .readOnlyCsr

/-- The checks that every CSR operation makes first (R137): the number has a register, and the mode may access it. -/
def csrChecked (n : CsrNum) (s : State) (k : CsrReg → Result) : Result :=
  match csrReg n with
  | none => .refused .undocumentedCsr
  | some r => if r.privileged && !s.supervisor then .next (sysException vecPrivilege s.pc s) else k r

/-- A CSR operation that writes `f old operand` (R140 to R142). -/
def csrUpdate (f : Word → Word → Word) (n : CsrNum) (rb : Reg) (s : State) : Result :=
  csrChecked n s fun r => csrWrite r (f (s.csrRead r).1 (s.x rb)) (s.csrRead r).2

/-- MOVE from CSR (R138). -/
def execMoveFromCsr (n : CsrNum) (rb : Reg) (s : State) : Result :=
  csrChecked n s fun r => advance 1 ((s.csrRead r).2.setX rb (s.csrRead r).1)

/-- MOVE to CSR (R139). -/
def execMoveToCsr (n : CsrNum) (rb : Reg) (s : State) : Result :=
  csrChecked n s fun r => csrWrite r (s.x rb) s

/-- OR to CSR, set bits (R140). -/
def execOrCsr (n : CsrNum) (rb : Reg) (s : State) : Result := csrUpdate (fun old v => old ||| v) n rb s

/-- ANDC to CSR, clear bits (R141). -/
def execAndcCsr (n : CsrNum) (rb : Reg) (s : State) : Result := csrUpdate (fun old v => old &&& ~~~v) n rb s

/-- EOR to CSR, flip bits (R142). -/
def execEorCsr (n : CsrNum) (rb : Reg) (s : State) : Result := csrUpdate (fun old v => old ^^^ v) n rb s

end Sys2Proof.Machine
end

