-- ==== Sys2Proof/Machine/Float.lean ====
section
/-! DEFINITION. Floating point (`spec/41_floating_point.md`): FCMP over the parameter `fcmp`, and the four named-only
opcodes. -/

namespace Sys2Proof.Machine

/-- FCMP (R180): refused in decimal mode (R187); writes the float format of `CR[Ct]` and no register. -/
def fcmpOp (ct : CReg) (sz : Size) (p : BitVec (sizeBits sz) × BitVec (sizeBits sz)) (words : Nat) (s : State) : Result :=
  if s.decimalFp = 0#2 then
    advance words (s.writeFlags ct allFlags (floatFlags (Config.fcmp sz (p.1.setWidth 64) (p.2.setWidth 64))))
  else .refused .decimalFloat

/-- FCMP Ct, Ra, Rb (R180). -/
def execFcmpRR (ct : CReg) (sz : Size) (ra rb : Reg) (s : State) : Result :=
  fcmpOp ct sz (s.src sz ra, s.src sz rb) 1 s

/-- FCMP Ct, Ra, Imm32 with the swap bit (R180). -/
def execFcmpI32 (ct : CReg) (sz : Size) (ra : Reg) (swap : Bool) (imm : BitVec 32) (s : State) : Result :=
  fcmpOp ct sz (swapped swap (s.src sz ra) (imm32 sz imm)) 2 s

/-- FCMP Ct, Ra, Imm64 with the swap bit (R180). -/
def execFcmpI64 (ct : CReg) (sz : Size) (ra : Reg) (swap : Bool) (imm : BitVec 64) (s : State) : Result :=
  fcmpOp ct sz (swapped swap (s.src sz ra) (imm64 sz imm)) 3 s

/-- FCMP Ct, Ra, Imm10 with the swap bit (R180). -/
def execFcmpI10 (ct : CReg) (sz : Size) (ra : Reg) (swap : Bool) (imm : BitVec 10) (s : State) : Result :=
  fcmpOp ct sz (swapped swap (s.src sz ra) (imm10 sz imm)) 1 s

/-- FMA: the source gives a name and no effect, and the spec refuses it (R183). -/
def execFma (_bits : BitVec 27) (_s : State) : Result := .refused .fmaUndefined

/-- FMS: the source gives a name and no effect, and the spec refuses it (R184). -/
def execFms (_bits : BitVec 27) (_s : State) : Result := .refused .fmsUndefined

/-- FNMA: the source gives a name and no effect, and the spec refuses it (R185). -/
def execFnma (_bits : BitVec 27) (_s : State) : Result := .refused .fnmaUndefined

/-- FNMS: the source gives a name and no effect, and the spec refuses it (R186). -/
def execFnms (_bits : BitVec 27) (_s : State) : Result := .refused .fnmsUndefined

end Sys2Proof.Machine
end

