-- ==== Sys2Proof/Machine/Flow.lean ====
section
/-! DEFINITION. Flow control: branches, jumps, calls, returns, traps (`spec/44_flow_control.md`). -/

namespace Sys2Proof.Machine

/-! ## Shared operations -/

/-- `trap_vector(num)` under TRAP_NUM_MAP (R242, R323). -/
def trapVector (m : TrapNumMap) (num : Nat) : Option SysVector :=
  match m with
  | .defined31 => if num ≤ 31 then some (BitVec.ofNat 8 (32 + num)) else none
  | .offset32 => if num ≤ 223 then some (BitVec.ofNat 8 (32 + num)) else none

/-- TRAP with number `num` (R242): the data goes to `Rt`, then system exception entry with the address of the next
instruction. -/
def trapOp (num : Word) (data : BitVec 11) (rt : Reg) (s : State) : Result :=
  match trapVector s.params.trapNumMap num.toNat with
  | none => .refused .trapNumber
  | some v =>
    if rt = 31#5 then .refused .trapDataIntoStackPointer
    else .next (sysException v (s.pcNext 1) (s.setX rt (data.setWidth 64)))

/-- ATRAP and a taken TRAPV (R231, R243): the data goes to `Rt`, then application exception entry with the address of the
next instruction. -/
def appTrapOp (v : AppVector) (data : BitVec 11) (rt : Reg) (s : State) : Result :=
  if rt = 31#5 then .refused .trapDataIntoStackPointer
  else .next (appException v (s.pcNext 1) (s.setX rt (data.setWidth 64)))

/-- Pushes the address of the next instruction, and CCRG where `g` is set, and jumps (R235, R238). -/
def callOp (g : Bool) (target : Word) (words : Nat) (s : State) : Result :=
  Act.finish
    ((push8 (s.pcNext words) s).andThen fun _ t => if g then push8 (t.ccrg.setWidth 64) t else .ok () t)
    fun _ t => .next (t.jump target)

/-- The target of JMP and JSR: register 0 reads zero here (R237, R238). -/
def State.target (s : State) (ra : Reg) (offset : Word) : Word := s.x ra + offset

/-- A branch that is taken where `taken` holds (R232, R236). -/
def branchOp (taken : Bool) (disp : Word) (s : State) : Result :=
  if taken then .next (s.jump (s.pc + disp)) else advance 1 s

/-! ## Traps -/

/-- BRK: breakpoint, vector 32 (R234). -/
def execBrk (s : State) : Result := .next (sysException vecBreakpoint (s.pcNext 1) s)

/-- TRAP Rt, Ra, #Data (R242). -/
def execTrapReg (data : BitVec 11) (rt ra : Reg) (s : State) : Result := trapOp (s.x ra) data rt s

/-- TRAP Rt, #Num, #Data (R242). -/
def execTrapImm (num : BitVec 8) (data : BitVec 11) (rt : Reg) (s : State) : Result := trapOp (num.setWidth 64) data rt s

/-- TRAPV Rt, #Data: application vector 31 where the overflow flag of `CR[Cr]` is set; else nothing (R243). -/
def execTrapv (cr : CReg) (data : BitVec 11) (rt : Reg) (s : State) : Result :=
  if overflowOf (s.cr cr) then appTrapOp 31#5 data rt s else advance 1 s

/-- ATRAP Rt, Ra, #Data (R231). -/
def execAtrapReg (data : BitVec 11) (rt ra : Reg) (s : State) : Result :=
  if 31 < (s.x ra).toNat then .refused .appTrapNumber else appTrapOp ((s.x ra).setWidth 5) data rt s

/-- ATRAP Rt, #Num, #Data (R231). -/
def execAtrapImm (num : BitVec 5) (data : BitVec 11) (rt : Reg) (s : State) : Result := appTrapOp num data rt s

/-! ## Branches -/

/-- Bcc Cn, label (R232). -/
def execBcc (c : Cond) (cr : CReg) (disp : BitVec 19) (s : State) : Result :=
  branchOp (condHolds c (s.cr cr)) (branchDisp disp) s

/-- BRA label (R233). -/
def execBra (disp : BitVec 22) (s : State) : Result := branchOp true (longBranchDisp disp) s

/-- BSR label (R235). -/
def execBsr (disp : BitVec 22) (s : State) : Result := callOp false (s.pc + longBranchDisp disp) 1 s

/-- DBcc Cn, label: the decrement is always done, and both tests are made after it (R236). -/
def execDbcc (c : Cond) (cr : CReg) (disp : BitVec 19) (s : State) : Result :=
  branchOp (!condHolds c (s.cr cr) && (s.lc - 1#64 != BitVec.allOnes 64)) (branchDisp disp) { s with lc := s.lc - 1#64 }

/-! ## Jumps and calls -/

/-- JMP (Ra, Rb) (R237). -/
def execJmpReg (ra rb : Reg) (s : State) : Result := .next (s.jump (s.target ra (s.x rb)))

/-- JMP Imm32 (Ra) (R237). -/
def execJmpI32 (ra : Reg) (imm : BitVec 32) (s : State) : Result := .next (s.jump (s.target ra (imm32 .o imm)))

/-- JMP Imm64 (Ra) (R237). -/
def execJmpI64 (ra : Reg) (imm : BitVec 64) (s : State) : Result := .next (s.jump (s.target ra (imm64 .o imm)))

/-- JMP Imm10 (Ra) (R237). -/
def execJmpI10 (ra : Reg) (imm : BitVec 10) (s : State) : Result := .next (s.jump (s.target ra (imm10 .o imm)))

/-- JSR (Ra, Rb) (R238). -/
def execJsrReg (g : Bool) (ra rb : Reg) (s : State) : Result := callOp g (s.target ra (s.x rb)) 1 s

/-- JSR Imm32 (Ra) (R238). -/
def execJsrI32 (g : Bool) (ra : Reg) (imm : BitVec 32) (s : State) : Result := callOp g (s.target ra (imm32 .o imm)) 2 s

/-- JSR Imm64 (Ra) (R238). -/
def execJsrI64 (g : Bool) (ra : Reg) (imm : BitVec 64) (s : State) : Result := callOp g (s.target ra (imm64 .o imm)) 3 s

/-- JSR Imm10 (Ra) (R238). -/
def execJsrI10 (g : Bool) (ra : Reg) (imm : BitVec 10) (s : State) : Result := callOp g (s.target ra (imm10 .o imm)) 1 s

/-! ## Returns -/

/-- RTS #Arg, #Rpt (R241). -/
def execRts (arg : BitVec 10) (rpt : BitVec 5) (s : State) : Result :=
  (pop8 s).finish fun ret t => .next ((t.dropArgs arg).jump (returnTarget ret rpt))

/-- RTI #Arg, #Rpt: privileged (R239, R319). -/
def execRti (arg : BitVec 10) (rpt : BitVec 5) (s : State) : Result :=
  if s.supervisor then sysReturn arg rpt s else .next (sysException vecPrivilege s.pc s)

/-- ARTI #Arg, #Rpt (R240). -/
def execArti (arg : BitVec 10) (rpt : BitVec 5) (s : State) : Result := appReturn arg rpt s

end Sys2Proof.Machine
end

