-- ==== Sys2Proof/Machine/MemOps.lean ====
section
/-! DEFINITION. LOAD, STORE, PUSH, PEA and the multiple loads and stores (`spec/45_memory_ops.md`). In the shared operations
`u` is the base register an update mode writes, with its new value (R270), and `words` the length of the instruction. -/

namespace Sys2Proof.Machine

/-! ## Single loads and stores -/

/-- LOAD from `a` (R273): the access, the register, then the base (R272). -/
def loadOp (sz : Size) (rt : Reg) (a : Word) (u : Option (Reg × Word)) (words : Nat) (s : State) : Result :=
  if updatesPc u then .refused .updateOfProgramCounter
  else if updatesReg u rt then .refused .updateOfLoadedRegister
  else (memRead a (sizeBytes sz) s).finish fun v t =>
    advance words ((t.wb rt (v.setWidth (sizeBits sz))).updateBase u)

/-- STORE of the low bytes of `v` at `a` (R277, R278): the access, then the base (R272). -/
def storeOp (n : Nat) (v a : Word) (u : Option (Reg × Word)) (words : Nat) (s : State) : Result :=
  if updatesPc u then .refused .updateOfProgramCounter
  else (memWrite a n v s).finish fun _ t => advance words (t.updateBase u)

/-- A push of n bytes on the stack of the current mode (R275, R276). -/
def pushOp (n : Nat) (v : Word) (words : Nat) (s : State) : Result :=
  storeOp n v (s.x 31#5 - BitVec.ofNat 64 n) (some (31#5, s.x 31#5 - BitVec.ofNat 64 n)) words s

/-! ## Register lists -/

/-- The loads of a LOADM in order (R274): a general register is written at once; the values of the special registers are
collected for the end. -/
def loadSlots (sz : Size) (ea : Word) : List (Nat × Slot) → List (Special × Word) → State → Act (List (Special × Word))
  | [], held, s => .ok held s
  | (k, .general r) :: rest, held, s =>
    (memRead (slotAddr ea (sizeBytes sz) k) (sizeBytes sz) s).andThen fun v t =>
      loadSlots sz ea rest held (t.wb r (v.setWidth (sizeBits sz)))
  | (k, .special p) :: rest, held, s =>
    (memRead (slotAddr ea (sizeBytes sz) k) (sizeBytes sz) s).andThen fun v t =>
      loadSlots sz ea rest (held ++ [(p, v)]) t

/-- Assigns the held special registers, other than PC, in order (R274, R282). -/
def State.writeSpecials (held : List (Special × Word)) (s : State) : State :=
  held.foldl (fun t p => t.writeSpecial p.1 p.2) s

/-- The held value of PC, if the list has it. -/
def heldPc : List (Special × Word) → Option Word
  | [] => none
  | (.pc, v) :: _ => some v
  | _ :: rest => heldPc rest

/-- The end of a LOADM: a loaded PC is a jump (R274, D43). -/
def finishLoadm (held : List (Special × Word)) (words : Nat) (s : State) : Result :=
  match heldPc held with
  | some v => .next (s.jump v)
  | none => advance words s

/-- The checks LOADM and STOREM make on the special registers (R274, R279, R282). -/
def listChecked (sz : Size) (special : BitVec 5) (s : State) (k : Result) : Result :=
  if special ≠ 0#5 ∧ sz ≠ .o then .refused .specialNeedsOcta
  else if special.getLsbD 2 && !s.supervisor then .next (sysException vecPrivilege s.pc s)
  else k

/-- LOADM from `ea` (R274). -/
def loadmOp (sz : Size) (skip : Bool) (list : BitVec 32) (special : BitVec 5) (ea : Word) (u : Option (Reg × Word))
    (words : Nat) (s : State) : Result :=
  listChecked sz special s
    (if updatesPc u then .refused .updateOfProgramCounter
    else if updatesListed u list then .refused .updateOfLoadedRegister
    else (loadSlots sz ea (slotLayout list special skip) [] s).finish fun held t =>
      finishLoadm held words ((t.updateBase u).writeSpecials held))

/-- What STOREM stores for a slot, read before any write (R279). -/
def State.slotValue (s : State) (next : Word) : Slot → Word
  | .general r => s.x r
  | .special p => s.readSpecial next p

/-- The stores of a STOREM in order (R279): address slot and value. -/
def storeSlots (n : Nat) (ea : Word) : List (Nat × Word) → State → Act Unit
  | [], s => .ok () s
  | (k, v) :: rest, s => (memWrite (slotAddr ea n k) n v s).andThen fun _ t => storeSlots n ea rest t

/-- The slots of a STOREM with the values to store, all read from `s` (R279). -/
def State.slotValues (s : State) (next : Word) (slots : List (Nat × Slot)) : List (Nat × Word) :=
  slots.map fun p => (p.1, s.slotValue next p.2)

/-- STOREM at `ea` (R279). -/
def storemOp (sz : Size) (skip : Bool) (list : BitVec 32) (special : BitVec 5) (ea : Word) (u : Option (Reg × Word))
    (words : Nat) (s : State) : Result :=
  listChecked sz special s
    (if updatesPc u then .refused .updateOfProgramCounter
    else (storeSlots (sizeBytes sz) ea (s.slotValues (s.pcNext words) (slotLayout list special skip)) s).finish fun _ t =>
      advance words (t.updateBase u))

/-! ## The instructions, form by form -/

/-- LOAD Rt, D(Rb, Rc) (R273). -/
def execLoadX (sz : Size) (rt rb rc : Reg) (d : Disp 6) (s : State) : Result :=
  loadOp sz rt (s.eaIndexed rb rc d) none (1 + d.extWords) s

/-- LOAD Rt, the modes with one register (R273). -/
def execLoad (sz : Size) (md : UpdMode) (rt rb : Reg) (d : Disp 11) (s : State) : Result :=
  loadOp sz rt (s.ea md rb d) (s.baseUpdate md rb d) (1 + d.extWords) s

/-- LOADM, D(Rb, Rc) (R274). -/
def execLoadmX (sz : Size) (skip : Bool) (list : BitVec 32) (special : BitVec 5) (rb rc : Reg) (d : Disp 6) (s : State) :
    Result :=
  loadmOp sz skip list special (s.eaIndexed rb rc d) none (2 + d.extWords) s

/-- LOADM, the modes with one register (R274). -/
def execLoadm (sz : Size) (md : UpdMode) (skip : Bool) (list : BitVec 32) (special : BitVec 5) (rb : Reg) (d : Disp 11)
    (s : State) : Result :=
  loadmOp sz skip list special (s.ea md rb d) (s.baseUpdate md rb d) (2 + d.extWords) s

/-- PUSH.t Ra (R276). -/
def execPushT (ra : Reg) (s : State) : Result := pushOp 4 (s.x ra) 1 s

/-- PUSH.o Ra (R276). -/
def execPushO (ra : Reg) (s : State) : Result := pushOp 8 (s.x ra) 1 s

/-- STORE Ra, D(Rb, Rc) (R277). -/
def execStoreX (sz : Size) (ra rb rc : Reg) (d : Disp 5) (s : State) : Result :=
  storeOp (sizeBytes sz) (s.x ra) (s.eaIndexed rb rc d) none (1 + d.extWords) s

/-- STORE Ra, the modes with one register (R277). -/
def execStore (sz : Size) (md : UpdMode) (ra rb : Reg) (d : Disp 10) (s : State) : Result :=
  storeOp (sizeBytes sz) (s.x ra) (s.ea md rb d) (s.baseUpdate md rb d) (1 + d.extWords) s

/-- STORE #imm, D(Rb, Rc) (R278). -/
def execStoreImmX (sz : Size) (imm : StoreImm) (rb rc : Reg) (d : Disp 5) (s : State) : Result :=
  storeOp (sizeBytes sz) (storeImmValue imm) (s.eaIndexed rb rc d) none (1 + imm.extWords + d.extWords) s

/-- STORE #imm, the modes with one register (R278). -/
def execStoreImm (sz : Size) (md : UpdMode) (imm : StoreImm) (rb : Reg) (d : Disp 10) (s : State) : Result :=
  storeOp (sizeBytes sz) (storeImmValue imm) (s.ea md rb d) (s.baseUpdate md rb d) (1 + imm.extWords + d.extWords) s

/-- STOREM, D(Rb, Rc) (R279). -/
def execStoremX (sz : Size) (skip : Bool) (list : BitVec 32) (special : BitVec 5) (rb rc : Reg) (d : Disp 5) (s : State) :
    Result :=
  storemOp sz skip list special (s.eaIndexed rb rc d) none (2 + d.extWords) s

/-- STOREM, the modes with one register (R279). -/
def execStorem (sz : Size) (md : UpdMode) (skip : Bool) (list : BitVec 32) (special : BitVec 5) (rb : Reg) (d : Disp 10)
    (s : State) : Result :=
  storemOp sz skip list special (s.ea md rb d) (s.baseUpdate md rb d) (2 + d.extWords) s

/-- PEA D(Rb, Rc) (R275). -/
def execPeaX (sz : PushSize) (rb rc : Reg) (d : Disp 5) (s : State) : Result :=
  pushOp (pushBytes sz) (s.eaIndexed rb rc d) (1 + d.extWords) s

/-- PEA, the modes with one register: the address is pushed and the base is not updated (R275, R272 e). -/
def execPea (sz : PushSize) (md : UpdMode) (rb : Reg) (d : Disp 10) (s : State) : Result :=
  pushOp (pushBytes sz) (s.ea md rb d) (1 + d.extWords) s

end Sys2Proof.Machine
end

