-- ==== Sys2Proof/Machine/Shifts.lean ====
section
/-! DEFINITION. Shifts and rotates, each as many applications of its one-bit step (`spec/43_shift_rotate.md` R210 to R219),
and SWAP (R220). -/

namespace Sys2Proof.Machine

/-- A shift in progress (R211): the operand, the carry, and whether a step has changed the sign. -/
structure ShiftState (w : Nat) where
  v   : BitVec w
  c   : Bool
  ovf : Bool
deriving DecidableEq, Repr

/-- The operand shifted left by one with `low` in bit 0. -/
def shiftLeft1 {w : Nat} (v : BitVec w) (low : Bool) : BitVec w := (v <<< 1) ||| (BitVec.ofBool low).setWidth w

/-- The operand shifted right by one with `high` in bit W-1. -/
def shiftRight1 {w : Nat} (v : BitVec w) (high : Bool) : BitVec w :=
  (v >>> 1) ||| ((BitVec.ofBool high).setWidth w <<< (w - 1))

/-- The step of ASL (R212). -/
def aslStep {w : Nat} (n : Bool) (x : ShiftState w) : ShiftState w :=
  let v' := shiftLeft1 x.v n
  { v := v', c := x.v.msb, ovf := x.ovf || (v'.msb != x.v.msb) }

/-- The step of ASR (R213). -/
def asrStep {w : Nat} (x : ShiftState w) : ShiftState w :=
  { v := shiftRight1 x.v x.v.msb, c := x.v.getLsbD 0, ovf := false }

/-- The step of LSL (R214). -/
def lslStep {w : Nat} (n : Bool) (x : ShiftState w) : ShiftState w :=
  { v := shiftLeft1 x.v n, c := x.v.msb, ovf := false }

/-- The step of LSR (R215). -/
def lsrStep {w : Nat} (n : Bool) (x : ShiftState w) : ShiftState w :=
  { v := shiftRight1 x.v n, c := x.v.getLsbD 0, ovf := false }

/-- The step of ROL (R216). -/
def rolStep {w : Nat} (n : Bool) (x : ShiftState w) : ShiftState w :=
  { v := shiftLeft1 x.v (x.v.msb ^^ n), c := x.v.msb, ovf := false }

/-- The step of ROLC (R217): the carry out is exclusive-or'd with N. -/
def rolcStep {w : Nat} (n : Bool) (x : ShiftState w) : ShiftState w :=
  { v := shiftLeft1 x.v (x.c ^^ n), c := x.v.msb ^^ n, ovf := false }

/-- The step of ROR (R218). -/
def rorStep {w : Nat} (n : Bool) (x : ShiftState w) : ShiftState w :=
  { v := shiftRight1 x.v (x.v.getLsbD 0 ^^ n), c := x.v.getLsbD 0, ovf := false }

/-- The step of RORC (R219). -/
def rorcStep {w : Nat} (n : Bool) (x : ShiftState w) : ShiftState w :=
  { v := shiftRight1 x.v (x.c ^^ n), c := x.v.getLsbD 0, ovf := false }

/-- `n` applications of a step (R211). -/
def iterate {α : Type} (f : α → α) : Nat → α → α
  | 0, x => x
  | n + 1, x => iterate f n (f x)

/-- The count in a register: its low six bits (R210). -/
def State.shiftCount (s : State) (rb : Reg) : Nat := ((s.x rb).setWidth 6).toNat

/-- A shift of `a` by `n` (R211): the result, then all four flags of `CR[Ct]`. With `n` = 0 the carry is drawn (D28). The
carry that ROLC and RORC start with is that of `CR[Ct]` (D29). -/
def shiftOp {w : Nat} (step : ShiftState w → ShiftState w) (ct : CReg) (rt : Reg) (a : BitVec w) (n : Nat) (s : State) :
    Result :=
  let x := iterate step n { v := a, c := carryOf (s.cr ct), ovf := false }
  let t := s.wb rt x.v
  if n = 0 then advance 1 ((t.setCr ct (resultFlags x.v x.ovf (t.freeBit 0))).drawn 1)
  else advance 1 (t.setCr ct (resultFlags x.v x.ovf x.c))

/-- SWAP (R220): the two halves of a value of twice the size exchanged; the condition register is drawn (D41). -/
def swapOp {u : Nat} (ct : CReg) (rt : Reg) (lo hi : BitVec u) (s : State) : Result :=
  let t := s.wb rt (lo ++ hi)
  advance 1 ((t.setCr ct ((t.free 0).setWidth 4)).drawn 1)

/-! ## The instructions, form by form -/

/-- ASL with the count in Rb (R212). -/
def execAslReg (ct : CReg) (sz : Size) (fill : Bool) (rt ra rb : Reg) (s : State) : Result :=
  shiftOp (aslStep fill) ct rt (s.src sz ra) (s.shiftCount rb) s

/-- ASL with Imm6 (R212). -/
def execAslImm (ct : CReg) (sz : Size) (fill : Bool) (rt ra : Reg) (imm : BitVec 6) (s : State) : Result :=
  shiftOp (aslStep fill) ct rt (s.src sz ra) imm.toNat s

/-- ASR with the count in Rb (R213). -/
def execAsrReg (ct : CReg) (sz : Size) (rt ra rb : Reg) (s : State) : Result :=
  shiftOp asrStep ct rt (s.src sz ra) (s.shiftCount rb) s

/-- ASR with Imm6 (R213). -/
def execAsrImm (ct : CReg) (sz : Size) (rt ra : Reg) (imm : BitVec 6) (s : State) : Result :=
  shiftOp asrStep ct rt (s.src sz ra) imm.toNat s

/-- LSL with the count in Rb (R214). -/
def execLslReg (ct : CReg) (sz : Size) (fill : Bool) (rt ra rb : Reg) (s : State) : Result :=
  shiftOp (lslStep fill) ct rt (s.src sz ra) (s.shiftCount rb) s

/-- LSL with Imm6 (R214). -/
def execLslImm (ct : CReg) (sz : Size) (fill : Bool) (rt ra : Reg) (imm : BitVec 6) (s : State) : Result :=
  shiftOp (lslStep fill) ct rt (s.src sz ra) imm.toNat s

/-- LSR with the count in Rb (R215). -/
def execLsrReg (ct : CReg) (sz : Size) (fill : Bool) (rt ra rb : Reg) (s : State) : Result :=
  shiftOp (lsrStep fill) ct rt (s.src sz ra) (s.shiftCount rb) s

/-- LSR with Imm6 (R215). -/
def execLsrImm (ct : CReg) (sz : Size) (fill : Bool) (rt ra : Reg) (imm : BitVec 6) (s : State) : Result :=
  shiftOp (lsrStep fill) ct rt (s.src sz ra) imm.toNat s

/-- ROL with the count in Rb (R216). -/
def execRolReg (ct : CReg) (sz : Size) (fill : Bool) (rt ra rb : Reg) (s : State) : Result :=
  shiftOp (rolStep fill) ct rt (s.src sz ra) (s.shiftCount rb) s

/-- ROL with Imm6 (R216). -/
def execRolImm (ct : CReg) (sz : Size) (fill : Bool) (rt ra : Reg) (imm : BitVec 6) (s : State) : Result :=
  shiftOp (rolStep fill) ct rt (s.src sz ra) imm.toNat s

/-- ROLC with the count in Rb (R217). -/
def execRolcReg (ct : CReg) (sz : Size) (fill : Bool) (rt ra rb : Reg) (s : State) : Result :=
  shiftOp (rolcStep fill) ct rt (s.src sz ra) (s.shiftCount rb) s

/-- ROLC with Imm6 (R217). -/
def execRolcImm (ct : CReg) (sz : Size) (fill : Bool) (rt ra : Reg) (imm : BitVec 6) (s : State) : Result :=
  shiftOp (rolcStep fill) ct rt (s.src sz ra) imm.toNat s

/-- ROR with the count in Rb (R218). -/
def execRorReg (ct : CReg) (sz : Size) (fill : Bool) (rt ra rb : Reg) (s : State) : Result :=
  shiftOp (rorStep fill) ct rt (s.src sz ra) (s.shiftCount rb) s

/-- ROR with Imm6 (R218). -/
def execRorImm (ct : CReg) (sz : Size) (fill : Bool) (rt ra : Reg) (imm : BitVec 6) (s : State) : Result :=
  shiftOp (rorStep fill) ct rt (s.src sz ra) imm.toNat s

/-- RORC with the count in Rb (R219). -/
def execRorcReg (ct : CReg) (sz : Size) (fill : Bool) (rt ra rb : Reg) (s : State) : Result :=
  shiftOp (rorcStep fill) ct rt (s.src sz ra) (s.shiftCount rb) s

/-- RORC with Imm6 (R219). -/
def execRorcImm (ct : CReg) (sz : Size) (fill : Bool) (rt ra : Reg) (imm : BitVec 6) (s : State) : Result :=
  shiftOp (rorcStep fill) ct rt (s.src sz ra) imm.toNat s

/-- SWAP (R220): `lo` and `hi` are the low and high halves of the low 2U bits of Ra. -/
def execSwap (ct : CReg) (sz : HalfSize) (rt ra : Reg) (s : State) : Result :=
  swapOp ct rt ((s.x ra).extractLsb' 0 (halfBits sz)) ((s.x ra).extractLsb' (halfBits sz) (halfBits sz)) s

end Sys2Proof.Machine
end

