-- ==== Sys2Proof/Machine/Dispatch.lean ====
section
/-! DEFINITION. The dispatch: one arm per constructor of `Instr`, each one call of its meaning. -/

namespace Sys2Proof.Machine

def exec (i : Instr) (s : State) : Host.Outcome State Fault Refusal :=
  match i with
  | .brk => Sys2Proof.Machine.execBrk s
  | .trapReg data rt ra => Sys2Proof.Machine.execTrapReg data rt ra s
  | .trapImm num data rt => Sys2Proof.Machine.execTrapImm num data rt s
  | .trapv cr data rt => Sys2Proof.Machine.execTrapv cr data rt s
  | .atrapReg data rt ra => Sys2Proof.Machine.execAtrapReg data rt ra s
  | .atrapImm num data rt => Sys2Proof.Machine.execAtrapImm num data rt s
  | .swap ct sz rt ra => Sys2Proof.Machine.execSwap ct sz rt ra s
  | .abs sz rt rb => Sys2Proof.Machine.execAbs sz rt rb s
  | .moveFromCsr csr rb => Sys2Proof.Machine.execMoveFromCsr csr rb s
  | .moveToCsr csr rb => Sys2Proof.Machine.execMoveToCsr csr rb s
  | .orCsr csr rb => Sys2Proof.Machine.execOrCsr csr rb s
  | .andcCsr csr rb => Sys2Proof.Machine.execAndcCsr csr rb s
  | .eorCsr csr rb => Sys2Proof.Machine.execEorCsr csr rb s
  | .cmpRR ct sz ra rb => Sys2Proof.Machine.execCmpRR ct sz ra rb s
  | .cmpI32 ct sz ra swap imm => Sys2Proof.Machine.execCmpI32 ct sz ra swap imm s
  | .cmpI64 ct sz ra swap imm => Sys2Proof.Machine.execCmpI64 ct sz ra swap imm s
  | .cmpI10 ct sz ra swap imm => Sys2Proof.Machine.execCmpI10 ct sz ra swap imm s
  | .fcmpRR ct sz ra rb => Sys2Proof.Machine.execFcmpRR ct sz ra rb s
  | .fcmpI32 ct sz ra swap imm => Sys2Proof.Machine.execFcmpI32 ct sz ra swap imm s
  | .fcmpI64 ct sz ra swap imm => Sys2Proof.Machine.execFcmpI64 ct sz ra swap imm s
  | .fcmpI10 ct sz ra swap imm => Sys2Proof.Machine.execFcmpI10 ct sz ra swap imm s
  | .adcRR ct sz rt ra rb => Sys2Proof.Machine.execAdcRR ct sz rt ra rb s
  | .adcI32 ct sz rt ra imm => Sys2Proof.Machine.execAdcI32 ct sz rt ra imm s
  | .adcI64 ct sz rt ra imm => Sys2Proof.Machine.execAdcI64 ct sz rt ra imm s
  | .adcI10 ct sz rt ra imm => Sys2Proof.Machine.execAdcI10 ct sz rt ra imm s
  | .addRR ct sz rt ra rb => Sys2Proof.Machine.execAddRR ct sz rt ra rb s
  | .addI32 ct sz rt ra imm => Sys2Proof.Machine.execAddI32 ct sz rt ra imm s
  | .addI64 ct sz rt ra imm => Sys2Proof.Machine.execAddI64 ct sz rt ra imm s
  | .addI10 ct sz rt ra imm => Sys2Proof.Machine.execAddI10 ct sz rt ra imm s
  | .subRR ct sz rt ra rb => Sys2Proof.Machine.execSubRR ct sz rt ra rb s
  | .subI32 ct sz rt ra swap imm => Sys2Proof.Machine.execSubI32 ct sz rt ra swap imm s
  | .subI64 ct sz rt ra swap imm => Sys2Proof.Machine.execSubI64 ct sz rt ra swap imm s
  | .subI10 ct sz rt ra swap imm => Sys2Proof.Machine.execSubI10 ct sz rt ra swap imm s
  | .mulsRR ct sz rt ra rb rp => Sys2Proof.Machine.execMulsRR ct sz rt ra rb rp s
  | .mulsI32 ct sz rt ra imm => Sys2Proof.Machine.execMulsI32 ct sz rt ra imm s
  | .mulsI64 ct sz rt ra imm => Sys2Proof.Machine.execMulsI64 ct sz rt ra imm s
  | .mulsI10 ct sz rt ra imm => Sys2Proof.Machine.execMulsI10 ct sz rt ra imm s
  | .muluRR ct sz rt ra rb rp => Sys2Proof.Machine.execMuluRR ct sz rt ra rb rp s
  | .muluI32 ct sz rt ra imm => Sys2Proof.Machine.execMuluI32 ct sz rt ra imm s
  | .muluI64 ct sz rt ra imm => Sys2Proof.Machine.execMuluI64 ct sz rt ra imm s
  | .muluI10 ct sz rt ra imm => Sys2Proof.Machine.execMuluI10 ct sz rt ra imm s
  | .divuRR ct sz rt ra rb rr => Sys2Proof.Machine.execDivuRR ct sz rt ra rb rr s
  | .divuI32 ct sz rt ra swap imm => Sys2Proof.Machine.execDivuI32 ct sz rt ra swap imm s
  | .divuI64 ct sz rt ra swap imm => Sys2Proof.Machine.execDivuI64 ct sz rt ra swap imm s
  | .divsRR ct sz rt ra rb rr => Sys2Proof.Machine.execDivsRR ct sz rt ra rb rr s
  | .divsI32 ct sz rt ra swap imm => Sys2Proof.Machine.execDivsI32 ct sz rt ra swap imm s
  | .divsI64 ct sz rt ra swap imm => Sys2Proof.Machine.execDivsI64 ct sz rt ra swap imm s
  | .divsI10 ct sz rt ra swap imm => Sys2Proof.Machine.execDivsI10 ct sz rt ra swap imm s
  | .andRR ct sz rt ra rb => Sys2Proof.Machine.execAndRR ct sz rt ra rb s
  | .andI32 ct sz rt ra imm => Sys2Proof.Machine.execAndI32 ct sz rt ra imm s
  | .andI64 ct sz rt ra imm => Sys2Proof.Machine.execAndI64 ct sz rt ra imm s
  | .andI10 ct sz rt ra imm => Sys2Proof.Machine.execAndI10 ct sz rt ra imm s
  | .orRR ct sz rt ra rb => Sys2Proof.Machine.execOrRR ct sz rt ra rb s
  | .orI32 ct sz rt ra imm => Sys2Proof.Machine.execOrI32 ct sz rt ra imm s
  | .orI64 ct sz rt ra imm => Sys2Proof.Machine.execOrI64 ct sz rt ra imm s
  | .orI10 ct sz rt ra imm => Sys2Proof.Machine.execOrI10 ct sz rt ra imm s
  | .eorRR ct sz rt ra rb => Sys2Proof.Machine.execEorRR ct sz rt ra rb s
  | .eorI32 ct sz rt ra imm => Sys2Proof.Machine.execEorI32 ct sz rt ra imm s
  | .eorI64 ct sz rt ra imm => Sys2Proof.Machine.execEorI64 ct sz rt ra imm s
  | .eorI10 ct sz rt ra imm => Sys2Proof.Machine.execEorI10 ct sz rt ra imm s
  | .bclrReg ct sz rt ra rb => Sys2Proof.Machine.execBclrReg ct sz rt ra rb s
  | .bclrImm ct sz rt ra imm => Sys2Proof.Machine.execBclrImm ct sz rt ra imm s
  | .bsetReg ct sz rt ra rb => Sys2Proof.Machine.execBsetReg ct sz rt ra rb s
  | .bsetImm ct sz rt ra imm => Sys2Proof.Machine.execBsetImm ct sz rt ra imm s
  | .bchgReg ct sz rt ra rb => Sys2Proof.Machine.execBchgReg ct sz rt ra rb s
  | .bchgImm ct sz rt ra imm => Sys2Proof.Machine.execBchgImm ct sz rt ra imm s
  | .btstReg ct sz ra rb => Sys2Proof.Machine.execBtstReg ct sz ra rb s
  | .btstImm ct sz ra imm => Sys2Proof.Machine.execBtstImm ct sz ra imm s
  | .bpclrReg ct sz rt ra rb => Sys2Proof.Machine.execBpclrReg ct sz rt ra rb s
  | .bpclrImm ct sz rt ra imm => Sys2Proof.Machine.execBpclrImm ct sz rt ra imm s
  | .bpchgReg ct sz rt ra rb => Sys2Proof.Machine.execBpchgReg ct sz rt ra rb s
  | .bpchgImm ct sz rt ra imm => Sys2Proof.Machine.execBpchgImm ct sz rt ra imm s
  | .bptstReg ct sz ra rb => Sys2Proof.Machine.execBptstReg ct sz ra rb s
  | .bptstImm ct sz ra imm => Sys2Proof.Machine.execBptstImm ct sz ra imm s
  | .aslReg ct sz fill rt ra rb => Sys2Proof.Machine.execAslReg ct sz fill rt ra rb s
  | .aslImm ct sz fill rt ra imm => Sys2Proof.Machine.execAslImm ct sz fill rt ra imm s
  | .asrReg ct sz rt ra rb => Sys2Proof.Machine.execAsrReg ct sz rt ra rb s
  | .asrImm ct sz rt ra imm => Sys2Proof.Machine.execAsrImm ct sz rt ra imm s
  | .lslReg ct sz fill rt ra rb => Sys2Proof.Machine.execLslReg ct sz fill rt ra rb s
  | .lslImm ct sz fill rt ra imm => Sys2Proof.Machine.execLslImm ct sz fill rt ra imm s
  | .lsrReg ct sz fill rt ra rb => Sys2Proof.Machine.execLsrReg ct sz fill rt ra rb s
  | .lsrImm ct sz fill rt ra imm => Sys2Proof.Machine.execLsrImm ct sz fill rt ra imm s
  | .rolReg ct sz fill rt ra rb => Sys2Proof.Machine.execRolReg ct sz fill rt ra rb s
  | .rolImm ct sz fill rt ra imm => Sys2Proof.Machine.execRolImm ct sz fill rt ra imm s
  | .rolcReg ct sz fill rt ra rb => Sys2Proof.Machine.execRolcReg ct sz fill rt ra rb s
  | .rolcImm ct sz fill rt ra imm => Sys2Proof.Machine.execRolcImm ct sz fill rt ra imm s
  | .rorReg ct sz fill rt ra rb => Sys2Proof.Machine.execRorReg ct sz fill rt ra rb s
  | .rorImm ct sz fill rt ra imm => Sys2Proof.Machine.execRorImm ct sz fill rt ra imm s
  | .rorcReg ct sz fill rt ra rb => Sys2Proof.Machine.execRorcReg ct sz fill rt ra rb s
  | .rorcImm ct sz fill rt ra imm => Sys2Proof.Machine.execRorcImm ct sz fill rt ra imm s
  | .rts arg rpt => Sys2Proof.Machine.execRts arg rpt s
  | .rti arg rpt => Sys2Proof.Machine.execRti arg rpt s
  | .arti arg rpt => Sys2Proof.Machine.execArti arg rpt s
  | .loadX sz rt rb rc d => Sys2Proof.Machine.execLoadX sz rt rb rc d s
  | .load sz md rt rb d => Sys2Proof.Machine.execLoad sz md rt rb d s
  | .loadmX sz skip list special rb rc d => Sys2Proof.Machine.execLoadmX sz skip list special rb rc d s
  | .loadm sz md skip list special rb d => Sys2Proof.Machine.execLoadm sz md skip list special rb d s
  | .pushT ra => Sys2Proof.Machine.execPushT ra s
  | .pushO ra => Sys2Proof.Machine.execPushO ra s
  | .storeX sz ra rb rc d => Sys2Proof.Machine.execStoreX sz ra rb rc d s
  | .store sz md ra rb d => Sys2Proof.Machine.execStore sz md ra rb d s
  | .storeImmX sz imm rb rc d => Sys2Proof.Machine.execStoreImmX sz imm rb rc d s
  | .storeImm sz md imm rb d => Sys2Proof.Machine.execStoreImm sz md imm rb d s
  | .storemX sz skip list special rb rc d => Sys2Proof.Machine.execStoremX sz skip list special rb rc d s
  | .storem sz md skip list special rb d => Sys2Proof.Machine.execStorem sz md skip list special rb d s
  | .peaX sz rb rc d => Sys2Proof.Machine.execPeaX sz rb rc d s
  | .pea sz md rb d => Sys2Proof.Machine.execPea sz md rb d s
  | .fma bits => Sys2Proof.Machine.execFma bits s
  | .fms bits => Sys2Proof.Machine.execFms bits s
  | .fnma bits => Sys2Proof.Machine.execFnma bits s
  | .fnms bits => Sys2Proof.Machine.execFnms bits s
  | .jmpReg ra rb => Sys2Proof.Machine.execJmpReg ra rb s
  | .jmpI32 ra imm => Sys2Proof.Machine.execJmpI32 ra imm s
  | .jmpI64 ra imm => Sys2Proof.Machine.execJmpI64 ra imm s
  | .jmpI10 ra imm => Sys2Proof.Machine.execJmpI10 ra imm s
  | .jsrReg g ra rb => Sys2Proof.Machine.execJsrReg g ra rb s
  | .jsrI32 g ra imm => Sys2Proof.Machine.execJsrI32 g ra imm s
  | .jsrI64 g ra imm => Sys2Proof.Machine.execJsrI64 g ra imm s
  | .jsrI10 g ra imm => Sys2Proof.Machine.execJsrI10 g ra imm s
  | .loadq ct sz rt imm => Sys2Proof.Machine.execLoadq ct sz rt imm s
  | .bra disp => Sys2Proof.Machine.execBra disp s
  | .bsr disp => Sys2Proof.Machine.execBsr disp s
  | .bcc cond cr disp => Sys2Proof.Machine.execBcc cond cr disp s
  | .dbcc cond cr disp => Sys2Proof.Machine.execDbcc cond cr disp s

end Sys2Proof.Machine
end

