-- ==== Sys2Proof/Machine/Fetch.lean ====
section
/-! DEFINITION. Fetching the words of an instruction from memory and decoding them (`spec/20_memory.md` R65, R74,
`30_encoding.md` R117 to R120, the order of checks of `60_exceptions.md` R326), and placing an instruction where it is
fetched. -/

namespace Sys2Proof.Machine

/-- Why a fetch gives no instruction: a system exception with the program counter of the instruction, or a refusal. -/
inductive FetchStop where
  | raise (v : SysVector)
  | refuse (r : Refusal)
deriving DecidableEq, Repr

/-- What a word that is no instruction leads to (R117, R118). `truncated` is never the answer of `decodeWord`. -/
def rejectStop : Reject → FetchStop
  | .unassigned => .raise vecUnimplemented
  | .unsupportedSize => .raise vecUnimplemented
  | .reservedField => .refuse .reservedField
  | .legacyRegister => .refuse .legacyRegister
  | .legacyMode => .refuse .legacyMode
  | .callTargetBit => .refuse .callTargetCheck
  | .jumpSize => .refuse .jumpSize
  | .cacheBit => .refuse .cacheBit
  | .reservedEscape => .refuse .reservedEscape
  | .lowDisplacement => .refuse .lowDisplacement
  | .unsupportedMode => .refuse .unsupportedMode
  | .truncated => .refuse .pastTopOfMemory

/-- The k-th word of the instruction at `pc` (R65): Bus Error where the platform does not allow the fetch; refused where
the word reaches past the top of memory (R26), or holds a byte stored since reset and IFETCH_COHERENT is false (R74). DESIGN
CHOICE (log entry 24): R326 does not place R74 among the fetch checks; here a word that fails both raises Bus Error, and both
are settled for one word before the next is fetched. -/
def fetchWord (s : State) (k : Nat) : Except FetchStop InsnWord :=
  let a := s.pcNext k
  if 2 ^ 64 < s.pc.toNat + 4 * k + 4 then .error (.refuse .pastTopOfMemory)
  else if memOk s.params.map a 4 .fetch = false then .error (.raise vecBusError)
  else if !s.params.ifetchCoherent && s.stored.hasRange a 4 then .error (.refuse .fetchOfStoredByte)
  else .ok ((s.mem.readLE a 4).setWidth 32)

/-- The n words from the k-th on, in ascending order (R65, R96). -/
def fetchWords (s : State) : Nat → Nat → Except FetchStop (List InsnWord)
  | _, 0 => .ok []
  | k, n + 1 =>
    match fetchWord s k with
    | .error e => .error e
    | .ok w =>
      match fetchWords s (k + 1) n with
      | .error e => .error e
      | .ok ws => .ok (w :: ws)

/-- The extension words that the first word calls for (R120). An unassigned first word calls for none: its length is not
needed (R118). -/
def extWordsToFetch (strict : Bool) (w : InsnWord) : Nat :=
  if decodeWord strict w [] = .reject .unassigned then 0 else extWordsOf w

/-- Fetches and decodes the instruction at `pc`, with the checks in the order of R326: the alignment of `pc` (R244), the
fetch of each word in order, then decoding. -/
def fetchInstr (s : State) : Except FetchStop Instr :=
  if s.pc.toNat % 4 ≠ 0 then .error (.raise vecAddressError)
  else
    match fetchWord s 0 with
    | .error e => .error e
    | .ok w =>
      match fetchWords s 1 (extWordsToFetch s.params.strictReserved w) with
      | .error e => .error e
      | .ok ext =>
        match decodeWord s.params.strictReserved w ext with
        | .instr i => .ok i
        | .reject r => .error (rejectStop r)

/-- Stores a list of bytes from address `a` up, as a loader does: they do not count as stored by the program (R74). -/
def State.loadBytes : List Byte → Word → State → State
  | [], _, s => s
  | b :: bs, a, s =>
    State.loadBytes bs (a + 1#64) { s with mem := s.mem.write a.toNat b, stored := s.stored.remove a.toNat }

/-- Stores the words of an instruction at `pc`. -/
def State.loadWords (ws : List InsnWord) (s : State) : State := State.loadBytes (ws.flatMap bytesOfWord) s.pc s

end Sys2Proof.Machine
end

