-- ==== Sys2Proof/Machine/Cycle.lean ====
section
/-! DEFINITION. What one step does, in the order of `spec/60_exceptions.md` R326: the stuck state, the interrupt, the refused
modes, the fetch, the decoding, the instruction. -/

namespace Sys2Proof.Machine

/-- The instruction at `pc`: refused with `SR.T` = 1 (R320) or `SR.N` = 1 (R69); else fetched, decoded and run. -/
def runInstr (s : State) : Result :=
  if s.trace then .refused .traceMode
  else if s.near then .refused .shortAddressing
  else match fetchInstr s with
    | .ok i => exec i s
    | .error (.raise v) => .next (sysException v s.pc s)
    | .error (.refuse r) => .refused r

/-- One step: no step is defined in the stuck state (R355 a); an interrupt request above the mask is taken before the fetch
(R322), else the instruction at `pc` runs. -/
def cycle (s : State) : Result :=
  if s.stuck then .fault .stuck
  else if s.interruptAccepted then .next (takeInterrupt s.irqLevel s.nextBoundary)
  else runInstr s.nextBoundary

/-- No request at the next instruction boundary. -/
def State.quiet (s : State) : State :=
  match s.irq with
  | [] => s
  | _ :: rest => { s with irq := 0#3 :: rest }

end Sys2Proof.Machine
end

