-- ==== Sys2Proof/Machine/Step.lean ====
section
/-! DEFINITION. The step function, and placing an instruction where the next step fetches it. -/

namespace Sys2Proof.Machine

/-- One step of the machine (`Machine/Cycle.lean`). -/
def step (s : State) : Host.Outcome State Fault Refusal := cycle s

/-- The state with the instruction of the opcode table's numbering placed at `pc` as a loader would, and no interrupt
request at the next boundary (log entry 6). -/
def State.withFetchWord (s : State) (nbits w : Nat) : State := (s.loadWords (tableWords nbits w)).quiet

end Sys2Proof.Machine
end

