-- ==== Sys2Proof/Safety.lean ====
section
/-! DEFINITION. The terms the claims use: the invariant of the machine, safe steps and runs, what an instruction leaves
unchanged, what a result does to a register, to flags and to memory, and what taking an exception does. -/

namespace Sys2Proof.Machine

/-! ## The invariant, steps and runs -/

/-- The invariant of the machine: memory and the set of stored bytes in canonical form (R60, R74), and the bits of SR and AC
that have no field zero (R31, R34). -/
structure State.Inv (s : State) : Prop where
  mem    : s.mem.wf = true
  stored : s.stored.wf = true
  sr     : s.sr &&& ~~~srMask = 0#32
  ac     : s.ac &&& ~~~acMask = 0#64

/-- The step ends in a next state: no fault and no refusal. -/
def StepsTo (s t : State) : Prop := step s = .next t

/-- A run of n steps from `s` that meets neither a fault nor a refusal ends in `t`. -/
def RunsTo : Nat → State → State → Prop
  | 0, s, t => s = t
  | n + 1, s, t => ∃ u, StepsTo s u ∧ RunsTo n u t

/-- A rule answers a next state, and `P` holds of it. -/
def Completes (r : Result) (P : State → Prop) : Prop := ∃ t, r = .next t ∧ P t

/-! ## What an instruction needs in order to complete -/

/-- The next instruction starts below 2^64 (R26); `words` is the length of this one. -/
abbrev Room (words : Nat) (s : State) : Prop := s.pc.toNat + 4 * words < 2 ^ 64

/-- An access of n bytes at `a` succeeds (R63, R64, R68). -/
abbrev CanAccess (s : State) (k : AccessKind) (a : Word) (n : Nat) : Prop :=
  (s.params.misaligned = .split ∨ a.toNat % n = 0) ∧ memOk s.params.map a n k = true

/-- The vector of the exception a failing access raises (R63): Address Error before Bus Error. -/
def faultVector (s : State) (a : Word) (n : Nat) : SysVector :=
  if s.params.misaligned = .addressError ∧ a.toNat % n ≠ 0 then 3#8 else 2#8

/-! ## What stays -/

/-- The stack pointer that register 31 does not name in the current mode (R22). -/
def State.otherSp (s : State) : Word := if s.supervisor then s.usp else s.ssp

/-- The registers and the special state outside the general registers `regs`, the condition registers `crs`, the program
counter and memory are unchanged; register 0 always is. -/
structure KeepsRest (regs : List Reg) (crs : List CReg) (s t : State) : Prop where
  x       : ∀ i, i ∉ regs ∨ i = 0#5 → t.x i = s.x i
  otherSp : t.otherSp = s.otherSp
  cr      : ∀ n, n ∉ crs → t.cr n = s.cr n
  sr      : t.sr = s.sr
  lc      : t.lc = s.lc
  ac      : t.ac = s.ac
  vb      : t.vb = s.vb
  stuck   : t.stuck = s.stuck
  irq     : t.irq = s.irq
  params  : t.params = s.params

/-- Every general register and both stack pointers are unchanged. -/
structure KeepsFile (s t : State) : Prop where
  gpr : t.gpr = s.gpr
  usp : t.usp = s.usp
  ssp : t.ssp = s.ssp

/-- Every byte of memory is unchanged, and no byte is recorded as stored. -/
structure KeepsMemory (s t : State) : Prop where
  byte   : ∀ b, t.mem.read b = s.mem.read b
  stored : t.stored = s.stored

/-- `b` is one of the n bytes from `a` up. -/
def InBlock (a : Word) (n b : Nat) : Prop := ∃ k, k < n ∧ b = (a + BitVec.ofNat 64 k).toNat

/-- Of memory, at most the n bytes from `a` up change, and exactly they are recorded as stored (R74). -/
structure StoresBlock (a : Word) (n : Nat) (s t : State) : Prop where
  outside : ∀ b, ¬ InBlock a n b → t.mem.read b = s.mem.read b
  stored  : ∀ b, t.stored.has b = true ↔ s.stored.has b = true ∨ InBlock a n b

/-- The n bytes from `a` up hold the low n bytes of `v`, little-endian (R62), and no other byte of memory changes. -/
structure StoresValue (a : Word) (n : Nat) (v : Word) (s t : State) : Prop where
  inside : ∀ k, k < n → t.mem.read (a + BitVec.ofNat 64 k).toNat = v.extractLsb' (8 * k) 8
  block  : StoresBlock a n s t

/-! ## Results -/

/-- The value `new` of a register that held `old`, after a write of the w-bit result `r` (R8): its low w bits are `r`, and the
bits above follow NARROW_WB, under `any` in no way that is fixed. -/
def HoldsResult {w : Nat} (p : Params) (r : BitVec w) (old new : Word) : Prop :=
  new.setWidth w = r ∧
  (w < 64 →
    (p.narrowWb = .preserve → new >>> w = old >>> w) ∧ (p.narrowWb = .sext → new.toInt = r.toInt) ∧
    (p.narrowWb = .zext → new.toNat = r.toNat))

/-- What writing the w-bit result `r` to register `rt` does to that register (R8). Register 0 is not written (R21). -/
def WritesResult {w : Nat} (rt : Reg) (r : BitVec w) (s t : State) : Prop :=
  rt ≠ 0#5 → HoldsResult s.params r (s.x rt) (t.x rt)

/-- The four flags nf, zf, vf, cf of a condition register (R29). -/
def FlagsAre (f : BitVec 4) (nf zf vf cf : Prop) : Prop :=
  (f.getLsbD 3 = true ↔ nf) ∧ (f.getLsbD 2 = true ↔ zf) ∧ (f.getLsbD 1 = true ↔ vf) ∧ (f.getLsbD 0 = true ↔ cf)

/-- The flags of an instruction whose text mentions nf and zf only (R131, D8). -/
def NegativeAndZero (ct : CReg) (nf zf : Prop) (s t : State) : Prop :=
  ((t.cr ct).getLsbD 3 = true ↔ nf) ∧ ((t.cr ct).getLsbD 2 = true ↔ zf) ∧
  (s.params.unmentionedFlags = .unchanged →
    (t.cr ct).getLsbD 1 = (s.cr ct).getLsbD 1 ∧ (t.cr ct).getLsbD 0 = (s.cr ct).getLsbD 0)

/-- The flags of an instruction whose text mentions zf only (R131, D8). -/
def ZeroOnly (ct : CReg) (zf : Prop) (s t : State) : Prop :=
  ((t.cr ct).getLsbD 2 = true ↔ zf) ∧
  (s.params.unmentionedFlags = .unchanged →
    (t.cr ct).getLsbD 3 = (s.cr ct).getLsbD 3 ∧ (t.cr ct).getLsbD 1 = (s.cr ct).getLsbD 1 ∧
    (t.cr ct).getLsbD 0 = (s.cr ct).getLsbD 0)

/-- The end of an instruction of `words` words that writes at most the registers `regs` and the condition registers `crs`,
and no memory. -/
structure EndsAt (words : Nat) (regs : List Reg) (crs : List CReg) (s t : State) : Prop where
  pc     : t.pc = s.pc + BitVec.ofNat 64 (4 * words)
  rest   : KeepsRest regs crs s t
  memory : KeepsMemory s t

/-- An operand pattern of width w for an immediate of n bits: the pattern that denotes the same signed number modulo 2^w
(R97, R130). -/
def immediateAt (w : Nat) {n : Nat} (imm : BitVec n) : BitVec w := BitVec.ofInt w imm.toInt

/-! ## Exceptions -/

/-- The address of entry `v` of the system vector table (R67). -/
def systemEntryAddress (s : State) (v : SysVector) : Word := (s.vb &&& ~~~0x7FF#64) + BitVec.ofNat 64 (8 * v.toNat)

/-- The address of entry `v` of the application vector table (R67). -/
def appEntryAddress (s : State) (v : AppVector) : Word := (s.ac &&& ~~~0xFF#64) + BitVec.ofNat 64 (8 * v.toNat)

/-- The four accesses of system exception entry succeed (R313). -/
abbrev CanEnterSystem (v : SysVector) (s : State) : Prop :=
  CanAccess s .write (s.ssp - 8#64) 8 ∧ CanAccess s .write (s.ssp - 16#64) 8 ∧ CanAccess s .write (s.ssp - 24#64) 8 ∧
  CanAccess s .read (systemEntryAddress s v) 8

/-- What a system exception does (R313): from `s`, with vector `v` and saved program counter `ret`, to `t`. -/
structure EntersSystem (v : SysVector) (ret : Word) (s t : State) : Prop where
  pc     : t.pc = t.mem.readLE (systemEntryAddress s v) 8
  ssp    : t.ssp = s.ssp - 24#64
  oldSr  : t.mem.readLE t.ssp 8 = s.sr.setWidth 64
  oldCc  : t.mem.readLE (t.ssp + 8#64) 8 = s.ccrg.setWidth 64
  oldPc  : t.mem.readLE (t.ssp + 16#64) 8 = ret
  memory : StoresBlock (s.ssp - 24#64) 24 s t
  sr     : t.sr = s.sr ||| 0x00002000#32
  gpr    : t.gpr = s.gpr
  usp    : t.usp = s.usp
  ccrg   : t.ccrg = s.ccrg
  lc     : t.lc = s.lc
  ac     : t.ac = s.ac
  vb     : t.vb = s.vb
  stuck  : t.stuck = s.stuck
  irq    : t.irq = s.irq
  params : t.params = s.params

/-- The three accesses of application exception entry succeed (R314). -/
abbrev CanEnterApp (v : AppVector) (s : State) : Prop :=
  CanAccess s .write (s.x 31#5 - 8#64) 8 ∧ CanAccess s .write (s.x 31#5 - 16#64) 8 ∧
  CanAccess s .read (appEntryAddress s v) 8

/-- What an application exception does (R314). -/
structure EntersApp (v : AppVector) (ret : Word) (s t : State) : Prop where
  pc     : t.pc = t.mem.readLE (appEntryAddress s v) 8
  sp     : t.x 31#5 = s.x 31#5 - 16#64
  oldCc  : t.mem.readLE (t.x 31#5) 8 = s.ccrg.setWidth 64
  oldPc  : t.mem.readLE (t.x 31#5 + 8#64) 8 = ret
  memory : StoresBlock (s.x 31#5 - 16#64) 16 s t
  rest   : KeepsRest [31#5] [] s t

/-- The step is about to run the instruction at `pc`: the machine is not stuck, no request is above the mask, and trace mode
and short addressing are off (R326). -/
abbrev RunsInstruction (s : State) : Prop :=
  s.stuck = false ∧ s.irqLevel.toNat ≤ s.ipl.toNat ∧ s.trace = false ∧ s.near = false

/-- The words `ws` stand at `pc`, aligned, below 2^64, where the platform allows the fetch, and no byte of them was stored
since reset unless the fetch is coherent with stores (R65, R68, R74). -/
def CodeAt (s : State) (ws : List InsnWord) : Prop :=
  s.pc.toNat % 4 = 0 ∧ s.pc.toNat + 4 * ws.length ≤ 2 ^ 64 ∧
  ∀ k, (h : k < ws.length) →
    memOk s.params.map (s.pc + BitVec.ofNat 64 (4 * k)) 4 .fetch = true ∧
    (s.params.ifetchCoherent = true ∨ ∀ b, InBlock (s.pc + BitVec.ofNat 64 (4 * k)) 4 b → s.stored.has b = false) ∧
    (s.mem.readLE (s.pc + BitVec.ofNat 64 (4 * k)) 4).setWidth 32 = ws[k]

end Sys2Proof.Machine
end

