-- ==== Sys2Proof/Certificates/Slice0/Obligations.lean ====
section
/-! DEFINITION. The statements for the provers, from the numbered rules of `spec/`. What an instruction does to its operands is
written here with the plain arithmetic of integers and bit vectors; the terms for what it leaves unchanged are those of
`Sys2Proof/Safety.lean`. `Derived:` in a docstring names what the statement rests on beyond the source's own words: rows D<n> of
`spec/92_eei_decisions.md`, which are the spec's own choices, and entries of the assumption log. -/

namespace Sys2Proof.Claims

open Sys2Proof.Machine

/-! ## Effects, each from a state `s` to the state `t` after the instruction -/

/-- A sum of `a`, `b` and a carry of 0 or 1 (R133, R134, R11). The zero flag is `zf`. -/
def SumEffect {w : Nat} (ct : CReg) (rt : Reg) (a b : BitVec w) (carry : Nat) (zf : Prop) (words : Nat) (s t : State) : Prop :=
  let r := BitVec.ofNat w (a.toNat + b.toNat + carry)
  WritesResult rt r s t ∧
  FlagsAre (t.cr ct) (r.toInt < 0) (r = 0#w ∧ zf) (r.toInt ≠ a.toInt + b.toInt + carry) (2 ^ w ≤ a.toNat + b.toNat + carry) ∧
  EndsAt words [rt] [ct] s t

/-- ADD (R134). -/
def AddEffect {w : Nat} (ct : CReg) (rt : Reg) (a b : BitVec w) (words : Nat) (s t : State) : Prop :=
  SumEffect ct rt a b 0 True words s t

/-- ADC (R133): the carry in is that of `CR[Ct]`; a zero result leaves the zero flag as it was. -/
def AdcEffect {w : Nat} (ct : CReg) (rt : Reg) (a b : BitVec w) (words : Nat) (s t : State) : Prop :=
  SumEffect ct rt a b ((s.cr ct).getLsbD 0).toNat ((s.cr ct).getLsbD 2 = true) words s t

/-- The flags of a difference `a - b` (R11, R136, R150); the carry is the borrow. -/
def DifferenceFlags {w : Nat} (f : BitVec 4) (a b : BitVec w) : Prop :=
  FlagsAre f ((a - b).toInt < 0) (a = b) ((a - b).toInt ≠ a.toInt - b.toInt) (a.toNat < b.toNat)

/-- SUB (R150). -/
def SubEffect {w : Nat} (ct : CReg) (rt : Reg) (a b : BitVec w) (words : Nat) (s t : State) : Prop :=
  WritesResult rt (a - b) s t ∧ DifferenceFlags (t.cr ct) a b ∧ EndsAt words [rt] [ct] s t

/-- CMP (R136) and what the branch conditions say after it (R230): the ten integer relations. -/
def CmpEffect {w : Nat} (ct : CReg) (a b : BitVec w) (words : Nat) (s t : State) : Prop :=
  DifferenceFlags (t.cr ct) a b ∧
  (condHolds .hi (t.cr ct) = true ↔ b.toNat < a.toNat) ∧ (condHolds .ls (t.cr ct) = true ↔ a.toNat ≤ b.toNat) ∧
  (condHolds .cc (t.cr ct) = true ↔ b.toNat ≤ a.toNat) ∧ (condHolds .cs (t.cr ct) = true ↔ a.toNat < b.toNat) ∧
  (condHolds .ne (t.cr ct) = true ↔ a ≠ b) ∧ (condHolds .eq (t.cr ct) = true ↔ a = b) ∧
  (condHolds .ge (t.cr ct) = true ↔ b.toInt ≤ a.toInt) ∧ (condHolds .lt (t.cr ct) = true ↔ a.toInt < b.toInt) ∧
  (condHolds .gt (t.cr ct) = true ↔ b.toInt < a.toInt) ∧ (condHolds .le (t.cr ct) = true ↔ a.toInt ≤ b.toInt) ∧
  EndsAt words [] [ct] s t

/-- The low half of a product and its flags (R147, R148): `exact` says that the result is the product itself. The carry is
free (D19), so nothing is said of it. -/
def ProductEffect {w : Nat} (ct : CReg) (rt : Reg) (r : BitVec w) (exact : Prop) (s t : State) : Prop :=
  WritesResult rt r s t ∧
  ((t.cr ct).getLsbD 3 = true ↔ r.toInt < 0) ∧ ((t.cr ct).getLsbD 2 = true ↔ r = 0#w) ∧
  ((t.cr ct).getLsbD 1 = false ↔ exact)

/-- MULS with an immediate (R147, R152). -/
def MulsEffect {w : Nat} (ct : CReg) (rt : Reg) (a b : BitVec w) (words : Nat) (s t : State) : Prop :=
  ProductEffect ct rt (a * b) ((a * b).toInt = a.toInt * b.toInt) s t ∧ EndsAt words [rt] [ct] s t

/-- MULU with an immediate (R148, R152). -/
def MuluEffect {w : Nat} (ct : CReg) (rt : Reg) (a b : BitVec w) (words : Nat) (s t : State) : Prop :=
  ProductEffect ct rt (a * b) ((a * b).toNat = a.toNat * b.toNat) s t ∧ EndsAt words [rt] [ct] s t

/-- The register form of MULS (R147): `Rp` gets the high half of the exact signed product. -/
def MulsHighEffect {w : Nat} (ct : CReg) (rt rp : Reg) (a b : BitVec w) (s t : State) : Prop :=
  ProductEffect ct rt (a * b) ((a * b).toInt = a.toInt * b.toInt) s t ∧
  WritesResult rp (BitVec.ofInt w (a.toInt * b.toInt / 2 ^ w)) s t ∧ EndsAt 1 [rt, rp] [ct] s t

/-- The register form of MULU (R148): `Rp` gets the high half of the exact unsigned product. -/
def MuluHighEffect {w : Nat} (ct : CReg) (rt rp : Reg) (a b : BitVec w) (s t : State) : Prop :=
  ProductEffect ct rt (a * b) ((a * b).toNat = a.toNat * b.toNat) s t ∧
  WritesResult rp (BitVec.ofNat w (a.toNat * b.toNat / 2 ^ w)) s t ∧ EndsAt 1 [rt, rp] [ct] s t

/-- `q` and `rem` are the quotient, rounded toward zero, and the remainder of a signed division (R143, R153). -/
def SignedDivision {w : Nat} (a b q rem : BitVec w) : Prop :=
  a.toInt = q.toInt * b.toInt + rem.toInt ∧ |rem.toInt| < |b.toInt| ∧
  (rem.toInt = 0 ∨ (rem.toInt < 0 ↔ a.toInt < 0))

/-- `q` and `rem` are the quotient and the remainder of an unsigned division (R144, R153). -/
def UnsignedDivision {w : Nat} (a b q rem : BitVec w) : Prop :=
  a.toNat = q.toNat * b.toNat + rem.toNat ∧ rem.toNat < b.toNat

/-- The signed quotient that has no representation (R143). -/
def SignedQuotientOverflows {w : Nat} (a b : BitVec w) : Prop := a = BitVec.intMin w ∧ b = BitVec.allOnes w

/-- DIVS (R143): `rr` is the remainder register where the form has one. Where the quotient cannot be represented, only
vf and cf have a value. -/
def DivsEffect {w : Nat} (ct : CReg) (rt : Reg) (rr : Option Reg) (a b : BitVec w) (words : Nat) (s t : State) : Prop :=
  (SignedQuotientOverflows a b → (t.cr ct).getLsbD 1 = true ∧ (t.cr ct).getLsbD 0 = false) ∧
  (¬ SignedQuotientOverflows a b → ∃ q rem, SignedDivision a b q rem ∧ WritesResult rt q s t ∧
    (∀ i, rr = some i → WritesResult i rem s t) ∧ FlagsAre (t.cr ct) (q.toInt < 0) (q = 0#w) False False) ∧
  EndsAt words (rt :: rr.toList) [ct] s t

/-- DIVU (R144). -/
def DivuEffect {w : Nat} (ct : CReg) (rt : Reg) (rr : Option Reg) (a b : BitVec w) (words : Nat) (s t : State) : Prop :=
  (∃ q rem, UnsignedDivision a b q rem ∧ WritesResult rt q s t ∧ (∀ i, rr = some i → WritesResult i rem s t) ∧
    FlagsAre (t.cr ct) (q.toInt < 0) (q = 0#w) False False) ∧
  EndsAt words (rt :: rr.toList) [ct] s t

/-- A result whose text mentions nf and zf (R135, R145, R146, R149). -/
def LogicEffect {w : Nat} (ct : CReg) (rt : Reg) (r : BitVec w) (words : Nat) (s t : State) : Prop :=
  WritesResult rt r s t ∧ NegativeAndZero ct (r.toInt < 0) (r = 0#w) s t ∧ EndsAt words [rt] [ct] s t

/-- A result with all four flags (R211). -/
def ShiftEffect {w : Nat} (ct : CReg) (rt : Reg) (r : BitVec w) (vf : Prop) (count : Nat) (cf : Prop) (s t : State) : Prop :=
  WritesResult rt r s t ∧
  ((t.cr ct).getLsbD 3 = true ↔ r.toInt < 0) ∧ ((t.cr ct).getLsbD 2 = true ↔ r = 0#w) ∧ ((t.cr ct).getLsbD 1 = true ↔ vf) ∧
  (count ≠ 0 → ((t.cr ct).getLsbD 0 = true ↔ cf)) ∧ EndsAt 1 [rt] [ct] s t

/-- `a` shifted left n places, each place filled with `fill`, with the bits shifted out above bit w-1. -/
def leftShifted {w : Nat} (a : BitVec w) (fill : Bool) (n : Nat) : Nat := a.toNat * 2 ^ n + (if fill then 2 ^ n - 1 else 0)

/-- ASL (R212): the overflow flag says that bit w-1 changed at some step. -/
def AslEffect {w : Nat} (ct : CReg) (fill : Bool) (rt : Reg) (a : BitVec w) (n : Nat) (s t : State) : Prop :=
  ShiftEffect ct rt (BitVec.ofNat w (leftShifted a fill n))
    (∃ k, k < n ∧ (BitVec.ofNat w (leftShifted a fill k)).msb ≠ (BitVec.ofNat w (leftShifted a fill (k + 1))).msb)
    n (leftShifted a fill n / 2 ^ w % 2 = 1) s t

/-- LSL (R214). -/
def LslEffect {w : Nat} (ct : CReg) (fill : Bool) (rt : Reg) (a : BitVec w) (n : Nat) (s t : State) : Prop :=
  ShiftEffect ct rt (BitVec.ofNat w (leftShifted a fill n)) False n (leftShifted a fill n / 2 ^ w % 2 = 1) s t

/-- ASR (R213): the floor of the signed quotient by 2^n, and the last bit shifted out. -/
def AsrEffect {w : Nat} (ct : CReg) (rt : Reg) (a : BitVec w) (n : Nat) (s t : State) : Prop :=
  ShiftEffect ct rt (BitVec.ofInt w (a.toInt / 2 ^ n)) False n (a.toInt / 2 ^ (n - 1) % 2 = 1) s t

/-- `a` with n copies of `fill` above it. -/
def filledAbove {w : Nat} (a : BitVec w) (fill : Bool) (n : Nat) : Nat := a.toNat + (if fill then (2 ^ n - 1) * 2 ^ w else 0)

/-- LSR (R215): the fill enters at bit w-1. -/
def LsrEffect {w : Nat} (ct : CReg) (fill : Bool) (rt : Reg) (a : BitVec w) (n : Nat) (s t : State) : Prop :=
  ShiftEffect ct rt (BitVec.ofNat w (filledAbove a fill n / 2 ^ n)) False n (filledAbove a fill n / 2 ^ (n - 1) % 2 = 1) s t

/-- ROL (R216): bit i goes to place (i + n) mod w, flipped by N each time it passes from bit w-1 to bit 0. -/
def RolEffect {w : Nat} (ct : CReg) (flip : Bool) (rt : Reg) (a : BitVec w) (n : Nat) (s t : State) : Prop :=
  ∃ r : BitVec w, (∀ i, i < w → r.getLsbD ((i + n) % w) = (a.getLsbD i ^^ (flip && ((i + n) / w).testBit 0))) ∧
    ShiftEffect ct rt r False n ((r.getLsbD 0 ^^ flip) = true) s t

/-- ROR (R218): bit i comes from place (i + n) mod w, flipped by N each time it passes from bit 0 to bit w-1. -/
def RorEffect {w : Nat} (ct : CReg) (flip : Bool) (rt : Reg) (a : BitVec w) (n : Nat) (s t : State) : Prop :=
  ∃ r : BitVec w, (∀ i, i < w → r.getLsbD i = (a.getLsbD ((i + n) % w) ^^ (flip && ((i + n) / w).testBit 0))) ∧
    ShiftEffect ct rt r False n ((r.getLsbD (w - 1) ^^ flip) = true) s t

/-- The w + 1 bits a rotate through the carry moves: place w is the carry. -/
def ringBit {w : Nat} (c : Bool) (a : BitVec w) (p : Nat) : Bool := if p = w then c else a.getLsbD p

/-- ROLC (R217): of the w + 1 places, the bit at place p goes to place (p + n) mod (w + 1), flipped by N where it enters the
carry and where it enters bit 0. -/
def RolcEffect {w : Nat} (ct : CReg) (flip : Bool) (rt : Reg) (a : BitVec w) (n : Nat) (s t : State) : Prop :=
  ∃ (r : BitVec w) (c : Bool),
    (∀ p, p ≤ w → ringBit c r ((p + n) % (w + 1)) =
      (ringBit ((s.cr ct).getLsbD 0) a p ^^
        (flip && ((p + n) / (w + 1) + (p + n + 1) / (w + 1) - (p + 1) / (w + 1)).testBit 0))) ∧
    ShiftEffect ct rt r False n (c = true) s t

/-- RORC (R219): of the w + 1 places, the bit at place p comes from place (p + n) mod (w + 1), flipped by N where it leaves
the carry for bit w-1. -/
def RorcEffect {w : Nat} (ct : CReg) (flip : Bool) (rt : Reg) (a : BitVec w) (n : Nat) (s t : State) : Prop :=
  ∃ (r : BitVec w) (c : Bool),
    (∀ p, p ≤ w → ringBit c r p =
      (ringBit ((s.cr ct).getLsbD 0) a ((p + n) % (w + 1)) ^^
        (flip && ((p + n + 1) / (w + 1) - (p + 1) / (w + 1)).testBit 0))) ∧
    ShiftEffect ct rt r False n (c = true) s t

/-- An instruction that gives one bit of the operand a new value (R192, R193, R197): bit `k` of `a` becomes `new`. -/
def BitEffect {w : Nat} (ct : CReg) (rt : Reg) (a : BitVec w) (k : Nat) (new : Bool) (s t : State) : Prop :=
  ∃ r : BitVec w, (∀ i, i < w → r.getLsbD i = if i = k then new else a.getLsbD i) ∧ WritesResult rt r s t ∧
    ZeroOnly ct (a.getLsbD k = false) s t ∧ EndsAt 1 [rt] [ct] s t

/-- The one-hot flags of a pair with old bits `high` and `low` (R191). -/
def PairFlags (f : BitVec 4) (high low : Bool) : Prop :=
  FlagsAre f (high = true ∧ low = false) (high = false ∧ low = false) (high = true ∧ low = true) (high = false ∧ low = true)

/-- An instruction that changes pair `p` of the operand (R194, R195): a bit `b` of it becomes `new b`. -/
def PairEffect {w : Nat} (ct : CReg) (rt : Reg) (a : BitVec w) (p : Nat) (new : Bool → Bool) (s t : State) : Prop :=
  ∃ r : BitVec w,
    (∀ i, i < w → r.getLsbD i = if i = 2 * p ∨ i = 2 * p + 1 then new (a.getLsbD i) else a.getLsbD i) ∧
    WritesResult rt r s t ∧ PairFlags (t.cr ct) (a.getLsbD (2 * p + 1)) (a.getLsbD (2 * p)) ∧ EndsAt 1 [rt] [ct] s t

/-- A write of `v` to one of the CSR numbers that can be written (R137 to R142): everything else is unchanged. -/
structure CsrWriteEnds (s t : State) : Prop where
  pc     : t.pc = s.pc + 4#64
  file   : KeepsFile s t
  lc     : t.lc = s.lc
  ac     : t.ac = s.ac
  vb     : t.vb = s.vb
  stuck  : t.stuck = s.stuck
  irq    : t.irq = s.irq
  params : t.params = s.params
  memory : KeepsMemory s t

/-- A CSR operation that gives a register the value `f old operand` (R139 to R142), on `ccr` and on `sr`. -/
def CsrUpdates (op : CsrNum → Reg → Instr) (f : Word → Word → Word) : Prop :=
  ∀ (s : State) (rb : Reg), Room 1 s →
    Completes (exec (op (.field 1#7) rb) s) (fun t =>
      t.ccrg = (f (s.ccrg.setWidth 64) (s.x rb)).setWidth 32 ∧ t.sr = s.sr ∧ CsrWriteEnds s t) ∧
    (s.supervisor = true → Completes (exec (op (.field 2#7) rb) s) (fun t =>
      t.sr = (f (s.sr.setWidth 64) (s.x rb)).setWidth 32 &&& 0xFF00A707#32 ∧ t.ccrg = s.ccrg ∧ CsrWriteEnds s t))

/-- A CSR operation is refused on a number without a register, and, where it writes, on a read-only register (R37, R40). -/
def CsrWriteRefused (op : CsrNum → Reg → Instr) : Prop :=
  ∀ (s : State) (rb : Reg),
    exec (op (.field 120#7) rb) s = .refused .readOnlyCsr ∧
    (s.supervisor = true → exec (op (.field 121#7) rb) s = .refused .readOnlyCsr)

/-- A CSR operation is refused on a number without a register (R37, R137). -/
def CsrNumberRefused (op : CsrNum → Reg → Instr) : Prop :=
  ∀ (s : State) (rb : Reg), (∀ n, exec (op (.extended n) rb) s = .refused .undocumentedCsr) ∧
    ∀ n : BitVec 7, n ≠ 1#7 → n ≠ 2#7 → n ≠ 120#7 → n ≠ 121#7 → exec (op (.field n) rb) s = .refused .undocumentedCsr

/-- A privileged CSR in user mode (R137, R319). -/
def CsrPrivileged (op : CsrNum → Reg → Instr) : Prop :=
  ∀ (s : State) (rb : Reg), s.supervisor = false →
    exec (op (.field 2#7) rb) s = .next (sysException 8#8 s.pc s) ∧
    exec (op (.field 121#7) rb) s = .next (sysException 8#8 s.pc s)

/-- A call (R235, R238): the pushes below the stack pointer of the current mode, and the jump. -/
def CallEffect (g : Bool) (target : Word) (words : Nat) (s t : State) : Prop :=
  t.pc = target ∧
  t.mem.readLE (s.x 31#5 - 8#64) 8 = s.pc + BitVec.ofNat 64 (4 * words) ∧
  (g = false → t.x 31#5 = s.x 31#5 - 8#64 ∧ StoresBlock (s.x 31#5 - 8#64) 8 s t) ∧
  (g = true → t.x 31#5 = s.x 31#5 - 16#64 ∧ t.mem.readLE (s.x 31#5 - 16#64) 8 = s.ccrg.setWidth 64 ∧
    StoresBlock (s.x 31#5 - 16#64) 16 s t) ∧
  KeepsRest [31#5] [] s t

/-- The pushes of a call succeed. -/
abbrev CanCall (g : Bool) (s : State) : Prop :=
  CanAccess s .write (s.x 31#5 - 8#64) 8 ∧ (g = true → CanAccess s .write (s.x 31#5 - 16#64) 8)

/-- The address operand `D(Rb)`, `D(Rb)+` or `+D(Rb)` (R270, R271): register 0 is the program counter. -/
def address {n : Nat} (s : State) (md : UpdMode) (rb : Reg) (d : Disp n) : Word :=
  let base := if rb = 0#5 then s.pc else s.x rb
  match md with
  | .indirect => base + dispValue d
  | .postUpdate => base
  | .preUpdate => base + dispValue d

/-- The address operand `D(Rb, Rc)` (R270, R271). -/
def indexedAddress {n : Nat} (s : State) (rb rc : Reg) (d : Disp n) : Word :=
  (if rb = 0#5 then s.pc else s.x rb) + (if rc = 0#5 then s.pc else s.x rc) + dispValue d

/-- The register that a mode updates. -/
def updated (md : UpdMode) (rb : Reg) : List Reg :=
  match md with
  | .indirect => []
  | .postUpdate => [rb]
  | .preUpdate => [rb]

/-- The base register after an instruction that does not write it otherwise (R270, R272 a). -/
def BaseUpdated {n : Nat} (md : UpdMode) (rb : Reg) (d : Disp n) (s t : State) : Prop :=
  md ≠ .indirect → t.x rb = s.x rb + dispValue d

/-- The checks on an update mode before the access (R272 b, c): the base is not the program counter. -/
abbrev MayUpdate (md : UpdMode) (rb : Reg) : Prop := md = .indirect ∨ rb ≠ 0#5

/-- LOAD of n bytes from `a` (R273). -/
def LoadEffect (sz : Size) (rt : Reg) (a : Word) (regs : List Reg) (words : Nat) (s t : State) : Prop :=
  WritesResult rt ((s.mem.readLE a (sizeBytes sz)).setWidth (sizeBits sz)) s t ∧ EndsAt words (rt :: regs) [] s t

/-- STORE of the low n bytes of `v` at `a` (R277, R278). -/
def StoreEffect (n : Nat) (v a : Word) (regs : List Reg) (words : Nat) (s t : State) : Prop :=
  StoresValue a n v s t ∧ t.pc = s.pc + BitVec.ofNat 64 (4 * words) ∧ KeepsRest regs [] s t

/-- A push of the low n bytes of `v` (R275, R276). -/
def PushEffect (n : Nat) (v : Word) (words : Nat) (s t : State) : Prop :=
  StoreEffect n v (s.x 31#5 - BitVec.ofNat 64 n) [31#5] words s t ∧ t.x 31#5 = s.x 31#5 - BitVec.ofNat 64 n

/-- The slot of general register i in a list (R280): its number with the skip bit, else how many selected registers are below
it. -/
def registerSlot (list : BitVec 32) (skip : Bool) (i : Nat) : Nat :=
  if skip then i else (List.range i).countP fun k => list.getLsbD k

/-- The slot of special register j in a list (R280): the special registers follow the general ones. -/
def specialSlot (list : BitVec 32) (special : BitVec 5) (skip : Bool) (j : Nat) : Nat :=
  if skip then 32 + j
  else ((List.range 32).countP fun k => list.getLsbD k) + (List.range j).countP fun k => special.getLsbD k

/-- The address of a slot (R280). -/
def slotAt (ea : Word) (sz : Size) (k : Nat) : Word := ea + BitVec.ofNat 64 (k * sizeBytes sz)

/-- Every access of a multiple load or store succeeds. -/
def CanAccessSlots (s : State) (k : AccessKind) (sz : Size) (list : BitVec 32) (special : BitVec 5) (skip : Bool) (ea : Word) :
    Prop :=
  (∀ i, i < 32 → list.getLsbD i = true → CanAccess s k (slotAt ea sz (registerSlot list skip i)) (sizeBytes sz)) ∧
  (∀ j, j < 5 → special.getLsbD j = true → CanAccess s k (slotAt ea sz (specialSlot list special skip j)) (sizeBytes sz))

/-- The special registers in a list are allowed: octa size, and SR in supervisor mode only (R282). -/
abbrev MayList (sz : Size) (special : BitVec 5) (s : State) : Prop :=
  (special = 0#5 ∨ sz = .o) ∧ (special.getLsbD 2 = true → s.supervisor = true)

/-- General register i read with register 31 naming the stack pointer of the mode `sup`. -/
def regIn (sup : Bool) (s : State) (i : Reg) : Word :=
  if i = 31#5 then (if sup then s.ssp else s.usp) else s.x i

/-- What a LOADM does (R274, R280, R282) to the registers outside the update of the base: each selected general register has the
value of its slot, each selected special register has what R282 gives it, and nothing else changes. Register 31 is the stack
pointer of the mode the instruction started in. -/
structure LoadmEffect (sz : Size) (skip : Bool) (list : BitVec 32) (special : BitVec 5) (ea : Word) (regs : List Reg)
    (words : Nat) (s t : State) : Prop where
  general : ∀ i : Reg, i ≠ 0#5 → list.getLsbD i.toNat = true →
    HoldsResult s.params
      ((s.mem.readLE (slotAt ea sz (registerSlot list skip i.toNat)) (sizeBytes sz)).setWidth (sizeBits sz))
      (s.x i) (regIn s.supervisor t i)
  kept    : ∀ i : Reg, i = 0#5 ∨ (list.getLsbD i.toNat = false ∧ i ∉ regs) → regIn s.supervisor t i = s.x i
  otherSp : (if s.supervisor then t.usp = s.usp else t.ssp = s.ssp)
  pc      : t.pc = if special.getLsbD 0 then s.mem.readLE (slotAt ea sz (specialSlot list special skip 0)) 8
      else s.pc + BitVec.ofNat 64 (4 * words)
  ccrg    : t.ccrg = if special.getLsbD 1
      then (s.mem.readLE (slotAt ea sz (specialSlot list special skip 1)) 8).setWidth 32 else s.ccrg
  sr      : t.sr = if special.getLsbD 2
      then (s.mem.readLE (slotAt ea sz (specialSlot list special skip 2)) 8).setWidth 32 &&& 0xFF00A707#32 else s.sr
  ac      : t.ac = if special.getLsbD 3
      then s.mem.readLE (slotAt ea sz (specialSlot list special skip 3)) 8 &&& 0xFFFFFFFFFFFFFF07#64 else s.ac
  lc      : t.lc = if special.getLsbD 4 then s.mem.readLE (slotAt ea sz (specialSlot list special skip 4)) 8 else s.lc
  vb      : t.vb = s.vb
  stuck   : t.stuck = s.stuck
  irq     : t.irq = s.irq
  params  : t.params = s.params
  memory  : KeepsMemory s t

/-- The value STOREM stores for special register j (R282). -/
def specialValue (s : State) (words : Nat) (j : Nat) : Word :=
  if j = 0 then s.pc + BitVec.ofNat 64 (4 * words)
  else if j = 1 then s.ccrg.setWidth 64
  else if j = 2 then s.sr.setWidth 64
  else if j = 3 then s.ac
  else s.lc

/-- `b` is a byte of a selected slot. -/
def InSlots (sz : Size) (list : BitVec 32) (special : BitVec 5) (skip : Bool) (ea : Word) (b : Nat) : Prop :=
  (∃ i, i < 32 ∧ list.getLsbD i = true ∧ InBlock (slotAt ea sz (registerSlot list skip i)) (sizeBytes sz) b) ∨
  (∃ j, j < 5 ∧ special.getLsbD j = true ∧ InBlock (slotAt ea sz (specialSlot list special skip j)) (sizeBytes sz) b)

/-- What a STOREM does (R279, R280, R282): every selected slot holds the value its register had, and no other byte of memory
and no register but the base changes. -/
structure StoremEffect (sz : Size) (skip : Bool) (list : BitVec 32) (special : BitVec 5) (ea : Word) (regs : List Reg)
    (words : Nat) (s t : State) : Prop where
  general : ∀ i, i < 32 → list.getLsbD i = true →
    (t.mem.readLE (slotAt ea sz (registerSlot list skip i)) (sizeBytes sz)).setWidth (sizeBits sz) =
      (s.x (BitVec.ofNat 5 i)).setWidth (sizeBits sz)
  specials : ∀ j, j < 5 → special.getLsbD j = true →
    t.mem.readLE (slotAt ea sz (specialSlot list special skip j)) 8 = specialValue s words j
  outside : ∀ b, ¬ InSlots sz list special skip ea b → t.mem.read b = s.mem.read b
  stored  : ∀ b, t.stored.has b = true ↔ s.stored.has b = true ∨ InSlots sz list special skip ea b
  pc      : t.pc = s.pc + BitVec.ofNat 64 (4 * words)
  rest    : KeepsRest regs [] s t

/-- The lowest m bits of a list. -/
def below {w : Nat} (m : Nat) (l : BitVec w) : BitVec w := l &&& BitVec.ofNat w (2 ^ m - 1)

/-- Of the accesses of a multiple load or store, in the order of R280, the one at `a` fails and those before it succeed: they are
those of the general registers `list'` and of the special registers `special'`. -/
def FailsAfter (s : State) (k : AccessKind) (sz : Size) (list : BitVec 32) (special : BitVec 5) (skip : Bool) (ea : Word)
    (list' : BitVec 32) (special' : BitVec 5) (a : Word) : Prop :=
  ((∃ i, i < 32 ∧ list.getLsbD i = true ∧ list' = below i list ∧ special' = 0#5 ∧ a = slotAt ea sz (registerSlot list skip i)) ∨
    (∃ j, j < 5 ∧ special.getLsbD j = true ∧ list' = list ∧ special' = below j special ∧
      a = slotAt ea sz (specialSlot list special skip j))) ∧
  CanAccessSlots s k sz list' special' skip ea ∧ ¬ CanAccess s k a (sizeBytes sz)

/-- The general registers of a list. -/
def listed (list : BitVec 32) : List Reg := ((List.range 32).filter fun i => list.getLsbD i).map (BitVec.ofNat 5)

/-- A LOADM stops at the access to `a` (R77, R274): the exception of the access, with the program counter of the instruction, from
a state in which the general registers `list'` are loaded and nothing else has changed. -/
def LoadmStops (sz : Size) (skip : Bool) (list' : BitVec 32) (ea a : Word) (r : Result) (s : State) : Prop :=
  ∃ u, r = .next (sysException (faultVector s a (sizeBytes sz)) s.pc u) ∧ u.pc = s.pc ∧
    (∀ i : Reg, i ≠ 0#5 → list'.getLsbD i.toNat = true →
      HoldsResult s.params
        ((s.mem.readLE (slotAt ea sz (registerSlot list' skip i.toNat)) (sizeBytes sz)).setWidth (sizeBits sz)) (s.x i) (u.x i)) ∧
    KeepsRest (listed list') [] s u ∧ KeepsMemory s u

/-- A STOREM stops at the access to `a` (R77, R279): the exception of the access, with the program counter of the instruction,
from a state in which the slots of `list'` and `special'` hold what their registers hold and nothing else has changed. -/
def StoremStops (sz : Size) (skip : Bool) (list' : BitVec 32) (special' : BitVec 5) (words : Nat) (ea a : Word) (r : Result)
    (s : State) : Prop :=
  ∃ u, r = .next (sysException (faultVector s a (sizeBytes sz)) s.pc u) ∧ u.pc = s.pc ∧
    (∀ i, i < 32 → list'.getLsbD i = true →
      (u.mem.readLE (slotAt ea sz (registerSlot list' skip i)) (sizeBytes sz)).setWidth (sizeBits sz) =
        (s.x (BitVec.ofNat 5 i)).setWidth (sizeBits sz)) ∧
    (∀ j, j < 5 → special'.getLsbD j = true →
      u.mem.readLE (slotAt ea sz (specialSlot list' special' skip j)) 8 = specialValue s words j) ∧
    (∀ b, ¬ InSlots sz list' special' skip ea b → u.mem.read b = s.mem.read b) ∧
    (∀ b, u.stored.has b = true ↔ s.stored.has b = true ∨ InSlots sz list' special' skip ea b) ∧ KeepsRest [] [] s u

/-- A rule answers the exception of a failed access of n bytes at `a`, with the program counter of the instruction, from the
state `u` (R63, R77, R315). -/
abbrev Raises (r : Result) (a : Word) (n : Nat) (s u : State) : Prop := r = .next (sysException (faultVector s a n) s.pc u)

/-- The second push of a JSR that saves CCRG fails (R77, R238): the first stays done. -/
def SecondPushFails (words : Nat) (r : Result) (s : State) : Prop :=
  ∃ u, Raises r (s.x 31#5 - 16#64) 8 s u ∧ u.pc = s.pc ∧ u.x 31#5 = s.x 31#5 - 8#64 ∧
    u.mem.readLE (s.x 31#5 - 8#64) 8 = s.pc + BitVec.ofNat 64 (4 * words) ∧ StoresBlock (s.x 31#5 - 8#64) 8 s u ∧
    KeepsRest [31#5] [] s u

/-- The accesses of LOAD and STORE that fail: nothing is written before them. -/
def FailedLoadsAndStores : Prop :=
  ∀ (s : State) (sz : Size) (rt ra rb rc : Reg),
    (∀ (md : UpdMode) (d : Disp 11), MayUpdate md rb → (md = .indirect ∨ rb ≠ rt) →
      ¬ CanAccess s .read (address s md rb d) (sizeBytes sz) →
      Raises (exec (.load sz md rt rb d) s) (address s md rb d) (sizeBytes sz) s s) ∧
    (∀ d : Disp 6, ¬ CanAccess s .read (indexedAddress s rb rc d) (sizeBytes sz) →
      Raises (exec (.loadX sz rt rb rc d) s) (indexedAddress s rb rc d) (sizeBytes sz) s s) ∧
    (∀ (md : UpdMode) (d : Disp 10), MayUpdate md rb → ¬ CanAccess s .write (address s md rb d) (sizeBytes sz) →
      Raises (exec (.store sz md ra rb d) s) (address s md rb d) (sizeBytes sz) s s ∧
      ∀ imm, Raises (exec (.storeImm sz md imm rb d) s) (address s md rb d) (sizeBytes sz) s s) ∧
    (∀ d : Disp 5, ¬ CanAccess s .write (indexedAddress s rb rc d) (sizeBytes sz) →
      Raises (exec (.storeX sz ra rb rc d) s) (indexedAddress s rb rc d) (sizeBytes sz) s s ∧
      ∀ imm, Raises (exec (.storeImmX sz imm rb rc d) s) (indexedAddress s rb rc d) (sizeBytes sz) s s)

/-- The pushes of PUSH, PEA, BSR and JSR that fail. -/
def FailedPushes : Prop :=
  ∀ (s : State) (g : Bool) (sz : PushSize) (ra rb rc : Reg),
    (¬ CanAccess s .write (s.x 31#5 - 4#64) 4 → Raises (exec (.pushT ra) s) (s.x 31#5 - 4#64) 4 s s) ∧
    (¬ CanAccess s .write (s.x 31#5 - BitVec.ofNat 64 (pushBytes sz)) (pushBytes sz) →
      (∀ md d, Raises (exec (.pea sz md rb d) s) (s.x 31#5 - BitVec.ofNat 64 (pushBytes sz)) (pushBytes sz) s s) ∧
      ∀ d, Raises (exec (.peaX sz rb rc d) s) (s.x 31#5 - BitVec.ofNat 64 (pushBytes sz)) (pushBytes sz) s s) ∧
    (¬ CanAccess s .write (s.x 31#5 - 8#64) 8 →
      Raises (exec (.pushO ra) s) (s.x 31#5 - 8#64) 8 s s ∧
      (∀ e, Raises (exec (.bsr e) s) (s.x 31#5 - 8#64) 8 s s) ∧
      Raises (exec (.jsrReg g ra rb) s) (s.x 31#5 - 8#64) 8 s s ∧
      (∀ imm, Raises (exec (.jsrI32 g ra imm) s) (s.x 31#5 - 8#64) 8 s s) ∧
      (∀ imm, Raises (exec (.jsrI64 g ra imm) s) (s.x 31#5 - 8#64) 8 s s) ∧
      (∀ imm, Raises (exec (.jsrI10 g ra imm) s) (s.x 31#5 - 8#64) 8 s s)) ∧
    (s.Inv → CanAccess s .write (s.x 31#5 - 8#64) 8 → ¬ CanAccess s .write (s.x 31#5 - 16#64) 8 →
      SecondPushFails 1 (exec (.jsrReg true ra rb) s) s ∧ (∀ imm, SecondPushFails 2 (exec (.jsrI32 true ra imm) s) s) ∧
      (∀ imm, SecondPushFails 3 (exec (.jsrI64 true ra imm) s) s) ∧ (∀ imm, SecondPushFails 1 (exec (.jsrI10 true ra imm) s) s))

/-- The pops of RTS, ARTI and RTI that fail: of those before, only the stack pointer shows. -/
def FailedPops : Prop :=
  ∀ (s : State) (arg : BitVec 10) (rpt : BitVec 5),
    (¬ CanAccess s .read (s.x 31#5) 8 →
      Raises (exec (.rts arg rpt) s) (s.x 31#5) 8 s s ∧ Raises (exec (.arti arg rpt) s) (s.x 31#5) 8 s s ∧
      (s.supervisor = true → Raises (exec (.rti arg rpt) s) (s.x 31#5) 8 s s)) ∧
    (CanAccess s .read (s.x 31#5) 8 → ¬ CanAccess s .read (s.x 31#5 + 8#64) 8 →
      Raises (exec (.arti arg rpt) s) (s.x 31#5 + 8#64) 8 s (s.setX 31#5 (s.x 31#5 + 8#64)) ∧
      (s.supervisor = true → Raises (exec (.rti arg rpt) s) (s.ssp + 8#64) 8 s { s with ssp := s.ssp + 8#64 })) ∧
    (s.supervisor = true → CanAccess s .read s.ssp 8 → CanAccess s .read (s.ssp + 8#64) 8 →
      ¬ CanAccess s .read (s.ssp + 16#64) 8 →
      Raises (exec (.rti arg rpt) s) (s.ssp + 16#64) 8 s { s with ssp := s.ssp + 16#64 })

/-- A LOADM or STOREM that fails at some access of its list. -/
def FailedMultiples : Prop :=
  ∀ (s : State) (sz : Size) (skip : Bool) (list : BitVec 32) (special : BitVec 5) (rb rc : Reg) (list' : BitVec 32)
    (special' : BitVec 5) (a : Word), MayList sz special s →
    (∀ (md : UpdMode) (d : Disp 11), MayUpdate md rb → (md = .indirect ∨ list.getLsbD rb.toNat = false) →
      FailsAfter s .read sz list special skip (address s md rb d) list' special' a →
      LoadmStops sz skip list' (address s md rb d) a (exec (.loadm sz md skip list special rb d) s) s) ∧
    (∀ d : Disp 6, FailsAfter s .read sz list special skip (indexedAddress s rb rc d) list' special' a →
      LoadmStops sz skip list' (indexedAddress s rb rc d) a (exec (.loadmX sz skip list special rb rc d) s) s) ∧
    (∀ (md : UpdMode) (d : Disp 10), s.Inv → MayUpdate md rb →
      FailsAfter s .write sz list special skip (address s md rb d) list' special' a →
      StoremStops sz skip list' special' (2 + d.extWords) (address s md rb d) a
        (exec (.storem sz md skip list special rb d) s) s) ∧
    (∀ d : Disp 5, s.Inv → FailsAfter s .write sz list special skip (indexedAddress s rb rc d) list' special' a →
      StoremStops sz skip list' special' (2 + d.extWords) (indexedAddress s rb rc d) a
        (exec (.storemX sz skip list special rb rc d) s) s)

/-- Everything but the program counter is unchanged (R232, R233, R237). -/
def JumpsTo (target : Word) (s t : State) : Prop := t = { s with pc := target }

/-- The condition table of R230, on the flags nf, zf, vf, cf (for the float conditions lt, eq, ord). -/
def conditionTable (nf zf vf cf : Bool) : Cond → Bool
  | .ra => true
  | .sr => false
  | .hi => decide (cf = false ∧ zf = false)
  | .ls => decide (cf = true ∨ zf = true)
  | .cc => decide (cf = false)
  | .cs => decide (cf = true)
  | .ne => decide (zf = false)
  | .eq => decide (zf = true)
  | .vc => decide (vf = false)
  | .vs => decide (vf = true)
  | .pl => decide (nf = false)
  | .mi => decide (nf = true)
  | .ge => decide (nf = vf)
  | .lt => decide (nf ≠ vf)
  | .gt => decide (nf = vf ∧ zf = false)
  | .le => decide (zf = true ∨ nf ≠ vf)
  | .fOr => decide (vf = true)
  | .fUn => decide (vf = false)
  | .fGt => decide (nf = false ∧ zf = false)
  | .fLe => decide (nf = true ∨ zf = true)
  | .fGe => decide (nf = false)
  | .fLt => decide (nf = true)
  | .fNe => decide (zf = false)
  | .fEq => decide (zf = true ∧ vf = true)

/-- The low W bits of a register (R8). -/
abbrev low (sz : Size) (v : Word) : BitVec (sizeBits sz) := v.setWidth (sizeBits sz)

/-- An instruction with the four ALU operand forms (R93 to R95, R130) and no swap bit: in each form it completes with `effect`
of its operands and its length. -/
def CompletesInFourForms (ready : State → Prop)
    (reg : CReg → Size → Reg → Reg → Reg → Instr) (i32 : CReg → Size → Reg → Reg → BitVec 32 → Instr)
    (i64 : CReg → Size → Reg → Reg → BitVec 64 → Instr) (i10 : CReg → Size → Reg → Reg → BitVec 10 → Instr)
    (effect : {w : Nat} → CReg → Reg → BitVec w → BitVec w → Nat → State → State → Prop) : Prop :=
  ∀ (s : State) (ct : CReg) (sz : Size) (rt ra : Reg), ready s →
    (∀ rb, Room 1 s → Completes (exec (reg ct sz rt ra rb) s) (effect ct rt (low sz (s.x ra)) (low sz (s.x rb)) 1 s)) ∧
    (∀ imm, Room 2 s → Completes (exec (i32 ct sz rt ra imm) s)
      (effect ct rt (low sz (s.x ra)) (immediateAt (sizeBits sz) imm) 2 s)) ∧
    (∀ imm, Room 3 s → Completes (exec (i64 ct sz rt ra imm) s)
      (effect ct rt (low sz (s.x ra)) (immediateAt (sizeBits sz) imm) 3 s)) ∧
    (∀ imm, Room 1 s → Completes (exec (i10 ct sz rt ra imm) s)
      (effect ct rt (low sz (s.x ra)) (immediateAt (sizeBits sz) imm) 1 s))

/-- `P` of the two operands in the order the swap bit gives (R99, R130): with the bit set the immediate comes first. -/
def InOrder {α : Type} (swap : Bool) (a imm : α) (P : α → α → Prop) : Prop :=
  (swap = false → P a imm) ∧ (swap = true → P imm a)

/-- In the state `s` the instruction has its effect, makes its accesses, and ends in sequence: it neither transfers control nor
raises an exception nor is refused for its operands. An instruction that never ends so has the arm `False`. -/
def EndsInSequence (s : State) : Instr → Prop
  | .addRR .. | .addI32 .. | .addI64 .. | .addI10 .. | .adcRR .. | .adcI32 .. | .adcI64 .. | .adcI10 .. => s.ac.getLsbD 2 = false
  | .subRR .. | .subI32 .. | .subI64 .. | .subI10 .. | .cmpRR .. | .cmpI32 .. | .cmpI64 .. | .cmpI10 .. => True
  | .fcmpRR .. | .fcmpI32 .. | .fcmpI64 .. | .fcmpI10 .. => s.ac.extractLsb' 0 2 = 0#2
  | .mulsI32 .. | .mulsI64 .. | .mulsI10 .. | .muluI32 .. | .muluI64 .. | .muluI10 .. => True
  | .mulsRR _ _ rt _ _ rp | .muluRR _ _ rt _ _ rp => rp ≠ rt ∨ rt = 0#5
  | .divsRR _ sz rt _ rb rr | .divuRR _ sz rt _ rb rr => (rr ≠ rt ∨ rt = 0#5) ∧ low sz (s.x rb) ≠ 0#(sizeBits sz)
  | .divsI32 _ sz _ ra swap imm | .divuI32 _ sz _ ra swap imm =>
    InOrder swap (low sz (s.x ra)) (immediateAt (sizeBits sz) imm) fun _ b => b ≠ 0#(sizeBits sz)
  | .divsI64 _ sz _ ra swap imm | .divuI64 _ sz _ ra swap imm =>
    InOrder swap (low sz (s.x ra)) (immediateAt (sizeBits sz) imm) fun _ b => b ≠ 0#(sizeBits sz)
  | .divsI10 _ sz _ ra swap imm =>
    InOrder swap (low sz (s.x ra)) (immediateAt (sizeBits sz) imm) fun _ b => b ≠ 0#(sizeBits sz)
  | .andRR .. | .andI32 .. | .andI64 .. | .andI10 .. | .orRR .. | .orI32 .. | .orI64 .. | .orI10 .. => True
  | .eorRR .. | .eorI32 .. | .eorI64 .. | .eorI10 .. | .abs .. | .loadq .. | .swap .. => True
  | .moveFromCsr n _ => n = .field 1#7 ∨ n = .field 120#7 ∨ (s.supervisor = true ∧ (n = .field 2#7 ∨ n = .field 121#7))
  | .moveToCsr n _ | .orCsr n _ | .andcCsr n _ | .eorCsr n _ => n = .field 1#7 ∨ (s.supervisor = true ∧ n = .field 2#7)
  | .bclrReg .. | .bclrImm .. | .bsetReg .. | .bsetImm .. | .bchgReg .. | .bchgImm .. | .btstReg .. | .btstImm .. => True
  | .bpclrReg .. | .bpclrImm .. | .bpchgReg .. | .bpchgImm .. | .bptstReg .. | .bptstImm .. => True
  | .aslReg .. | .aslImm .. | .asrReg .. | .asrImm .. | .lslReg .. | .lslImm .. | .lsrReg .. | .lsrImm .. => True
  | .rolReg .. | .rolImm .. | .rolcReg .. | .rolcImm .. | .rorReg .. | .rorImm .. | .rorcReg .. | .rorcImm .. => True
  | .trapv cr _ _ => (s.cr cr).getLsbD 1 = false
  | .bcc c cr _ => condHolds c (s.cr cr) = false
  | .dbcc c cr _ => condHolds c (s.cr cr) = true ∨ s.lc = 0#64
  | .load sz md rt rb d =>
    MayUpdate md rb ∧ (md = .indirect ∨ rb ≠ rt) ∧ CanAccess s .read (address s md rb d) (sizeBytes sz)
  | .loadX sz _ rb rc d => CanAccess s .read (indexedAddress s rb rc d) (sizeBytes sz)
  | .loadm sz md skip list special rb d =>
    MayList sz special s ∧ special.getLsbD 0 = false ∧ MayUpdate md rb ∧ (md = .indirect ∨ list.getLsbD rb.toNat = false) ∧
      CanAccessSlots s .read sz list special skip (address s md rb d)
  | .loadmX sz skip list special rb rc d =>
    MayList sz special s ∧ special.getLsbD 0 = false ∧
      CanAccessSlots s .read sz list special skip (indexedAddress s rb rc d)
  | .pushT _ => CanAccess s .write (s.x 31#5 - 4#64) 4
  | .pushO _ => CanAccess s .write (s.x 31#5 - 8#64) 8
  | .pea sz .. | .peaX sz .. => CanAccess s .write (s.x 31#5 - BitVec.ofNat 64 (pushBytes sz)) (pushBytes sz)
  | .store sz md _ rb d | .storeImm sz md _ rb d => MayUpdate md rb ∧ CanAccess s .write (address s md rb d) (sizeBytes sz)
  | .storeX sz _ rb rc d | .storeImmX sz _ rb rc d => CanAccess s .write (indexedAddress s rb rc d) (sizeBytes sz)
  | .storem sz md skip list special rb d =>
    MayList sz special s ∧ MayUpdate md rb ∧ CanAccessSlots s .write sz list special skip (address s md rb d)
  | .storemX sz skip list special rb rc d =>
    MayList sz special s ∧ CanAccessSlots s .write sz list special skip (indexedAddress s rb rc d)
  | .brk | .trapReg .. | .trapImm .. | .atrapReg .. | .atrapImm .. | .bra .. | .bsr .. => False
  | .jmpReg .. | .jmpI32 .. | .jmpI64 .. | .jmpI10 .. | .jsrReg .. | .jsrI32 .. | .jsrI64 .. | .jsrI10 .. => False
  | .rts .. | .rti .. | .arti .. | .fma .. | .fms .. | .fnma .. | .fnms .. => False

end Sys2Proof.Claims

open Sys2Proof Sys2Proof.Machine Sys2Proof.Claims

/-! ## Encoding -/

/-- Decoding the bytes of the encoding of a well-formed instruction gives the instruction back, for all 124 instructions,
every operand value the encoding admits, and both settings of STRICT_RESERVED. Derived: the encoder is the model's own, from
the figures of the spec; the escapes are D4 and D51, the reserved fields D2 (the spec's decisions). -/
def Obligations.DecodingAnEncodingGivesTheInstruction : Prop :=
  ∀ (strict : Bool) (i : Instr), i.wellFormed = true → decodeBytes strict ((encode i).flatMap bytesOfWord) = .instr i

/-- Under STRICT_RESERVED every word that decodes is the encoding of what it decodes to: no two words mean the same, and no
bit of a word is dropped. Derived: it rests on D2, D51 and D52, and on log entry 10. -/
def Obligations.StrictlyDecodedWordsAreEncodings : Prop :=
  ∀ (w : InsnWord) (ext : List InsnWord) (i : Instr), ext.length = extWordsOf w → decodeWord true w ext = .instr i →
    i.wellFormed = true ∧ encode i = w :: ext

/-- The example words of the spec decode to the instructions they are printed for. Derived: the words are the Example
sentences of the rules of the instructions. -/
def Obligations.SpecExampleWordsDecode : Prop :=
  decodeWord true 0x000811E4#32 [] = .instr (.addRR 0#3 .o 3#5 1#5 2#5) ∧
  decodeWord true 0x1F7E10E4#32 [] = .instr (.addI10 0#3 .o 1#5 1#5 0x3FF#10) ∧
  decodeWord true 0x40AA5245#32 [] = .instr (.subI10 2#3 .t 4#5 5#5 true 10#10) ∧
  decodeWord true 0x100611E7#32 [0x0000000A#32] = .instr (.divuI32 0#3 .o 3#5 1#5 false 10#32) ∧
  decodeWord true 0x0440C3C1#32 [] = .instr (.abs .o 3#5 2#5) ∧
  decodeWord true 0x002011C2#32 [] = .instr (.moveToCsr (.field 2#7) 1#5) ∧
  decodeWord true 0x2826118D#32 [] = .instr (.bchgImm 1#3 .b 3#5 1#5 9#7) ∧
  decodeWord true 0x0206118E#32 [] = .instr (.aslImm 0#3 .b true 3#5 1#5 1#6) ∧
  decodeWord true 0x01563080#32 [] = .instr (.trapImm 3#8 0x55#11 1#5) ∧
  decodeWord true 0xFFFFC4FD#32 [] = .instr (.dbcc .eq 1#3 0x7FFFE#19) ∧
  decodeWord true 0x30820078#32 [0x00002000#32] = .instr (.jsrI32 true 0#5 0x2000#32) ∧
  decodeWord true 0x01081070#32 [] = .instr (.load .o .indirect 1#5 2#5 (.short 8#11)) ∧
  decodeWord true 0x810B1272#32 [0x55667788#32, 0x11223344#32, 0x00002000#32, 0#32] =
    .instr (.storeImm .o .indirect (.ext64 0x1122334455667788#64) 2#5 (.ext64 0x2000#64)) ∧
  decodeWord true 0x037C0471#32 [0x0000000E#32] = .instr (.loadm .o .postUpdate false 0xE#32 0#5 31#5 (.short 24#11))

/-- An unassigned encoding, and an operand size outside the instruction's list, raise Unimplemented Instruction (system vector
4) with the program counter of the instruction, and nothing else happens; the opcodes 11, 12, 26, 30 and 31 are unassigned.
Derived: it rests on D24, and on log entry 8. -/
def Obligations.UnassignedEncodingsRaiseUnimplemented : Prop :=
  (∀ (strict : Bool) (w : InsnWord), w.toNat % 32 ∈ [11, 12, 26, 30, 31] → decodeWord strict w [] = .reject .unassigned) ∧
  (∀ (s : State) (w : InsnWord), RunsInstruction s → CodeAt s [w] →
    decodeWord s.params.strictReserved w [] = .reject .unassigned → step s = .next (sysException 4#8 s.pc s.nextBoundary)) ∧
  (∀ (s : State) (w : InsnWord) (ext : List InsnWord), RunsInstruction s → CodeAt s (w :: ext) → ext.length = extWordsOf w →
    decodeWord s.params.strictReserved w ext = .reject .unsupportedSize →
    step s = .next (sysException 4#8 s.pc s.nextBoundary))

/-! ## The step -/

/-- When the words at the program counter decode to an instruction, one step is the meaning of that instruction, on the state
whose interrupt input has moved to the next instruction boundary. Derived: it rests on D24 (the order of the checks), D14 and
log entries 5 and 8. -/
def Obligations.StepRunsTheDecodedInstruction : Prop :=
  ∀ (s : State) (w : InsnWord) (ext : List InsnWord) (i : Instr), RunsInstruction s → CodeAt s (w :: ext) →
    ext.length = extWordsOf w → decodeWord s.params.strictReserved w ext = .instr i → step s = exec i s.nextBoundary

/-- Every step from a state of the invariant that answers a next state ends in a state of the invariant: memory and the set of
stored bytes keep their canonical form, and the bits of SR and AC that have no field stay zero. Derived: that the unused bits
read zero is D2; the canonical form is the model's (log entry 4). -/
def Obligations.EveryStepKeepsTheInvariant : Prop := ∀ s t : State, s.Inv → step s = .next t → t.Inv

/-- The state after reset meets the invariant and has the reset values the spec gives: VB 0, supervisor mode, interrupt mask
7, trace mode and short addressing off, not stuck. Derived: S, IPL, T and N are D27; what memory holds at reset is log entries
4 and 6. -/
def Obligations.ResetStateMeetsTheInvariant : Prop :=
  State.reset.Inv ∧ State.reset.vb = 0#64 ∧ State.reset.supervisor = true ∧ State.reset.ipl = 7#3 ∧
  State.reset.trace = false ∧ State.reset.near = false ∧ State.reset.stuck = false ∧
  State.reset.ssp = State.reset.mem.readLE 0#64 8 ∧ State.reset.pc = State.reset.mem.readLE 8#64 8

/-- No step changes the vector base register or a parameter, and the interrupt input moves by one boundary. Derived: that no
instruction writes VB is read from the instruction rules; the input list is log entry 5, the parameters log entry 1. -/
def Obligations.StepsKeepVectorBaseAndParameters : Prop :=
  ∀ s t : State, step s = .next t → t.vb = s.vb ∧ t.params = s.params ∧ t.irq = s.irq.tail

/-- From user mode a step either stays in user mode, with SR and the system stack pointer unchanged, or enters supervisor mode
through a system exception: the handler is one of the system vector table, 24 bytes are pushed on the system stack with the
old SR on top, and of SR only S and the interrupt mask change; or a fault in that entry leaves the machine stuck. Derived: it
rests on D21, D25, D26 and D49. -/
def Obligations.UserModeLeavesOnlyBySystemException : Prop :=
  ∀ s t : State, s.Inv → s.supervisor = false → step s = .next t →
    (t.supervisor = false ∧ t.sr = s.sr ∧ t.ssp = s.ssp ∧ t.stuck = false) ∨ t.stuck = true ∨
    (t.supervisor = true ∧ t.ssp = s.ssp - 24#64 ∧ t.mem.readLE t.ssp 8 = s.sr.setWidth 64 ∧
      (∃ v : SysVector, t.pc = t.mem.readLE (systemEntryAddress s v) 8) ∧
      t.sr &&& ~~~0x00002700#32 = s.sr &&& ~~~0x00002700#32)

/-- A request above the mask is taken before the fetch: vector 24 + level with the program counter of the instruction that
would have run, and then the mask is raised to the level. A request at or below the mask is as no request. Derived: it rests
on D23 and D22; the input list is log entry 5, the order with the refused modes log entry 14, the record of the pushes as
stored log entry 17. -/
def Obligations.InterruptsAboveTheMaskAreTaken : Prop :=
  (∀ s : State, s.Inv → s.stuck = false → s.ipl.toNat < s.irqLevel.toNat →
    CanEnterSystem (BitVec.ofNat 8 (24 + s.irqLevel.toNat)) s →
    Completes (step s) fun t => ∃ u, EntersSystem (BitVec.ofNat 8 (24 + s.irqLevel.toNat)) s.pc s.nextBoundary u ∧
      t = { u with sr := t.sr } ∧ t.ipl = s.irqLevel ∧ t.sr &&& ~~~0x00000700#32 = u.sr &&& ~~~0x00000700#32) ∧
  (∀ s : State, s.irqLevel.toNat ≤ s.ipl.toNat → step s = step { s with irq := 0#3 :: s.irq.tail })

/-- A fetch at a program counter that is no multiple of 4 raises Address Error, and a fetch of a first or an extension word
that the platform does not allow raises Bus Error, with that program counter. Derived: it rests on D55, D15, D24 and log
entries 8, 22 and 24. -/
def Obligations.FailedFetchesRaiseTheirException : Prop :=
  ∀ s : State, RunsInstruction s →
    (s.pc.toNat % 4 ≠ 0 → step s = .next (sysException 3#8 s.pc s.nextBoundary)) ∧
    (s.pc.toNat % 4 = 0 → memOk s.params.map s.pc 4 .fetch = false →
      step s = .next (sysException 2#8 s.pc s.nextBoundary)) ∧
    (∀ (w : InsnWord) (ext : List InsnWord), CodeAt s (w :: ext) →
      decodeWord s.params.strictReserved w [] ≠ .reject .unassigned → ext.length < extWordsOf w →
      s.pc.toNat + 4 * (ext.length + 2) ≤ 2 ^ 64 →
      memOk s.params.map (s.pc + BitVec.ofNat 64 (4 * (ext.length + 1))) 4 .fetch = false →
      step s = .next (sysException 2#8 s.pc s.nextBoundary))

/-- A step with `SR.T` = 1 or `SR.N` = 1 is refused; so is a fetch of a word, the first or an extension word, that holds a
byte stored since reset, unless the fetch is coherent with stores; so is an instruction of which a word lies past 2^64 - 1;
and so is every instruction that would end in sequence at 2^64 or above. Derived: it rests on D39, D38, D14 and D7, and on log
entries 8, 12 and 24. -/
def Obligations.StepsOutsideTheSpecAreRefused : Prop :=
  (∀ s : State, s.stuck = false → s.irqLevel.toNat ≤ s.ipl.toNat →
    (s.trace = true → step s = .refused .traceMode) ∧
    (s.trace = false → s.near = true → step s = .refused .shortAddressing)) ∧
  (∀ s : State, RunsInstruction s →
    (s.pc.toNat % 4 = 0 → memOk s.params.map s.pc 4 .fetch = true → s.params.ifetchCoherent = false →
      (∃ b, InBlock s.pc 4 b ∧ s.stored.has b = true) → step s = .refused .fetchOfStoredByte) ∧
    (∀ (w : InsnWord) (ext : List InsnWord), CodeAt s (w :: ext) →
      decodeWord s.params.strictReserved w [] ≠ .reject .unassigned → ext.length < extWordsOf w →
      (2 ^ 64 < s.pc.toNat + 4 * (ext.length + 2) → step s = .refused .pastTopOfMemory) ∧
      (s.pc.toNat + 4 * (ext.length + 2) ≤ 2 ^ 64 →
        memOk s.params.map (s.pc + BitVec.ofNat 64 (4 * (ext.length + 1))) 4 .fetch = true →
        s.params.ifetchCoherent = false →
        (∃ b, InBlock (s.pc + BitVec.ofNat 64 (4 * (ext.length + 1))) 4 b ∧ s.stored.has b = true) →
        step s = .refused .fetchOfStoredByte))) ∧
  (∀ (s : State) (i : Instr), EndsInSequence s i → 2 ^ 64 ≤ s.pc.toNat + 4 * (encode i).length →
    exec i s = .refused .pastTopOfMemory)

/-! ## Registers and memory -/

/-- Register 0 reads zero and discards writes, register 31 is the stack pointer of the mode, and a write changes the register
it names and no other register, special register or memory. Derived: the two stack pointers are D21. -/
def Obligations.RegisterWritesReadBack : Prop :=
  ∀ (s : State) (i : Reg) (v : Word), s.x 0#5 = 0#64 ∧ s.setX 0#5 v = s ∧
    (s.supervisor = true → s.x 31#5 = s.ssp) ∧ (s.supervisor = false → s.x 31#5 = s.usp) ∧
    (i ≠ 0#5 → (s.setX i v).x i = v) ∧ (s.setX i v).pc = s.pc ∧ KeepsRest [i] [] s (s.setX i v) ∧
    KeepsMemory s (s.setX i v)

/-- The two memory primitives: after a write of n bytes each byte holds its part of the value, little-endian, a read of them
gives the low 8n bits of the value, no other byte changes, and the canonical form is kept, so that memories that read alike
are equal. Derived: the byte order is D1; the canonical form is the model's (log entry 4). -/
def Obligations.MemoryReadsBackWhatWasWritten : Prop :=
  (∀ (m : Memory) (a : Word) (n : Nat) (v : Word), m.wf = true → n ≤ 8 →
    (m.writeLE a n v).readLE a n = (v.setWidth (8 * n)).setWidth 64 ∧
    (∀ k, k < n → (m.writeLE a n v).read (a + BitVec.ofNat 64 k).toNat = v.extractLsb' (8 * k) 8) ∧
    (∀ b, ¬ InBlock a n b → (m.writeLE a n v).read b = m.read b) ∧ (m.writeLE a n v).wf = true) ∧
  (∀ m m' : Memory, m.wf = true → m'.wf = true → (∀ b, m.read b = m'.read b) → m = m')

/-- The addresses of the four modes: the base, the base and the displacement, or base, index and displacement, with register 0
as the program counter, modulo 2^64. The displacement, and the immediate of STORE #imm, is the sign-extended field, or 1 or 2
extension words, sign-extended. Derived: it rests on D9, D10 and D3. -/
def Obligations.EffectiveAddresses : Prop :=
  (∀ (s : State) (rb rc : Reg) (n : Nat) (d : Disp n),
    (∀ md, s.ea md rb d = address s md rb d) ∧ s.eaIndexed rb rc d = indexedAddress s rb rc d) ∧
  (∀ (n : Nat) (v : BitVec n),
    dispValue (.short v) = BitVec.ofInt 64 v.toInt ∧ Disp.extWords (.short v) = 0) ∧
  (∀ (n : Nat) (v : BitVec 32),
    dispValue (.ext32 v : Disp n) = BitVec.ofInt 64 v.toInt ∧ Disp.extWords (.ext32 v : Disp n) = 1) ∧
  (∀ (n : Nat) (v : BitVec 64), dispValue (.ext64 v : Disp n) = v ∧ Disp.extWords (.ext64 v : Disp n) = 2) ∧
  (∀ v : BitVec 5, storeImmValue (.short v) = BitVec.ofInt 64 v.toInt ∧ StoreImm.extWords (.short v) = 0) ∧
  (∀ v : BitVec 32, storeImmValue (.ext32 v) = BitVec.ofInt 64 v.toInt ∧ StoreImm.extWords (.ext32 v) = 1) ∧
  (∀ v : BitVec 64, storeImmValue (.ext64 v) = v ∧ StoreImm.extWords (.ext64 v) = 2)

/-! ## Arithmetic and logic -/

/-- ADD in all four forms. Derived: the flags at the operand width are D6, the bits above a narrow result D5; sign-extended
immediates D3. -/
def Obligations.AddResultAndFrame : Prop :=
  CompletesInFourForms (fun s => s.ac.getLsbD 2 = false) .addRR .addI32 .addI64 .addI10 AddEffect

/-- ADC in all four forms. Derived: the flags at the operand width are D6, the bits above a narrow result D5; the carry in is
D29, sign-extended immediates D3. -/
def Obligations.AdcResultAndFrame : Prop :=
  CompletesInFourForms (fun s => s.ac.getLsbD 2 = false) .adcRR .adcI32 .adcI64 .adcI10 AdcEffect

/-- ADD and ADC in decimal mode are refused. Derived: it rests on D16. -/
def Obligations.AddAndAdcRefusedInDecimalMode : Prop :=
  ∀ (s : State) (ct : CReg) (sz : Size) (rt ra : Reg), s.ac.getLsbD 2 = true →
    (∀ rb, exec (.addRR ct sz rt ra rb) s = .refused .decimalMode ∧ exec (.adcRR ct sz rt ra rb) s = .refused .decimalMode) ∧
    (∀ imm, exec (.addI32 ct sz rt ra imm) s = .refused .decimalMode ∧
      exec (.adcI32 ct sz rt ra imm) s = .refused .decimalMode) ∧
    (∀ imm, exec (.addI64 ct sz rt ra imm) s = .refused .decimalMode ∧
      exec (.adcI64 ct sz rt ra imm) s = .refused .decimalMode) ∧
    (∀ imm, exec (.addI10 ct sz rt ra imm) s = .refused .decimalMode ∧
      exec (.adcI10 ct sz rt ra imm) s = .refused .decimalMode)

/-- SUB in all forms, with the operands in the order of the swap bit. Derived: the flags at the operand width are D6, the bits
above a narrow result D5; the flags of SUB are D53, sign-extended immediates D3. -/
def Obligations.SubResultAndFrame : Prop :=
  ∀ (s : State) (ct : CReg) (sz : Size) (rt ra : Reg) (swap : Bool),
    (∀ rb, Room 1 s → Completes (exec (.subRR ct sz rt ra rb) s)
      (SubEffect ct rt (low sz (s.x ra)) (low sz (s.x rb)) 1 s)) ∧
    (∀ imm, Room 2 s → InOrder swap (low sz (s.x ra)) (immediateAt (sizeBits sz) imm) fun a b =>
      Completes (exec (.subI32 ct sz rt ra swap imm) s) (SubEffect ct rt a b 2 s)) ∧
    (∀ imm, Room 3 s → InOrder swap (low sz (s.x ra)) (immediateAt (sizeBits sz) imm) fun a b =>
      Completes (exec (.subI64 ct sz rt ra swap imm) s) (SubEffect ct rt a b 3 s)) ∧
    (∀ imm, Room 1 s → InOrder swap (low sz (s.x ra)) (immediateAt (sizeBits sz) imm) fun a b =>
      Completes (exec (.subI10 ct sz rt ra swap imm) s) (SubEffect ct rt a b 1 s))

/-- CMP in all forms, and what the ten integer conditions say after it. Derived: the flags are the spec's inference from the
branch conditions; the width is D6, sign-extended immediates D3. -/
def Obligations.CompareResultAndConditions : Prop :=
  ∀ (s : State) (ct : CReg) (sz : Size) (ra : Reg) (swap : Bool),
    (∀ rb, Room 1 s → Completes (exec (.cmpRR ct sz ra rb) s) (CmpEffect ct (low sz (s.x ra)) (low sz (s.x rb)) 1 s)) ∧
    (∀ imm, Room 2 s → InOrder swap (low sz (s.x ra)) (immediateAt (sizeBits sz) imm) fun a b =>
      Completes (exec (.cmpI32 ct sz ra swap imm) s) (CmpEffect ct a b 2 s)) ∧
    (∀ imm, Room 3 s → InOrder swap (low sz (s.x ra)) (immediateAt (sizeBits sz) imm) fun a b =>
      Completes (exec (.cmpI64 ct sz ra swap imm) s) (CmpEffect ct a b 3 s)) ∧
    (∀ imm, Room 1 s → InOrder swap (low sz (s.x ra)) (immediateAt (sizeBits sz) imm) fun a b =>
      Completes (exec (.cmpI10 ct sz ra swap imm) s) (CmpEffect ct a b 1 s))

/-- MULS and MULU with an immediate. Derived: the flags at the operand width are D6, the bits above a narrow result D5; the
carry is free by D19, sign-extended immediates D3. -/
def Obligations.MultiplyImmediateResultAndFrame : Prop :=
  ∀ (s : State) (ct : CReg) (sz : Size) (rt ra : Reg),
    (∀ imm, Room 2 s → Completes (exec (.mulsI32 ct sz rt ra imm) s)
      (MulsEffect ct rt (low sz (s.x ra)) (immediateAt (sizeBits sz) imm) 2 s)) ∧
    (∀ imm, Room 3 s → Completes (exec (.mulsI64 ct sz rt ra imm) s)
      (MulsEffect ct rt (low sz (s.x ra)) (immediateAt (sizeBits sz) imm) 3 s)) ∧
    (∀ imm, Room 1 s → Completes (exec (.mulsI10 ct sz rt ra imm) s)
      (MulsEffect ct rt (low sz (s.x ra)) (immediateAt (sizeBits sz) imm) 1 s)) ∧
    (∀ imm, Room 2 s → Completes (exec (.muluI32 ct sz rt ra imm) s)
      (MuluEffect ct rt (low sz (s.x ra)) (immediateAt (sizeBits sz) imm) 2 s)) ∧
    (∀ imm, Room 3 s → Completes (exec (.muluI64 ct sz rt ra imm) s)
      (MuluEffect ct rt (low sz (s.x ra)) (immediateAt (sizeBits sz) imm) 3 s)) ∧
    (∀ imm, Room 1 s → Completes (exec (.muluI10 ct sz rt ra imm) s)
      (MuluEffect ct rt (low sz (s.x ra)) (immediateAt (sizeBits sz) imm) 1 s))

/-- The register forms of MULS and MULU, with the high half in Rp; refused where both destinations are one register that is
not 0. Derived: the flags at the operand width are D6, the bits above a narrow result D5; the carry is free by D19. -/
def Obligations.MultiplyRegisterResultAndFrame : Prop :=
  ∀ (s : State) (ct : CReg) (sz : Size) (rt ra rb rp : Reg),
    (rp ≠ rt ∨ rt = 0#5 → Room 1 s →
      Completes (exec (.mulsRR ct sz rt ra rb rp) s) (MulsHighEffect ct rt rp (low sz (s.x ra)) (low sz (s.x rb)) s) ∧
      Completes (exec (.muluRR ct sz rt ra rb rp) s) (MuluHighEffect ct rt rp (low sz (s.x ra)) (low sz (s.x rb)) s)) ∧
    (rp = rt → rt ≠ 0#5 →
      exec (.mulsRR ct sz rt ra rb rp) s = .refused .sameDestination ∧
      exec (.muluRR ct sz rt ra rb rp) s = .refused .sameDestination)

/-- DIVS by a divisor that is not zero. Derived: the flags at the operand width are D6, the bits above a narrow result D5;
rounding, the sign of the remainder and the overflow case are D17, sign-extended immediates D3. -/
def Obligations.SignedDivideResultAndFrame : Prop :=
  ∀ (s : State) (ct : CReg) (sz : Size) (rt ra : Reg) (swap : Bool),
    (∀ rb rr, Room 1 s → rr ≠ rt ∨ rt = 0#5 → low sz (s.x rb) ≠ 0#(sizeBits sz) →
      Completes (exec (.divsRR ct sz rt ra rb rr) s) (DivsEffect ct rt (some rr) (low sz (s.x ra)) (low sz (s.x rb)) 1 s)) ∧
    (∀ imm, Room 2 s → InOrder swap (low sz (s.x ra)) (immediateAt (sizeBits sz) imm) fun a b => b ≠ 0#(sizeBits sz) →
      Completes (exec (.divsI32 ct sz rt ra swap imm) s) (DivsEffect ct rt none a b 2 s)) ∧
    (∀ imm, Room 3 s → InOrder swap (low sz (s.x ra)) (immediateAt (sizeBits sz) imm) fun a b => b ≠ 0#(sizeBits sz) →
      Completes (exec (.divsI64 ct sz rt ra swap imm) s) (DivsEffect ct rt none a b 3 s)) ∧
    (∀ imm, Room 1 s → InOrder swap (low sz (s.x ra)) (immediateAt (sizeBits sz) imm) fun a b => b ≠ 0#(sizeBits sz) →
      Completes (exec (.divsI10 ct sz rt ra swap imm) s) (DivsEffect ct rt none a b 1 s))

/-- DIVU by a divisor that is not zero. Derived: the flags at the operand width are D6, the bits above a narrow result D5;
sign-extended immediates D3. -/
def Obligations.UnsignedDivideResultAndFrame : Prop :=
  ∀ (s : State) (ct : CReg) (sz : Size) (rt ra : Reg) (swap : Bool),
    (∀ rb rr, Room 1 s → rr ≠ rt ∨ rt = 0#5 → low sz (s.x rb) ≠ 0#(sizeBits sz) →
      Completes (exec (.divuRR ct sz rt ra rb rr) s) (DivuEffect ct rt (some rr) (low sz (s.x ra)) (low sz (s.x rb)) 1 s)) ∧
    (∀ imm, Room 2 s → InOrder swap (low sz (s.x ra)) (immediateAt (sizeBits sz) imm) fun a b => b ≠ 0#(sizeBits sz) →
      Completes (exec (.divuI32 ct sz rt ra swap imm) s) (DivuEffect ct rt none a b 2 s)) ∧
    (∀ imm, Room 3 s → InOrder swap (low sz (s.x ra)) (immediateAt (sizeBits sz) imm) fun a b => b ≠ 0#(sizeBits sz) →
      Completes (exec (.divuI64 ct sz rt ra swap imm) s) (DivuEffect ct rt none a b 3 s))

/-- A division by zero, after the swap and at the operand width, writes no register and no flag and raises application
exception 0 with the address of the next instruction; a division with one register for both results is refused. Derived: it
rests on D18 and D22; the order of the two checks of the register form is log entry 16; that the address of the next
instruction wraps at the top of memory is D7 and log entry 12. -/
def Obligations.DivisionByZeroRaisesApplicationException : Prop :=
  ∀ (s : State) (ct : CReg) (sz : Size) (rt ra : Reg) (swap : Bool),
    (∀ rb rr, rr ≠ rt ∨ rt = 0#5 → low sz (s.x rb) = 0#(sizeBits sz) →
      exec (.divsRR ct sz rt ra rb rr) s = .next (appException 0#5 (s.pc + 4#64) s) ∧
      exec (.divuRR ct sz rt ra rb rr) s = .next (appException 0#5 (s.pc + 4#64) s)) ∧
    (∀ imm, InOrder swap (low sz (s.x ra)) (immediateAt (sizeBits sz) imm) fun _ b => b = 0#(sizeBits sz) →
      exec (.divsI32 ct sz rt ra swap imm) s = .next (appException 0#5 (s.pc + 8#64) s) ∧
      exec (.divuI32 ct sz rt ra swap imm) s = .next (appException 0#5 (s.pc + 8#64) s)) ∧
    (∀ imm, InOrder swap (low sz (s.x ra)) (immediateAt (sizeBits sz) imm) fun _ b => b = 0#(sizeBits sz) →
      exec (.divsI64 ct sz rt ra swap imm) s = .next (appException 0#5 (s.pc + 12#64) s) ∧
      exec (.divuI64 ct sz rt ra swap imm) s = .next (appException 0#5 (s.pc + 12#64) s)) ∧
    (∀ imm, InOrder swap (low sz (s.x ra)) (immediateAt (sizeBits sz) imm) fun _ b => b = 0#(sizeBits sz) →
      exec (.divsI10 ct sz rt ra swap imm) s = .next (appException 0#5 (s.pc + 4#64) s)) ∧
    (∀ rb, rt ≠ 0#5 → exec (.divsRR ct sz rt ra rb rt) s = .refused .sameDestination ∧
      exec (.divuRR ct sz rt ra rb rt) s = .refused .sameDestination)

/-- AND, OR and EOR in all four forms: the result, the zero and negative flags, and the two flags they do not mention.
Derived: the flags at the operand width are D6, the bits above a narrow result D5; sign-extended immediates D3, the flags that
are not mentioned D8. -/
def Obligations.LogicResultAndFrame : Prop :=
  CompletesInFourForms (fun _ => True) .andRR .andI32 .andI64 .andI10
    (fun ct rt a b words s t => LogicEffect ct rt (a &&& b) words s t) ∧
  CompletesInFourForms (fun _ => True) .orRR .orI32 .orI64 .orI10
    (fun ct rt a b words s t => LogicEffect ct rt (a ||| b) words s t) ∧
  CompletesInFourForms (fun _ => True) .eorRR .eorI32 .eorI64 .eorI10
    (fun ct rt a b words s t => LogicEffect ct rt (a ^^^ b) words s t)

/-- ABS writes no flag and wraps the most negative number to itself; LOADQ loads its sign-extended constant. Derived: the
flags at the operand width are D6, the bits above a narrow result D5; ABS is D40, the sign extension of LOADQ D3. -/
def Obligations.AbsAndLoadqResultAndFrame : Prop :=
  ∀ (s : State) (ct : CReg) (sz : Size) (rt rb : Reg) (imm : BitVec 17), Room 1 s →
    Completes (exec (.abs sz rt rb) s) (fun t => ∃ r : BitVec (sizeBits sz),
      (low sz (s.x rb) = BitVec.intMin (sizeBits sz) → r = BitVec.intMin (sizeBits sz)) ∧
      (low sz (s.x rb) ≠ BitVec.intMin (sizeBits sz) → r.toInt = |(low sz (s.x rb)).toInt|) ∧
      WritesResult rt r s t ∧ EndsAt 1 [rt] [] s t) ∧
    Completes (exec (.loadq ct sz rt imm) s) (LogicEffect ct rt (immediateAt (sizeBits sz) imm) 1 s)

/-! ## Control and special registers -/

/-- MOVE from each CSR: the value goes to the register, and nothing else changes; a read of Tick gives a value that is not
fixed. Derived: tick is free by D47; the core number is log entry 1. -/
def Obligations.MoveFromCsrResultAndFrame : Prop :=
  ∀ (s : State) (rb : Reg), Room 1 s →
    Completes (exec (.moveFromCsr (.field 1#7) rb) s) (fun t => WritesResult rb (s.ccrg.setWidth 64) s t ∧ EndsAt 1 [rb] [] s t) ∧
    Completes (exec (.moveFromCsr (.field 120#7) rb) s) (fun t => EndsAt 1 [rb] [] s t) ∧
    (s.supervisor = true →
      Completes (exec (.moveFromCsr (.field 2#7) rb) s) (fun t => WritesResult rb (s.sr.setWidth 64) s t ∧ EndsAt 1 [rb] [] s t) ∧
      Completes (exec (.moveFromCsr (.field 121#7) rb) s) (fun t => WritesResult rb s.params.coreno s t ∧ EndsAt 1 [rb] [] s t))

/-- MOVE to, OR, ANDC and EOR on `ccr` and, in supervisor mode, on `sr`: the new value, cut to 32 bits and in SR to the bits
that have a field, and nothing else. Derived: the bits of SR that stay zero are D2, privilege is D25. -/
def Obligations.CsrWritesResultAndFrame : Prop :=
  CsrUpdates .moveToCsr (fun _ v => v) ∧ CsrUpdates .orCsr (fun old v => old ||| v) ∧
  CsrUpdates .andcCsr (fun old v => old &&& ~~~v) ∧ CsrUpdates .eorCsr (fun old v => old ^^^ v)

/-- The five CSR operations are refused on a number that has no register, and the four that write on a read-only one. Derived:
it rests on D36, and on log entry 9. -/
def Obligations.UndocumentedAndReadOnlyCsrsAreRefused : Prop :=
  CsrNumberRefused .moveFromCsr ∧ CsrNumberRefused .moveToCsr ∧ CsrNumberRefused .orCsr ∧ CsrNumberRefused .andcCsr ∧
  CsrNumberRefused .eorCsr ∧
  CsrWriteRefused .moveToCsr ∧ CsrWriteRefused .orCsr ∧ CsrWriteRefused .andcCsr ∧ CsrWriteRefused .eorCsr

/-- In user mode the CSR operations on `sr` and Coreno, RTI, and LOADM and STOREM of SR raise Privilege Violation (system
vector 8) with the program counter of the instruction, before any access or register write. Derived: it rests on D26, D25 and
D22. -/
def Obligations.PrivilegedOperationsTrapInUserMode : Prop :=
  CsrPrivileged .moveFromCsr ∧ CsrPrivileged .moveToCsr ∧ CsrPrivileged .orCsr ∧ CsrPrivileged .andcCsr ∧
  CsrPrivileged .eorCsr ∧
  ∀ s : State, s.supervisor = false →
    (∀ arg rpt, exec (.rti arg rpt) s = .next (sysException 8#8 s.pc s)) ∧
    ∀ (skip : Bool) (list : BitVec 32) (special : BitVec 5) (rb rc : Reg), special.getLsbD 2 = true →
      (∀ md d, exec (.loadm .o md skip list special rb d) s = .next (sysException 8#8 s.pc s)) ∧
      (∀ d, exec (.loadmX .o skip list special rb rc d) s = .next (sysException 8#8 s.pc s)) ∧
      (∀ md d, exec (.storem .o md skip list special rb d) s = .next (sysException 8#8 s.pc s)) ∧
      (∀ d, exec (.storemX .o skip list special rb rc d) s = .next (sysException 8#8 s.pc s))

/-! ## Floating point -/

/-- FCMP in all forms writes what the comparison parameter reports to the float flags lt, eq, ord, with 0 in the unused bit,
and nothing else; whatever the parameter is, lt and eq are not both set and unordered excludes both. In decimal mode it is
refused. Derived: the comparison is a parameter by D37 (log entry 3); the refusal is D16. -/
def Obligations.FloatCompareResultAndFrame : Prop :=
  ∀ (s : State) (ct : CReg) (sz : Size) (ra : Reg) (swap : Bool),
    let effect := fun (words : Nat) (a b : BitVec (sizeBits sz)) (t : State) =>
      FlagsAre (t.cr ct) (Config.fcmp sz (a.setWidth 64) (b.setWidth 64) = .less)
        (Config.fcmp sz (a.setWidth 64) (b.setWidth 64) = .equal)
        (Config.fcmp sz (a.setWidth 64) (b.setWidth 64) ≠ .unordered) False ∧ EndsAt words [] [ct] s t
    (s.ac.extractLsb' 0 2 = 0#2 →
      (∀ rb, Room 1 s → Completes (exec (.fcmpRR ct sz ra rb) s) (effect 1 (low sz (s.x ra)) (low sz (s.x rb)))) ∧
      (∀ imm, Room 2 s → InOrder swap (low sz (s.x ra)) (immediateAt (sizeBits sz) imm) fun a b =>
        Completes (exec (.fcmpI32 ct sz ra swap imm) s) (effect 2 a b)) ∧
      (∀ imm, Room 3 s → InOrder swap (low sz (s.x ra)) (immediateAt (sizeBits sz) imm) fun a b =>
        Completes (exec (.fcmpI64 ct sz ra swap imm) s) (effect 3 a b)) ∧
      (∀ imm, Room 1 s → InOrder swap (low sz (s.x ra)) (immediateAt (sizeBits sz) imm) fun a b =>
        Completes (exec (.fcmpI10 ct sz ra swap imm) s) (effect 1 a b))) ∧
    (s.ac.extractLsb' 0 2 ≠ 0#2 →
      (∀ rb, exec (.fcmpRR ct sz ra rb) s = .refused .decimalFloat) ∧
      (∀ imm, exec (.fcmpI32 ct sz ra swap imm) s = .refused .decimalFloat) ∧
      (∀ imm, exec (.fcmpI64 ct sz ra swap imm) s = .refused .decimalFloat) ∧
      (∀ imm, exec (.fcmpI10 ct sz ra swap imm) s = .refused .decimalFloat))

/-- FMA, FMS, FNMA and FNMS are refused: every word with major opcode 20 to 23 decodes to one of them, and none has an effect.
Derived: it rests on D24. -/
def Obligations.NamedOnlyOpcodesAreRefused : Prop :=
  (∀ (bits : BitVec 27) (s : State), exec (.fma bits) s = .refused .fmaUndefined ∧ exec (.fms bits) s = .refused .fmsUndefined ∧
    exec (.fnma bits) s = .refused .fnmaUndefined ∧ exec (.fnms bits) s = .refused .fnmsUndefined) ∧
  (∀ (strict : Bool) (w : InsnWord) (ext : List InsnWord),
    (w.toNat % 32 = 20 → ∃ b, decodeWord strict w ext = .instr (.fma b)) ∧
    (w.toNat % 32 = 21 → ∃ b, decodeWord strict w ext = .instr (.fms b)) ∧
    (w.toNat % 32 = 22 → ∃ b, decodeWord strict w ext = .instr (.fnma b)) ∧
    (w.toNat % 32 = 23 → ∃ b, decodeWord strict w ext = .instr (.fnms b)))

/-! ## Bits, shifts, SWAP -/

/-- BCLR, BSET, BCHG and BTST in both forms: the bit numbered by the index modulo the operand width gets its new value (none
for BTST), and the zero flag says that it was 0. Derived: the flags at the operand width are D6, the bits above a narrow
result D5; the flags that are not mentioned are D8, the polarity of the zero flag is that of `spec/90_conflicts.md` C15. -/
def Obligations.SingleBitResultAndFrame : Prop :=
  ∀ (s : State) (ct : CReg) (sz : Size) (rt ra rb : Reg) (imm : BitVec 7), Room 1 s →
    let a := low sz (s.x ra)
    let i := (s.x rb).toNat % sizeBits sz
    let j := imm.toNat % sizeBits sz
    Completes (exec (.bclrReg ct sz rt ra rb) s) (BitEffect ct rt a i false s) ∧
    Completes (exec (.bclrImm ct sz rt ra imm) s) (BitEffect ct rt a j false s) ∧
    Completes (exec (.bsetReg ct sz rt ra rb) s) (BitEffect ct rt a i true s) ∧
    Completes (exec (.bsetImm ct sz rt ra imm) s) (BitEffect ct rt a j true s) ∧
    Completes (exec (.bchgReg ct sz rt ra rb) s) (BitEffect ct rt a i (!a.getLsbD i) s) ∧
    Completes (exec (.bchgImm ct sz rt ra imm) s) (BitEffect ct rt a j (!a.getLsbD j) s) ∧
    Completes (exec (.btstReg ct sz ra rb) s) (fun t => ZeroOnly ct (a.getLsbD i = false) s t ∧ EndsAt 1 [] [ct] s t) ∧
    Completes (exec (.btstImm ct sz ra imm) s) (fun t => ZeroOnly ct (a.getLsbD j = false) s t ∧ EndsAt 1 [] [ct] s t)

/-- BPCLR, BPCHG and BPTST in both forms: the pair numbered by the index modulo the number of pairs gets its new value (none
for BPTST), and the four flags say one-hot what it was. Derived: the number of the pair is D54. -/
def Obligations.BitPairResultAndFrame : Prop :=
  ∀ (s : State) (ct : CReg) (sz : Size) (rt ra rb : Reg) (imm : BitVec 7), Room 1 s →
    let a := low sz (s.x ra)
    let p := (s.x rb).toNat % (sizeBits sz / 2)
    let q := imm.toNat % (sizeBits sz / 2)
    Completes (exec (.bpclrReg ct sz rt ra rb) s) (PairEffect ct rt a p (fun _ => false) s) ∧
    Completes (exec (.bpclrImm ct sz rt ra imm) s) (PairEffect ct rt a q (fun _ => false) s) ∧
    Completes (exec (.bpchgReg ct sz rt ra rb) s) (PairEffect ct rt a p (fun b => !b) s) ∧
    Completes (exec (.bpchgImm ct sz rt ra imm) s) (PairEffect ct rt a q (fun b => !b) s) ∧
    Completes (exec (.bptstReg ct sz ra rb) s)
      (fun t => PairFlags (t.cr ct) (a.getLsbD (2 * p + 1)) (a.getLsbD (2 * p)) ∧ EndsAt 1 [] [ct] s t) ∧
    Completes (exec (.bptstImm ct sz ra imm) s)
      (fun t => PairFlags (t.cr ct) (a.getLsbD (2 * q + 1)) (a.getLsbD (2 * q)) ∧ EndsAt 1 [] [ct] s t)

/-- ASL, ASR, LSL and LSR by 0 to 63 places in both forms, in closed form: the register count is the low six bits, the count
is not reduced modulo the width, and with a count of zero nothing is said of the carry. Derived: the count and its zero case
are D28, the width D6. -/
def Obligations.ShiftResultAndFrame : Prop :=
  ∀ (s : State) (ct : CReg) (sz : Size) (fill : Bool) (rt ra rb : Reg) (imm : BitVec 6), Room 1 s →
    let a := low sz (s.x ra)
    let n := (s.x rb).toNat % 64
    Completes (exec (.aslReg ct sz fill rt ra rb) s) (AslEffect ct fill rt a n s) ∧
    Completes (exec (.aslImm ct sz fill rt ra imm) s) (AslEffect ct fill rt a imm.toNat s) ∧
    Completes (exec (.asrReg ct sz rt ra rb) s) (AsrEffect ct rt a n s) ∧
    Completes (exec (.asrImm ct sz rt ra imm) s) (AsrEffect ct rt a imm.toNat s) ∧
    Completes (exec (.lslReg ct sz fill rt ra rb) s) (LslEffect ct fill rt a n s) ∧
    Completes (exec (.lslImm ct sz fill rt ra imm) s) (LslEffect ct fill rt a imm.toNat s) ∧
    Completes (exec (.lsrReg ct sz fill rt ra rb) s) (LsrEffect ct fill rt a n s) ∧
    Completes (exec (.lsrImm ct sz fill rt ra imm) s) (LsrEffect ct fill rt a imm.toNat s)

/-- ROL and ROR by 0 to 63 places in both forms: where each bit goes, and how often N flips it. Derived: the count and its
zero case are D28, the width D6. -/
def Obligations.RotateResultAndFrame : Prop :=
  ∀ (s : State) (ct : CReg) (sz : Size) (flip : Bool) (rt ra rb : Reg) (imm : BitVec 6), Room 1 s →
    let a := low sz (s.x ra)
    let n := (s.x rb).toNat % 64
    Completes (exec (.rolReg ct sz flip rt ra rb) s) (RolEffect ct flip rt a n s) ∧
    Completes (exec (.rolImm ct sz flip rt ra imm) s) (RolEffect ct flip rt a imm.toNat s) ∧
    Completes (exec (.rorReg ct sz flip rt ra rb) s) (RorEffect ct flip rt a n s) ∧
    Completes (exec (.rorImm ct sz flip rt ra imm) s) (RorEffect ct flip rt a imm.toNat s)

/-- ROLC and RORC by 0 to 63 places in both forms: where each of the W + 1 bits of operand and carry goes, and how often N
flips it. Derived: the carry in and the iteration are D29, the count D28. -/
def Obligations.RotateThroughCarryResultAndFrame : Prop :=
  ∀ (s : State) (ct : CReg) (sz : Size) (flip : Bool) (rt ra rb : Reg) (imm : BitVec 6), Room 1 s →
    let a := low sz (s.x ra)
    let n := (s.x rb).toNat % 64
    Completes (exec (.rolcReg ct sz flip rt ra rb) s) (RolcEffect ct flip rt a n s) ∧
    Completes (exec (.rolcImm ct sz flip rt ra imm) s) (RolcEffect ct flip rt a imm.toNat s) ∧
    Completes (exec (.rorcReg ct sz flip rt ra rb) s) (RorcEffect ct flip rt a n s) ∧
    Completes (exec (.rorcImm ct sz flip rt ra imm) s) (RorcEffect ct flip rt a imm.toNat s)

/-- SWAP exchanges the two halves of the low 2U bits; of the condition register it writes nothing is said. Derived: it rests
on D41. -/
def Obligations.SwapResultAndFrame : Prop :=
  ∀ (s : State) (ct : CReg) (sz : HalfSize) (rt ra : Reg), Room 1 s →
    Completes (exec (.swap ct sz rt ra) s) (fun t => ∃ r : BitVec (halfBits sz + halfBits sz),
      (∀ i, i < halfBits sz → r.getLsbD i = (s.x ra).getLsbD (halfBits sz + i) ∧
        r.getLsbD (halfBits sz + i) = (s.x ra).getLsbD i) ∧
      WritesResult rt r s t ∧ EndsAt 1 [rt] [ct] s t)

/-! ## Flow control -/

/-- The condition table: the codes of the 24 conditions in its order, no condition from 0x18 up, and the test each makes on
the four flags. What the integer conditions mean after CMP is in `CompareResultAndConditions`. -/
def Obligations.ConditionsFollowTheTable : Prop :=
  (∀ (c : Cond) (f : BitVec 4),
    condHolds c f = conditionTable (f.getLsbD 3) (f.getLsbD 2) (f.getLsbD 1) (f.getLsbD 0) c) ∧
  ([.ra, .sr, .hi, .ls, .cc, .cs, .ne, .eq, .vc, .vs, .pl, .mi, .ge, .lt, .gt, .le, .fOr, .fUn, .fGt, .fLe, .fGe, .fLt, .fNe,
    .fEq] : List Cond) = (List.range 24).filterMap (fun k => Cond.ofCode (BitVec.ofNat 5 k)) ∧
  (∀ c : Cond, Cond.ofCode c.code = some c) ∧
  ∀ c : BitVec 5, 24 ≤ c.toNat → Cond.ofCode c = none

/-- Bcc and BRA: where the fields of their words are, the target (the address of the branch plus four times the signed
displacement field), and that nothing but the program counter changes. Bcc with a condition code above 0x17 is unassigned. -/
def Obligations.BranchResultAndFrame : Prop :=
  (∀ (strict : Bool) (c : Cond) (cr : CReg) (d : BitVec 19), 2 ≤ c.code.toNat →
    decodeWord strict (d ++ cr ++ c.code ++ 28#5) [] = .instr (.bcc c cr d)) ∧
  (∀ (strict : Bool) (e : BitVec 22),
    decodeWord strict (e.extractLsb' 0 19 ++ e.extractLsb' 19 3 ++ 0#5 ++ 28#5) [] = .instr (.bra e)) ∧
  (∀ (strict : Bool) (c : BitVec 5) (cr : CReg) (d : BitVec 19), 24 ≤ c.toNat →
    decodeWord strict (d ++ cr ++ c ++ 28#5) [] = .reject .unassigned) ∧
  ∀ (s : State) (c : Cond) (cr : CReg) (d : BitVec 19) (e : BitVec 22),
    (condHolds c (s.cr cr) = true → Completes (exec (.bcc c cr d) s) (JumpsTo (s.pc + BitVec.ofInt 64 (4 * d.toInt)) s)) ∧
    (condHolds c (s.cr cr) = false → Room 1 s → Completes (exec (.bcc c cr d) s) (JumpsTo (s.pc + 4#64) s)) ∧
    Completes (exec (.bra e) s) (JumpsTo (s.pc + BitVec.ofInt 64 (4 * e.toInt)) s)

/-- JMP in its four forms: register 0 reads zero, the sum is modulo 2^64, and nothing but the program counter changes. DBcc
decrements LC in every case and branches where the condition is false and the new LC is not -1. Derived: JMP rests on D32,
DBcc on D33. -/
def Obligations.JumpAndCountedBranchResultAndFrame : Prop :=
  ∀ (s : State) (ra : Reg) (c : Cond) (cr : CReg) (d : BitVec 19),
    (∀ rb, Completes (exec (.jmpReg ra rb) s) (JumpsTo (s.x ra + s.x rb) s)) ∧
    (∀ imm, Completes (exec (.jmpI32 ra imm) s) (JumpsTo (s.x ra + BitVec.ofInt 64 imm.toInt) s)) ∧
    (∀ imm, Completes (exec (.jmpI64 ra imm) s) (JumpsTo (s.x ra + imm) s)) ∧
    (∀ imm, Completes (exec (.jmpI10 ra imm) s) (JumpsTo (s.x ra + BitVec.ofInt 64 imm.toInt) s)) ∧
    (condHolds c (s.cr cr) = false → s.lc ≠ 0#64 → Completes (exec (.dbcc c cr d) s) fun t =>
      t = { s with pc := s.pc + BitVec.ofInt 64 (4 * d.toInt), lc := s.lc - 1#64 }) ∧
    (condHolds c (s.cr cr) = true ∨ s.lc = 0#64 → Room 1 s → Completes (exec (.dbcc c cr d) s) fun t =>
      t = { s with pc := s.pc + 4#64, lc := s.lc - 1#64 })

/-- BSR and JSR: the return address, and CCRG where G is set, are pushed on the stack of the current mode, and the target is
computed before the pushes. Derived: it rests on D45, D32 and D1; the record of the pushes as stored is log entry 17; that the
return address wraps at the top of memory is D7 and log entry 12. -/
def Obligations.CallResultAndFrame : Prop :=
  ∀ (s : State) (g : Bool) (ra : Reg), s.Inv →
    (∀ e : BitVec 22, CanCall false s →
      Completes (exec (.bsr e) s) (CallEffect false (s.pc + BitVec.ofInt 64 (4 * e.toInt)) 1 s)) ∧
    (CanCall g s →
      (∀ rb, Completes (exec (.jsrReg g ra rb) s) (CallEffect g (s.x ra + s.x rb) 1 s)) ∧
      (∀ imm, Completes (exec (.jsrI32 g ra imm) s) (CallEffect g (s.x ra + BitVec.ofInt 64 imm.toInt) 2 s)) ∧
      (∀ imm, Completes (exec (.jsrI64 g ra imm) s) (CallEffect g (s.x ra + imm) 3 s)) ∧
      (∀ imm, Completes (exec (.jsrI10 g ra imm) s) (CallEffect g (s.x ra + BitVec.ofInt 64 imm.toInt) 1 s)))

/-- RTS and ARTI: what they pop from the stack of the current mode, the bytes of arguments they remove and the words they
skip. Derived: RTS is the spec's inference from the other returns; the units are D34, the slot D45. -/
def Obligations.ReturnResultAndFrame : Prop :=
  ∀ (s : State) (arg : BitVec 10) (rpt : BitVec 5), CanAccess s .read (s.x 31#5) 8 →
    Completes (exec (.rts arg rpt) s) (fun t =>
      t.pc = s.mem.readLE (s.x 31#5) 8 + BitVec.ofNat 64 (4 * rpt.toNat) ∧
      t.x 31#5 = s.x 31#5 + BitVec.ofNat 64 (8 + 4 * arg.toNat) ∧ KeepsRest [31#5] [] s t ∧ KeepsMemory s t) ∧
    (CanAccess s .read (s.x 31#5 + 8#64) 8 → Completes (exec (.arti arg rpt) s) (fun t =>
      t.pc = s.mem.readLE (s.x 31#5 + 8#64) 8 + BitVec.ofNat 64 (4 * rpt.toNat) ∧
      t.x 31#5 = s.x 31#5 + BitVec.ofNat 64 (16 + 4 * arg.toNat) ∧
      t.ccrg = (s.mem.readLE (s.x 31#5) 8).setWidth 32 ∧
      KeepsRest [31#5] [0#3, 1#3, 2#3, 3#3, 4#3, 5#3, 6#3, 7#3] s t ∧ KeepsMemory s t))

/-- RTI in supervisor mode: SR, CCRG and PC are popped from the system stack, the bits of SR without a field stay zero, and
nothing else changes. Derived: it rests on D26, D34, D45 and D2. -/
def Obligations.ReturnFromInterruptResultAndFrame : Prop :=
  ∀ (s : State) (arg : BitVec 10) (rpt : BitVec 5), s.supervisor = true → CanAccess s .read s.ssp 8 →
    CanAccess s .read (s.ssp + 8#64) 8 → CanAccess s .read (s.ssp + 16#64) 8 →
    Completes (exec (.rti arg rpt) s) (fun t =>
      t = { s with
        pc := s.mem.readLE (s.ssp + 16#64) 8 + BitVec.ofNat 64 (4 * rpt.toNat)
        ssp := s.ssp + BitVec.ofNat 64 (24 + 4 * arg.toNat)
        ccrg := (s.mem.readLE (s.ssp + 8#64) 8).setWidth 32
        sr := (s.mem.readLE s.ssp 8).setWidth 32 &&& 0xFF00A707#32 })

/-! ## Exceptions -/

/-- System exception entry: supervisor mode, the frame of PC, CCRG and old SR on the system stack, and the handler's address
from the table at VB; nothing else changes. Derived: it rests on D21, D45 and D48; the record of the pushes as stored is log
entry 17. -/
def Obligations.SystemExceptionEntry : Prop :=
  ∀ (v : SysVector) (ret : Word) (s : State), s.Inv → CanEnterSystem v s → EntersSystem v ret s (sysException v ret s)

/-- A fault in one of the four accesses of system exception entry leaves the machine stuck, and no step leaves the stuck
state. Derived: it rests on D49; that the machine is stuck after a next state is log entry 15. -/
def Obligations.FaultInSystemEntrySticks : Prop :=
  (∀ (v : SysVector) (ret : Word) (s : State), ¬ CanEnterSystem v s → (sysException v ret s).stuck = true) ∧
  (∀ s : State, s.stuck = true → step s = .fault .stuck)

/-- Application exception entry: the frame of PC and CCRG on the stack of the current mode, and the handler's address from the
table at AC; SR does not change, and nothing else does. Derived: it rests on D45 and D48; that AC holds a value from reset on
is log entry 7, the record of the pushes as stored log entry 17. -/
def Obligations.ApplicationExceptionEntry : Prop :=
  ∀ (v : AppVector) (ret : Word) (s : State), s.Inv → CanEnterApp v s → EntersApp v ret s (appException v ret s)

/-- A fault in one of the three accesses of application exception entry is a system exception with the program counter of the
instruction, and the pushes already made stay. Derived: it rests on D49 and D22; the record of the pushes as stored is log
entry 17. -/
def Obligations.FaultInApplicationEntryIsASystemException : Prop :=
  ∀ (v : AppVector) (ret : Word) (s : State), s.Inv →
    (¬ CanAccess s .write (s.x 31#5 - 8#64) 8 →
      appException v ret s = sysException (faultVector s (s.x 31#5 - 8#64) 8) s.pc s) ∧
    (CanAccess s .write (s.x 31#5 - 8#64) 8 → ¬ CanAccess s .write (s.x 31#5 - 16#64) 8 →
      ∃ u, appException v ret s = sysException (faultVector s (s.x 31#5 - 16#64) 8) s.pc u ∧
        u.pc = s.pc ∧ u.x 31#5 = s.x 31#5 - 8#64 ∧ u.mem.readLE (s.x 31#5 - 8#64) 8 = ret ∧
        StoresBlock (s.x 31#5 - 8#64) 8 s u ∧ KeepsRest [31#5] [] s u) ∧
    (CanAccess s .write (s.x 31#5 - 8#64) 8 → CanAccess s .write (s.x 31#5 - 16#64) 8 →
      ¬ CanAccess s .read (appEntryAddress s v) 8 →
      ∃ u, appException v ret s = sysException (faultVector s (appEntryAddress s v) 8) s.pc u ∧
        u.pc = s.pc ∧ u.x 31#5 = s.x 31#5 - 16#64 ∧ u.mem.readLE (s.x 31#5 - 8#64) 8 = ret ∧
        u.mem.readLE (s.x 31#5 - 16#64) 8 = s.ccrg.setWidth 64 ∧
        StoresBlock (s.x 31#5 - 16#64) 16 s u ∧ KeepsRest [31#5] [] s u)

/-- RTI after system exception entry, and ARTI after application exception entry, bring back the program counter, SR, CCRG and
every register. Derived: it rests on D21, D34 and D45; the record of the pushes as stored is log entry 17. -/
def Obligations.ReturnsUndoExceptionEntry : Prop :=
  (∀ (v : SysVector) (ret : Word) (s : State), s.Inv → CanEnterSystem v s → CanAccess s .read (s.ssp - 24#64) 8 →
    CanAccess s .read (s.ssp - 16#64) 8 → CanAccess s .read (s.ssp - 8#64) 8 →
    Completes (exec (.rti 0#10 0#5) (sysException v ret s)) (fun t =>
      t.pc = ret ∧ t.sr = s.sr ∧ t.ccrg = s.ccrg ∧ KeepsFile s t ∧ t.lc = s.lc ∧ t.ac = s.ac ∧
      StoresBlock (s.ssp - 24#64) 24 s t)) ∧
  (∀ (v : AppVector) (ret : Word) (s : State), s.Inv → CanEnterApp v s → CanAccess s .read (s.x 31#5 - 16#64) 8 →
    CanAccess s .read (s.x 31#5 - 8#64) 8 →
    Completes (exec (.arti 0#10 0#5) (appException v ret s)) (fun t =>
      t.pc = ret ∧ t.sr = s.sr ∧ t.ccrg = s.ccrg ∧ KeepsFile s t ∧ t.lc = s.lc ∧ t.ac = s.ac ∧
      StoresBlock (s.x 31#5 - 16#64) 16 s t))

/-- BRK and TRAP: the data goes to Rt, and then system exception entry through vector 32 plus the trap number, with the
address of the next instruction; numbers without a vector under TRAP_NUM_MAP, and data into register 31, are refused. Derived:
it rests on D20, D22 and D30; that the address of the next instruction wraps at the top of memory is D7 and log entry 12. -/
def Obligations.SystemTraps : Prop :=
  ∀ (s : State) (data : BitVec 11) (rt ra : Reg),
    exec .brk s = .next (sysException 32#8 (s.pc + 4#64) s) ∧
    (∀ (i : Instr) (n : Nat), (i = .trapReg data rt ra ∧ n = (s.x ra).toNat) ∨
        (∃ num : BitVec 8, i = .trapImm num data rt ∧ n = num.toNat) →
      (n < 32 ∨ (n < 224 ∧ s.params.trapNumMap = .offset32) →
        (rt ≠ 31#5 → exec i s = .next (sysException (BitVec.ofNat 8 (32 + n)) (s.pc + 4#64) (s.setX rt (data.setWidth 64)))) ∧
        (rt = 31#5 → exec i s = .refused .trapDataIntoStackPointer)) ∧
      (224 ≤ n ∨ (32 ≤ n ∧ s.params.trapNumMap = .defined31) → exec i s = .refused .trapNumber))

/-- ATRAP and TRAPV: the data goes to Rt, and then application exception entry with the address of the next instruction; TRAPV
with the overflow flag clear does nothing; a trap number above 31, and data into register 31, are refused. Derived: it rests
on D20, D22, D30 and D31; that the address of the next instruction wraps at the top of memory is D7 and log entry 12. -/
def Obligations.ApplicationTraps : Prop :=
  ∀ (s : State) (data : BitVec 11) (rt ra : Reg),
    (∀ (i : Instr) (n : Nat), (i = .atrapReg data rt ra ∧ n = (s.x ra).toNat) ∨
        (∃ num : BitVec 5, i = .atrapImm num data rt ∧ n = num.toNat) →
      (n < 32 →
        (rt ≠ 31#5 → exec i s = .next (appException (BitVec.ofNat 5 n) (s.pc + 4#64) (s.setX rt (data.setWidth 64)))) ∧
        (rt = 31#5 → exec i s = .refused .trapDataIntoStackPointer)) ∧
      (32 ≤ n → exec i s = .refused .appTrapNumber)) ∧
    (∀ cr : CReg,
      ((s.cr cr).getLsbD 1 = true →
        (rt ≠ 31#5 → exec (.trapv cr data rt) s = .next (appException 31#5 (s.pc + 4#64) (s.setX rt (data.setWidth 64)))) ∧
        (rt = 31#5 → exec (.trapv cr data rt) s = .refused .trapDataIntoStackPointer)) ∧
      ((s.cr cr).getLsbD 1 = false → Room 1 s → Completes (exec (.trapv cr data rt) s) (JumpsTo (s.pc + 4#64) s)))

/-- The reset sequence on a platform's memory: VB 0, supervisor mode, mask 7, trace mode and short addressing off, the other
fields of SR as they were, and the system stack pointer and then the program counter from the first two vectors; where one of
these cannot be read the machine is stuck, and the system stack pointer is written where its own vector could be read.
Derived: it rests on D27; that the other fields of SR keep their values is log entry 6, the stuck state log entry 15. -/
def Obligations.ResetSequenceResult : Prop :=
  ∀ s : State,
    (CanAccess s .read 0#64 8 → CanAccess s .read 8#64 8 →
      resetSequence s = { s with
        vb := 0#64
        sr := (s.sr &&& 0xFF000003#32) ||| 0x00002700#32
        ssp := s.mem.readLE 0#64 8
        pc := s.mem.readLE 8#64 8
        stored := []
        stuck := false }) ∧
    (¬ CanAccess s .read 0#64 8 → (resetSequence s).stuck = true ∧ (resetSequence s).ssp = s.ssp) ∧
    (CanAccess s .read 0#64 8 → ¬ CanAccess s .read 8#64 8 →
      (resetSequence s).stuck = true ∧ (resetSequence s).ssp = s.mem.readLE 0#64 8)

/-! ## Memory instructions -/

/-- LOAD in all modes: the register gets the bytes at the effective address, the base register its new value, and nothing else
changes. Derived: it rests on D5, D9, D10 and D1. -/
def Obligations.LoadResultAndFrame : Prop :=
  ∀ (s : State) (sz : Size) (rt rb rc : Reg),
    (∀ (md : UpdMode) (d : Disp 11), MayUpdate md rb → (md = .indirect ∨ rb ≠ rt) →
      CanAccess s .read (address s md rb d) (sizeBytes sz) → Room (1 + d.extWords) s →
      Completes (exec (.load sz md rt rb d) s) fun t =>
        LoadEffect sz rt (address s md rb d) (updated md rb) (1 + d.extWords) s t ∧ BaseUpdated md rb d s t) ∧
    (∀ d : Disp 6, CanAccess s .read (indexedAddress s rb rc d) (sizeBytes sz) → Room (1 + d.extWords) s →
      Completes (exec (.loadX sz rt rb rc d) s) (LoadEffect sz rt (indexedAddress s rb rc d) [] (1 + d.extWords) s))

/-- STORE of a register and STORE #imm in all modes: the low bytes of the value, read before the base is updated, go to the
effective address, and no other byte and no register but the base changes. Derived: it rests on D9, D10, D3 and D1; the record
of stored bytes is log entry 17. -/
def Obligations.StoreResultAndFrame : Prop :=
  ∀ (s : State) (sz : Size) (ra rb rc : Reg), s.Inv →
    (∀ (md : UpdMode) (d : Disp 10), MayUpdate md rb → CanAccess s .write (address s md rb d) (sizeBytes sz) →
      (Room (1 + d.extWords) s → Completes (exec (.store sz md ra rb d) s) fun t =>
        StoreEffect (sizeBytes sz) (s.x ra) (address s md rb d) (updated md rb) (1 + d.extWords) s t ∧
        BaseUpdated md rb d s t) ∧
      (∀ imm : StoreImm, Room (1 + imm.extWords + d.extWords) s → Completes (exec (.storeImm sz md imm rb d) s) fun t =>
        StoreEffect (sizeBytes sz) (storeImmValue imm) (address s md rb d) (updated md rb)
          (1 + imm.extWords + d.extWords) s t ∧ BaseUpdated md rb d s t)) ∧
    (∀ d : Disp 5, CanAccess s .write (indexedAddress s rb rc d) (sizeBytes sz) →
      (Room (1 + d.extWords) s → Completes (exec (.storeX sz ra rb rc d) s)
        (StoreEffect (sizeBytes sz) (s.x ra) (indexedAddress s rb rc d) [] (1 + d.extWords) s)) ∧
      (∀ imm : StoreImm, Room (1 + imm.extWords + d.extWords) s → Completes (exec (.storeImmX sz imm rb rc d) s)
        (StoreEffect (sizeBytes sz) (storeImmValue imm) (indexedAddress s rb rc d) [] (1 + imm.extWords + d.extWords) s)))

/-- PUSH and PEA: 4 or 8 bytes below the stack pointer of the current mode, which then moves; PEA pushes the effective address
and does not update its base. Derived: it rests on D44, D9, D10 and D1; the record of stored bytes is log entry 17. -/
def Obligations.PushResultAndFrame : Prop :=
  ∀ s : State, s.Inv →
    (∀ ra : Reg, Room 1 s →
      (CanAccess s .write (s.x 31#5 - 4#64) 4 → Completes (exec (.pushT ra) s) (PushEffect 4 (s.x ra) 1 s)) ∧
      (CanAccess s .write (s.x 31#5 - 8#64) 8 → Completes (exec (.pushO ra) s) (PushEffect 8 (s.x ra) 1 s))) ∧
    (∀ (sz : PushSize) (rb rc : Reg), CanAccess s .write (s.x 31#5 - BitVec.ofNat 64 (pushBytes sz)) (pushBytes sz) →
      (∀ (md : UpdMode) (d : Disp 10), Room (1 + d.extWords) s →
        Completes (exec (.pea sz md rb d) s) (PushEffect (pushBytes sz) (address s md rb d) (1 + d.extWords) s)) ∧
      (∀ d : Disp 5, Room (1 + d.extWords) s →
        Completes (exec (.peaX sz rb rc d) s) (PushEffect (pushBytes sz) (indexedAddress s rb rc d) (1 + d.extWords) s)))

/-- LOADM in all modes: every selected register has the value of its slot, a loaded PC is a jump, and nothing else changes.
Derived: it rests on D11, D43, D26, D10 and D5. -/
def Obligations.LoadMultipleResultAndFrame : Prop :=
  ∀ (s : State) (sz : Size) (skip : Bool) (list : BitVec 32) (special : BitVec 5) (rb rc : Reg), MayList sz special s →
    (∀ (md : UpdMode) (d : Disp 11), MayUpdate md rb → (md = .indirect ∨ list.getLsbD rb.toNat = false) →
      CanAccessSlots s .read sz list special skip (address s md rb d) →
      (special.getLsbD 0 = true ∨ Room (2 + d.extWords) s) →
      Completes (exec (.loadm sz md skip list special rb d) s) fun t =>
        LoadmEffect sz skip list special (address s md rb d) (updated md rb) (2 + d.extWords) s t ∧
        (md ≠ .indirect → regIn s.supervisor t rb = s.x rb + dispValue d)) ∧
    (∀ d : Disp 6, CanAccessSlots s .read sz list special skip (indexedAddress s rb rc d) →
      (special.getLsbD 0 = true ∨ Room (2 + d.extWords) s) →
      Completes (exec (.loadmX sz skip list special rb rc d) s)
        (LoadmEffect sz skip list special (indexedAddress s rb rc d) [] (2 + d.extWords) s))

/-- STOREM in all modes: every selected slot holds the value its register had, and nothing else changes but the base. Derived:
it rests on D11, D43, D26 and D10; the record of stored bytes is log entry 17. -/
def Obligations.StoreMultipleResultAndFrame : Prop :=
  ∀ (s : State) (sz : Size) (skip : Bool) (list : BitVec 32) (special : BitVec 5) (rb rc : Reg), s.Inv →
    MayList sz special s →
    (∀ (md : UpdMode) (d : Disp 10), MayUpdate md rb →
      CanAccessSlots s .write sz list special skip (address s md rb d) → Room (2 + d.extWords) s →
      Completes (exec (.storem sz md skip list special rb d) s) fun t =>
        StoremEffect sz skip list special (address s md rb d) (updated md rb) (2 + d.extWords) s t ∧
        BaseUpdated md rb d s t) ∧
    (∀ d : Disp 5, CanAccessSlots s .write sz list special skip (indexedAddress s rb rc d) → Room (2 + d.extWords) s →
      Completes (exec (.storemX sz skip list special rb rc d) s)
        (StoremEffect sz skip list special (indexedAddress s rb rc d) [] (2 + d.extWords) s))

/-- An access of an instruction that fails raises its exception, Address Error before Bus Error, with the program counter of
the instruction. LOAD, STORE, PUSH, PEA and a first push or pop have written nothing; after a later push of JSR or pop of ARTI
or RTI the earlier ones stay done; in LOADM and STOREM the accesses before it stay done, no special register is loaded, and no
base is updated. Derived: it rests on D11, D12, D15, D22, D32 and D45; the record of stored bytes is log entry 17; that the
return address of JSR wraps at the top of memory is D7 and log entry 12. -/
def Obligations.FailedAccessesRaiseTheirException : Prop :=
  FailedLoadsAndStores ∧ FailedPushes ∧ FailedPops ∧ FailedMultiples

/-- The update modes the spec gives no meaning: a base that is the program counter, and a base that is also loaded; and a
special register in a list that is not of octa size. Derived: it rests on D10 and D43. -/
def Obligations.RefusedUpdatesAndLists : Prop :=
  ∀ (s : State) (sz : Size) (md : UpdMode) (skip : Bool) (list : BitVec 32) (special : BitVec 5) (rb rc : Reg),
    (md ≠ .indirect →
      (∀ rt d, exec (.load sz md rt 0#5 d) s = .refused .updateOfProgramCounter) ∧
      (∀ ra d, exec (.store sz md ra 0#5 d) s = .refused .updateOfProgramCounter) ∧
      (∀ imm d, exec (.storeImm sz md imm 0#5 d) s = .refused .updateOfProgramCounter) ∧
      (∀ d, rb ≠ 0#5 → exec (.load sz md rb rb d) s = .refused .updateOfLoadedRegister) ∧
      (MayList sz special s →
        (∀ d, exec (.loadm sz md skip list special 0#5 d) s = .refused .updateOfProgramCounter) ∧
        (∀ d, exec (.storem sz md skip list special 0#5 d) s = .refused .updateOfProgramCounter) ∧
        (∀ d, rb ≠ 0#5 → list.getLsbD rb.toNat = true →
          exec (.loadm sz md skip list special rb d) s = .refused .updateOfLoadedRegister))) ∧
    (special ≠ 0#5 → sz ≠ .o →
      (∀ d, exec (.loadm sz md skip list special rb d) s = .refused .specialNeedsOcta) ∧
      (∀ d, exec (.loadmX sz skip list special rb rc d) s = .refused .specialNeedsOcta) ∧
      (∀ d, exec (.storem sz md skip list special rb d) s = .refused .specialNeedsOcta) ∧
      (∀ d, exec (.storemX sz skip list special rb rc d) s = .refused .specialNeedsOcta))
end

