-- ==== Sys2Proof/Laws/Memory.lean ====
section
/-! SUPPORT. Laws of memory: reading after writing, and the canonical form that every operation keeps. -/

namespace Sys2Proof.Machine

/-! ## One byte -/

theorem Memory.wfFrom_cons {lo k : Nat} {b : Byte} {rest : Memory} :
    Memory.wfFrom lo ((k, b) :: rest) = true ↔
      lo ≤ k ∧ k < 2 ^ 64 ∧ b ≠ unlistedByte ∧ Memory.wfFrom (k + 1) rest = true := by
  simp [Memory.wfFrom, and_assoc]

theorem Memory.wfFrom_mono {lo lo' : Nat} {m : Memory} (h : Memory.wfFrom lo m = true) (hl : lo' ≤ lo) :
    Memory.wfFrom lo' m = true := by
  cases m with
  | nil => rfl
  | cons c rest =>
    obtain ⟨k, b⟩ := c
    rw [Memory.wfFrom_cons] at h ⊢
    exact ⟨by omega, h.2⟩

theorem Memory.read_below {lo a : Nat} {m : Memory} (h : Memory.wfFrom lo m = true) (ha : a < lo) :
    m.read a = unlistedByte := by
  induction m generalizing lo with
  | nil => rfl
  | cons c rest ih =>
    obtain ⟨k, b⟩ := c
    rw [Memory.wfFrom_cons] at h
    have hk : k ≠ a := by omega
    simp only [Memory.read, hk, if_false]
    exact ih h.2.2.2 (by omega)

theorem Memory.read_cons_same (a : Nat) (v : Byte) {rest : Memory} (h : Memory.wfFrom (a + 1) rest = true) :
    (Memory.cons a v rest).read a = v := by
  unfold Memory.cons
  split
  · next hv => rw [Memory.read_below h (by omega), hv]
  · simp [Memory.read]

theorem Memory.read_cons_other {a b : Nat} (v : Byte) (rest : Memory) (h : b ≠ a) :
    (Memory.cons a v rest).read b = rest.read b := by
  unfold Memory.cons
  split
  · rfl
  · simp [Memory.read, h.symm]

/-- A write changes no other byte. -/
theorem Memory.read_write_other {a b : Nat} (m : Memory) (v : Byte) (h : b ≠ a) :
    (m.write a v).read b = m.read b := by
  induction m with
  | nil => exact Memory.read_cons_other v [] h
  | cons c rest ih =>
    obtain ⟨k, x⟩ := c
    unfold Memory.write
    split
    · simp only [Memory.read, ih]
    · split
      · next hk => rw [Memory.read_cons_other v rest h]; simp [Memory.read, hk, h.symm]
      · exact Memory.read_cons_other v _ h

/-- A read after a write to the same address gives the value written. -/
theorem Memory.read_write_same {lo : Nat} {m : Memory} (h : Memory.wfFrom lo m = true) (a : Nat) (v : Byte) :
    (m.write a v).read a = v := by
  induction m generalizing lo with
  | nil => exact Memory.read_cons_same a v rfl
  | cons c rest ih =>
    obtain ⟨k, x⟩ := c
    rw [Memory.wfFrom_cons] at h
    unfold Memory.write
    split
    · next hk =>
      have hne : k ≠ a := by omega
      simp only [Memory.read, hne, if_false]
      exact ih h.2.2.2
    · split
      · next hk => subst hk; exact Memory.read_cons_same k v h.2.2.2
      · exact Memory.read_cons_same a v (Memory.wfFrom_cons.2 ⟨by omega, h.2⟩)

theorem Memory.wfFrom_consOp {lo a : Nat} (v : Byte) {rest : Memory} (hl : lo ≤ a) (ha : a < 2 ^ 64)
    (h : Memory.wfFrom (a + 1) rest = true) : Memory.wfFrom lo (Memory.cons a v rest) = true := by
  unfold Memory.cons
  split
  · exact Memory.wfFrom_mono h (by omega)
  · next hv => exact Memory.wfFrom_cons.2 ⟨hl, ha, hv, h⟩

theorem Memory.wfFrom_write {lo a : Nat} {m : Memory} (v : Byte) (h : Memory.wfFrom lo m = true) (hl : lo ≤ a)
    (ha : a < 2 ^ 64) : Memory.wfFrom lo (m.write a v) = true := by
  induction m generalizing lo with
  | nil => exact Memory.wfFrom_consOp v hl ha rfl
  | cons c rest ih =>
    obtain ⟨k, x⟩ := c
    rw [Memory.wfFrom_cons] at h
    unfold Memory.write
    split
    · exact Memory.wfFrom_cons.2 ⟨h.1, h.2.1, h.2.2.1, ih h.2.2.2 (by omega)⟩
    · split
      · next hk => exact Memory.wfFrom_consOp v hl ha (hk ▸ h.2.2.2)
      · exact Memory.wfFrom_consOp v hl ha (Memory.wfFrom_cons.2 ⟨by omega, h.2⟩)

/-- A write keeps the canonical form. -/
theorem Memory.wf_write {a : Nat} {m : Memory} (v : Byte) (h : m.wf = true) (ha : a < 2 ^ 64) :
    (m.write a v).wf = true := Memory.wfFrom_write v h (Nat.zero_le _) ha

/-- Two memories in canonical form that read alike are the same data. -/
theorem Memory.eq_of_reads {lo : Nat} {m n : Memory} (hm : Memory.wfFrom lo m = true) (hn : Memory.wfFrom lo n = true)
    (h : ∀ a, m.read a = n.read a) : m = n := by
  induction m generalizing n lo with
  | nil =>
    cases n with
    | nil => rfl
    | cons c rest =>
      obtain ⟨k, b⟩ := c
      have := h k
      rw [Memory.wfFrom_cons] at hn
      simp [Memory.read] at this
      exact absurd this.symm hn.2.2.1
  | cons c rest ih =>
    obtain ⟨k, b⟩ := c
    rw [Memory.wfFrom_cons] at hm
    cases n with
    | nil =>
      have := h k
      simp [Memory.read] at this
      exact absurd this hm.2.2.1
    | cons c' rest' =>
      obtain ⟨k', b'⟩ := c'
      rw [Memory.wfFrom_cons] at hn
      have hk : k = k' := by
        rcases Nat.lt_trichotomy k k' with hlt | heq | hgt
        · have h1 := h k
          have : k' ≠ k := by omega
          simp only [Memory.read, this, if_true, if_false] at h1
          rw [Memory.read_below hn.2.2.2 (by omega)] at h1
          exact absurd h1 hm.2.2.1
        · exact heq
        · have h1 := h k'
          have : k ≠ k' := by omega
          simp only [Memory.read, this, if_true, if_false] at h1
          rw [Memory.read_below hm.2.2.2 (by omega)] at h1
          exact absurd h1.symm hn.2.2.1
      subst hk
      have hb : b = b' := by have := h k; simpa [Memory.read] using this
      subst hb
      have hr : rest = rest' := by
        refine ih hm.2.2.2 hn.2.2.2 fun a => ?_
        by_cases hak : k = a
        · subst hak
          rw [Memory.read_below hm.2.2.2 (by omega), Memory.read_below hn.2.2.2 (by omega)]
        · have := h a
          simpa [Memory.read, hak] using this
      rw [hr]

/-! ## Several bytes -/

/-- A store of n bytes keeps the canonical form. -/
theorem Memory.wf_writeLE {m : Memory} (a : Word) (n : Nat) (v : Word) (h : m.wf = true) :
    (m.writeLE a n v).wf = true := by
  induction n generalizing m a v with
  | zero => exact h
  | succ n ih => exact ih _ _ (Memory.wf_write _ h a.isLt)

/-- A store of n bytes changes no byte outside them. -/
theorem Memory.read_writeLE_outside (m : Memory) (a : Word) (n : Nat) (v : Word) {b : Nat}
    (h : ∀ k, k < n → b ≠ (a + BitVec.ofNat 64 k).toNat) : (m.writeLE a n v).read b = m.read b := by
  induction n generalizing m a v with
  | zero => rfl
  | succ n ih =>
    have h0 : b ≠ a.toNat := by simpa using h 0 (by omega)
    unfold Memory.writeLE
    rw [ih, Memory.read_write_other m _ h0]
    intro k hk
    have := h (k + 1) (by omega)
    rwa [show a + BitVec.ofNat 64 (k + 1) = a + 1#64 + BitVec.ofNat 64 k by
      rw [BitVec.add_assoc]; congr 1; rw [Nat.add_comm]; exact BitVec.ofNat_add ..] at this

theorem addr_add_ne {a : BitVec 64} {j k : Nat} (hj : j < 2 ^ 64) (hk : k < 2 ^ 64) (h : j ≠ k) :
    (a + BitVec.ofNat 64 j).toNat ≠ (a + BitVec.ofNat 64 k).toNat := by
  simp only [BitVec.toNat_add, BitVec.toNat_ofNat]
  have := a.isLt
  omega

/-- After a store of n bytes each of them reads as its part of the value (R63). -/
theorem Memory.read_writeLE_inside {m : Memory} (h : m.wf = true) (a : Word) (n : Nat) (v : Word) {k : Nat} (hk : k < n)
    (hn : n ≤ 2 ^ 64) : (m.writeLE a n v).read (a + BitVec.ofNat 64 k).toNat = (v >>> (8 * k)).setWidth 8 := by
  induction n generalizing m a v k with
  | zero => omega
  | succ n ih =>
    unfold Memory.writeLE
    cases k with
    | zero =>
      rw [Memory.read_writeLE_outside]
      · simpa using Memory.read_write_same h a.toNat (v.setWidth 8)
      · intro j hj
        rw [show a + 1#64 + BitVec.ofNat 64 j = a + BitVec.ofNat 64 (j + 1) by
          rw [BitVec.add_assoc]; congr 1; rw [Nat.add_comm]; exact (BitVec.ofNat_add ..).symm]
        exact addr_add_ne (by omega) (by omega) (by omega)
    | succ k =>
      have hwf := Memory.wf_write (v.setWidth 8) h a.isLt
      have := ih hwf (a + 1#64) (v >>> 8) (k := k) (by omega) (by omega)
      rw [show a + BitVec.ofNat 64 (k + 1) = a + 1#64 + BitVec.ofNat 64 k by
        rw [BitVec.add_assoc]; congr 1; rw [Nat.add_comm]; exact BitVec.ofNat_add .., this]
      rw [← BitVec.shiftRight_add]
      congr 2; omega

/-- The k-th byte of a multi-byte read (R62, R63). -/
theorem Memory.readLE_byte (m : Memory) (a : Word) (n k : Nat) (hk : k < n) (hk8 : k < 8) :
    (m.readLE a n).extractLsb' (8 * k) 8 = m.read (a + BitVec.ofNat 64 k).toNat := by
  induction n generalizing a k with
  | zero => omega
  | succ n ih =>
    unfold Memory.readLE
    cases k with
    | zero =>
      ext i hi
      simp only [BitVec.getElem_extractLsb', BitVec.getLsbD_or, BitVec.getLsbD_shiftLeft, BitVec.getLsbD_setWidth]
      simp only [Nat.mul_zero, Nat.zero_add, BitVec.add_zero]
      have : i < 64 := by omega
      simp [hi, this]
    | succ k =>
      have := ih (a + 1#64) k (by omega) (by omega)
      rw [show a + BitVec.ofNat 64 (k + 1) = a + 1#64 + BitVec.ofNat 64 k by
        rw [BitVec.add_assoc]; congr 1; rw [Nat.add_comm]; exact BitVec.ofNat_add .., ← this]
      ext i hi
      simp only [BitVec.getElem_extractLsb', BitVec.getLsbD_or, BitVec.getLsbD_shiftLeft, BitVec.getLsbD_setWidth]
      have h1 : 8 * (k + 1) + i < 64 := by omega
      have h2 : ¬ 8 * (k + 1) + i < 8 := by omega
      have h3 : 8 * (k + 1) + i - 8 = 8 * k + i := by omega
      simp [h1, h2, h3, BitVec.getLsbD_of_ge (m.read a.toNat) _ (by omega : 8 ≤ 8 * (k + 1) + i)]

/-- A multi-byte read depends on the bytes it reads only. -/
theorem Memory.readLE_congr {m m' : Memory} (a : Word) (n : Nat)
    (h : ∀ k, k < n → m.read (a + BitVec.ofNat 64 k).toNat = m'.read (a + BitVec.ofNat 64 k).toNat) :
    m.readLE a n = m'.readLE a n := by
  induction n generalizing a with
  | zero => rfl
  | succ n ih =>
    unfold Memory.readLE
    have h0 : m.read a.toNat = m'.read a.toNat := by simpa using h 0 (by omega)
    rw [h0, ih (a + 1#64)]
    intro k hk
    have := h (k + 1) (by omega)
    rwa [show a + BitVec.ofNat 64 (k + 1) = a + 1#64 + BitVec.ofNat 64 k by
      rw [BitVec.add_assoc]; congr 1; rw [Nat.add_comm]; exact BitVec.ofNat_add ..] at this

/-- A multi-byte read has no bits above the bytes it reads. -/
theorem Memory.readLE_getLsbD_high (m : Memory) (a : Word) (n i : Nat) (h : 8 * n ≤ i) : (m.readLE a n).getLsbD i = false := by
  induction n generalizing a i with
  | zero => simp [Memory.readLE]
  | succ n ih =>
    unfold Memory.readLE
    simp only [BitVec.getLsbD_or, BitVec.getLsbD_shiftLeft, BitVec.getLsbD_setWidth]
    rw [ih (a + 1#64) (i - 8) (by omega), BitVec.getLsbD_of_ge (m.read a.toNat) i (by omega)]
    simp

/-- A read of n bytes after a store of n bytes at the same address gives the bytes stored (R63). -/
theorem Memory.readLE_writeLE {m : Memory} (h : m.wf = true) (a : Word) (n : Nat) (hn : n ≤ 8) (v : Word) :
    (m.writeLE a n v).readLE a n = (v.setWidth (8 * n)).setWidth 64 := by
  apply BitVec.eq_of_getLsbD_eq
  intro i hi
  by_cases hin : i < 8 * n
  · have hk := Memory.readLE_byte (m.writeLE a n v) a n (i / 8) (by omega) (by omega)
    rw [Memory.read_writeLE_inside h a n v (by omega) (by omega)] at hk
    have hb := congrArg (fun b : BitVec 8 => b.getLsbD (i % 8)) hk
    simp only [BitVec.getLsbD_extractLsb', BitVec.getLsbD_setWidth, BitVec.getLsbD_ushiftRight] at hb
    have h8 : i % 8 < 8 := Nat.mod_lt _ (by omega)
    have hi' : 8 * (i / 8) + i % 8 = i := Nat.div_add_mod i 8
    simp only [h8, decide_true, Bool.true_and, hi'] at hb
    rw [hb]
    simp [hi, hin]
  · rw [Memory.readLE_getLsbD_high _ _ _ _ (by omega)]
    simp [hin]

/-! ## Sets of addresses -/

theorem AddrSet.wfFrom_cons {lo k : Nat} {rest : AddrSet} :
    AddrSet.wfFrom lo (k :: rest) = true ↔ lo ≤ k ∧ k < 2 ^ 64 ∧ AddrSet.wfFrom (k + 1) rest = true := by
  simp [AddrSet.wfFrom, and_assoc]

theorem AddrSet.wfFrom_mono {lo lo' : Nat} {m : AddrSet} (h : AddrSet.wfFrom lo m = true) (hl : lo' ≤ lo) :
    AddrSet.wfFrom lo' m = true := by
  cases m with
  | nil => rfl
  | cons k rest =>
    rw [AddrSet.wfFrom_cons] at h ⊢
    exact ⟨by omega, h.2⟩

theorem AddrSet.wfFrom_insert {lo a : Nat} {m : AddrSet} (h : AddrSet.wfFrom lo m = true) (hl : lo ≤ a) (ha : a < 2 ^ 64) :
    AddrSet.wfFrom lo (m.insert a) = true := by
  induction m generalizing lo with
  | nil => simp [AddrSet.insert, AddrSet.wfFrom, hl]; exact ha
  | cons k rest ih =>
    rw [AddrSet.wfFrom_cons] at h
    unfold AddrSet.insert
    split
    · exact AddrSet.wfFrom_cons.2 ⟨h.1, h.2.1, ih h.2.2 (by omega)⟩
    · split
      · exact AddrSet.wfFrom_cons.2 h
      · exact AddrSet.wfFrom_cons.2 ⟨hl, ha, AddrSet.wfFrom_cons.2 ⟨by omega, h.2⟩⟩

/-- Adding the addresses of a store keeps the canonical form. -/
theorem AddrSet.wf_insertRange {m : AddrSet} (a : Word) (n : Nat) (h : m.wf = true) : (m.insertRange a n).wf = true := by
  induction n generalizing m a with
  | zero => exact h
  | succ n ih => exact ih _ (AddrSet.wfFrom_insert h (Nat.zero_le _) a.isLt)

theorem AddrSet.has_insert (m : AddrSet) (a b : Nat) : (m.insert a).has b = (a == b || m.has b) := by
  induction m with
  | nil => simp [AddrSet.insert, AddrSet.has]
  | cons k rest ih =>
    unfold AddrSet.insert
    split
    · simp only [AddrSet.has, ih]; cases k == b <;> cases a == b <;> simp
    · split
      · next hk => subst hk; simp [AddrSet.has]
      · simp [AddrSet.has]

theorem AddrSet.wfFrom_remove {lo a : Nat} {m : AddrSet} (h : AddrSet.wfFrom lo m = true) :
    AddrSet.wfFrom lo (m.remove a) = true := by
  induction m generalizing lo with
  | nil => exact h
  | cons k rest ih =>
    rw [AddrSet.wfFrom_cons] at h
    unfold AddrSet.remove
    split
    · exact AddrSet.wfFrom_mono h.2.2 (by omega)
    · exact AddrSet.wfFrom_cons.2 ⟨h.1, h.2.1, ih h.2.2⟩

/-! ## The platform's map -/

/-- The row that says of one address and one width what a predicate says. -/
def rowOf (p : Word → Nat → AccessKind → Bool) (a n : Nat) : Region :=
  ⟨a, 1, [n], p (BitVec.ofNat 64 a) n .read, p (BitVec.ofNat 64 a) n .write, p (BitVec.ofNat 64 a) n .fetch⟩

theorem regionAllows_rowOf (p : Word → Nat → AccessKind → Bool) (a b : Word) (m n : Nat) (k : AccessKind) :
    regionAllows (rowOf p a.toNat m) b n k = true ↔ (a = b ∧ m = n) ∧ p b n k = true := by
  have hab : a.toNat ≤ b.toNat ∧ b.toNat < a.toNat + 1 ↔ a = b := by
    rw [← BitVec.toNat_inj]; omega
  cases k <;> simp only [regionAllows, rowOf, Bool.and_eq_true, decide_eq_true_eq, hab, List.contains_cons, List.contains_nil,
    Bool.or_false, beq_iff_eq, BitVec.ofNat_toNat, BitVec.setWidth_eq] <;>
    constructor <;> rintro ⟨⟨rfl, rfl⟩, h⟩ <;> exact ⟨⟨rfl, rfl⟩, h⟩

/-- Every predicate of address, width and kind is the `mem_ok` of some map (R4, R68, R77): the map has a row for each address
below 2^64 and each access width of R61. -/
theorem memOk_any (p : Word → Nat → AccessKind → Bool) :
    ∃ map : List Region, ∀ a n k, n ∈ [1, 2, 4, 8] → memOk map a n k = p a n k := by
  obtain ⟨m, hm⟩ : ∃ m : Nat, ∀ a : Word, a.toNat < m := ⟨2 ^ 64, fun a => a.isLt⟩
  refine ⟨(List.range m).flatMap fun i => [1, 2, 4, 8].map (rowOf p (BitVec.ofNat 64 i).toNat), fun a n k hn => ?_⟩
  rw [Bool.eq_iff_iff]
  unfold memOk
  rw [List.any_eq_true]
  constructor
  · rintro ⟨r, hr, h⟩
    obtain ⟨i, -, hr⟩ := List.mem_flatMap.1 hr
    obtain ⟨w, -, rfl⟩ := List.mem_map.1 hr
    exact ((regionAllows_rowOf p _ a w n k).1 h).2
  · intro h
    refine ⟨rowOf p a.toNat n, List.mem_flatMap.2 ⟨a.toNat, List.mem_range.2 (hm a), ?_⟩, (regionAllows_rowOf p a a n n k).2 ⟨⟨rfl, rfl⟩, h⟩⟩
    rw [BitVec.ofNat_toNat, BitVec.setWidth_eq]
    exact List.mem_map.2 ⟨n, hn, rfl⟩

end Sys2Proof.Machine
end

