-- ==== Sys2Proof/Laws/State.lean ====
section
/-! SUPPORT. The fields of a state after each record update, so that no proof unfolds one. -/

namespace Sys2Proof.Machine

/-! ## `writeSr` -/

@[simp] theorem State.writeSr_gpr (s : State) (v : BitVec 32) : (s.writeSr v).gpr = s.gpr := rfl
@[simp] theorem State.writeSr_usp (s : State) (v : BitVec 32) : (s.writeSr v).usp = s.usp := rfl
@[simp] theorem State.writeSr_ssp (s : State) (v : BitVec 32) : (s.writeSr v).ssp = s.ssp := rfl
@[simp] theorem State.writeSr_pc (s : State) (v : BitVec 32) : (s.writeSr v).pc = s.pc := rfl
@[simp] theorem State.writeSr_lc (s : State) (v : BitVec 32) : (s.writeSr v).lc = s.lc := rfl
@[simp] theorem State.writeSr_ccrg (s : State) (v : BitVec 32) : (s.writeSr v).ccrg = s.ccrg := rfl
@[simp] theorem State.writeSr_sr (s : State) (v : BitVec 32) : (s.writeSr v).sr = v &&& srMask := rfl
@[simp] theorem State.writeSr_ac (s : State) (v : BitVec 32) : (s.writeSr v).ac = s.ac := rfl
@[simp] theorem State.writeSr_vb (s : State) (v : BitVec 32) : (s.writeSr v).vb = s.vb := rfl
@[simp] theorem State.writeSr_mem (s : State) (v : BitVec 32) : (s.writeSr v).mem = s.mem := rfl
@[simp] theorem State.writeSr_stored (s : State) (v : BitVec 32) : (s.writeSr v).stored = s.stored := rfl
@[simp] theorem State.writeSr_stuck (s : State) (v : BitVec 32) : (s.writeSr v).stuck = s.stuck := rfl
@[simp] theorem State.writeSr_irq (s : State) (v : BitVec 32) : (s.writeSr v).irq = s.irq := rfl
@[simp] theorem State.writeSr_params (s : State) (v : BitVec 32) : (s.writeSr v).params = s.params := rfl
@[simp] theorem State.writeSr_draws (s : State) (v : BitVec 32) : (s.writeSr v).draws = s.draws := rfl

/-! ## `enterSupervisor` -/

@[simp] theorem State.enterSupervisor_gpr (s : State) : (s.enterSupervisor).gpr = s.gpr := rfl
@[simp] theorem State.enterSupervisor_usp (s : State) : (s.enterSupervisor).usp = s.usp := rfl
@[simp] theorem State.enterSupervisor_ssp (s : State) : (s.enterSupervisor).ssp = s.ssp := rfl
@[simp] theorem State.enterSupervisor_pc (s : State) : (s.enterSupervisor).pc = s.pc := rfl
@[simp] theorem State.enterSupervisor_lc (s : State) : (s.enterSupervisor).lc = s.lc := rfl
@[simp] theorem State.enterSupervisor_ccrg (s : State) : (s.enterSupervisor).ccrg = s.ccrg := rfl
@[simp] theorem State.enterSupervisor_sr (s : State) : (s.enterSupervisor).sr = s.sr ||| srS := rfl
@[simp] theorem State.enterSupervisor_ac (s : State) : (s.enterSupervisor).ac = s.ac := rfl
@[simp] theorem State.enterSupervisor_vb (s : State) : (s.enterSupervisor).vb = s.vb := rfl
@[simp] theorem State.enterSupervisor_mem (s : State) : (s.enterSupervisor).mem = s.mem := rfl
@[simp] theorem State.enterSupervisor_stored (s : State) : (s.enterSupervisor).stored = s.stored := rfl
@[simp] theorem State.enterSupervisor_stuck (s : State) : (s.enterSupervisor).stuck = s.stuck := rfl
@[simp] theorem State.enterSupervisor_irq (s : State) : (s.enterSupervisor).irq = s.irq := rfl
@[simp] theorem State.enterSupervisor_params (s : State) : (s.enterSupervisor).params = s.params := rfl
@[simp] theorem State.enterSupervisor_draws (s : State) : (s.enterSupervisor).draws = s.draws := rfl

/-! ## `setIpl` -/

@[simp] theorem State.setIpl_gpr (s : State) (l : BitVec 3) : (s.setIpl l).gpr = s.gpr := rfl
@[simp] theorem State.setIpl_usp (s : State) (l : BitVec 3) : (s.setIpl l).usp = s.usp := rfl
@[simp] theorem State.setIpl_ssp (s : State) (l : BitVec 3) : (s.setIpl l).ssp = s.ssp := rfl
@[simp] theorem State.setIpl_pc (s : State) (l : BitVec 3) : (s.setIpl l).pc = s.pc := rfl
@[simp] theorem State.setIpl_lc (s : State) (l : BitVec 3) : (s.setIpl l).lc = s.lc := rfl
@[simp] theorem State.setIpl_ccrg (s : State) (l : BitVec 3) : (s.setIpl l).ccrg = s.ccrg := rfl
@[simp] theorem State.setIpl_sr (s : State) (l : BitVec 3) : (s.setIpl l).sr = (s.sr &&& ~~~0x00000700#32) ||| (l.setWidth 32 <<< 8) := rfl
@[simp] theorem State.setIpl_ac (s : State) (l : BitVec 3) : (s.setIpl l).ac = s.ac := rfl
@[simp] theorem State.setIpl_vb (s : State) (l : BitVec 3) : (s.setIpl l).vb = s.vb := rfl
@[simp] theorem State.setIpl_mem (s : State) (l : BitVec 3) : (s.setIpl l).mem = s.mem := rfl
@[simp] theorem State.setIpl_stored (s : State) (l : BitVec 3) : (s.setIpl l).stored = s.stored := rfl
@[simp] theorem State.setIpl_stuck (s : State) (l : BitVec 3) : (s.setIpl l).stuck = s.stuck := rfl
@[simp] theorem State.setIpl_irq (s : State) (l : BitVec 3) : (s.setIpl l).irq = s.irq := rfl
@[simp] theorem State.setIpl_params (s : State) (l : BitVec 3) : (s.setIpl l).params = s.params := rfl
@[simp] theorem State.setIpl_draws (s : State) (l : BitVec 3) : (s.setIpl l).draws = s.draws := rfl

/-! ## `writeAc` -/

@[simp] theorem State.writeAc_gpr (s : State) (v : Word) : (s.writeAc v).gpr = s.gpr := rfl
@[simp] theorem State.writeAc_usp (s : State) (v : Word) : (s.writeAc v).usp = s.usp := rfl
@[simp] theorem State.writeAc_ssp (s : State) (v : Word) : (s.writeAc v).ssp = s.ssp := rfl
@[simp] theorem State.writeAc_pc (s : State) (v : Word) : (s.writeAc v).pc = s.pc := rfl
@[simp] theorem State.writeAc_lc (s : State) (v : Word) : (s.writeAc v).lc = s.lc := rfl
@[simp] theorem State.writeAc_ccrg (s : State) (v : Word) : (s.writeAc v).ccrg = s.ccrg := rfl
@[simp] theorem State.writeAc_sr (s : State) (v : Word) : (s.writeAc v).sr = s.sr := rfl
@[simp] theorem State.writeAc_ac (s : State) (v : Word) : (s.writeAc v).ac = v &&& acMask := rfl
@[simp] theorem State.writeAc_vb (s : State) (v : Word) : (s.writeAc v).vb = s.vb := rfl
@[simp] theorem State.writeAc_mem (s : State) (v : Word) : (s.writeAc v).mem = s.mem := rfl
@[simp] theorem State.writeAc_stored (s : State) (v : Word) : (s.writeAc v).stored = s.stored := rfl
@[simp] theorem State.writeAc_stuck (s : State) (v : Word) : (s.writeAc v).stuck = s.stuck := rfl
@[simp] theorem State.writeAc_irq (s : State) (v : Word) : (s.writeAc v).irq = s.irq := rfl
@[simp] theorem State.writeAc_params (s : State) (v : Word) : (s.writeAc v).params = s.params := rfl
@[simp] theorem State.writeAc_draws (s : State) (v : Word) : (s.writeAc v).draws = s.draws := rfl

/-! ## `drawn` -/

@[simp] theorem State.drawn_gpr (s : State) (n : Nat) : (s.drawn n).gpr = s.gpr := rfl
@[simp] theorem State.drawn_usp (s : State) (n : Nat) : (s.drawn n).usp = s.usp := rfl
@[simp] theorem State.drawn_ssp (s : State) (n : Nat) : (s.drawn n).ssp = s.ssp := rfl
@[simp] theorem State.drawn_pc (s : State) (n : Nat) : (s.drawn n).pc = s.pc := rfl
@[simp] theorem State.drawn_lc (s : State) (n : Nat) : (s.drawn n).lc = s.lc := rfl
@[simp] theorem State.drawn_ccrg (s : State) (n : Nat) : (s.drawn n).ccrg = s.ccrg := rfl
@[simp] theorem State.drawn_sr (s : State) (n : Nat) : (s.drawn n).sr = s.sr := rfl
@[simp] theorem State.drawn_ac (s : State) (n : Nat) : (s.drawn n).ac = s.ac := rfl
@[simp] theorem State.drawn_vb (s : State) (n : Nat) : (s.drawn n).vb = s.vb := rfl
@[simp] theorem State.drawn_mem (s : State) (n : Nat) : (s.drawn n).mem = s.mem := rfl
@[simp] theorem State.drawn_stored (s : State) (n : Nat) : (s.drawn n).stored = s.stored := rfl
@[simp] theorem State.drawn_stuck (s : State) (n : Nat) : (s.drawn n).stuck = s.stuck := rfl
@[simp] theorem State.drawn_irq (s : State) (n : Nat) : (s.drawn n).irq = s.irq := rfl
@[simp] theorem State.drawn_params (s : State) (n : Nat) : (s.drawn n).params = s.params := rfl
@[simp] theorem State.drawn_draws (s : State) (n : Nat) : (s.drawn n).draws = s.draws + n := rfl

/-! ## `setCr` -/

@[simp] theorem State.setCr_gpr (s : State) (n : CReg) (v : BitVec 4) : (s.setCr n v).gpr = s.gpr := rfl
@[simp] theorem State.setCr_usp (s : State) (n : CReg) (v : BitVec 4) : (s.setCr n v).usp = s.usp := rfl
@[simp] theorem State.setCr_ssp (s : State) (n : CReg) (v : BitVec 4) : (s.setCr n v).ssp = s.ssp := rfl
@[simp] theorem State.setCr_pc (s : State) (n : CReg) (v : BitVec 4) : (s.setCr n v).pc = s.pc := rfl
@[simp] theorem State.setCr_lc (s : State) (n : CReg) (v : BitVec 4) : (s.setCr n v).lc = s.lc := rfl
@[simp] theorem State.setCr_ccrg (s : State) (n : CReg) (v : BitVec 4) : (s.setCr n v).ccrg = (s.ccrg &&& ~~~(0xF#32 <<< (4 * n.toNat))) ||| (v.setWidth 32 <<< (4 * n.toNat)) := rfl
@[simp] theorem State.setCr_sr (s : State) (n : CReg) (v : BitVec 4) : (s.setCr n v).sr = s.sr := rfl
@[simp] theorem State.setCr_ac (s : State) (n : CReg) (v : BitVec 4) : (s.setCr n v).ac = s.ac := rfl
@[simp] theorem State.setCr_vb (s : State) (n : CReg) (v : BitVec 4) : (s.setCr n v).vb = s.vb := rfl
@[simp] theorem State.setCr_mem (s : State) (n : CReg) (v : BitVec 4) : (s.setCr n v).mem = s.mem := rfl
@[simp] theorem State.setCr_stored (s : State) (n : CReg) (v : BitVec 4) : (s.setCr n v).stored = s.stored := rfl
@[simp] theorem State.setCr_stuck (s : State) (n : CReg) (v : BitVec 4) : (s.setCr n v).stuck = s.stuck := rfl
@[simp] theorem State.setCr_irq (s : State) (n : CReg) (v : BitVec 4) : (s.setCr n v).irq = s.irq := rfl
@[simp] theorem State.setCr_params (s : State) (n : CReg) (v : BitVec 4) : (s.setCr n v).params = s.params := rfl
@[simp] theorem State.setCr_draws (s : State) (n : CReg) (v : BitVec 4) : (s.setCr n v).draws = s.draws := rfl

/-! ## `jump` -/

@[simp] theorem State.jump_gpr (s : State) (a : Word) : (s.jump a).gpr = s.gpr := rfl
@[simp] theorem State.jump_usp (s : State) (a : Word) : (s.jump a).usp = s.usp := rfl
@[simp] theorem State.jump_ssp (s : State) (a : Word) : (s.jump a).ssp = s.ssp := rfl
@[simp] theorem State.jump_pc (s : State) (a : Word) : (s.jump a).pc = a := rfl
@[simp] theorem State.jump_lc (s : State) (a : Word) : (s.jump a).lc = s.lc := rfl
@[simp] theorem State.jump_ccrg (s : State) (a : Word) : (s.jump a).ccrg = s.ccrg := rfl
@[simp] theorem State.jump_sr (s : State) (a : Word) : (s.jump a).sr = s.sr := rfl
@[simp] theorem State.jump_ac (s : State) (a : Word) : (s.jump a).ac = s.ac := rfl
@[simp] theorem State.jump_vb (s : State) (a : Word) : (s.jump a).vb = s.vb := rfl
@[simp] theorem State.jump_mem (s : State) (a : Word) : (s.jump a).mem = s.mem := rfl
@[simp] theorem State.jump_stored (s : State) (a : Word) : (s.jump a).stored = s.stored := rfl
@[simp] theorem State.jump_stuck (s : State) (a : Word) : (s.jump a).stuck = s.stuck := rfl
@[simp] theorem State.jump_irq (s : State) (a : Word) : (s.jump a).irq = s.irq := rfl
@[simp] theorem State.jump_params (s : State) (a : Word) : (s.jump a).params = s.params := rfl
@[simp] theorem State.jump_draws (s : State) (a : Word) : (s.jump a).draws = s.draws := rfl

/-! ## `storeBytes` -/

@[simp] theorem State.storeBytes_gpr (s : State) (a : Word) (n : Nat) (v : Word) : (s.storeBytes a n v).gpr = s.gpr := rfl
@[simp] theorem State.storeBytes_usp (s : State) (a : Word) (n : Nat) (v : Word) : (s.storeBytes a n v).usp = s.usp := rfl
@[simp] theorem State.storeBytes_ssp (s : State) (a : Word) (n : Nat) (v : Word) : (s.storeBytes a n v).ssp = s.ssp := rfl
@[simp] theorem State.storeBytes_pc (s : State) (a : Word) (n : Nat) (v : Word) : (s.storeBytes a n v).pc = s.pc := rfl
@[simp] theorem State.storeBytes_lc (s : State) (a : Word) (n : Nat) (v : Word) : (s.storeBytes a n v).lc = s.lc := rfl
@[simp] theorem State.storeBytes_ccrg (s : State) (a : Word) (n : Nat) (v : Word) : (s.storeBytes a n v).ccrg = s.ccrg := rfl
@[simp] theorem State.storeBytes_sr (s : State) (a : Word) (n : Nat) (v : Word) : (s.storeBytes a n v).sr = s.sr := rfl
@[simp] theorem State.storeBytes_ac (s : State) (a : Word) (n : Nat) (v : Word) : (s.storeBytes a n v).ac = s.ac := rfl
@[simp] theorem State.storeBytes_vb (s : State) (a : Word) (n : Nat) (v : Word) : (s.storeBytes a n v).vb = s.vb := rfl
@[simp] theorem State.storeBytes_mem (s : State) (a : Word) (n : Nat) (v : Word) : (s.storeBytes a n v).mem = s.mem.writeLE a n v := rfl
@[simp] theorem State.storeBytes_stored (s : State) (a : Word) (n : Nat) (v : Word) : (s.storeBytes a n v).stored = s.stored.insertRange a n := rfl
@[simp] theorem State.storeBytes_stuck (s : State) (a : Word) (n : Nat) (v : Word) : (s.storeBytes a n v).stuck = s.stuck := rfl
@[simp] theorem State.storeBytes_irq (s : State) (a : Word) (n : Nat) (v : Word) : (s.storeBytes a n v).irq = s.irq := rfl
@[simp] theorem State.storeBytes_params (s : State) (a : Word) (n : Nat) (v : Word) : (s.storeBytes a n v).params = s.params := rfl
@[simp] theorem State.storeBytes_draws (s : State) (a : Word) (n : Nat) (v : Word) : (s.storeBytes a n v).draws = s.draws := rfl

/-! ## `nextBoundary` -/

@[simp] theorem State.nextBoundary_gpr (s : State) : (s.nextBoundary).gpr = s.gpr := rfl
@[simp] theorem State.nextBoundary_usp (s : State) : (s.nextBoundary).usp = s.usp := rfl
@[simp] theorem State.nextBoundary_ssp (s : State) : (s.nextBoundary).ssp = s.ssp := rfl
@[simp] theorem State.nextBoundary_pc (s : State) : (s.nextBoundary).pc = s.pc := rfl
@[simp] theorem State.nextBoundary_lc (s : State) : (s.nextBoundary).lc = s.lc := rfl
@[simp] theorem State.nextBoundary_ccrg (s : State) : (s.nextBoundary).ccrg = s.ccrg := rfl
@[simp] theorem State.nextBoundary_sr (s : State) : (s.nextBoundary).sr = s.sr := rfl
@[simp] theorem State.nextBoundary_ac (s : State) : (s.nextBoundary).ac = s.ac := rfl
@[simp] theorem State.nextBoundary_vb (s : State) : (s.nextBoundary).vb = s.vb := rfl
@[simp] theorem State.nextBoundary_mem (s : State) : (s.nextBoundary).mem = s.mem := rfl
@[simp] theorem State.nextBoundary_stored (s : State) : (s.nextBoundary).stored = s.stored := rfl
@[simp] theorem State.nextBoundary_stuck (s : State) : (s.nextBoundary).stuck = s.stuck := rfl
@[simp] theorem State.nextBoundary_irq (s : State) : (s.nextBoundary).irq = s.irq.tail := rfl
@[simp] theorem State.nextBoundary_params (s : State) : (s.nextBoundary).params = s.params := rfl
@[simp] theorem State.nextBoundary_draws (s : State) : (s.nextBoundary).draws = s.draws := rfl

/-! ## `setX`: at most the general registers and one stack pointer -/

@[simp] theorem State.setX_pc (s : State) (i : Reg) (v : Word) : (s.setX i v).pc = s.pc := by
  unfold State.setX; split <;> try rfl
  split <;> try rfl
  split <;> rfl
@[simp] theorem State.setX_lc (s : State) (i : Reg) (v : Word) : (s.setX i v).lc = s.lc := by
  unfold State.setX; split <;> try rfl
  split <;> try rfl
  split <;> rfl
@[simp] theorem State.setX_ccrg (s : State) (i : Reg) (v : Word) : (s.setX i v).ccrg = s.ccrg := by
  unfold State.setX; split <;> try rfl
  split <;> try rfl
  split <;> rfl
@[simp] theorem State.setX_sr (s : State) (i : Reg) (v : Word) : (s.setX i v).sr = s.sr := by
  unfold State.setX; split <;> try rfl
  split <;> try rfl
  split <;> rfl
@[simp] theorem State.setX_ac (s : State) (i : Reg) (v : Word) : (s.setX i v).ac = s.ac := by
  unfold State.setX; split <;> try rfl
  split <;> try rfl
  split <;> rfl
@[simp] theorem State.setX_vb (s : State) (i : Reg) (v : Word) : (s.setX i v).vb = s.vb := by
  unfold State.setX; split <;> try rfl
  split <;> try rfl
  split <;> rfl
@[simp] theorem State.setX_mem (s : State) (i : Reg) (v : Word) : (s.setX i v).mem = s.mem := by
  unfold State.setX; split <;> try rfl
  split <;> try rfl
  split <;> rfl
@[simp] theorem State.setX_stored (s : State) (i : Reg) (v : Word) : (s.setX i v).stored = s.stored := by
  unfold State.setX; split <;> try rfl
  split <;> try rfl
  split <;> rfl
@[simp] theorem State.setX_stuck (s : State) (i : Reg) (v : Word) : (s.setX i v).stuck = s.stuck := by
  unfold State.setX; split <;> try rfl
  split <;> try rfl
  split <;> rfl
@[simp] theorem State.setX_irq (s : State) (i : Reg) (v : Word) : (s.setX i v).irq = s.irq := by
  unfold State.setX; split <;> try rfl
  split <;> try rfl
  split <;> rfl
@[simp] theorem State.setX_params (s : State) (i : Reg) (v : Word) : (s.setX i v).params = s.params := by
  unfold State.setX; split <;> try rfl
  split <;> try rfl
  split <;> rfl
@[simp] theorem State.setX_draws (s : State) (i : Reg) (v : Word) : (s.setX i v).draws = s.draws := by
  unfold State.setX; split <;> try rfl
  split <;> try rfl
  split <;> rfl

/-! ## What reads only SR or only CCRG -/

@[simp] theorem State.supervisor_setX (s : State) (i : Reg) (v : Word) : (s.setX i v).supervisor = s.supervisor := by
  simp [State.supervisor]

theorem State.cr_eq_of_ccrg (s t : State) (h : t.ccrg = s.ccrg) (n : CReg) : t.cr n = s.cr n := by
  simp [State.cr, h]

theorem State.supervisor_eq_of_sr (s t : State) (h : t.sr = s.sr) : t.supervisor = s.supervisor := by
  simp [State.supervisor, h]

/-- The general registers a mode names depend on the register fields and on SR only. -/
theorem State.x_eq_of_fields (s t : State) (hg : t.gpr = s.gpr) (hu : t.usp = s.usp) (hs : t.ssp = s.ssp)
    (hr : t.sr = s.sr) (i : Reg) : t.x i = s.x i := by
  simp [State.x, State.supervisor, hg, hu, hs, hr]

end Sys2Proof.Machine
end

