-- ==== Sys2Proof/Laws/Ops.lean ====
section
/-! SUPPORT. For each shared operation over registers, flags, memory and the stack, what it can do, said once. -/

namespace Sys2Proof.Machine

/-! ## General registers -/

theorem State.x_zero (s : State) : s.x 0#5 = 0#64 := rfl

@[simp] theorem State.setX_zero (s : State) (v : Word) : s.setX 0#5 v = s := rfl

theorem gpr_index_lt {i : Reg} (h31 : i ≠ 31#5) : i.toNat - 1 < 30 := by
  have : i.toNat ≠ 31 := fun h => h31 (BitVec.eq_of_toNat_eq h)
  have := i.isLt
  omega

/-- A register reads as it was written. -/
theorem State.x_setX_same (s : State) {i : Reg} (v : Word) (h : i ≠ 0#5) : (s.setX i v).x i = v := by
  by_cases h31 : i = 31#5
  · subst h31
    unfold State.setX State.x
    simp only [h, if_false]
    cases hs : s.supervisor <;> simp_all [State.supervisor]
  · have hk := gpr_index_lt h31
    simp only [State.setX, State.x, h, h31, if_false]
    simp [hk]

/-- Writing one register changes no other. -/
theorem State.x_setX_other (s : State) {i j : Reg} (v : Word) (h : j ≠ i) : (s.setX i v).x j = s.x j := by
  by_cases hi0 : i = 0#5
  · subst hi0; rfl
  by_cases hj0 : j = 0#5
  · subst hj0; rfl
  by_cases hi : i = 31#5
  · subst hi
    simp only [State.setX, State.x, hi0, hj0, h, if_true, if_false]
    cases hs : s.supervisor <;> simp
  · by_cases hj : j = 31#5
    · subst hj
      simp only [State.setX, State.x, hi0, hj0, hi, if_true, if_false, State.supervisor]
      rfl
    · have h1 := gpr_index_lt hi
      have hne : i.toNat - 1 ≠ j.toNat - 1 := by
        intro he
        apply h
        apply BitVec.eq_of_toNat_eq
        have : i.toNat ≠ 0 := fun h => hi0 (BitVec.eq_of_toNat_eq h)
        have : j.toNat ≠ 0 := fun h => hj0 (BitVec.eq_of_toNat_eq h)
        omega
      simp only [State.setX, State.x, hi0, hj0, hi, hj, if_false]
      simp [hne]

/-- Writing the stack pointer of the current mode leaves the other one. -/
theorem State.setX_usp_of_supervisor (s : State) (i : Reg) (v : Word) (h : s.supervisor = true) : (s.setX i v).usp = s.usp := by
  by_cases h0 : i = 0#5 <;> by_cases h31 : i = 31#5 <;> simp [State.setX, h0, h31, h]

theorem State.setX_ssp_of_user (s : State) (i : Reg) (v : Word) (h : s.supervisor = false) : (s.setX i v).ssp = s.ssp := by
  by_cases h0 : i = 0#5 <;> by_cases h31 : i = 31#5 <;> simp [State.setX, h0, h31, h]

@[simp] theorem State.x_drawn (s : State) (n : Nat) (i : Reg) : (s.drawn n).x i = s.x i :=
  State.x_eq_of_fields _ _ rfl rfl rfl rfl i

@[simp] theorem State.x_setCr (s : State) (n : CReg) (v : BitVec 4) (i : Reg) : (s.setCr n v).x i = s.x i :=
  State.x_eq_of_fields _ _ rfl rfl rfl rfl i

@[simp] theorem State.x_jump (s : State) (a : Word) (i : Reg) : (s.jump a).x i = s.x i :=
  State.x_eq_of_fields _ _ rfl rfl rfl rfl i

@[simp] theorem State.x_storeBytes (s : State) (a : Word) (n : Nat) (v : Word) (i : Reg) : (s.storeBytes a n v).x i = s.x i :=
  State.x_eq_of_fields _ _ rfl rfl rfl rfl i

theorem withLow_setWidth {w : Nat} (hw : w ≤ 64) (up : Word) (r : BitVec w) : (withLow up r).setWidth w = r := by
  apply BitVec.eq_of_getLsbD_eq
  intro i hi
  have : i < 64 := by omega
  simp [withLow, hi, this]

/-- `wb`: one register write of a value with the result in its low bits, and at most one drawn value (R8). -/
theorem State.wb_spec {w : Nat} (hw : w ≤ 64) (s : State) (i : Reg) (r : BitVec w) :
    ∃ v n, s.wb i r = (s.setX i v).drawn n ∧ v.setWidth w = r ∧ n ≤ 1 := by
  have hz : ∀ u : State, u = u.drawn 0 := fun u => rfl
  unfold State.wb
  split
  · next h =>
    have h64 : w = 64 := by omega
    subst h64
    exact ⟨_, 0, hz _, by simp, by omega⟩
  · split
    · exact ⟨_, 0, hz _, withLow_setWidth hw _ r, by omega⟩
    · refine ⟨_, 0, hz _, ?_, by omega⟩
      apply BitVec.eq_of_getLsbD_eq
      intro k hk
      have : k < 64 := by omega
      rw [BitVec.getLsbD_setWidth, BitVec.getLsbD_signExtend]
      simp [hk, this]
    · refine ⟨_, 0, hz _, ?_, by omega⟩
      apply BitVec.eq_of_getLsbD_eq
      intro k hk
      have : k < 64 := by omega
      simp [hk, this]
    · exact ⟨_, 1, rfl, withLow_setWidth hw _ r, by omega⟩

/-! ## Condition registers -/

theorem State.cr_setCr_bits (s : State) (n m : CReg) (v : BitVec 4) (k : Nat) (hk : k < 4) :
    ((s.setCr n v).cr m).getLsbD k = if m = n then v.getLsbD k else (s.cr m).getLsbD k := by
  have hn := n.isLt
  have hm := m.isLt
  have h1 : 4 * m.toNat + k < 32 := by omega
  simp only [State.cr, State.setCr_ccrg, BitVec.getLsbD_extractLsb', BitVec.getLsbD_or, BitVec.getLsbD_and,
    BitVec.getLsbD_not, BitVec.getLsbD_shiftLeft, BitVec.getLsbD_setWidth, hk, h1, decide_true, Bool.true_and]
  split
  · next h =>
    subst h
    have h2 : ¬ 4 * m.toNat + k < 4 * m.toNat := by omega
    have h3 : 4 * m.toNat + k - 4 * m.toNat = k := by omega
    have h4 : (0xF#32).getLsbD k = true := by
      rcases (by omega : k = 0 ∨ k = 1 ∨ k = 2 ∨ k = 3) with h | h | h | h <;> subst h <;> rfl
    have h5 : k < 32 := by omega
    simp [h2, h3, h4, h5]
  · next h =>
    have hne : m.toNat ≠ n.toNat := fun he => h (BitVec.eq_of_toNat_eq he)
    by_cases hlt : 4 * m.toNat + k < 4 * n.toNat
    · simp [hlt]
    · have h6 : 4 ≤ 4 * m.toNat + k - 4 * n.toNat := by omega
      have h7 : (0xF#32).getLsbD (4 * m.toNat + k - 4 * n.toNat) = false := by
        rw [show (0xF#32) = (0xF#4).setWidth 32 from rfl, BitVec.getLsbD_setWidth,
          BitVec.getLsbD_of_ge _ _ h6]
        simp
      simp [hlt, h7, BitVec.getLsbD_of_ge v _ h6]

/-- A condition register reads as it was written. -/
@[simp] theorem State.cr_setCr_same (s : State) (n : CReg) (v : BitVec 4) : (s.setCr n v).cr n = v := by
  apply BitVec.eq_of_getLsbD_eq
  intro k hk
  simpa using State.cr_setCr_bits s n n v k hk

/-- Writing one condition register changes no other. -/
theorem State.cr_setCr_other (s : State) {n m : CReg} (v : BitVec 4) (h : m ≠ n) : (s.setCr n v).cr m = s.cr m := by
  apply BitVec.eq_of_getLsbD_eq
  intro k hk
  simpa [h] using State.cr_setCr_bits s n m v k hk

@[simp] theorem State.cr_setX (s : State) (i : Reg) (v : Word) (n : CReg) : (s.setX i v).cr n = s.cr n := by
  simp [State.cr]

@[simp] theorem State.cr_drawn (s : State) (k : Nat) (n : CReg) : (s.drawn k).cr n = s.cr n := rfl

/-- `writeFlags`: one condition register write that holds the mentioned flags, and at most one drawn value (R9, R131). -/
theorem State.writeFlags_spec (s : State) (c : CReg) (m v : BitVec 4) :
    ∃ f n, s.writeFlags c m v = (s.setCr c f).drawn n ∧ f &&& m = v &&& m ∧ n ≤ 1 ∧
      (s.params.unmentionedFlags = .unchanged → f &&& ~~~m = (if m = 0xF#4 then 0#4 else s.cr c &&& ~~~m)) := by
  have key : ∀ a b c : BitVec 4, ((a &&& b) ||| (c &&& ~~~b)) &&& b = a &&& b ∧
      ((a &&& b) ||| (c &&& ~~~b)) &&& ~~~b = c &&& ~~~b := by decide
  unfold State.writeFlags
  split
  · next h => subst h; exact ⟨v, 0, rfl, rfl, by omega, fun _ => by simp⟩
  · next h =>
    split
    · exact ⟨_, 0, rfl, (key _ _ _).1, by omega, fun _ => (key _ _ _).2⟩
    · next h' => exact ⟨_, 1, rfl, (key _ _ _).1, by omega, fun hu => by rw [h'] at hu; cases hu⟩

/-! ## The end of an instruction -/

/-- `advance` goes to the next instruction, and only where there is one below 2^64 (R26). -/
theorem advance_next {words : Nat} {s t : State} :
    advance words s = .next t ↔ s.pc.toNat + 4 * words < 2 ^ 64 ∧ t = s.jump (s.pcNext words) := by
  unfold advance
  split
  · next h => exact ⟨fun e => ⟨h, (Host.Outcome.next.inj e).symm⟩, fun e => by rw [e.2]⟩
  · next h => exact ⟨nofun, fun e => absurd e.1 h⟩

theorem advance_not_fault {words : Nat} {s : State} {f : Fault} : advance words s ≠ .fault f := by
  unfold advance
  split <;> simp

/-! ## Accesses -/

theorem memRead_ok {a : Word} {n : Nat} {s t : State} {v : Word} :
    memRead a n s = .ok v t ↔ s.accessFault .read a n = none ∧ v = s.mem.readLE a n ∧ t = s := by
  unfold memRead
  split
  · next h => simp [h]
  · next h => simp [h, eq_comm]

theorem memRead_raise {a : Word} {n : Nat} {s t : State} {e : SysVector} :
    memRead a n s = .raise e t ↔ s.accessFault .read a n = some e ∧ t = s := by
  unfold memRead
  split
  · next h => simp [h, eq_comm]
  · next h => simp [h]

theorem memWrite_ok {a : Word} {n : Nat} {v : Word} {s t : State} :
    memWrite a n v s = .ok () t ↔ s.accessFault .write a n = none ∧ t = s.storeBytes a n v := by
  unfold memWrite
  split
  · next h => simp [h]
  · next h => simp [h, eq_comm]

theorem memWrite_raise {a : Word} {n : Nat} {v : Word} {s t : State} {e : SysVector} :
    memWrite a n v s = .raise e t ↔ s.accessFault .write a n = some e ∧ t = s := by
  unfold memWrite
  split
  · next h => simp [h, eq_comm]
  · next h => simp [h]

/-- An access that fails is an Address Error or a Bus Error (R63). -/
theorem accessFault_vector {s : State} {k : AccessKind} {a : Word} {n : Nat} {e : SysVector}
    (h : s.accessFault k a n = some e) : e = vecAddressError ∨ e = vecBusError := by
  unfold State.accessFault at h
  split at h
  · exact .inl (Option.some.inj h).symm
  · split at h
    · cases h
    · exact .inr (Option.some.inj h).symm

/-- Whether an access fails depends on the parameters only. -/
theorem accessFault_congr {s t : State} (h : t.params = s.params) (k : AccessKind) (a : Word) (n : Nat) :
    t.accessFault k a n = s.accessFault k a n := by
  simp [State.accessFault, h]

theorem Act.andThen_ok {α β : Type} {m : Act α} {k : α → State → Act β} {b : β} {t : State} :
    m.andThen k = .ok b t ↔ ∃ a u, m = .ok a u ∧ k a u = .ok b t := by
  cases m <;> simp [Act.andThen]

theorem Act.andThen_raise {α β : Type} {m : Act α} {k : α → State → Act β} {e : SysVector} {t : State} :
    m.andThen k = .raise e t ↔ m = .raise e t ∨ ∃ a u, m = .ok a u ∧ k a u = .raise e t := by
  cases m <;> simp [Act.andThen]

/-- A push that succeeds stores eight bytes below the stack pointer and moves it (R66). -/
theorem push8_ok {v : Word} {s t : State} :
    push8 v s = .ok () t ↔ s.accessFault .write (s.x 31#5 - 8#64) 8 = none ∧
      t = (s.storeBytes (s.x 31#5 - 8#64) 8 v).setX 31#5 (s.x 31#5 - 8#64) := by
  unfold push8
  rw [Act.andThen_ok]
  constructor
  · rintro ⟨a, u, h, h2⟩
    obtain ⟨h1, rfl⟩ := memWrite_ok.1 h
    exact ⟨h1, by cases h2; rfl⟩
  · rintro ⟨h, rfl⟩
    exact ⟨(), _, memWrite_ok.2 ⟨h, rfl⟩, rfl⟩

/-- A push that fails leaves everything (R66). -/
theorem push8_raise {v : Word} {s t : State} {e : SysVector} :
    push8 v s = .raise e t ↔ s.accessFault .write (s.x 31#5 - 8#64) 8 = some e ∧ t = s := by
  unfold push8
  rw [Act.andThen_raise]
  constructor
  · rintro (h | ⟨a, u, h, h2⟩)
    · exact memWrite_raise.1 h
    · cases h2
  · exact fun h => .inl (memWrite_raise.2 h)

/-- A pop that succeeds reads eight bytes at the stack pointer and moves it (R66). -/
theorem pop8_ok {v : Word} {s t : State} :
    pop8 s = .ok v t ↔ s.accessFault .read (s.x 31#5) 8 = none ∧ v = s.mem.readLE (s.x 31#5) 8 ∧
      t = s.setX 31#5 (s.x 31#5 + 8#64) := by
  unfold pop8
  rw [Act.andThen_ok]
  constructor
  · rintro ⟨a, u, h, h2⟩
    obtain ⟨h1, rfl, rfl⟩ := memRead_ok.1 h
    cases h2
    exact ⟨h1, rfl, rfl⟩
  · rintro ⟨h, rfl, rfl⟩
    exact ⟨_, _, memRead_ok.2 ⟨h, rfl, rfl⟩, rfl⟩

/-- A pop that fails leaves everything (R66). -/
theorem pop8_raise {s t : State} {e : SysVector} :
    pop8 s = .raise e t ↔ s.accessFault .read (s.x 31#5) 8 = some e ∧ t = s := by
  unfold pop8
  rw [Act.andThen_raise]
  constructor
  · rintro (h | ⟨a, u, h, h2⟩)
    · exact memRead_raise.1 h
    · cases h2
  · exact fun h => .inl (memRead_raise.2 h)

/-- A rule that makes accesses ends as its continuation does, or in the system exception of the access that failed (R10). -/
theorem Act.finish_next {α : Type} {m : Act α} {k : α → State → Result} {t : State} :
    m.finish k = .next t ↔ (∃ a u, m = .ok a u ∧ k a u = .next t) ∨ ∃ v u, m = .raise v u ∧ t = sysException v u.pc u := by
  cases m with
  | ok a u => simp [Act.finish]
  | raise v u =>
    simp only [Act.finish, Host.Outcome.next.injEq]
    constructor
    · rintro rfl; exact .inr ⟨_, _, rfl, rfl⟩
    · rintro (⟨_, _, h, _⟩ | ⟨_, _, h, rfl⟩) <;> cases h
      rfl

end Sys2Proof.Machine
end

