-- ==== Sys2Proof/Laws/Updates.lean ====
section
/-! SUPPORT. Every shared operation changes a state by a chain of the updates named here; what each update keeps is said
once (the invariant, and the fields that no instruction writes). -/

namespace Sys2Proof.Machine

/-- One update of the state. -/
inductive Upd : State → State → Prop
  | setX (s : State) (i : Reg) (v : Word) : Upd s (s.setX i v)
  | ccrg (s : State) (v : BitVec 32) : Upd s { s with ccrg := v }
  | sr (s : State) (v : BitVec 32) : Upd s (s.writeSr v)
  | enter (s : State) : Upd s s.enterSupervisor
  | ipl (s : State) (l : BitVec 3) : Upd s (s.setIpl l)
  | ac (s : State) (v : Word) : Upd s (s.writeAc v)
  | lc (s : State) (v : Word) : Upd s { s with lc := v }
  | jump (s : State) (a : Word) : Upd s (s.jump a)
  | store (s : State) (a : Word) (n : Nat) (v : Word) : Upd s (s.storeBytes a n v)
  | drawn (s : State) (n : Nat) : Upd s (s.drawn n)
  | stuck (s : State) : Upd s { s with stuck := true }

/-- A chain of updates. -/
abbrev Reaches : State → State → Prop := Relation.ReflTransGen Upd

/-- An update keeps the fields that no instruction writes (R36, R4). -/
theorem Upd.fixed {s t : State} (h : Upd s t) : t.vb = s.vb ∧ t.params = s.params ∧ t.irq = s.irq := by
  cases h <;> simp

theorem Reaches.fixed {s t : State} (h : Reaches s t) : t.vb = s.vb ∧ t.params = s.params ∧ t.irq = s.irq := by
  induction h with
  | refl => exact ⟨rfl, rfl, rfl⟩
  | tail _ h ih => exact ⟨h.fixed.1.trans ih.1, h.fixed.2.1.trans ih.2.1, h.fixed.2.2.trans ih.2.2⟩

theorem sr_mask_or {a b : BitVec 32} (ha : a &&& ~~~srMask = 0#32) (hb : b &&& ~~~srMask = 0#32) :
    (a ||| b) &&& ~~~srMask = 0#32 := by
  rw [BitVec.and_comm, BitVec.and_or_distrib_left, BitVec.and_comm, ha, BitVec.and_comm, hb]
  rfl

/-- An update keeps the invariant. -/
theorem Upd.inv {s t : State} (h : Upd s t) (hi : s.Inv) : t.Inv := by
  have hv : ∀ v : BitVec 32, (v &&& srMask) &&& ~~~srMask = 0#32 := fun v => by
    rw [BitVec.and_assoc, BitVec.and_not_self]; exact BitVec.and_zero
  have ha : ∀ v : Word, (v &&& acMask) &&& ~~~acMask = 0#64 := fun v => by
    rw [BitVec.and_assoc, BitVec.and_not_self]; exact BitVec.and_zero
  obtain ⟨hm, hst, hsr, hac⟩ := hi
  cases h with
  | sr v => exact ⟨hm, hst, hv v, hac⟩
  | enter => exact ⟨hm, hst, sr_mask_or hsr (by decide), hac⟩
  | ipl l =>
    refine ⟨hm, hst, sr_mask_or ?_ ?_, hac⟩
    · rw [BitVec.and_assoc, BitVec.and_comm (~~~0x00000700#32), ← BitVec.and_assoc, hsr, BitVec.zero_and]
    · have : ∀ l : BitVec 3, (l.setWidth 32 <<< 8) &&& ~~~srMask = 0#32 := by decide
      exact this l
  | ac v => exact ⟨hm, hst, hsr, ha v⟩
  | store a n v => exact ⟨Memory.wf_writeLE a n v hm, AddrSet.wf_insertRange a n hst, hsr, hac⟩
  | setX i v => exact ⟨by simpa using hm, by simpa using hst, by simpa using hsr, by simpa using hac⟩
  | _ => exact ⟨hm, hst, hsr, hac⟩

theorem Reaches.inv {s t : State} (h : Reaches s t) (hi : s.Inv) : t.Inv := by
  induction h with
  | refl => exact hi
  | tail _ h ih => exact h.inv ih

/-! ## The shared operations are chains of updates -/

theorem Upd.reaches {s t : State} (h : Upd s t) : Reaches s t := Relation.ReflTransGen.single h

theorem State.reaches_wb {w : Nat} (s : State) (i : Reg) (r : BitVec w) : Reaches s (s.wb i r) := by
  have hd : ∀ v : Word, Reaches s ((s.setX i v).drawn 1) := fun v =>
    (Upd.setX s i v).reaches.tail (Upd.drawn _ 1)
  unfold State.wb
  split
  · exact (Upd.setX s i _).reaches
  · split
    · exact (Upd.setX s i _).reaches
    · exact (Upd.setX s i _).reaches
    · exact (Upd.setX s i _).reaches
    · exact hd _

theorem State.reaches_setCr (s : State) (n : CReg) (v : BitVec 4) : Reaches s (s.setCr n v) := (Upd.ccrg s _).reaches

theorem State.reaches_writeFlags (s : State) (n : CReg) (m v : BitVec 4) : Reaches s (s.writeFlags n m v) := by
  obtain ⟨f, k, h, -⟩ := s.writeFlags_spec n m v
  rw [h]
  exact (s.reaches_setCr n f).tail (Upd.drawn _ k)

theorem reaches_advance {words : Nat} {s t u : State} (h : Reaches s t) (hu : advance words t = .next u) : Reaches s u := by
  rw [(advance_next.1 hu).2]
  exact h.tail (Upd.jump _ _)

theorem reaches_push8 {v : Word} {s t : State} (h : push8 v s = .ok () t) : Reaches s t := by
  rw [(push8_ok.1 h).2]
  exact (Upd.store s _ 8 v).reaches.tail (Upd.setX _ _ _)

theorem reaches_pop8 {v : Word} {s t : State} (h : pop8 s = .ok v t) : Reaches s t := by
  rw [(pop8_ok.1 h).2.2]
  exact (Upd.setX s _ _).reaches

/-- The state a rule ends in or stops in is a chain of updates away. -/
def Act.Via {α : Type} (s : State) : Act α → Prop
  | .ok _ t => Reaches s t
  | .raise _ t => Reaches s t

theorem Act.via_andThen {α β : Type} {s : State} {m : Act α} {k : α → State → Act β} (hm : m.Via s)
    (hk : ∀ a t, (k a t).Via t) : (m.andThen k).Via s := by
  cases m with
  | raise v t => exact hm
  | ok a t =>
    have := hk a t
    simp only [Act.andThen]
    cases h : k a t with
    | ok b u => rw [h] at this; exact Relation.ReflTransGen.trans hm this
    | raise v u => rw [h] at this; exact Relation.ReflTransGen.trans hm this

theorem via_memRead (a : Word) (n : Nat) (s : State) : (memRead a n s).Via s := by
  unfold memRead; split <;> exact Relation.ReflTransGen.refl

theorem via_memWrite (a : Word) (n : Nat) (v : Word) (s : State) : (memWrite a n v s).Via s := by
  unfold memWrite
  split
  · exact Relation.ReflTransGen.refl
  · exact (Upd.store s a n v).reaches

theorem via_push8 (v : Word) (s : State) : (push8 v s).Via s :=
  Act.via_andThen (via_memWrite _ _ _ _) fun _ t => (Upd.setX t _ _).reaches

theorem via_pop8 (s : State) : (pop8 s).Via s :=
  Act.via_andThen (via_memRead _ _ _) fun _ t => (Upd.setX t _ _).reaches

/-- Taking a system exception is a chain of updates (R313). -/
theorem reaches_sysException (v : SysVector) (ret : Word) (s : State) : Reaches s (sysException v ret s) := by
  have hf : (sysFrame v ret s.sr s.enterSupervisor).Via s.enterSupervisor :=
    Act.via_andThen (via_push8 _ _) fun _ _ => Act.via_andThen (via_push8 _ _) fun _ _ =>
      Act.via_andThen (via_push8 _ _) fun _ _ => via_memRead _ _ _
  have he := (Upd.enter s).reaches
  unfold sysException
  split
  · next h => rw [h] at hf; exact (Relation.ReflTransGen.trans he hf).tail (Upd.jump _ _)
  · next h => rw [h] at hf; exact (Relation.ReflTransGen.trans he hf).tail (Upd.stuck _)

/-- Taking an application exception is a chain of updates (R314). -/
theorem reaches_appException (v : AppVector) (ret : Word) (s : State) : Reaches s (appException v ret s) := by
  have hf : (appFrame v ret s).Via s :=
    Act.via_andThen (via_push8 _ _) fun _ _ => Act.via_andThen (via_push8 _ _) fun _ _ => via_memRead _ _ _
  unfold appException
  split
  · next h => rw [h] at hf; exact Relation.ReflTransGen.tail hf (Upd.jump _ _)
  · next h => rw [h] at hf; exact Relation.ReflTransGen.trans hf (reaches_sysException _ _ _)

/-- A rule that makes accesses ends in a chain of updates where its continuation does. -/
theorem reaches_finish {α : Type} {s t : State} {m : Act α} {k : α → State → Result} (hm : m.Via s)
    (hk : ∀ a u v, k a u = .next v → Reaches u v) (h : m.finish k = .next t) : Reaches s t := by
  rcases Act.finish_next.1 h with ⟨a, u, rfl, hu⟩ | ⟨v, u, rfl, rfl⟩
  · exact Relation.ReflTransGen.trans hm (hk a u t hu)
  · exact Relation.ReflTransGen.trans hm (reaches_sysException _ _ _)

/-- Taking an interrupt is a chain of updates (R322). -/
theorem reaches_takeInterrupt (l : BitVec 3) (s : State) : Reaches s (takeInterrupt l s) :=
  (reaches_sysException _ _ _).tail (Upd.ipl _ _)

/-! ## The state after reset -/

/-- The memory of the state after reset has the canonical form. -/
theorem reset_mem_wf : State.reset.mem.wf = true := rfl

end Sys2Proof.Machine
end

