-- ==== Sys2Proof/Laws/Access.lean ====
section
/-! SUPPORT. Accesses, pushes and pops that succeed and that fail, the blocks of bytes they touch, and the closed forms of
taking an exception. -/

namespace Sys2Proof.Machine

/-! ## When an access fails -/

theorem accessFault_none {s : State} {k : AccessKind} {a : Word} {n : Nat} :
    s.accessFault k a n = none ↔ CanAccess s k a n := by
  unfold State.accessFault
  cases hm : s.params.misaligned <;> by_cases h0 : a.toNat % n = 0 <;> cases hk : memOk s.params.map a n k <;>
    simp [CanAccess, hm, h0, hk]

/-- The exception of an access that does not succeed (R63, R326). -/
theorem accessFault_some {s : State} {k : AccessKind} {a : Word} {n : Nat} (h : ¬ CanAccess s k a n) :
    s.accessFault k a n = some (faultVector s a n) := by
  unfold State.accessFault faultVector
  split
  · rfl
  · next h1 =>
    split
    · next h2 =>
      refine absurd ⟨?_, h2⟩ h
      cases hm : s.params.misaligned with
      | split => exact .inl rfl
      | addressError => exact .inr (by_contra fun h0 => h1 ⟨hm, h0⟩)
    · rfl

theorem canAccess_congr {s t : State} (h : t.params = s.params) (k : AccessKind) (a : Word) (n : Nat) :
    CanAccess t k a n ↔ CanAccess s k a n := by
  rw [← accessFault_none, ← accessFault_none, accessFault_congr h]

theorem memRead_of_can {s : State} {a : Word} {n : Nat} (h : CanAccess s .read a n) :
    memRead a n s = .ok (s.mem.readLE a n) s := memRead_ok.2 ⟨accessFault_none.2 h, rfl, rfl⟩

theorem memRead_of_not {s : State} {a : Word} {n : Nat} (h : ¬ CanAccess s .read a n) :
    memRead a n s = .raise (faultVector s a n) s := memRead_raise.2 ⟨accessFault_some h, rfl⟩

theorem memWrite_of_can {s : State} {a : Word} {n : Nat} (v : Word) (h : CanAccess s .write a n) :
    memWrite a n v s = .ok () (s.storeBytes a n v) := memWrite_ok.2 ⟨accessFault_none.2 h, rfl⟩

theorem memWrite_of_not {s : State} {a : Word} {n : Nat} (v : Word) (h : ¬ CanAccess s .write a n) :
    memWrite a n v s = .raise (faultVector s a n) s := memWrite_raise.2 ⟨accessFault_some h, rfl⟩

/-- The state after a push (R66). -/
def State.pushed (v : Word) (s : State) : State := (s.storeBytes (s.x 31#5 - 8#64) 8 v).setX 31#5 (s.x 31#5 - 8#64)

theorem push8_of_can {s : State} (v : Word) (h : CanAccess s .write (s.x 31#5 - 8#64) 8) :
    push8 v s = .ok () (s.pushed v) := push8_ok.2 ⟨accessFault_none.2 h, rfl⟩

theorem push8_of_not {s : State} (v : Word) (h : ¬ CanAccess s .write (s.x 31#5 - 8#64) 8) :
    push8 v s = .raise (faultVector s (s.x 31#5 - 8#64) 8) s := push8_raise.2 ⟨accessFault_some h, rfl⟩

theorem pop8_of_can {s : State} (h : CanAccess s .read (s.x 31#5) 8) :
    pop8 s = .ok (s.mem.readLE (s.x 31#5) 8) (s.setX 31#5 (s.x 31#5 + 8#64)) := pop8_ok.2 ⟨accessFault_none.2 h, rfl, rfl⟩

theorem pop8_of_not {s : State} (h : ¬ CanAccess s .read (s.x 31#5) 8) :
    pop8 s = .raise (faultVector s (s.x 31#5) 8) s := pop8_raise.2 ⟨accessFault_some h, rfl⟩

@[simp] theorem pushed_sp (v : Word) (s : State) : (s.pushed v).x 31#5 = s.x 31#5 - 8#64 :=
  State.x_setX_same _ _ (by decide)

theorem pushed_x_other (v : Word) (s : State) {i : Reg} (h : i ≠ 31#5) : (s.pushed v).x i = s.x i := by
  simp [State.pushed, State.x_setX_other _ _ h]

@[simp] theorem pushed_pc (v : Word) (s : State) : (s.pushed v).pc = s.pc := by simp [State.pushed]
@[simp] theorem pushed_lc (v : Word) (s : State) : (s.pushed v).lc = s.lc := by simp [State.pushed]
@[simp] theorem pushed_ccrg (v : Word) (s : State) : (s.pushed v).ccrg = s.ccrg := by simp [State.pushed]
@[simp] theorem pushed_sr (v : Word) (s : State) : (s.pushed v).sr = s.sr := by simp [State.pushed]
@[simp] theorem pushed_ac (v : Word) (s : State) : (s.pushed v).ac = s.ac := by simp [State.pushed]
@[simp] theorem pushed_vb (v : Word) (s : State) : (s.pushed v).vb = s.vb := by simp [State.pushed]
@[simp] theorem pushed_stuck (v : Word) (s : State) : (s.pushed v).stuck = s.stuck := by simp [State.pushed]
@[simp] theorem pushed_irq (v : Word) (s : State) : (s.pushed v).irq = s.irq := by simp [State.pushed]
@[simp] theorem pushed_params (v : Word) (s : State) : (s.pushed v).params = s.params := by simp [State.pushed]
@[simp] theorem pushed_mem (v : Word) (s : State) : (s.pushed v).mem = s.mem.writeLE (s.x 31#5 - 8#64) 8 v := by
  simp [State.pushed]
@[simp] theorem pushed_stored (v : Word) (s : State) : (s.pushed v).stored = s.stored.insertRange (s.x 31#5 - 8#64) 8 := by
  simp [State.pushed]
@[simp] theorem pushed_gpr (v : Word) (s : State) : (s.pushed v).gpr = s.gpr := by
  unfold State.pushed State.setX
  cases hs : (s.storeBytes (s.x 31#5 - 8#64) 8 v).supervisor <;> simp
theorem pushed_usp (v : Word) (s : State) (h : s.supervisor = true) : (s.pushed v).usp = s.usp :=
  State.setX_usp_of_supervisor _ _ _ h
theorem pushed_ssp (v : Word) (s : State) (h : s.supervisor = false) : (s.pushed v).ssp = s.ssp :=
  State.setX_ssp_of_user _ _ _ h
@[simp] theorem pushed_supervisor (v : Word) (s : State) : (s.pushed v).supervisor = s.supervisor := by
  simp [State.supervisor]

/-! ## Blocks of bytes -/

theorem ofNat_succ_add (a : Word) (k : Nat) : a + BitVec.ofNat 64 (k + 1) = a + 1#64 + BitVec.ofNat 64 k := by
  rw [BitVec.add_assoc]; congr 1; rw [Nat.add_comm]; exact BitVec.ofNat_add ..

theorem inBlock_zero {a : Word} {b : Nat} : ¬ InBlock a 0 b := fun ⟨_, h, _⟩ => Nat.not_lt_zero _ h

theorem inBlock_succ {a : Word} {n b : Nat} : InBlock a (n + 1) b ↔ b = a.toNat ∨ InBlock (a + 1#64) n b := by
  constructor
  · rintro ⟨k, hk, rfl⟩
    cases k with
    | zero => exact .inl (by simp)
    | succ k => exact .inr ⟨k, by omega, congrArg BitVec.toNat (ofNat_succ_add a k)⟩
  · rintro (rfl | ⟨k, hk, rfl⟩)
    · exact ⟨0, by omega, by simp⟩
    · exact ⟨k + 1, by omega, congrArg BitVec.toNat (ofNat_succ_add a k).symm⟩

theorem inBlock_add {a : Word} {m n b : Nat} :
    InBlock a (m + n) b ↔ InBlock a m b ∨ InBlock (a + BitVec.ofNat 64 m) n b := by
  have hs : ∀ k, a + BitVec.ofNat 64 m + BitVec.ofNat 64 k = a + BitVec.ofNat 64 (m + k) := fun k => by
    rw [BitVec.add_assoc, BitVec.ofNat_add]
  constructor
  · rintro ⟨k, hk, rfl⟩
    by_cases h : k < m
    · exact .inl ⟨k, h, rfl⟩
    · refine .inr ⟨k - m, by omega, ?_⟩
      rw [hs, show m + (k - m) = k by omega]
  · rintro (⟨k, hk, rfl⟩ | ⟨k, hk, rfl⟩)
    · exact ⟨k, by omega, rfl⟩
    · exact ⟨m + k, by omega, by rw [hs]⟩

theorem AddrSet.has_insertRange (m : AddrSet) (a : Word) (n b : Nat) :
    (m.insertRange a n).has b = true ↔ m.has b = true ∨ InBlock a n b := by
  induction n generalizing m a with
  | zero => simp [AddrSet.insertRange, inBlock_zero]
  | succ n ih =>
    unfold AddrSet.insertRange
    rw [ih, AddrSet.has_insert, inBlock_succ, Bool.or_eq_true, beq_iff_eq, eq_comm (a := b)]
    tauto

theorem AddrSet.hasRange_iff (m : AddrSet) (a : Word) (n : Nat) :
    m.hasRange a n = true ↔ ∃ b, InBlock a n b ∧ m.has b = true := by
  induction n generalizing a with
  | zero => simp [AddrSet.hasRange, inBlock_zero]
  | succ n ih => simp [AddrSet.hasRange, ih, inBlock_succ, or_and_right, exists_or]

theorem Memory.read_writeLE_of_not (m : Memory) (a : Word) (n : Nat) (v : Word) {b : Nat} (h : ¬ InBlock a n b) :
    (m.writeLE a n v).read b = m.read b :=
  Memory.read_writeLE_outside m a n v fun k hk hb => h ⟨k, hk, hb⟩

/-- A read of bytes that a store does not touch. -/
theorem Memory.readLE_writeLE_other (m : Memory) (a c : Word) (n k : Nat) (v : Word)
    (h : ∀ b, InBlock c k b → ¬ InBlock a n b) : (m.writeLE a n v).readLE c k = m.readLE c k :=
  Memory.readLE_congr c k fun j hj => Memory.read_writeLE_of_not m a n v (h _ ⟨j, hj, rfl⟩)

/-- Two blocks at a distance of at least their lengths are apart. -/
theorem not_inBlock_of_offset {a : Word} {d n k b : Nat} (h1 : n ≤ d) (h2 : d + k ≤ 2 ^ 64)
    (hb : InBlock (a + BitVec.ofNat 64 d) k b) : ¬ InBlock a n b := by
  rintro ⟨i, hi, rfl⟩
  obtain ⟨j, hj, he⟩ := hb
  rw [BitVec.add_assoc, ← BitVec.ofNat_add] at he
  exact addr_add_ne (by omega) (by omega) (by omega) he

theorem not_inBlock_of_offset' {a : Word} {d n k b : Nat} (h1 : n ≤ d) (h2 : d + k ≤ 2 ^ 64)
    (hb : InBlock a n b) : ¬ InBlock (a + BitVec.ofNat 64 d) k b := fun h => not_inBlock_of_offset h1 h2 h hb

/-- A store stores its block. -/
theorem storeBytes_block (s : State) (a : Word) (n : Nat) (v : Word) : StoresBlock a n s (s.storeBytes a n v) where
  outside _ h := Memory.read_writeLE_of_not _ a n v h
  stored b := AddrSet.has_insertRange _ a n b

/-- Of two stores one after the other, both blocks. -/
theorem StoresBlock.trans_below {a : Word} {m n : Nat} {s t u : State} (h1 : StoresBlock (a + BitVec.ofNat 64 m) n s t)
    (h2 : StoresBlock a m t u) : StoresBlock a (m + n) s u where
  outside b hb := by
    rw [inBlock_add, not_or] at hb
    rw [h2.outside b hb.1, h1.outside b hb.2]
  stored b := by rw [h2.stored, h1.stored, inBlock_add]; tauto

theorem StoresBlock.of_eq {a : Word} {n : Nat} {s t s' t' : State} (h : StoresBlock a n s t) (hm : s'.mem = s.mem)
    (hs : s'.stored = s.stored) (hm' : t'.mem = t.mem) (hs' : t'.stored = t.stored) : StoresBlock a n s' t' where
  outside b hb := by rw [hm, hm']; exact h.outside b hb
  stored b := by rw [hs, hs']; exact h.stored b

theorem pushed_block (v : Word) (s : State) : StoresBlock (s.x 31#5 - 8#64) 8 s (s.pushed v) :=
  (storeBytes_block s _ 8 v).of_eq rfl rfl (by simp) (by simp)

/-- The value a push leaves on the stack. -/
theorem pushed_top (v : Word) (s : State) (h : s.mem.wf = true) : (s.pushed v).mem.readLE (s.x 31#5 - 8#64) 8 = v := by
  rw [pushed_mem, Memory.readLE_writeLE h _ 8 (by decide)]
  exact BitVec.setWidth_eq _

/-- A push leaves what stands above it. -/
theorem pushed_above (v : Word) (s : State) {d : Nat} (hd : d ≤ 1000) :
    (s.pushed v).mem.readLE (s.x 31#5 + BitVec.ofNat 64 d) 8 = s.mem.readLE (s.x 31#5 + BitVec.ofNat 64 d) 8 := by
  rw [pushed_mem]
  refine Memory.readLE_writeLE_other _ _ _ _ _ _ fun b hb => ?_
  rw [show s.x 31#5 + BitVec.ofNat 64 d = (s.x 31#5 - 8#64) + BitVec.ofNat 64 (8 + d) by
    rw [BitVec.ofNat_add, ← BitVec.add_assoc, BitVec.sub_add_cancel]] at hb
  exact not_inBlock_of_offset (by omega) (by omega) hb

theorem pushed_wf (v : Word) {s : State} (h : s.mem.wf = true) : (s.pushed v).mem.wf = true := by
  rw [pushed_mem]; exact Memory.wf_writeLE _ _ _ h

end Sys2Proof.Machine
end

