-- ==== Sys2Proof/Laws/Decode.lean ====
section
/-! SUPPORT. Cutting a word into its fields and joining them again are inverse, for each of the three layouts; codes of sizes
and conditions likewise; splitting and joining operands. -/

namespace Sys2Proof

/-! ## Cutting joined bit vectors -/

theorem cut_high {v w : Nat} (n s : Nat) (a : BitVec v) (b : BitVec w) (h : w ≤ s) :
    (a ++ b).extractLsb' s n = a.extractLsb' (s - w) n := BitVec.extractLsb'_append_eq_of_le h

theorem cut_low {v w : Nat} (a : BitVec v) (b : BitVec w) : (a ++ b).extractLsb' 0 w = b := by
  simp [BitVec.extractLsb'_append_eq_of_add_le]

theorem bit_high {v w : Nat} (s : Nat) (a : BitVec v) (b : BitVec w) (h : w ≤ s) :
    (a ++ b).getLsbD s = a.getLsbD (s - w) := by
  rw [BitVec.getLsbD_append, if_neg (by omega)]

theorem bit_low {v : Nat} (a : BitVec v) (b : Bool) : (a ++ BitVec.ofBool b).getLsbD 0 = b := by
  rw [BitVec.getLsbD_append, if_pos (by omega)]
  cases b <;> rfl

theorem bit_of_low {v w : Nat} (s : Nat) (a : BitVec v) (b : BitVec w) (h : s < w) : (a ++ b).getLsbD s = b.getLsbD s := by
  rw [BitVec.getLsbD_append, if_pos h]

theorem join_cut {w : Nat} (x : BitVec w) (m s n : Nat) :
    x.extractLsb' (s + n) m ++ x.extractLsb' s n = x.extractLsb' s (m + n) := by
  apply BitVec.eq_of_getLsbD_eq
  intro i hi
  rw [BitVec.getLsbD_append]
  simp only [BitVec.getLsbD_extractLsb', hi, decide_true, Bool.true_and]
  by_cases h : i < n
  · simp [h]
  · rw [if_neg h]
    have h1 : i - n < m := by omega
    have h2 : s + n + (i - n) = s + i := by omega
    simp [h1, h2]

theorem bit_as_cut {w : Nat} (x : BitVec w) (s : Nat) : BitVec.ofBool (x.getLsbD s) = x.extractLsb' s 1 := by
  apply BitVec.eq_of_getLsbD_eq
  intro i hi
  have : i = 0 := by omega
  subst this
  rw [BitVec.getLsbD_extractLsb']
  cases h : x.getLsbD s <;> simp

/-! ## The three layouts -/

/-- The fields of a word joined from fields are those fields. -/
@[simp] theorem Fields.ofWord_word (f : Fields) : Fields.ofWord f.word = f := by
  obtain ⟨ct, hi, b23, rb, b17, ra, rt, sz, op⟩ := f
  simp only [Fields.ofWord, Fields.word, Fields.mk.injEq]
  refine ⟨?_, ?_, ?_, ?_, ?_, ?_, ?_, ?_, ?_⟩
  all_goals first
    | (repeat (refine (cut_high _ _ _ _ (by decide)).trans ?_)); exact BitVec.extractLsb'_eq_self
    | (repeat (refine (cut_high _ _ _ _ (by decide)).trans ?_)); exact cut_low _ _
    | (repeat (refine (bit_high _ _ _ (by decide)).trans ?_)); exact bit_low _ _

/-- A word is joined from its fields. -/
@[simp] theorem Fields.word_ofWord (w : InsnWord) : (Fields.ofWord w).word = w := by
  simp only [Fields.ofWord, Fields.word]
  rw [bit_as_cut, bit_as_cut]
  refine Eq.trans ?_ (BitVec.extractLsb'_eq_self (x := w))
  rw [join_cut w 3 24 5, join_cut w 8 23 1, join_cut w 9 18 5, join_cut w 14 17 1, join_cut w 15 12 5, join_cut w 20 7 5,
    join_cut w 25 5 2, join_cut w 27 0 5]

@[simp] theorem BranchFields.ofWord_word (f : BranchFields) : BranchFields.ofWord f.word = f := by
  obtain ⟨disp, cr, cond, op⟩ := f
  simp only [BranchFields.ofWord, BranchFields.word, BranchFields.mk.injEq]
  refine ⟨?_, ?_, ?_, ?_⟩
  all_goals first
    | (repeat (refine (cut_high _ _ _ _ (by decide)).trans ?_)); exact BitVec.extractLsb'_eq_self
    | (repeat (refine (cut_high _ _ _ _ (by decide)).trans ?_)); exact cut_low _ _

@[simp] theorem BranchFields.word_ofWord (w : InsnWord) : (BranchFields.ofWord w).word = w := by
  simp only [BranchFields.ofWord, BranchFields.word]
  refine Eq.trans ?_ (BitVec.extractLsb'_eq_self (x := w))
  rw [join_cut w 19 10 3, join_cut w 22 5 5, join_cut w 27 0 5]

@[simp] theorem LegacyFields.ofWord_word (f : LegacyFields) : LegacyFields.ofWord f.word = f := by
  obtain ⟨rc, b26, rb, mode, mid, sz, b5, op⟩ := f
  simp only [LegacyFields.ofWord, LegacyFields.word, LegacyFields.mk.injEq]
  refine ⟨?_, ?_, ?_, ?_, ?_, ?_, ?_, ?_⟩
  all_goals first
    | (repeat (refine (cut_high _ _ _ _ (by decide)).trans ?_)); exact BitVec.extractLsb'_eq_self
    | (repeat (refine (cut_high _ _ _ _ (by decide)).trans ?_)); exact cut_low _ _
    | (repeat (refine (bit_high _ _ _ (by decide)).trans ?_)); exact bit_low _ _

@[simp] theorem LegacyFields.word_ofWord (w : InsnWord) : (LegacyFields.ofWord w).word = w := by
  simp only [LegacyFields.ofWord, LegacyFields.word]
  rw [bit_as_cut, bit_as_cut]
  refine Eq.trans ?_ (BitVec.extractLsb'_eq_self (x := w))
  rw [join_cut w 5 26 1, join_cut w 6 21 5, join_cut w 11 18 3, join_cut w 14 8 10, join_cut w 24 6 2, join_cut w 26 5 1,
    join_cut w 27 0 5]

/-- All layouts have the major opcode in bits 4..0 (R91). -/
@[simp] theorem BranchFields.word_op (f : BranchFields) : (Fields.ofWord f.word).op = f.op := cut_low _ _

@[simp] theorem LegacyFields.word_op (f : LegacyFields) : (Fields.ofWord f.word).op = f.op := cut_low _ _

/-- Bit 26 of the older layout, which tells ABS from SWAP (R115). -/
@[simp] theorem LegacyFields.word_bit26 (f : LegacyFields) : f.word[26] = f.b26 :=
  congrArg LegacyFields.b26 (LegacyFields.ofWord_word f)

@[simp] theorem Fields.word_bit26 (f : Fields) : f.word[26] = f.hi[2] := by
  have h := congrArg (fun g : Fields => g.hi.getLsbD 2) (Fields.ofWord_word f)
  simp only [Fields.ofWord, BitVec.getLsbD_extractLsb'] at h
  simpa using h

/-- The field `CSRt` (R116). -/
theorem LegacyFields.word_csr (f : LegacyFields) : f.word.extractLsb' 11 7 = f.mid.extractLsb' 3 7 := by
  have h := congrArg (fun g : LegacyFields => g.mid.extractLsb' 3 7) (LegacyFields.ofWord_word f)
  simp only [LegacyFields.ofWord] at h
  rw [← h]
  apply BitVec.eq_of_getLsbD_eq
  intro i hi
  simp only [BitVec.getLsbD_extractLsb']
  have h1 : 3 + i < 10 := by omega
  have h2 : 11 + i = 8 + (3 + i) := by omega
  simp [hi, h1, h2]

/-! ## Codes -/

@[simp] theorem Size.ofCode_code (sz : Size) : Size.ofCode sz.code = sz := by cases sz <;> rfl

@[simp] theorem Size.code_ofCode (c : BitVec 2) : (Size.ofCode c).code = c := by
  have : ∀ c : BitVec 2, (Size.ofCode c).code = c := by decide
  exact this c

@[simp] theorem HalfSize.ofCode_code (sz : HalfSize) : HalfSize.ofCode sz.code = some sz := by cases sz <;> rfl

@[simp] theorem PushSize.ofCode_code (sz : PushSize) : PushSize.ofCode sz.code = some sz := by cases sz <;> rfl

@[simp] theorem Cond.ofCode_code (c : Cond) : Cond.ofCode c.code = some c := by cases c <;> rfl

theorem HalfSize.code_of_ofCode {c : BitVec 2} {sz : HalfSize} (h : HalfSize.ofCode c = some sz) : sz.code = c := by
  have : ∀ c : BitVec 2, ∀ sz ∈ HalfSize.ofCode c, sz.code = c := by decide
  exact this c sz h

theorem PushSize.code_of_ofCode {c : BitVec 2} {sz : PushSize} (h : PushSize.ofCode c = some sz) : sz.code = c := by
  have : ∀ c : BitVec 2, ∀ sz ∈ PushSize.ofCode c, sz.code = c := by decide
  exact this c sz h

theorem Cond.code_of_ofCode {c : BitVec 5} {x : Cond} (h : Cond.ofCode c = some x) : x.code = c := by
  have : ∀ c : BitVec 5, ∀ x ∈ Cond.ofCode c, x.code = c := by decide
  exact this c x h

/-! ## Fields split and joined (the widths are those of the encoding figures) -/

@[simp] theorem join_5_5 (i : BitVec 10) : i.extractLsb' 5 5 ++ i.extractLsb' 0 5 = i :=
  (join_cut i 5 0 5).trans BitVec.extractLsb'_eq_self

@[simp] theorem join_3_5 (i : BitVec 8) : i.extractLsb' 5 3 ++ i.extractLsb' 0 5 = i :=
  (join_cut i 3 0 5).trans BitVec.extractLsb'_eq_self

@[simp] theorem join_8_3 (i : BitVec 11) : i.extractLsb' 3 8 ++ i.extractLsb' 0 3 = i :=
  (join_cut i 8 0 3).trans BitVec.extractLsb'_eq_self

@[simp] theorem join_8_2 (i : BitVec 10) : i.extractLsb' 2 8 ++ i.extractLsb' 0 2 = i :=
  (join_cut i 8 0 2).trans BitVec.extractLsb'_eq_self

@[simp] theorem join_3_3 (i : BitVec 6) : i.extractLsb' 3 3 ++ i.extractLsb' 0 3 = i :=
  (join_cut i 3 0 3).trans BitVec.extractLsb'_eq_self

@[simp] theorem join_3_2 (i : BitVec 5) : i.extractLsb' 2 3 ++ i.extractLsb' 0 2 = i :=
  (join_cut i 3 0 2).trans BitVec.extractLsb'_eq_self

@[simp] theorem join_2_5 (i : BitVec 7) : i.extractLsb' 5 2 ++ i.extractLsb' 0 5 = i :=
  (join_cut i 2 0 5).trans BitVec.extractLsb'_eq_self

@[simp] theorem join_1_5 (i : BitVec 6) : BitVec.ofBool (i.getLsbD 5) ++ i.extractLsb' 0 5 = i := by
  rw [bit_as_cut]
  exact (join_cut i 1 0 5).trans BitVec.extractLsb'_eq_self

@[simp] theorem join_1_5_getElem (i : BitVec 6) : BitVec.ofBool i[5] ++ i.extractLsb' 0 5 = i := join_1_5 i

@[simp] theorem join_3_19 (i : BitVec 22) : i.extractLsb' 19 3 ++ i.extractLsb' 0 19 = i :=
  (join_cut i 3 0 19).trans BitVec.extractLsb'_eq_self

theorem join_data11 (d : BitVec 11) : d.extractLsb' 6 5 ++ BitVec.ofBool (d.getLsbD 5) ++ d.extractLsb' 0 5 = d := by
  rw [bit_as_cut, join_cut d 5 5 1, join_cut d 6 0 5]
  exact BitVec.extractLsb'_eq_self

@[simp] theorem join_data11_getElem (d : BitVec 11) : d.extractLsb' 6 5 ++ BitVec.ofBool d[5] ++ d.extractLsb' 0 5 = d :=
  join_data11 d

theorem join_imm17 (d : BitVec 17) : d.extractLsb' 12 5 ++ BitVec.ofBool (d.getLsbD 11) ++ d.extractLsb' 6 5 ++
    BitVec.ofBool (d.getLsbD 5) ++ d.extractLsb' 0 5 = d := by
  rw [bit_as_cut, bit_as_cut, join_cut d 5 11 1, join_cut d 6 6 5, join_cut d 11 5 1, join_cut d 12 0 5]
  exact BitVec.extractLsb'_eq_self

@[simp] theorem join_imm17_getElem (d : BitVec 17) : d.extractLsb' 12 5 ++ BitVec.ofBool d[11] ++ d.extractLsb' 6 5 ++
    BitVec.ofBool d[5] ++ d.extractLsb' 0 5 = d := join_imm17 d

@[simp] theorem high_5_5 (a b : BitVec 5) : (a ++ b : BitVec 10).extractLsb' 5 5 = a :=
  (cut_high 5 5 a b (by omega)).trans BitVec.extractLsb'_eq_self

@[simp] theorem low_5_5 (a b : BitVec 5) : (a ++ b : BitVec 10).extractLsb' 0 5 = b := cut_low a b

@[simp] theorem high_7_3 (a : BitVec 7) (b : BitVec 3) : (a ++ b : BitVec 10).extractLsb' 3 7 = a :=
  (cut_high 7 3 a b (by omega)).trans BitVec.extractLsb'_eq_self

@[simp] theorem low_7_3 (a : BitVec 7) (b : BitVec 3) : (a ++ b : BitVec 10).extractLsb' 0 3 = b := cut_low a b

@[simp] theorem high_3_2 (a : BitVec 3) (b : BitVec 2) : (a ++ b : BitVec 5).extractLsb' 2 3 = a :=
  (cut_high 3 2 a b (by omega)).trans BitVec.extractLsb'_eq_self

@[simp] theorem low_3_2 (a : BitVec 3) (b : BitVec 2) : (a ++ b : BitVec 5).extractLsb' 0 2 = b := cut_low a b

@[simp] theorem high_2_3 (a : BitVec 2) (b : BitVec 3) : (a ++ b : BitVec 5).extractLsb' 3 2 = a :=
  (cut_high 2 3 a b (by omega)).trans BitVec.extractLsb'_eq_self

@[simp] theorem low_2_3 (a : BitVec 2) (b : BitVec 3) : (a ++ b : BitVec 5).extractLsb' 0 3 = b := cut_low a b

@[simp] theorem low_27_5 (a : BitVec 27) (b : BitVec 5) : (Fields.ofWord (a ++ b)).op = b := cut_low a b

@[simp] theorem high_27_5 (a : BitVec 27) (b : BitVec 5) : (a ++ b : BitVec 32).extractLsb' 5 27 = a :=
  (cut_high 27 5 a b (by omega)).trans BitVec.extractLsb'_eq_self

@[simp] theorem shiftHigh_fields (fn : BitVec 2) (fill top : Bool) :
    (shiftHigh fn fill top).extractLsb' 3 2 = fn ∧ (shiftHigh fn fill top)[1] = fill ∧
      (shiftHigh fn fill top)[0] = top ∧ (shiftHigh fn fill top)[2] = false := by
  revert fn fill top; decide

@[simp] theorem jsrTop_bits (g : Bool) : (jsrTop g)[0] = g ∧ (jsrTop g)[1] = false ∧ (jsrTop g)[2] = false := by
  revert g; decide

/-! ## Operands with extension words -/

/-- A 64-bit quantity in two words reads back, whatever follows them (R96). -/
theorem extPair_of_drop {ext rest : List InsnWord} {k : Nat} {v : BitVec 64} (h : ext.drop k = words64 v ++ rest) :
    extPair ext k = v := by
  have h0 : extWord ext k = v.extractLsb' 0 32 := by
    have := congrArg (fun l : List InsnWord => l.getD 0 0#32) h
    simpa [extWord, words64, List.getElem?_drop] using this
  have h1 : extWord ext (k + 1) = v.extractLsb' 32 32 := by
    have := congrArg (fun l : List InsnWord => l.getD 1 0#32) h
    simpa [extWord, words64, List.getElem?_drop] using this
  rw [extPair, h0, h1]
  exact (join_cut v 32 0 32).trans BitVec.extractLsb'_eq_self

theorem extWord_of_drop {ext rest : List InsnWord} {k : Nat} {w : InsnWord} (h : ext.drop k = w :: rest) :
    extWord ext k = w := by
  have := congrArg (fun l : List InsnWord => l.getD 0 0#32) h
  simpa [extWord, List.getElem?_drop] using this

@[simp] theorem extPair_words64 (v : BitVec 64) : extPair (words64 v) 0 = v :=
  extPair_of_drop (rest := []) (by simp)

@[simp] theorem words64_length (v : BitVec 64) : (words64 v).length = 2 := rfl

theorem words64_extPair (lo hi : InsnWord) : words64 (extPair [lo, hi] 0) = [lo, hi] := by
  simp only [words64, extPair, extWord]
  congr 1
  · exact cut_low _ _
  · congr 1
    refine (cut_high 32 32 hi lo (by omega)).trans ?_
    exact BitVec.extractLsb'_eq_self

@[simp] theorem Disp.words_length {n : Nat} (d : Disp n) : d.words.length = d.extWords := by cases d <;> rfl

@[simp] theorem StoreImm.words_length (i : StoreImm) : i.words.length = i.extWords := by cases i <;> rfl

/-- A displacement reads back from its fields and its words. -/
theorem decodeDisp11_fields {d : Disp 11} {ext : List InsnWord} {k : Nat} (h : d.wf11 = true) (he : ext.drop k = d.words) :
    decodeDisp11 d.high11 d.low11 ext k = .ok d := by
  cases d with
  | short d => simp_all [Disp.wf11, wfDispHigh, decodeDisp11, Disp.high11, Disp.low11]
  | ext32 d => simp [decodeDisp11, Disp.high11, Disp.low11, extWord_of_drop he]
  | ext64 d => simp [decodeDisp11, Disp.high11, Disp.low11, extPair_of_drop (he.trans (List.append_nil _).symm)]

theorem decodeDisp10_fields {d : Disp 10} {ext : List InsnWord} {k : Nat} (h : d.wf10 = true) (he : ext.drop k = d.words) :
    decodeDisp10 d.high10 d.low10 ext k = .ok d := by
  cases d with
  | short d => simp_all [Disp.wf10, wfDispHigh, decodeDisp10, Disp.high10, Disp.low10]
  | ext32 d => simp [decodeDisp10, Disp.high10, Disp.low10, extWord_of_drop he]
  | ext64 d => simp [decodeDisp10, Disp.high10, Disp.low10, extPair_of_drop (he.trans (List.append_nil _).symm)]

theorem decodeDisp6_fields {d : Disp 6} {ext : List InsnWord} {k : Nat} (h : d.wfIndexed6 = true) (he : ext.drop k = d.words) :
    decodeDisp6 d.index6 ext k = .ok d := by
  cases d with
  | short d => simp_all [Disp.wfIndexed6, decodeDisp6, Disp.index6]
  | ext32 d => simp [decodeDisp6, Disp.index6, extWord_of_drop he]
  | ext64 d => simp [decodeDisp6, Disp.index6, extPair_of_drop (he.trans (List.append_nil _).symm)]

theorem decodeDisp5_fields {d : Disp 5} {ext : List InsnWord} {k : Nat} (h : d.wfIndexed5 = true) (he : ext.drop k = d.words) :
    decodeDisp5 d.index5 ext k = .ok d := by
  cases d with
  | short d => simp_all [Disp.wfIndexed5, decodeDisp5, Disp.index5]
  | ext32 d => simp [decodeDisp5, Disp.index5, extWord_of_drop he]
  | ext64 d => simp [decodeDisp5, Disp.index5, extPair_of_drop (he.trans (List.append_nil _).symm)]

theorem decodeStoreImm_fields {i : StoreImm} {rest : List InsnWord} (h : i.wf = true) :
    decodeStoreImm i.field5 (i.words ++ rest) = .ok i := by
  cases i with
  | short i => simp_all [StoreImm.wf, decodeStoreImm, StoreImm.field5]
  | ext32 i => simp [decodeStoreImm, StoreImm.field5, StoreImm.words, extWord]
  | ext64 i => simp [decodeStoreImm, StoreImm.field5, StoreImm.words, extPair_of_drop (ext := words64 i ++ rest) (k := 0) rfl]

theorem decodeCsrNum_fields {c : CsrNum} (h : c.wf = true) : decodeCsrNum c.field7 c.words = c := by
  cases c with
  | field n => simp_all [CsrNum.wf, decodeCsrNum, CsrNum.field7]
  | extended n => simp [decodeCsrNum, CsrNum.field7, CsrNum.words, extWord]

/-! ## The number of extension words (R120) -/

theorem dispWords11 {d : Disp 11} (h : d.wf11 = true) :
    (if d.high11 = 0x80#8 then 1 else if d.high11 = 0x81#8 then 2 else 0) = d.extWords := by
  cases d <;> simp_all [Disp.wf11, wfDispHigh, Disp.high11, Disp.extWords]

theorem dispWords10 {d : Disp 10} (h : d.wf10 = true) :
    (if d.high10 = 0x80#8 then 1 else if d.high10 = 0x81#8 then 2 else 0) = d.extWords := by
  cases d <;> simp_all [Disp.wf10, wfDispHigh, Disp.high10, Disp.extWords]

theorem dispWords6 {d : Disp 6} (h : d.wfIndexed6 = true) :
    (if d.index6 = 32#6 then 1 else if d.index6 = 33#6 then 2 else 0) = d.extWords := by
  cases d <;> simp_all [Disp.wfIndexed6, Disp.index6, Disp.extWords]

theorem dispWords5 {d : Disp 5} (h : d.wfIndexed5 = true) :
    (if d.index5 = 16#5 then 1 else if d.index5 = 17#5 then 2 else 0) = d.extWords := by
  cases d <;> simp_all [Disp.wfIndexed5, Disp.index5, Disp.extWords]

theorem immWords5 {i : StoreImm} (h : i.wf = true) :
    (if i.field5 = 16#5 then 1 else if i.field5 = 17#5 then 2 else 0) = i.extWords := by
  cases i <;> simp_all [StoreImm.wf, StoreImm.field5, StoreImm.extWords]

theorem csrWords {c : CsrNum} (h : c.wf = true) : c.words.length = if c.field7 = 0#7 then 1 else 0 := by
  cases c <;> simp_all [CsrNum.wf, CsrNum.words, CsrNum.field7]

/-- The major opcodes in the shared layout whose instructions are one word. -/
def isOneWordOp (op : BitVec 5) : Bool :=
  op.toNat == 0 || op.toNat == 1 || op.toNat == 13 || op.toNat == 14 || op.toNat == 15 || op.toNat == 25

theorem extWords_none {f : Fields} (h : isOneWordOp f.op = true) : 0 = extWordsOf f.word := by
  have hall : ∀ op : BitVec 5, isOneWordOp op = true →
      op = 0#5 ∨ op = 1#5 ∨ op = 13#5 ∨ op = 14#5 ∨ op = 15#5 ∨ op = 25#5 := by decide
  rcases hall _ h with h | h | h | h | h | h <;> simp [extWordsOf, h]

theorem extWords_abs {f : LegacyFields} (h : f.op = 1#5) : 0 = extWordsOf f.word := by simp [extWordsOf, h]

theorem extWords_csr {f : LegacyFields} {n : Nat} (h : f.op = 2#5) (hn : n = if f.mid.extractLsb' 3 7 = 0#7 then 1 else 0) :
    n = extWordsOf f.word := by simp [extWordsOf, h, hn, LegacyFields.word_csr]

theorem extWords_bcc {f : BranchFields} (h : f.op = 28#5) : 0 = extWordsOf f.word := by simp [extWordsOf, h]

theorem extWords_dbcc {f : BranchFields} (h : f.op = 29#5) : 0 = extWordsOf f.word := by simp [extWordsOf, h]

theorem extWords_named {a : BitVec 27} {b : BitVec 5} (h : b = 20#5 ∨ b = 21#5 ∨ b = 22#5 ∨ b = 23#5) :
    0 = extWordsOf (a ++ b) := by
  rcases h with rfl | rfl | rfl | rfl <;> simp [extWordsOf]

/-- The major opcodes with the ALU operand forms. -/
def isFormOp (op : BitVec 5) : Bool := (3 ≤ op.toNat && op.toNat ≤ 10) || op.toNat == 24

theorem extWords_form {f : Fields} (h : isFormOp f.op = true) : extWordsOf f.word = formWords f := by
  have hall : ∀ op : BitVec 5, isFormOp op = true →
      op = 3#5 ∨ op = 4#5 ∨ op = 5#5 ∨ op = 6#5 ∨ op = 7#5 ∨ op = 8#5 ∨ op = 9#5 ∨ op = 10#5 ∨ op = 24#5 := by decide
  rcases hall _ h with h | h | h | h | h | h | h | h | h <;> simp [extWordsOf, h]

theorem extWords_reg {f : Fields} (h : isFormOp f.op = true) (hb : f.b17 = false) : 0 = extWordsOf f.word := by
  simp [extWords_form h, formWords, Fields.form, hb]

theorem extWords_imm32 {f : Fields} (h : isFormOp f.op = true) (hb : f.b17 = true) (hh : f.hi = 16#5) :
    1 = extWordsOf f.word := by simp [extWords_form h, formWords, Fields.form, hb, hh]

theorem extWords_imm64 {f : Fields} (h : isFormOp f.op = true) (hb : f.b17 = true) (hh : f.hi = 17#5) :
    2 = extWordsOf f.word := by simp [extWords_form h, formWords, Fields.form, hb, hh]

theorem extWords_imm10 {f : Fields} {imm : BitVec 10} (hw : wfImm10 imm = true) (h : isFormOp f.op = true)
    (hb : f.b17 = true) (hh : f.hi = imm.extractLsb' 5 5) : 0 = extWordsOf f.word := by
  simp only [wfImm10, Bool.and_eq_true, bne_iff_ne] at hw
  simp [extWords_form h, formWords, Fields.form, hb, hh, hw.1, hw.2]

theorem extWords_load {f : Fields} (h : f.op = 16#5) : extWordsOf f.word = loadDispWords f := by simp [extWordsOf, h]

theorem extWords_loadm {f : Fields} (h : f.op = 17#5) : extWordsOf f.word = 1 + loadDispWords f := by simp [extWordsOf, h]

theorem extWords_store {f : Fields} (h : f.op = 18#5) : extWordsOf f.word = storeImmWords f + storeDispWords f := by
  simp [extWordsOf, h]

theorem extWords_storem {f : Fields} (h : f.op = 19#5) : extWordsOf f.word = 1 + storeDispWords f := by
  simp [extWordsOf, h]

theorem extWords_pea {f : Fields} (h : f.op = 27#5) : extWordsOf f.word = storeDispWords f := by simp [extWordsOf, h]

theorem loadDispWords_index {f : Fields} {d : Disp 6} (hw : d.wfIndexed6 = true) (hc : f.ct = d.index6.extractLsb' 3 3)
    (hr : f.rt = 3#2 ++ d.index6.extractLsb' 0 3) : loadDispWords f = d.extWords := by
  rw [← dispWords6 hw]
  simp [loadDispWords, hc, hr]

theorem loadDispWords_reg {f : Fields} {d : Disp 11} (md : UpdMode) (hw : d.wf11 = true)
    (hc : f.ct = d.high11.extractLsb' 5 3) (hh : f.hi = d.high11.extractLsb' 0 5) (hr : f.rt = md.code2 ++ d.low11) :
    loadDispWords f = d.extWords := by
  rw [← dispWords11 hw]
  cases md <;> simp [loadDispWords, hc, hh, hr, UpdMode.code2]

theorem storeDispWords_index {f : Fields} {d : Disp 5} (hw : d.wfIndexed5 = true) (hc : f.ct = d.index5.extractLsb' 2 3)
    (hr : f.rt = 4#3 ++ d.index5.extractLsb' 0 2) : storeDispWords f = d.extWords := by
  rw [← dispWords5 hw]
  simp [storeDispWords, hc, hr]

theorem storeDispWords_reg {f : Fields} {d : Disp 10} (md : UpdMode) (hw : d.wf10 = true)
    (hc : f.ct = d.high10.extractLsb' 5 3) (hh : f.hi = d.high10.extractLsb' 0 5) (hr : f.rt = md.code3 ++ d.low10) :
    storeDispWords f = d.extWords := by
  rw [← dispWords10 hw]
  cases md <;> simp [storeDispWords, hc, hh, hr, UpdMode.code3]

theorem storeImmWords_reg {f : Fields} (h : f.b17 = false) : storeImmWords f = 0 := by simp [storeImmWords, h]

theorem storeImmWords_imm {f : Fields} {i : StoreImm} (hw : i.wf = true) (h : f.b17 = true) (hr : f.ra = i.field5) :
    storeImmWords f = i.extWords := by
  rw [← immWords5 hw]
  simp [storeImmWords, h, hr]

/-- The first word of an encoding is there. -/
theorem encode_ne_nil (i : Instr) : encode i ≠ [] := by cases i <;> simp [encode]

/-! ## Whether a word is unassigned does not depend on the words after it -/

/-- The two are unassigned together. -/
def UnassignedTogether (x y : Decoded) : Prop := x = .reject .unassigned ↔ y = .reject .unassigned

theorem UnassignedTogether.of_not {x y : Decoded} (h : x ≠ .reject .unassigned) (k : y ≠ .reject .unassigned) :
    UnassignedTogether x y := ⟨fun e => absurd e h, fun e => absurd e k⟩

theorem together_rejectIf {b : Bool} {r : Reject} {x y : Decoded} (h : UnassignedTogether x y) :
    UnassignedTogether (rejectIf b r x) (rejectIf b r y) := by
  cases b
  · exact h
  · exact Iff.rfl

theorem rejectIf_assigned {b : Bool} {r : Reject} {x : Decoded} (hr : r ≠ .unassigned) (h : x ≠ .reject .unassigned) :
    rejectIf b r x ≠ .reject .unassigned := by
  cases b
  · exact h
  · intro e; exact hr (by injection e)

theorem disp11_assigned (hi : BitVec 8) (lo : BitVec 3) (ext : List InsnWord) (k : Nat) {c : Disp 11 → Decoded}
    (h : ∀ d, c d ≠ .reject .unassigned) : withOperand (decodeDisp11 hi lo ext k) c ≠ .reject .unassigned := by
  unfold decodeDisp11
  repeat' split
  all_goals first | exact h _ | (unfold withOperand; simp)

theorem disp10_assigned (hi : BitVec 8) (lo : BitVec 2) (ext : List InsnWord) (k : Nat) {c : Disp 10 → Decoded}
    (h : ∀ d, c d ≠ .reject .unassigned) : withOperand (decodeDisp10 hi lo ext k) c ≠ .reject .unassigned := by
  unfold decodeDisp10
  repeat' split
  all_goals first | exact h _ | (unfold withOperand; simp)

theorem disp6_assigned (d : BitVec 6) (ext : List InsnWord) (k : Nat) {c : Disp 6 → Decoded}
    (h : ∀ d, c d ≠ .reject .unassigned) : withOperand (decodeDisp6 d ext k) c ≠ .reject .unassigned := by
  unfold decodeDisp6
  repeat' split
  all_goals first | exact h _ | (unfold withOperand; simp)

theorem disp5_assigned (d : BitVec 5) (ext : List InsnWord) (k : Nat) {c : Disp 5 → Decoded}
    (h : ∀ d, c d ≠ .reject .unassigned) : withOperand (decodeDisp5 d ext k) c ≠ .reject .unassigned := by
  unfold decodeDisp5
  repeat' split
  all_goals first | exact h _ | (unfold withOperand; simp)

theorem storeImm_assigned (i : BitVec 5) (ext : List InsnWord) {c : StoreImm → Decoded}
    (h : ∀ d, c d ≠ .reject .unassigned) : withOperand (decodeStoreImm i ext) c ≠ .reject .unassigned := by
  unfold decodeStoreImm
  repeat' split
  all_goals first | exact h _ | (unfold withOperand; simp)

theorem destination_assigned (f : Fields) (ext : List InsnWord) (k : Nat) {u : UpdMode → Disp 10 → Decoded} {c : Disp 5 → Decoded}
    (hu : ∀ m d, u m d ≠ .reject .unassigned) (hc : ∀ d, c d ≠ .reject .unassigned) :
    decodeDestination f ext k u c ≠ .reject .unassigned := by
  unfold decodeDestination
  split
  · exact disp10_assigned _ _ _ _ (hu _)
  · exact disp10_assigned _ _ _ _ (hu _)
  · exact disp10_assigned _ _ _ _ (hu _)
  · exact disp5_assigned _ _ _ hc
  · simp

theorem ofOption_assigned {r : Reject} (hr : r ≠ .unassigned) (o : Option Instr) : Decoded.ofOption r o ≠ .reject .unassigned := by
  cases o
  · intro e; exact hr (by injection e)
  · exact nofun

theorem together_forms {strict : Bool} {f : Fields} (ext ext' : List InsnWord) {unused : Bool} {reg : Decoded}
    {i32 : BitVec 32 → Instr} {i64 : BitVec 64 → Instr} {i10 : BitVec 10 → Instr} :
    UnassignedTogether (decodeForms strict f ext unused reg i32 i64 i10) (decodeForms strict f ext' unused reg i32 i64 i10) := by
  unfold decodeForms
  split
  · exact Iff.rfl
  · exact .of_not (rejectIf_assigned (by decide) nofun) (rejectIf_assigned (by decide) nofun)
  · exact .of_not (rejectIf_assigned (by decide) nofun) (rejectIf_assigned (by decide) nofun)
  · exact Iff.rfl

theorem together_csr (g : LegacyFields) (ext ext' : List InsnWord) : UnassignedTogether (decodeCsr g ext) (decodeCsr g ext') := by
  have hk : ∀ (a b : Bool) (i j : Instr), UnassignedTogether
      (rejectIf a .legacyRegister (rejectIf b .legacyMode (.instr i))) (rejectIf a .legacyRegister (rejectIf b .legacyMode (.instr j))) :=
    fun a b i j => .of_not (rejectIf_assigned (by decide) (rejectIf_assigned (by decide) nofun))
      (rejectIf_assigned (by decide) (rejectIf_assigned (by decide) nofun))
  unfold decodeCsr
  split
  · exact Iff.rfl
  · dsimp only
    split
    all_goals first | exact hk _ _ _ _ | exact Iff.rfl

theorem together_div (f : Fields) (ext ext' : List InsnWord) : UnassignedTogether (decodeDiv f ext) (decodeDiv f ext') := by
  unfold decodeDiv
  dsimp only
  split
  · exact Iff.rfl
  · split
    · exact .of_not nofun nofun
    · split
      · exact .of_not nofun nofun
      · exact Iff.rfl
  · split
    · exact .of_not nofun nofun
    · split
      · exact .of_not nofun nofun
      · exact Iff.rfl
  · exact Iff.rfl

theorem together_load (f : Fields) (ext ext' : List InsnWord) : UnassignedTogether (decodeLoad f ext) (decodeLoad f ext') := by
  unfold decodeLoad
  dsimp only
  split
  · exact Iff.rfl
  · refine .of_not (rejectIf_assigned (by decide) ?_) (rejectIf_assigned (by decide) ?_) <;> split <;>
      first | exact disp11_assigned _ _ _ _ fun _ => nofun | exact disp6_assigned _ _ _ fun _ => nofun

theorem together_loadm (f : Fields) (ext ext' : List InsnWord) : UnassignedTogether (decodeLoadm f ext) (decodeLoadm f ext') := by
  unfold decodeLoadm
  dsimp only
  split
  · exact Iff.rfl
  · refine .of_not ?_ ?_ <;> split <;>
      first | exact disp11_assigned _ _ _ _ fun _ => nofun | exact disp6_assigned _ _ _ fun _ => nofun

theorem store_assigned (f : Fields) (ext : List InsnWord) : decodeStore f ext ≠ .reject .unassigned := by
  unfold decodeStore
  dsimp only
  refine rejectIf_assigned (by decide) ?_
  split
  · exact storeImm_assigned _ _ fun _ => destination_assigned _ _ _ (fun _ _ => nofun) fun _ => nofun
  · exact destination_assigned _ _ _ (fun _ _ => nofun) fun _ => nofun

theorem together_storem (f : Fields) (ext ext' : List InsnWord) : UnassignedTogether (decodeStorem f ext) (decodeStorem f ext') := by
  unfold decodeStorem
  dsimp only
  split
  · exact Iff.rfl
  · exact .of_not (destination_assigned _ _ _ (fun _ _ => nofun) fun _ => nofun)
      (destination_assigned _ _ _ (fun _ _ => nofun) fun _ => nofun)

theorem together_pea (strict : Bool) (f : Fields) (ext ext' : List InsnWord) :
    UnassignedTogether (decodePea strict f ext) (decodePea strict f ext') := by
  have hk : ∀ e, decodeDestination f e 0
      (fun md d => .ofOption .unsupportedSize ((PushSize.ofCode f.sz).map fun sz => .pea sz md f.rb d))
      (fun d => .ofOption .unsupportedSize ((PushSize.ofCode f.sz).map fun sz => .peaX sz f.rb f.hi d)) ≠ .reject .unassigned :=
    fun e => destination_assigned _ _ _ (fun _ _ => ofOption_assigned (by decide) _) fun _ => ofOption_assigned (by decide) _
  unfold decodePea
  split
  · exact Iff.rfl
  · exact together_rejectIf (.of_not (hk _) (hk _))

theorem together_jump (strict : Bool) (f : Fields) (ext ext' : List InsnWord) :
    UnassignedTogether (decodeJump strict f ext) (decodeJump strict f ext') := by
  unfold decodeJump
  dsimp only
  split
  · exact Iff.rfl
  · refine together_rejectIf (together_rejectIf (together_rejectIf ?_))
    split <;> exact together_forms ext ext'

/-- Whether a first word is unassigned does not depend on the words after it (R118). -/
theorem unassigned_together (strict : Bool) (w : InsnWord) (ext ext' : List InsnWord) :
    UnassignedTogether (decodeWord strict w ext) (decodeWord strict w ext') := by
  unfold decodeWord
  dsimp only
  split
  case h_3 => exact together_csr _ _ _
  case h_4 =>
    unfold decodeCompare; dsimp only
    split <;> exact together_forms ext ext'
  case h_5 =>
    unfold decodeAdd; dsimp only
    split <;> exact together_forms ext ext'
  case h_6 => exact together_forms ext ext'
  case h_7 =>
    unfold decodeMul; dsimp only
    split <;> exact together_forms ext ext'
  case h_8 => exact together_div _ _ _
  case h_9 =>
    unfold decodeAnd; dsimp only
    split
    · exact Iff.rfl
    · exact together_forms ext ext'
  case h_10 =>
    unfold decodeOr; dsimp only
    split
    · exact Iff.rfl
    · exact together_forms ext ext'
  case h_11 =>
    unfold decodeEor; dsimp only
    split
    · exact Iff.rfl
    · exact together_forms ext ext'
  case h_15 => exact together_load _ _ _
  case h_16 => exact together_loadm _ _ _
  case h_17 => exact .of_not (store_assigned _ _) (store_assigned _ _)
  case h_18 => exact together_storem _ _ _
  case h_23 => exact together_jump _ _ _ _
  case h_25 => exact together_pea _ _ _ _
  all_goals exact Iff.rfl

/-- A word that decodes with some words after it is not unassigned. -/
theorem assigned_of_instr {strict : Bool} {w : InsnWord} {ext : List InsnWord} {i : Instr} (ext' : List InsnWord)
    (h : decodeWord strict w ext = .instr i) : decodeWord strict w ext' ≠ .reject .unassigned := fun e => by
  rw [(unassigned_together strict w ext' ext).1 e] at h; cases h

end Sys2Proof
end

