-- ==== Sys2Proof/Laws/Exceptions.lean ====
section
/-! SUPPORT. Taking an exception, when its accesses succeed: the state after the pushes, in closed form. -/

namespace Sys2Proof.Machine

@[simp] theorem enterSupervisor_supervisor (s : State) : s.enterSupervisor.supervisor = true := by
  simp [State.supervisor, srS]

@[simp] theorem enterSupervisor_sp (s : State) : s.enterSupervisor.x 31#5 = s.ssp := by
  simp [State.x]

theorem sysVectorAddr_eq (s : State) (v : SysVector) : s.sysVectorAddr v = systemEntryAddress s v := by
  unfold State.sysVectorAddr systemEntryAddress
  congr 1
  apply BitVec.eq_of_toNat_eq
  have := v.isLt
  simp only [BitVec.toNat_shiftLeft, BitVec.toNat_setWidth, BitVec.toNat_ofNat, Nat.shiftLeft_eq]
  omega

theorem appVectorAddr_eq (s : State) (v : AppVector) : s.appVectorAddr v = appEntryAddress s v := by
  unfold State.appVectorAddr appEntryAddress
  congr 1
  apply BitVec.eq_of_toNat_eq
  have := v.isLt
  simp only [BitVec.toNat_shiftLeft, BitVec.toNat_setWidth, BitVec.toNat_ofNat, Nat.shiftLeft_eq]
  omega

theorem systemEntryAddress_congr {s t : State} (h : t.vb = s.vb) (v : SysVector) :
    systemEntryAddress t v = systemEntryAddress s v := by simp [systemEntryAddress, h]

theorem appEntryAddress_congr {s t : State} (h : t.ac = s.ac) (v : AppVector) :
    appEntryAddress t v = appEntryAddress s v := by simp [appEntryAddress, h]

/-- A push at an address that is known, in a state with the parameters of `s`. -/
theorem push8_at {s t : State} {a : Word} (v : Word) (hp : t.params = s.params) (ha : t.x 31#5 - 8#64 = a)
    (h : CanAccess s .write a 8) : push8 v t = .ok () (t.pushed v) :=
  push8_of_can v ((canAccess_congr hp _ _ _).2 (ha ▸ h))

theorem push8_at_not {s t : State} {a : Word} (v : Word) (hp : t.params = s.params) (ha : t.x 31#5 - 8#64 = a)
    (h : ¬ CanAccess s .write a 8) : push8 v t = .raise (faultVector t a 8) t := by
  rw [push8_of_not v (fun hc => h (ha ▸ (canAccess_congr hp _ _ _).1 hc)), ha]

theorem faultVector_congr {s t : State} (h : t.params = s.params) (a : Word) (n : Nat) :
    faultVector t a n = faultVector s a n := by simp [faultVector, h]

/-- The state after the first, the second and the third push of system exception entry (R313). -/
def State.sysPushed1 (ret : Word) (s : State) : State := s.enterSupervisor.pushed ret
def State.sysPushed2 (ret : Word) (s : State) : State := (s.sysPushed1 ret).pushed (s.ccrg.setWidth 64)
def State.sysPushed (ret : Word) (s : State) : State := (s.sysPushed2 ret).pushed (s.sr.setWidth 64)

@[simp] theorem sysPushed1_sp (ret : Word) (s : State) : (s.sysPushed1 ret).x 31#5 = s.ssp - 8#64 := by
  simp [State.sysPushed1]
@[simp] theorem sysPushed2_sp (ret : Word) (s : State) : (s.sysPushed2 ret).x 31#5 = s.ssp - 16#64 := by
  simp [State.sysPushed2, BitVec.sub_sub]
@[simp] theorem sysPushed_sp (ret : Word) (s : State) : (s.sysPushed ret).x 31#5 = s.ssp - 24#64 := by
  simp [State.sysPushed, BitVec.sub_sub]

section fields
variable (ret : Word) (s : State)
@[simp] theorem sysPushed1_params : (s.sysPushed1 ret).params = s.params := by simp [State.sysPushed1]
@[simp] theorem sysPushed2_params : (s.sysPushed2 ret).params = s.params := by simp [State.sysPushed2]
@[simp] theorem sysPushed_params : (s.sysPushed ret).params = s.params := by simp [State.sysPushed]
@[simp] theorem sysPushed1_ccrg : (s.sysPushed1 ret).ccrg = s.ccrg := by simp [State.sysPushed1]
@[simp] theorem sysPushed2_ccrg : (s.sysPushed2 ret).ccrg = s.ccrg := by simp [State.sysPushed2]
@[simp] theorem sysPushed_ccrg : (s.sysPushed ret).ccrg = s.ccrg := by simp [State.sysPushed]
@[simp] theorem sysPushed1_vb : (s.sysPushed1 ret).vb = s.vb := by simp [State.sysPushed1]
@[simp] theorem sysPushed2_vb : (s.sysPushed2 ret).vb = s.vb := by simp [State.sysPushed2]
@[simp] theorem sysPushed_vb : (s.sysPushed ret).vb = s.vb := by simp [State.sysPushed]
@[simp] theorem sysPushed_pc : (s.sysPushed ret).pc = s.pc := by simp [State.sysPushed, State.sysPushed2, State.sysPushed1]
@[simp] theorem sysPushed_lc : (s.sysPushed ret).lc = s.lc := by simp [State.sysPushed, State.sysPushed2, State.sysPushed1]
@[simp] theorem sysPushed_ac : (s.sysPushed ret).ac = s.ac := by simp [State.sysPushed, State.sysPushed2, State.sysPushed1]
@[simp] theorem sysPushed_sr : (s.sysPushed ret).sr = s.sr ||| srS := by
  simp [State.sysPushed, State.sysPushed2, State.sysPushed1]
@[simp] theorem sysPushed_stuck : (s.sysPushed ret).stuck = s.stuck := by
  simp [State.sysPushed, State.sysPushed2, State.sysPushed1]
@[simp] theorem sysPushed_irq : (s.sysPushed ret).irq = s.irq := by
  simp [State.sysPushed, State.sysPushed2, State.sysPushed1]
@[simp] theorem sysPushed_gpr : (s.sysPushed ret).gpr = s.gpr := by
  simp [State.sysPushed, State.sysPushed2, State.sysPushed1]
theorem sysPushed1_supervisor : (s.sysPushed1 ret).supervisor = true := by simp [State.sysPushed1]
theorem sysPushed2_supervisor : (s.sysPushed2 ret).supervisor = true := by
  simp [State.sysPushed2, sysPushed1_supervisor]
@[simp] theorem sysPushed_supervisor : (s.sysPushed ret).supervisor = true := by
  simp [State.sysPushed, sysPushed2_supervisor]
@[simp] theorem sysPushed_usp : (s.sysPushed ret).usp = s.usp := by
  rw [State.sysPushed, pushed_usp _ _ (sysPushed2_supervisor ret s), State.sysPushed2,
    pushed_usp _ _ (sysPushed1_supervisor ret s), State.sysPushed1, pushed_usp _ _ (enterSupervisor_supervisor s)]
  rfl
@[simp] theorem sysPushed_ssp : (s.sysPushed ret).ssp = s.ssp - 24#64 := by
  rw [← sysPushed_sp ret s, State.x, if_neg (by decide), if_pos rfl, sysPushed_supervisor]; rfl
end fields

theorem sysPush_first {s : State} (ret : Word) (h : CanAccess s .write (s.ssp - 8#64) 8) :
    push8 ret s.enterSupervisor = .ok () (s.sysPushed1 ret) := push8_at ret rfl (by simp) h

theorem sysPush_second {s : State} (ret : Word) (h : CanAccess s .write (s.ssp - 16#64) 8) :
    push8 (s.ccrg.setWidth 64) (s.sysPushed1 ret) = .ok () (s.sysPushed2 ret) :=
  push8_at _ (sysPushed1_params ret s) (by simp [BitVec.sub_sub]) h

theorem sysPush_third {s : State} (ret : Word) (h : CanAccess s .write (s.ssp - 24#64) 8) :
    push8 (s.sr.setWidth 64) (s.sysPushed2 ret) = .ok () (s.sysPushed ret) :=
  push8_at _ (sysPushed2_params ret s) (by simp [BitVec.sub_sub]) h

/-- System exception entry whose accesses succeed (R313). -/
theorem sysException_of_can {v : SysVector} {s : State} (ret : Word) (h : CanEnterSystem v s) :
    sysException v ret s = (s.sysPushed ret).jump ((s.sysPushed ret).mem.readLE (systemEntryAddress s v) 8) := by
  obtain ⟨h1, h2, h3, h4⟩ := h
  have e4 : memRead ((s.sysPushed ret).sysVectorAddr v) 8 (s.sysPushed ret) =
      .ok ((s.sysPushed ret).mem.readLE (systemEntryAddress s v) 8) (s.sysPushed ret) := by
    rw [sysVectorAddr_eq, systemEntryAddress_congr (sysPushed_vb ret s) v]
    exact memRead_of_can ((canAccess_congr (sysPushed_params ret s) _ _ _).2 h4)
  unfold sysException sysFrame
  simp only [sysPush_first ret h1, sysPush_second ret h2, sysPush_third ret h3, e4, Act.andThen, sysPushed1_ccrg]

/-- System exception entry one of whose accesses fails leaves the machine stuck (R328). -/
theorem sysException_of_not {v : SysVector} {s : State} (ret : Word) (h : ¬ CanEnterSystem v s) :
    (sysException v ret s).stuck = true := by
  unfold sysException sysFrame
  by_cases h1 : CanAccess s .write (s.ssp - 8#64) 8
  swap
  · simp only [push8_at_not ret (t := s.enterSupervisor) (s := s) rfl (by simp) h1, Act.andThen]
  by_cases h2 : CanAccess s .write (s.ssp - 16#64) 8
  swap
  · simp only [sysPush_first ret h1, sysPushed1_ccrg, Act.andThen, push8_at_not (s.ccrg.setWidth 64) (t := s.sysPushed1 ret) (s := s)
      (sysPushed1_params ret s) (by simp [BitVec.sub_sub]) h2]
  by_cases h3 : CanAccess s .write (s.ssp - 24#64) 8
  swap
  · simp only [sysPush_first ret h1, sysPushed1_ccrg, sysPush_second ret h2, Act.andThen,
      push8_at_not (s.sr.setWidth 64) (t := s.sysPushed2 ret) (s := s) (sysPushed2_params ret s) (by simp [BitVec.sub_sub]) h3]
  have e4 : memRead ((s.sysPushed ret).sysVectorAddr v) 8 (s.sysPushed ret) =
      .raise (faultVector (s.sysPushed ret) (systemEntryAddress s v) 8) (s.sysPushed ret) := by
    rw [sysVectorAddr_eq, systemEntryAddress_congr (sysPushed_vb ret s) v]
    exact memRead_of_not fun hc => h ⟨h1, h2, h3, (canAccess_congr (sysPushed_params ret s) _ _ _).1 hc⟩
  simp only [sysPush_first ret h1, sysPushed1_ccrg, sysPush_second ret h2, sysPush_third ret h3, e4, Act.andThen]

/-- The state after the two pushes of application exception entry (R314). -/
def State.appPushed (ret : Word) (s : State) : State := (s.pushed ret).pushed (s.ccrg.setWidth 64)

theorem appPush_second {s : State} (ret : Word) (h : CanAccess s .write (s.x 31#5 - 16#64) 8) :
    push8 (s.ccrg.setWidth 64) (s.pushed ret) = .ok () (s.appPushed ret) :=
  push8_at _ (pushed_params ret s) (by simp [BitVec.sub_sub]) h

/-- Application exception entry whose accesses succeed (R314). -/
theorem appException_of_can {v : AppVector} {s : State} (ret : Word) (h : CanEnterApp v s) :
    appException v ret s = (s.appPushed ret).jump ((s.appPushed ret).mem.readLE (appEntryAddress s v) 8) := by
  obtain ⟨h1, h2, h3⟩ := h
  have hp : (s.appPushed ret).params = s.params := by simp [State.appPushed]
  have e3 : memRead ((s.appPushed ret).appVectorAddr v) 8 (s.appPushed ret) =
      .ok ((s.appPushed ret).mem.readLE (appEntryAddress s v) 8) (s.appPushed ret) := by
    rw [appVectorAddr_eq, appEntryAddress_congr (t := s.appPushed ret) (s := s) (by simp [State.appPushed]) v]
    exact memRead_of_can ((canAccess_congr hp _ _ _).2 h3)
  unfold appException appFrame
  simp only [push8_of_can ret h1, pushed_ccrg, appPush_second ret h2, e3, Act.andThen]

theorem sysPushed1_mem_wf (ret : Word) {s : State} (h : s.mem.wf = true) : (s.sysPushed1 ret).mem.wf = true := pushed_wf _ h
theorem sysPushed2_mem_wf (ret : Word) {s : State} (h : s.mem.wf = true) : (s.sysPushed2 ret).mem.wf = true := pushed_wf _ (sysPushed1_mem_wf ret h)

/-- The bytes of the frame of system exception entry (R313). -/
theorem sysPushed_block (ret : Word) (s : State) : StoresBlock (s.ssp - 24#64) 24 s (s.sysPushed ret) := by
  have b1 := (pushed_block ret s.enterSupervisor).of_eq (s' := s) (t' := s.sysPushed1 ret) rfl rfl rfl rfl
  have b2 := pushed_block (s.ccrg.setWidth 64) (s.sysPushed1 ret)
  have b3 := pushed_block (s.sr.setWidth 64) (s.sysPushed2 ret)
  rw [enterSupervisor_sp] at b1
  rw [sysPushed1_sp] at b2
  rw [sysPushed2_sp] at b3
  have e2 : s.ssp - 8#64 = (s.ssp - 16#64) + BitVec.ofNat 64 8 := by bv_omega
  have e3 : s.ssp - 16#64 = (s.ssp - 24#64) + BitVec.ofNat 64 8 := by bv_omega
  have e2' : s.ssp - 8#64 - 8#64 = s.ssp - 16#64 := by bv_omega
  have e3' : s.ssp - 16#64 - 8#64 = s.ssp - 24#64 := by bv_omega
  rw [e2'] at b2
  rw [e3'] at b3
  rw [e2] at b1
  have b12 := b1.trans_below b2
  rw [e3] at b12
  exact b12.trans_below b3

/-- The frame of system exception entry: old SR, CCRG, PC (R313). -/
theorem sysPushed_reads (ret : Word) {s : State} (h : s.mem.wf = true) :
    (s.sysPushed ret).mem.readLE (s.ssp - 24#64) 8 = s.sr.setWidth 64 ∧
    (s.sysPushed ret).mem.readLE (s.ssp - 16#64) 8 = s.ccrg.setWidth 64 ∧
    (s.sysPushed ret).mem.readLE (s.ssp - 8#64) 8 = ret := by
  refine ⟨?_, ?_, ?_⟩
  · have := pushed_top (s.sr.setWidth 64) (s.sysPushed2 ret) (sysPushed2_mem_wf ret h)
    rwa [sysPushed2_sp, show s.ssp - 16#64 - 8#64 = s.ssp - 24#64 by bv_omega] at this
  · have h1 := pushed_top (s.ccrg.setWidth 64) (s.sysPushed1 ret) (sysPushed1_mem_wf ret h)
    have h2 := pushed_above (s.sr.setWidth 64) (s.sysPushed2 ret) (d := 0) (by omega)
    rw [sysPushed1_sp, show s.ssp - 8#64 - 8#64 = s.ssp - 16#64 by bv_omega] at h1
    rw [sysPushed2_sp, show s.ssp - 16#64 + BitVec.ofNat 64 0 = s.ssp - 16#64 by bv_omega] at h2
    exact h2.trans h1
  · have h1 := pushed_top ret s.enterSupervisor (by simpa using h)
    have h2 := pushed_above (s.ccrg.setWidth 64) (s.sysPushed1 ret) (d := 0) (by omega)
    have h3 := pushed_above (s.sr.setWidth 64) (s.sysPushed2 ret) (d := 8) (by omega)
    rw [enterSupervisor_sp] at h1
    rw [sysPushed1_sp, show s.ssp - 8#64 + BitVec.ofNat 64 0 = s.ssp - 8#64 by bv_omega] at h2
    rw [sysPushed2_sp, show s.ssp - 16#64 + BitVec.ofNat 64 8 = s.ssp - 8#64 by bv_omega] at h3
    exact (h3.trans h2).trans h1


/-- A push changes no register but the stack pointer. -/
theorem keeps_pushed (v : Word) (s : State) : KeepsRest [31#5] [] s (s.pushed v) where
  x i h := by
    by_cases h0 : i = 31#5
    · subst h0; rcases h with h | h
      · simp at h
      · simp at h
    · exact pushed_x_other v s h0
  otherSp := by
    unfold State.otherSp
    rw [pushed_supervisor]
    cases hs : s.supervisor
    · simpa using pushed_ssp v s hs
    · simpa using pushed_usp v s hs
  cr n _ := by simp [State.cr]
  sr := by simp
  lc := by simp
  ac := by simp
  vb := by simp
  stuck := by simp
  irq := by simp
  params := by simp

/-- What two changes keep. -/
theorem KeepsRest.trans {a : List Reg} {b : List CReg} {s t u : State} (h1 : KeepsRest a b s t) (h2 : KeepsRest a b t u) : KeepsRest a b s u :=
  ⟨fun i h => (h2.x i h).trans (h1.x i h), h2.otherSp.trans h1.otherSp, fun n h => (h2.cr n h).trans (h1.cr n h),
   h2.sr.trans h1.sr, h2.lc.trans h1.lc, h2.ac.trans h1.ac, h2.vb.trans h1.vb, h2.stuck.trans h1.stuck, h2.irq.trans h1.irq,
   h2.params.trans h1.params⟩
theorem KeepsRest.jump {a : List Reg} {b : List CReg} {s t : State} (h1 : KeepsRest a b s t) (p : Word) : KeepsRest a b s (t.jump p) :=
  ⟨fun i h => by simpa using (h1.x i h), by simpa [State.otherSp, State.supervisor] using h1.otherSp,
   fun n h => by simpa [State.cr] using (h1.cr n h),
   h1.sr, h1.lc, h1.ac, h1.vb, h1.stuck, h1.irq, h1.params⟩

/-- What the two pushes of application exception entry leave (R314). -/
theorem appPushed_facts (ret : Word) (s : State) (h : s.mem.wf = true) :
    (s.appPushed ret).x 31#5 = s.x 31#5 - 16#64 ∧
    (s.appPushed ret).mem.readLE (s.x 31#5 - 16#64) 8 = s.ccrg.setWidth 64 ∧
    (s.appPushed ret).mem.readLE (s.x 31#5 - 8#64) 8 = ret ∧
    StoresBlock (s.x 31#5 - 16#64) 16 s (s.appPushed ret) ∧
    KeepsRest [31#5] [] s (s.appPushed ret) := by
  have h1 := pushed_top ret s h
  have h2 := pushed_top (s.ccrg.setWidth 64) (s.pushed ret) (pushed_wf _ h)
  have h3 := pushed_above (s.ccrg.setWidth 64) (s.pushed ret) (d := 0) (by omega)
  have b1 := pushed_block ret s
  have b2 := pushed_block (s.ccrg.setWidth 64) (s.pushed ret)
  rw [pushed_sp, show s.x 31#5 - 8#64 - 8#64 = s.x 31#5 - 16#64 by bv_omega] at h2 b2
  rw [pushed_sp, show s.x 31#5 - 8#64 + BitVec.ofNat 64 0 = s.x 31#5 - 8#64 by bv_omega] at h3
  refine ⟨?_, h2, h3.trans h1, ?_, (keeps_pushed ret s).trans (keeps_pushed _ _)⟩
  · simp [State.appPushed, BitVec.sub_sub]
  · rw [show s.x 31#5 - 8#64 = (s.x 31#5 - 16#64) + BitVec.ofNat 64 8 by bv_omega] at b1
    exact b1.trans_below b2


end Sys2Proof.Machine
end

