-- ==== Sys2Proof/Laws/Fetch.lean ====
section
/-! SUPPORT. Fetching the words that stand at the program counter (`spec/20_memory.md` R65, R74), and one step. -/

namespace Sys2Proof.Machine

/-- A word is fetched where it lies below 2^64, the platform allows it, and no byte of it was stored since reset unless the
fetch is coherent. -/
theorem fetchWord_of_can {s : State} {k : Nat} (h1 : s.pc.toNat + 4 * k + 4 ≤ 2 ^ 64)
    (h2 : memOk s.params.map (s.pcNext k) 4 .fetch = true)
    (h3 : s.params.ifetchCoherent = true ∨ ∀ b, InBlock (s.pcNext k) 4 b → s.stored.has b = false) :
    fetchWord s k = .ok ((s.mem.readLE (s.pcNext k) 4).setWidth 32) := by
  have hc : (!s.params.ifetchCoherent && s.stored.hasRange (s.pcNext k) 4) = false := by
    rcases h3 with h | h
    · simp [h]
    · have : s.stored.hasRange (s.pcNext k) 4 = false := by
        rw [Bool.eq_false_iff]
        intro hb
        obtain ⟨b, hb1, hb2⟩ := (AddrSet.hasRange_iff _ _ _).1 hb
        rw [h b hb1] at hb2; cases hb2
      simp [this]
  unfold fetchWord
  rw [if_neg (by omega), if_neg (by simp [h2]), hc]
  rfl

theorem fetchWord_busError {s : State} {k : Nat} (h1 : s.pc.toNat + 4 * k + 4 ≤ 2 ^ 64)
    (h2 : memOk s.params.map (s.pcNext k) 4 .fetch = false) : fetchWord s k = .error (.raise vecBusError) := by
  unfold fetchWord
  rw [if_neg (by omega), if_pos h2]

/-- Each of the words at the program counter is fetched. -/
theorem fetchWord_of_code {s : State} {ws : List InsnWord} (h : CodeAt s ws) {k : Nat} (hk : k < ws.length) :
    fetchWord s k = .ok ws[k] := by
  obtain ⟨_, h2, h3⟩ := h
  obtain ⟨a, b, c⟩ := h3 k hk
  rw [fetchWord_of_can (by omega) a b]
  exact congrArg Except.ok c

/-- The words from the k-th on. -/
theorem fetchWords_of_code {s : State} {ws : List InsnWord} (h : CodeAt s ws) (n k : Nat) (hk : k + n ≤ ws.length) :
    fetchWords s k n = .ok ((ws.drop k).take n) := by
  induction n generalizing k with
  | zero => simp [fetchWords]
  | succ n ih =>
    have hd : ws.drop k = ws[k] :: ws.drop (k + 1) := List.drop_eq_getElem_cons (by omega)
    unfold fetchWords
    rw [fetchWord_of_code h (by omega), ih (k + 1) (by omega), hd, List.take_succ_cons]

/-- A word that reaches past the top of memory is refused. -/
theorem fetchWord_pastTop {s : State} {k : Nat} (h : 2 ^ 64 < s.pc.toNat + 4 * k + 4) :
    fetchWord s k = .error (.refuse .pastTopOfMemory) := if_pos h

/-- A word with a byte stored since reset is refused, where the fetch is allowed and not coherent with stores. -/
theorem fetchWord_stored {s : State} {k : Nat} (h1 : s.pc.toNat + 4 * k + 4 ≤ 2 ^ 64)
    (h2 : memOk s.params.map (s.pcNext k) 4 .fetch = true) (h3 : s.params.ifetchCoherent = false)
    (h4 : ∃ b, InBlock (s.pcNext k) 4 b ∧ s.stored.has b = true) : fetchWord s k = .error (.refuse .fetchOfStoredByte) := by
  unfold fetchWord
  rw [if_neg (by omega), if_neg (by simp [h2]), if_pos (by simp [h3, (AddrSet.hasRange_iff ..).2 h4])]

/-- Where the words up to one can be fetched and that one cannot, the fetch of them all ends as that word's. -/
theorem fetchWords_error {s : State} {ws : List InsnWord} {e : FetchStop} (h : CodeAt s ws) (he : fetchWord s ws.length = .error e)
    (n k : Nat) (hk : k ≤ ws.length) (hn : ws.length < k + n) : fetchWords s k n = .error e := by
  induction n generalizing k with
  | zero => omega
  | succ n ih =>
    unfold fetchWords
    by_cases hl : k = ws.length
    · subst hl
      rw [he]
    · rw [fetchWord_of_code h (by omega), ih (k + 1) (by omega) (by omega)]

theorem extWordsToFetch_assigned {strict : Bool} {w : InsnWord} (h : decodeWord strict w [] ≠ .reject .unassigned) :
    extWordsToFetch strict w = extWordsOf w := if_neg h

/-- The instruction whose words stand at the program counter is fetched and decoded. -/
theorem fetchInstr_of_code {s : State} {w : InsnWord} {ext : List InsnWord} (h : CodeAt s (w :: ext))
    (hl : ext.length = extWordsToFetch s.params.strictReserved w) :
    fetchInstr s = match decodeWord s.params.strictReserved w ext with
      | .instr i => .ok i
      | .reject r => .error (rejectStop r) := by
  have h0 := fetchWord_of_code h (k := 0) (by simp)
  have h1 := fetchWords_of_code h ext.length 1 (by simp; omega)
  simp only [List.getElem_cons_zero] at h0
  simp only [List.drop_succ_cons, List.drop_zero, List.take_length] at h1
  unfold fetchInstr
  rw [if_neg (by simpa using h.1), h0]
  cases hd : decodeWord s.params.strictReserved w ext <;> simp only [← hl, h1, hd]

/-- Where an extension word of the instruction at the program counter cannot be fetched, neither can the instruction. -/
theorem fetchInstr_error {s : State} {w : InsnWord} {ext : List InsnWord} {e : FetchStop} (h : CodeAt s (w :: ext))
    (hl : ext.length < extWordsToFetch s.params.strictReserved w) (he : fetchWord s (ext.length + 1) = .error e) :
    fetchInstr s = .error e := by
  have h0 := fetchWord_of_code h (k := 0) (by simp)
  simp only [List.getElem_cons_zero] at h0
  unfold fetchInstr
  rw [if_neg (by simpa using h.1), h0]
  dsimp only
  rw [fetchWords_error h he _ 1 (by simp) (by simp only [List.length_cons]; omega)]

/-- A step that is neither stopped nor interrupted nor refused runs the instruction at the program counter (R326). -/
theorem step_of_runs {s : State} (h : RunsInstruction s) :
    step s = match fetchInstr s.nextBoundary with
      | .ok i => exec i s.nextBoundary
      | .error (.raise v) => .next (sysException v s.pc s.nextBoundary)
      | .error (.refuse r) => .refused r := by
  obtain ⟨h1, h2, h3, h4⟩ := h
  have hi : s.interruptAccepted = false := by simp [State.interruptAccepted]; exact h2
  unfold step cycle
  rw [if_neg (by simp [h1]), if_neg (by simp [hi])]
  unfold runInstr
  have e1 : s.nextBoundary.trace = false := h3
  have e2 : s.nextBoundary.near = false := h4
  rw [if_neg (by simp [e1]), if_neg (by simp [e2])]
  rfl

theorem CodeAt.nextBoundary {s : State} {ws : List InsnWord} (h : CodeAt s ws) : CodeAt s.nextBoundary ws := h

end Sys2Proof.Machine
end

