-- ==== Sys2Proof/Laws/PerInstr.lean ====
section
/-! SUPPORT. The family `EncodeLength`, instruction by instruction: the encoder writes a first word and exactly the extension
words that the first word calls for (`spec/30_encoding.md` R96, R120). -/

namespace Sys2Proof.Laws

/-- An instruction that is well formed is encoded in a first word and as many extension words as the length rule R120 reads
from it. -/
def EncodeLength.Statement (i : Instr) : Prop :=
  i.wellFormed = true → ∃ w ext, encode i = w :: ext ∧ ext.length = extWordsOf w

theorem EncodeLength.brk :
    EncodeLength.Statement (.brk) :=
  fun _ => ⟨_, _, rfl, by decide⟩

theorem EncodeLength.trapReg (data : BitVec 11) (rt ra : Reg) :
    EncodeLength.Statement (.trapReg data rt ra) :=
  fun _ => ⟨_, _, rfl, extWords_none rfl⟩

theorem EncodeLength.trapImm (num : BitVec 8) (data : BitVec 11) (rt : Reg) :
    EncodeLength.Statement (.trapImm num data rt) :=
  fun _ => ⟨_, _, rfl, extWords_none rfl⟩

theorem EncodeLength.trapv (cr : CReg) (data : BitVec 11) (rt : Reg) :
    EncodeLength.Statement (.trapv cr data rt) :=
  fun _ => ⟨_, _, rfl, extWords_none rfl⟩

theorem EncodeLength.atrapReg (data : BitVec 11) (rt ra : Reg) :
    EncodeLength.Statement (.atrapReg data rt ra) :=
  fun _ => ⟨_, _, rfl, extWords_none rfl⟩

theorem EncodeLength.atrapImm (num : BitVec 5) (data : BitVec 11) (rt : Reg) :
    EncodeLength.Statement (.atrapImm num data rt) :=
  fun _ => ⟨_, _, rfl, extWords_none rfl⟩

theorem EncodeLength.swap (ct : CReg) (sz : HalfSize) (rt ra : Reg) :
    EncodeLength.Statement (.swap ct sz rt ra) :=
  fun _ => ⟨_, _, rfl, extWords_none rfl⟩

theorem EncodeLength.abs (sz : Size) (rt rb : Reg) :
    EncodeLength.Statement (.abs sz rt rb) :=
  fun _ => ⟨_, _, rfl, extWords_abs rfl⟩

theorem EncodeLength.moveFromCsr (csr : CsrNum) (rb : Reg) :
    EncodeLength.Statement (.moveFromCsr csr rb) :=
  fun h => ⟨_, _, rfl, extWords_csr rfl (by rw [csrWords h, high_7_3])⟩

theorem EncodeLength.moveToCsr (csr : CsrNum) (rb : Reg) :
    EncodeLength.Statement (.moveToCsr csr rb) :=
  fun h => ⟨_, _, rfl, extWords_csr rfl (by rw [csrWords h, high_7_3])⟩

theorem EncodeLength.orCsr (csr : CsrNum) (rb : Reg) :
    EncodeLength.Statement (.orCsr csr rb) :=
  fun h => ⟨_, _, rfl, extWords_csr rfl (by rw [csrWords h, high_7_3])⟩

theorem EncodeLength.andcCsr (csr : CsrNum) (rb : Reg) :
    EncodeLength.Statement (.andcCsr csr rb) :=
  fun h => ⟨_, _, rfl, extWords_csr rfl (by rw [csrWords h, high_7_3])⟩

theorem EncodeLength.eorCsr (csr : CsrNum) (rb : Reg) :
    EncodeLength.Statement (.eorCsr csr rb) :=
  fun h => ⟨_, _, rfl, extWords_csr rfl (by rw [csrWords h, high_7_3])⟩

theorem EncodeLength.cmpRR (ct : CReg) (sz : Size) (ra rb : Reg) :
    EncodeLength.Statement (.cmpRR ct sz ra rb) :=
  fun _ => ⟨_, _, rfl, extWords_reg rfl rfl⟩

theorem EncodeLength.cmpI32 (ct : CReg) (sz : Size) (ra : Reg) (swap : Bool) (imm : BitVec 32) :
    EncodeLength.Statement (.cmpI32 ct sz ra swap imm) :=
  fun _ => ⟨_, _, rfl, extWords_imm32 rfl rfl rfl⟩

theorem EncodeLength.cmpI64 (ct : CReg) (sz : Size) (ra : Reg) (swap : Bool) (imm : BitVec 64) :
    EncodeLength.Statement (.cmpI64 ct sz ra swap imm) :=
  fun _ => ⟨_, _, rfl, extWords_imm64 rfl rfl rfl⟩

theorem EncodeLength.cmpI10 (ct : CReg) (sz : Size) (ra : Reg) (swap : Bool) (imm : BitVec 10) :
    EncodeLength.Statement (.cmpI10 ct sz ra swap imm) :=
  fun h => ⟨_, _, rfl, extWords_imm10 h rfl rfl rfl⟩

theorem EncodeLength.fcmpRR (ct : CReg) (sz : Size) (ra rb : Reg) :
    EncodeLength.Statement (.fcmpRR ct sz ra rb) :=
  fun _ => ⟨_, _, rfl, extWords_reg rfl rfl⟩

theorem EncodeLength.fcmpI32 (ct : CReg) (sz : Size) (ra : Reg) (swap : Bool) (imm : BitVec 32) :
    EncodeLength.Statement (.fcmpI32 ct sz ra swap imm) :=
  fun _ => ⟨_, _, rfl, extWords_imm32 rfl rfl rfl⟩

theorem EncodeLength.fcmpI64 (ct : CReg) (sz : Size) (ra : Reg) (swap : Bool) (imm : BitVec 64) :
    EncodeLength.Statement (.fcmpI64 ct sz ra swap imm) :=
  fun _ => ⟨_, _, rfl, extWords_imm64 rfl rfl rfl⟩

theorem EncodeLength.fcmpI10 (ct : CReg) (sz : Size) (ra : Reg) (swap : Bool) (imm : BitVec 10) :
    EncodeLength.Statement (.fcmpI10 ct sz ra swap imm) :=
  fun h => ⟨_, _, rfl, extWords_imm10 h rfl rfl rfl⟩

theorem EncodeLength.adcRR (ct : CReg) (sz : Size) (rt ra : Reg) (rb : Reg) :
    EncodeLength.Statement (.adcRR ct sz rt ra rb) :=
  fun _ => ⟨_, _, rfl, extWords_reg rfl rfl⟩

theorem EncodeLength.adcI32 (ct : CReg) (sz : Size) (rt ra : Reg) (imm : BitVec 32) :
    EncodeLength.Statement (.adcI32 ct sz rt ra imm) :=
  fun _ => ⟨_, _, rfl, extWords_imm32 rfl rfl rfl⟩

theorem EncodeLength.adcI64 (ct : CReg) (sz : Size) (rt ra : Reg) (imm : BitVec 64) :
    EncodeLength.Statement (.adcI64 ct sz rt ra imm) :=
  fun _ => ⟨_, _, rfl, extWords_imm64 rfl rfl rfl⟩

theorem EncodeLength.adcI10 (ct : CReg) (sz : Size) (rt ra : Reg) (imm : BitVec 10) :
    EncodeLength.Statement (.adcI10 ct sz rt ra imm) :=
  fun h => ⟨_, _, rfl, extWords_imm10 h rfl rfl rfl⟩

theorem EncodeLength.addRR (ct : CReg) (sz : Size) (rt ra : Reg) (rb : Reg) :
    EncodeLength.Statement (.addRR ct sz rt ra rb) :=
  fun _ => ⟨_, _, rfl, extWords_reg rfl rfl⟩

theorem EncodeLength.addI32 (ct : CReg) (sz : Size) (rt ra : Reg) (imm : BitVec 32) :
    EncodeLength.Statement (.addI32 ct sz rt ra imm) :=
  fun _ => ⟨_, _, rfl, extWords_imm32 rfl rfl rfl⟩

theorem EncodeLength.addI64 (ct : CReg) (sz : Size) (rt ra : Reg) (imm : BitVec 64) :
    EncodeLength.Statement (.addI64 ct sz rt ra imm) :=
  fun _ => ⟨_, _, rfl, extWords_imm64 rfl rfl rfl⟩

theorem EncodeLength.addI10 (ct : CReg) (sz : Size) (rt ra : Reg) (imm : BitVec 10) :
    EncodeLength.Statement (.addI10 ct sz rt ra imm) :=
  fun h => ⟨_, _, rfl, extWords_imm10 h rfl rfl rfl⟩

theorem EncodeLength.subRR (ct : CReg) (sz : Size) (rt ra : Reg) (rb : Reg) :
    EncodeLength.Statement (.subRR ct sz rt ra rb) :=
  fun _ => ⟨_, _, rfl, extWords_reg rfl rfl⟩

theorem EncodeLength.subI32 (ct : CReg) (sz : Size) (rt ra : Reg) (swap : Bool) (imm : BitVec 32) :
    EncodeLength.Statement (.subI32 ct sz rt ra swap imm) :=
  fun _ => ⟨_, _, rfl, extWords_imm32 rfl rfl rfl⟩

theorem EncodeLength.subI64 (ct : CReg) (sz : Size) (rt ra : Reg) (swap : Bool) (imm : BitVec 64) :
    EncodeLength.Statement (.subI64 ct sz rt ra swap imm) :=
  fun _ => ⟨_, _, rfl, extWords_imm64 rfl rfl rfl⟩

theorem EncodeLength.subI10 (ct : CReg) (sz : Size) (rt ra : Reg) (swap : Bool) (imm : BitVec 10) :
    EncodeLength.Statement (.subI10 ct sz rt ra swap imm) :=
  fun h => ⟨_, _, rfl, extWords_imm10 h rfl rfl rfl⟩

theorem EncodeLength.mulsRR (ct : CReg) (sz : Size) (rt ra : Reg) (rb rp : Reg) :
    EncodeLength.Statement (.mulsRR ct sz rt ra rb rp) :=
  fun _ => ⟨_, _, rfl, extWords_reg rfl rfl⟩

theorem EncodeLength.mulsI32 (ct : CReg) (sz : Size) (rt ra : Reg) (imm : BitVec 32) :
    EncodeLength.Statement (.mulsI32 ct sz rt ra imm) :=
  fun _ => ⟨_, _, rfl, extWords_imm32 rfl rfl rfl⟩

theorem EncodeLength.mulsI64 (ct : CReg) (sz : Size) (rt ra : Reg) (imm : BitVec 64) :
    EncodeLength.Statement (.mulsI64 ct sz rt ra imm) :=
  fun _ => ⟨_, _, rfl, extWords_imm64 rfl rfl rfl⟩

theorem EncodeLength.mulsI10 (ct : CReg) (sz : Size) (rt ra : Reg) (imm : BitVec 10) :
    EncodeLength.Statement (.mulsI10 ct sz rt ra imm) :=
  fun h => ⟨_, _, rfl, extWords_imm10 h rfl rfl rfl⟩

theorem EncodeLength.muluRR (ct : CReg) (sz : Size) (rt ra : Reg) (rb rp : Reg) :
    EncodeLength.Statement (.muluRR ct sz rt ra rb rp) :=
  fun _ => ⟨_, _, rfl, extWords_reg rfl rfl⟩

theorem EncodeLength.muluI32 (ct : CReg) (sz : Size) (rt ra : Reg) (imm : BitVec 32) :
    EncodeLength.Statement (.muluI32 ct sz rt ra imm) :=
  fun _ => ⟨_, _, rfl, extWords_imm32 rfl rfl rfl⟩

theorem EncodeLength.muluI64 (ct : CReg) (sz : Size) (rt ra : Reg) (imm : BitVec 64) :
    EncodeLength.Statement (.muluI64 ct sz rt ra imm) :=
  fun _ => ⟨_, _, rfl, extWords_imm64 rfl rfl rfl⟩

theorem EncodeLength.muluI10 (ct : CReg) (sz : Size) (rt ra : Reg) (imm : BitVec 10) :
    EncodeLength.Statement (.muluI10 ct sz rt ra imm) :=
  fun h => ⟨_, _, rfl, extWords_imm10 h rfl rfl rfl⟩

theorem EncodeLength.divuRR (ct : CReg) (sz : Size) (rt ra : Reg) (rb rr : Reg) :
    EncodeLength.Statement (.divuRR ct sz rt ra rb rr) :=
  fun _ => ⟨_, _, rfl, extWords_reg rfl rfl⟩

theorem EncodeLength.divuI32 (ct : CReg) (sz : Size) (rt ra : Reg) (swap : Bool) (imm : BitVec 32) :
    EncodeLength.Statement (.divuI32 ct sz rt ra swap imm) :=
  fun _ => ⟨_, _, rfl, extWords_imm32 rfl rfl rfl⟩

theorem EncodeLength.divuI64 (ct : CReg) (sz : Size) (rt ra : Reg) (swap : Bool) (imm : BitVec 64) :
    EncodeLength.Statement (.divuI64 ct sz rt ra swap imm) :=
  fun _ => ⟨_, _, rfl, extWords_imm64 rfl rfl rfl⟩

theorem EncodeLength.divsRR (ct : CReg) (sz : Size) (rt ra : Reg) (rb rr : Reg) :
    EncodeLength.Statement (.divsRR ct sz rt ra rb rr) :=
  fun _ => ⟨_, _, rfl, extWords_reg rfl rfl⟩

theorem EncodeLength.divsI32 (ct : CReg) (sz : Size) (rt ra : Reg) (swap : Bool) (imm : BitVec 32) :
    EncodeLength.Statement (.divsI32 ct sz rt ra swap imm) :=
  fun _ => ⟨_, _, rfl, extWords_imm32 rfl rfl rfl⟩

theorem EncodeLength.divsI64 (ct : CReg) (sz : Size) (rt ra : Reg) (swap : Bool) (imm : BitVec 64) :
    EncodeLength.Statement (.divsI64 ct sz rt ra swap imm) :=
  fun _ => ⟨_, _, rfl, extWords_imm64 rfl rfl rfl⟩

theorem EncodeLength.divsI10 (ct : CReg) (sz : Size) (rt ra : Reg) (swap : Bool) (imm : BitVec 10) :
    EncodeLength.Statement (.divsI10 ct sz rt ra swap imm) :=
  fun h => ⟨_, _, rfl, extWords_imm10 h rfl rfl rfl⟩

theorem EncodeLength.andRR (ct : CReg) (sz : Size) (rt ra : Reg) (rb : Reg) :
    EncodeLength.Statement (.andRR ct sz rt ra rb) :=
  fun _ => ⟨_, _, rfl, extWords_reg rfl rfl⟩

theorem EncodeLength.andI32 (ct : CReg) (sz : Size) (rt ra : Reg) (imm : BitVec 32) :
    EncodeLength.Statement (.andI32 ct sz rt ra imm) :=
  fun _ => ⟨_, _, rfl, extWords_imm32 rfl rfl rfl⟩

theorem EncodeLength.andI64 (ct : CReg) (sz : Size) (rt ra : Reg) (imm : BitVec 64) :
    EncodeLength.Statement (.andI64 ct sz rt ra imm) :=
  fun _ => ⟨_, _, rfl, extWords_imm64 rfl rfl rfl⟩

theorem EncodeLength.andI10 (ct : CReg) (sz : Size) (rt ra : Reg) (imm : BitVec 10) :
    EncodeLength.Statement (.andI10 ct sz rt ra imm) :=
  fun h => ⟨_, _, rfl, extWords_imm10 h rfl rfl rfl⟩

theorem EncodeLength.orRR (ct : CReg) (sz : Size) (rt ra : Reg) (rb : Reg) :
    EncodeLength.Statement (.orRR ct sz rt ra rb) :=
  fun _ => ⟨_, _, rfl, extWords_reg rfl rfl⟩

theorem EncodeLength.orI32 (ct : CReg) (sz : Size) (rt ra : Reg) (imm : BitVec 32) :
    EncodeLength.Statement (.orI32 ct sz rt ra imm) :=
  fun _ => ⟨_, _, rfl, extWords_imm32 rfl rfl rfl⟩

theorem EncodeLength.orI64 (ct : CReg) (sz : Size) (rt ra : Reg) (imm : BitVec 64) :
    EncodeLength.Statement (.orI64 ct sz rt ra imm) :=
  fun _ => ⟨_, _, rfl, extWords_imm64 rfl rfl rfl⟩

theorem EncodeLength.orI10 (ct : CReg) (sz : Size) (rt ra : Reg) (imm : BitVec 10) :
    EncodeLength.Statement (.orI10 ct sz rt ra imm) :=
  fun h => ⟨_, _, rfl, extWords_imm10 h rfl rfl rfl⟩

theorem EncodeLength.eorRR (ct : CReg) (sz : Size) (rt ra : Reg) (rb : Reg) :
    EncodeLength.Statement (.eorRR ct sz rt ra rb) :=
  fun _ => ⟨_, _, rfl, extWords_reg rfl rfl⟩

theorem EncodeLength.eorI32 (ct : CReg) (sz : Size) (rt ra : Reg) (imm : BitVec 32) :
    EncodeLength.Statement (.eorI32 ct sz rt ra imm) :=
  fun _ => ⟨_, _, rfl, extWords_imm32 rfl rfl rfl⟩

theorem EncodeLength.eorI64 (ct : CReg) (sz : Size) (rt ra : Reg) (imm : BitVec 64) :
    EncodeLength.Statement (.eorI64 ct sz rt ra imm) :=
  fun _ => ⟨_, _, rfl, extWords_imm64 rfl rfl rfl⟩

theorem EncodeLength.eorI10 (ct : CReg) (sz : Size) (rt ra : Reg) (imm : BitVec 10) :
    EncodeLength.Statement (.eorI10 ct sz rt ra imm) :=
  fun h => ⟨_, _, rfl, extWords_imm10 h rfl rfl rfl⟩

theorem EncodeLength.bclrReg (ct : CReg) (sz : Size) (rt ra rb : Reg) :
    EncodeLength.Statement (.bclrReg ct sz rt ra rb) :=
  fun _ => ⟨_, _, rfl, extWords_none rfl⟩

theorem EncodeLength.bclrImm (ct : CReg) (sz : Size) (rt ra : Reg) (imm : BitVec 7) :
    EncodeLength.Statement (.bclrImm ct sz rt ra imm) :=
  fun _ => ⟨_, _, rfl, extWords_none rfl⟩

theorem EncodeLength.bsetReg (ct : CReg) (sz : Size) (rt ra rb : Reg) :
    EncodeLength.Statement (.bsetReg ct sz rt ra rb) :=
  fun _ => ⟨_, _, rfl, extWords_none rfl⟩

theorem EncodeLength.bsetImm (ct : CReg) (sz : Size) (rt ra : Reg) (imm : BitVec 7) :
    EncodeLength.Statement (.bsetImm ct sz rt ra imm) :=
  fun _ => ⟨_, _, rfl, extWords_none rfl⟩

theorem EncodeLength.bchgReg (ct : CReg) (sz : Size) (rt ra rb : Reg) :
    EncodeLength.Statement (.bchgReg ct sz rt ra rb) :=
  fun _ => ⟨_, _, rfl, extWords_none rfl⟩

theorem EncodeLength.bchgImm (ct : CReg) (sz : Size) (rt ra : Reg) (imm : BitVec 7) :
    EncodeLength.Statement (.bchgImm ct sz rt ra imm) :=
  fun _ => ⟨_, _, rfl, extWords_none rfl⟩

theorem EncodeLength.btstReg (ct : CReg) (sz : Size) (ra rb : Reg) :
    EncodeLength.Statement (.btstReg ct sz ra rb) :=
  fun _ => ⟨_, _, rfl, extWords_none rfl⟩

theorem EncodeLength.btstImm (ct : CReg) (sz : Size) (ra : Reg) (imm : BitVec 7) :
    EncodeLength.Statement (.btstImm ct sz ra imm) :=
  fun _ => ⟨_, _, rfl, extWords_none rfl⟩

theorem EncodeLength.bpclrReg (ct : CReg) (sz : Size) (rt ra rb : Reg) :
    EncodeLength.Statement (.bpclrReg ct sz rt ra rb) :=
  fun _ => ⟨_, _, rfl, extWords_none rfl⟩

theorem EncodeLength.bpclrImm (ct : CReg) (sz : Size) (rt ra : Reg) (imm : BitVec 7) :
    EncodeLength.Statement (.bpclrImm ct sz rt ra imm) :=
  fun _ => ⟨_, _, rfl, extWords_none rfl⟩

theorem EncodeLength.bpchgReg (ct : CReg) (sz : Size) (rt ra rb : Reg) :
    EncodeLength.Statement (.bpchgReg ct sz rt ra rb) :=
  fun _ => ⟨_, _, rfl, extWords_none rfl⟩

theorem EncodeLength.bpchgImm (ct : CReg) (sz : Size) (rt ra : Reg) (imm : BitVec 7) :
    EncodeLength.Statement (.bpchgImm ct sz rt ra imm) :=
  fun _ => ⟨_, _, rfl, extWords_none rfl⟩

theorem EncodeLength.bptstReg (ct : CReg) (sz : Size) (ra rb : Reg) :
    EncodeLength.Statement (.bptstReg ct sz ra rb) :=
  fun _ => ⟨_, _, rfl, extWords_none rfl⟩

theorem EncodeLength.bptstImm (ct : CReg) (sz : Size) (ra : Reg) (imm : BitVec 7) :
    EncodeLength.Statement (.bptstImm ct sz ra imm) :=
  fun _ => ⟨_, _, rfl, extWords_none rfl⟩

theorem EncodeLength.aslReg (ct : CReg) (sz : Size) (fill : Bool) (rt ra rb : Reg) :
    EncodeLength.Statement (.aslReg ct sz fill rt ra rb) :=
  fun _ => ⟨_, _, rfl, extWords_none rfl⟩

theorem EncodeLength.aslImm (ct : CReg) (sz : Size) (fill : Bool) (rt ra : Reg) (imm : BitVec 6) :
    EncodeLength.Statement (.aslImm ct sz fill rt ra imm) :=
  fun _ => ⟨_, _, rfl, extWords_none rfl⟩

theorem EncodeLength.asrReg (ct : CReg) (sz : Size) (rt ra rb : Reg) :
    EncodeLength.Statement (.asrReg ct sz rt ra rb) :=
  fun _ => ⟨_, _, rfl, extWords_none rfl⟩

theorem EncodeLength.asrImm (ct : CReg) (sz : Size) (rt ra : Reg) (imm : BitVec 6) :
    EncodeLength.Statement (.asrImm ct sz rt ra imm) :=
  fun _ => ⟨_, _, rfl, extWords_none rfl⟩

theorem EncodeLength.lslReg (ct : CReg) (sz : Size) (fill : Bool) (rt ra rb : Reg) :
    EncodeLength.Statement (.lslReg ct sz fill rt ra rb) :=
  fun _ => ⟨_, _, rfl, extWords_none rfl⟩

theorem EncodeLength.lslImm (ct : CReg) (sz : Size) (fill : Bool) (rt ra : Reg) (imm : BitVec 6) :
    EncodeLength.Statement (.lslImm ct sz fill rt ra imm) :=
  fun _ => ⟨_, _, rfl, extWords_none rfl⟩

theorem EncodeLength.lsrReg (ct : CReg) (sz : Size) (fill : Bool) (rt ra rb : Reg) :
    EncodeLength.Statement (.lsrReg ct sz fill rt ra rb) :=
  fun _ => ⟨_, _, rfl, extWords_none rfl⟩

theorem EncodeLength.lsrImm (ct : CReg) (sz : Size) (fill : Bool) (rt ra : Reg) (imm : BitVec 6) :
    EncodeLength.Statement (.lsrImm ct sz fill rt ra imm) :=
  fun _ => ⟨_, _, rfl, extWords_none rfl⟩

theorem EncodeLength.rolReg (ct : CReg) (sz : Size) (fill : Bool) (rt ra rb : Reg) :
    EncodeLength.Statement (.rolReg ct sz fill rt ra rb) :=
  fun _ => ⟨_, _, rfl, extWords_none rfl⟩

theorem EncodeLength.rolImm (ct : CReg) (sz : Size) (fill : Bool) (rt ra : Reg) (imm : BitVec 6) :
    EncodeLength.Statement (.rolImm ct sz fill rt ra imm) :=
  fun _ => ⟨_, _, rfl, extWords_none rfl⟩

theorem EncodeLength.rolcReg (ct : CReg) (sz : Size) (fill : Bool) (rt ra rb : Reg) :
    EncodeLength.Statement (.rolcReg ct sz fill rt ra rb) :=
  fun _ => ⟨_, _, rfl, extWords_none rfl⟩

theorem EncodeLength.rolcImm (ct : CReg) (sz : Size) (fill : Bool) (rt ra : Reg) (imm : BitVec 6) :
    EncodeLength.Statement (.rolcImm ct sz fill rt ra imm) :=
  fun _ => ⟨_, _, rfl, extWords_none rfl⟩

theorem EncodeLength.rorReg (ct : CReg) (sz : Size) (fill : Bool) (rt ra rb : Reg) :
    EncodeLength.Statement (.rorReg ct sz fill rt ra rb) :=
  fun _ => ⟨_, _, rfl, extWords_none rfl⟩

theorem EncodeLength.rorImm (ct : CReg) (sz : Size) (fill : Bool) (rt ra : Reg) (imm : BitVec 6) :
    EncodeLength.Statement (.rorImm ct sz fill rt ra imm) :=
  fun _ => ⟨_, _, rfl, extWords_none rfl⟩

theorem EncodeLength.rorcReg (ct : CReg) (sz : Size) (fill : Bool) (rt ra rb : Reg) :
    EncodeLength.Statement (.rorcReg ct sz fill rt ra rb) :=
  fun _ => ⟨_, _, rfl, extWords_none rfl⟩

theorem EncodeLength.rorcImm (ct : CReg) (sz : Size) (fill : Bool) (rt ra : Reg) (imm : BitVec 6) :
    EncodeLength.Statement (.rorcImm ct sz fill rt ra imm) :=
  fun _ => ⟨_, _, rfl, extWords_none rfl⟩

theorem EncodeLength.rts (arg : BitVec 10) (rpt : BitVec 5) :
    EncodeLength.Statement (.rts arg rpt) :=
  fun _ => ⟨_, _, rfl, extWords_none rfl⟩

theorem EncodeLength.rti (arg : BitVec 10) (rpt : BitVec 5) :
    EncodeLength.Statement (.rti arg rpt) :=
  fun _ => ⟨_, _, rfl, extWords_none rfl⟩

theorem EncodeLength.arti (arg : BitVec 10) (rpt : BitVec 5) :
    EncodeLength.Statement (.arti arg rpt) :=
  fun _ => ⟨_, _, rfl, extWords_none rfl⟩

theorem EncodeLength.loadX (sz : Size) (rt rb rc : Reg) (d : Disp 6) :
    EncodeLength.Statement (.loadX sz rt rb rc d) :=
  fun h => ⟨_, _, rfl, by rw [extWords_load rfl, loadDispWords_index h rfl rfl, Disp.words_length]⟩

theorem EncodeLength.load (sz : Size) (md : UpdMode) (rt rb : Reg) (d : Disp 11) :
    EncodeLength.Statement (.load sz md rt rb d) :=
  fun h => ⟨_, _, rfl, by rw [extWords_load rfl, loadDispWords_reg md h rfl rfl rfl, Disp.words_length]⟩

theorem EncodeLength.loadmX (sz : Size) (skip : Bool) (list : BitVec 32) (special : BitVec 5) (rb rc : Reg) (d : Disp 6) :
    EncodeLength.Statement (.loadmX sz skip list special rb rc d) :=
  fun h => ⟨_, _, rfl, by
    rw [extWords_loadm rfl, loadDispWords_index h rfl rfl, List.length_cons, Disp.words_length, Nat.add_comm]⟩

theorem EncodeLength.loadm (sz : Size) (md : UpdMode) (skip : Bool) (list : BitVec 32) (special : BitVec 5) (rb : Reg) (d : Disp 11) :
    EncodeLength.Statement (.loadm sz md skip list special rb d) :=
  fun h => ⟨_, _, rfl, by
    rw [extWords_loadm rfl, loadDispWords_reg md h rfl rfl rfl, List.length_cons, Disp.words_length, Nat.add_comm]⟩

theorem EncodeLength.pushT (ra : Reg) :
    EncodeLength.Statement (.pushT ra) :=
  fun _ => ⟨_, _, rfl, by
    rw [extWords_store rfl, storeImmWords_reg rfl]; simp [storeDispWords]⟩

theorem EncodeLength.pushO (ra : Reg) :
    EncodeLength.Statement (.pushO ra) :=
  fun _ => ⟨_, _, rfl, by
    rw [extWords_store rfl, storeImmWords_reg rfl]; simp [storeDispWords]⟩

theorem EncodeLength.storeX (sz : Size) (ra rb rc : Reg) (d : Disp 5) :
    EncodeLength.Statement (.storeX sz ra rb rc d) :=
  fun h => ⟨_, _, rfl, by
    rw [extWords_store rfl, storeImmWords_reg rfl, storeDispWords_index h rfl rfl, Disp.words_length, Nat.zero_add]⟩

theorem EncodeLength.store (sz : Size) (md : UpdMode) (ra rb : Reg) (d : Disp 10) :
    EncodeLength.Statement (.store sz md ra rb d) :=
  fun h => ⟨_, _, rfl, by
    rw [extWords_store rfl, storeImmWords_reg rfl, storeDispWords_reg md (Bool.and_eq_true_iff.1 h).1 rfl rfl rfl,
      Disp.words_length, Nat.zero_add]⟩

theorem EncodeLength.storeImmX (sz : Size) (imm : StoreImm) (rb rc : Reg) (d : Disp 5) :
    EncodeLength.Statement (.storeImmX sz imm rb rc d) :=
  fun h => ⟨_, _, rfl, by
    rw [extWords_store rfl, storeImmWords_imm (Bool.and_eq_true_iff.1 h).1 rfl rfl,
      storeDispWords_index (Bool.and_eq_true_iff.1 h).2 rfl rfl, List.length_append, StoreImm.words_length, Disp.words_length]⟩

theorem EncodeLength.storeImm (sz : Size) (md : UpdMode) (imm : StoreImm) (rb : Reg) (d : Disp 10) :
    EncodeLength.Statement (.storeImm sz md imm rb d) :=
  fun h => ⟨_, _, rfl, by
    rw [extWords_store rfl, storeImmWords_imm (Bool.and_eq_true_iff.1 h).1 rfl rfl,
      storeDispWords_reg md (Bool.and_eq_true_iff.1 h).2 rfl rfl rfl, List.length_append, StoreImm.words_length,
      Disp.words_length]⟩

theorem EncodeLength.storemX (sz : Size) (skip : Bool) (list : BitVec 32) (special : BitVec 5) (rb rc : Reg) (d : Disp 5) :
    EncodeLength.Statement (.storemX sz skip list special rb rc d) :=
  fun h => ⟨_, _, rfl, by
    rw [extWords_storem rfl, storeDispWords_index h rfl rfl, List.length_cons, Disp.words_length, Nat.add_comm]⟩

theorem EncodeLength.storem (sz : Size) (md : UpdMode) (skip : Bool) (list : BitVec 32) (special : BitVec 5) (rb : Reg) (d : Disp 10) :
    EncodeLength.Statement (.storem sz md skip list special rb d) :=
  fun h => ⟨_, _, rfl, by
    rw [extWords_storem rfl, storeDispWords_reg md h rfl rfl rfl, List.length_cons, Disp.words_length, Nat.add_comm]⟩

theorem EncodeLength.peaX (sz : PushSize) (rb rc : Reg) (d : Disp 5) :
    EncodeLength.Statement (.peaX sz rb rc d) :=
  fun h => ⟨_, _, rfl, by rw [extWords_pea rfl, storeDispWords_index h rfl rfl, Disp.words_length]⟩

theorem EncodeLength.pea (sz : PushSize) (md : UpdMode) (rb : Reg) (d : Disp 10) :
    EncodeLength.Statement (.pea sz md rb d) :=
  fun h => ⟨_, _, rfl, by rw [extWords_pea rfl, storeDispWords_reg md h rfl rfl rfl, Disp.words_length]⟩

theorem EncodeLength.fma (bits : BitVec 27) :
    EncodeLength.Statement (.fma bits) :=
  fun _ => ⟨_, _, rfl, extWords_named (by decide)⟩

theorem EncodeLength.fms (bits : BitVec 27) :
    EncodeLength.Statement (.fms bits) :=
  fun _ => ⟨_, _, rfl, extWords_named (by decide)⟩

theorem EncodeLength.fnma (bits : BitVec 27) :
    EncodeLength.Statement (.fnma bits) :=
  fun _ => ⟨_, _, rfl, extWords_named (by decide)⟩

theorem EncodeLength.fnms (bits : BitVec 27) :
    EncodeLength.Statement (.fnms bits) :=
  fun _ => ⟨_, _, rfl, extWords_named (by decide)⟩

theorem EncodeLength.jmpReg (ra rb : Reg) :
    EncodeLength.Statement (.jmpReg ra rb) :=
  fun _ => ⟨_, _, rfl, extWords_reg rfl rfl⟩

theorem EncodeLength.jmpI32 (ra : Reg) (imm : BitVec 32) :
    EncodeLength.Statement (.jmpI32 ra imm) :=
  fun _ => ⟨_, _, rfl, extWords_imm32 rfl rfl rfl⟩

theorem EncodeLength.jmpI64 (ra : Reg) (imm : BitVec 64) :
    EncodeLength.Statement (.jmpI64 ra imm) :=
  fun _ => ⟨_, _, rfl, extWords_imm64 rfl rfl rfl⟩

theorem EncodeLength.jmpI10 (ra : Reg) (imm : BitVec 10) :
    EncodeLength.Statement (.jmpI10 ra imm) :=
  fun h => ⟨_, _, rfl, extWords_imm10 h rfl rfl rfl⟩

theorem EncodeLength.jsrReg (g : Bool) (ra rb : Reg) :
    EncodeLength.Statement (.jsrReg g ra rb) :=
  fun _ => ⟨_, _, rfl, extWords_reg rfl rfl⟩

theorem EncodeLength.jsrI32 (g : Bool) (ra : Reg) (imm : BitVec 32) :
    EncodeLength.Statement (.jsrI32 g ra imm) :=
  fun _ => ⟨_, _, rfl, extWords_imm32 rfl rfl rfl⟩

theorem EncodeLength.jsrI64 (g : Bool) (ra : Reg) (imm : BitVec 64) :
    EncodeLength.Statement (.jsrI64 g ra imm) :=
  fun _ => ⟨_, _, rfl, extWords_imm64 rfl rfl rfl⟩

theorem EncodeLength.jsrI10 (g : Bool) (ra : Reg) (imm : BitVec 10) :
    EncodeLength.Statement (.jsrI10 g ra imm) :=
  fun h => ⟨_, _, rfl, extWords_imm10 h rfl rfl rfl⟩

theorem EncodeLength.loadq (ct : CReg) (sz : Size) (rt : Reg) (imm : BitVec 17) :
    EncodeLength.Statement (.loadq ct sz rt imm) :=
  fun _ => ⟨_, _, rfl, extWords_none rfl⟩

theorem EncodeLength.bra (disp : BitVec 22) :
    EncodeLength.Statement (.bra disp) :=
  fun _ => ⟨_, _, rfl, extWords_bcc rfl⟩

theorem EncodeLength.bsr (disp : BitVec 22) :
    EncodeLength.Statement (.bsr disp) :=
  fun _ => ⟨_, _, rfl, extWords_bcc rfl⟩

theorem EncodeLength.bcc (cond : Cond) (cr : CReg) (disp : BitVec 19) :
    EncodeLength.Statement (.bcc cond cr disp) :=
  fun _ => ⟨_, _, rfl, extWords_bcc rfl⟩

theorem EncodeLength.dbcc (cond : Cond) (cr : CReg) (disp : BitVec 19) :
    EncodeLength.Statement (.dbcc cond cr disp) :=
  fun _ => ⟨_, _, rfl, extWords_dbcc rfl⟩

end Sys2Proof.Laws
end

