-- ==== Sys2Proof/Laws/UserMode.lean ====
section
/-! SUPPORT. What the shared operations can do in user mode: they leave SR, the system stack pointer and the vector base, or
they take a system exception. -/

namespace Sys2Proof.Machine

/-- A change that user mode may make. -/
structure UserKeeps (s t : State) : Prop where
  sr    : t.sr = s.sr
  ssp   : t.ssp = s.ssp
  stuck : t.stuck = s.stuck
  vb    : t.vb = s.vb
  wf    : s.mem.wf = true → t.mem.wf = true

/-- What a system exception from user mode leads to. -/
def EntersFromUser (s t : State) : Prop :=
  t.stuck = true ∨
  (t.supervisor = true ∧ t.ssp = s.ssp - 24#64 ∧ t.mem.readLE t.ssp 8 = s.sr.setWidth 64 ∧
    (∃ v : SysVector, t.pc = t.mem.readLE (systemEntryAddress s v) 8) ∧
    t.sr &&& ~~~0x00002700#32 = s.sr &&& ~~~0x00002700#32)

/-- A rule answers, from user mode, a state that it may change to or a system exception. -/
def UserSafe (s : State) (r : Result) : Prop := ∀ t, r = .next t → UserKeeps s t ∨ EntersFromUser s t

theorem UserKeeps.refl (s : State) : UserKeeps s s := ⟨rfl, rfl, rfl, rfl, id⟩

theorem UserKeeps.trans {s t u : State} (h : UserKeeps s t) (k : UserKeeps t u) : UserKeeps s u :=
  ⟨k.sr.trans h.sr, k.ssp.trans h.ssp, k.stuck.trans h.stuck, k.vb.trans h.vb, fun w => k.wf (h.wf w)⟩

theorem UserKeeps.supervisor {s t : State} (h : UserKeeps s t) : t.supervisor = s.supervisor :=
  State.supervisor_eq_of_sr s t h.sr

theorem EntersFromUser.of_keeps {s t u : State} (h : UserKeeps s t) (k : EntersFromUser t u) : EntersFromUser s u := by
  unfold EntersFromUser at *
  rwa [h.ssp, h.sr, show systemEntryAddress t = systemEntryAddress s from
    funext fun v => systemEntryAddress_congr h.vb v] at k

theorem UserSafe.of_keeps {s t : State} {r : Result} (h : UserKeeps s t) (k : UserSafe t r) : UserSafe s r := fun u hu =>
  (k u hu).imp (fun x => h.trans x) (fun x => .of_keeps h x)

theorem userSafe_refused (s : State) (r : Refusal) : UserSafe s (.refused r) := nofun

/-- A system exception (R313). -/
theorem sysException_enters (v : SysVector) (ret : Word) {s : State} (h : s.mem.wf = true) :
    EntersFromUser s (sysException v ret s) := by
  by_cases hc : CanEnterSystem v s
  · rw [sysException_of_can ret hc]
    refine .inr ⟨sysPushed_supervisor ret s, sysPushed_ssp ret s, ?_, ⟨v, rfl⟩, ?_⟩
    · simp only [State.jump_mem, State.jump_ssp, sysPushed_ssp]
      exact (sysPushed_reads ret h).1
    · simp only [State.jump_sr, sysPushed_sr, srS]
      rw [BitVec.and_comm, BitVec.and_or_distrib_left, BitVec.and_comm]
      simp
  · exact .inl (sysException_of_not ret hc)

theorem userSafe_sysException (v : SysVector) (ret : Word) {s : State} (h : s.mem.wf = true) :
    UserSafe s (.next (sysException v ret s)) := fun _ ht => by
  cases ht; exact .inr (sysException_enters v ret h)

theorem userKeeps_setX (i : Reg) (v : Word) {s : State} (h : s.supervisor = false) : UserKeeps s (s.setX i v) :=
  ⟨by simp, State.setX_ssp_of_user _ _ _ h, by simp, by simp, by simp⟩

theorem userKeeps_drawn (s : State) (n : Nat) : UserKeeps s (s.drawn n) := ⟨rfl, rfl, rfl, rfl, id⟩
theorem userKeeps_setCr (s : State) (n : CReg) (v : BitVec 4) : UserKeeps s (s.setCr n v) := ⟨rfl, rfl, rfl, rfl, id⟩
theorem userKeeps_jump (s : State) (a : Word) : UserKeeps s (s.jump a) := ⟨rfl, rfl, rfl, rfl, id⟩

theorem userKeeps_storeBytes (s : State) (a : Word) (n : Nat) (v : Word) : UserKeeps s (s.storeBytes a n v) :=
  ⟨rfl, rfl, rfl, rfl, fun h => Memory.wf_writeLE a n v h⟩

theorem userKeeps_wb {w : Nat} (i : Reg) (r : BitVec w) {s : State} (h : s.supervisor = false) : UserKeeps s (s.wb i r) := by
  unfold State.wb
  split
  · exact userKeeps_setX _ _ h
  · split <;> first
      | exact userKeeps_setX _ _ h
      | exact (userKeeps_setX _ _ h).trans (userKeeps_drawn _ _)

theorem userKeeps_writeFlags (s : State) (n : CReg) (m v : BitVec 4) : UserKeeps s (s.writeFlags n m v) := by
  obtain ⟨f, k, h, -⟩ := s.writeFlags_spec n m v
  rw [h]
  exact (userKeeps_setCr _ _ _).trans (userKeeps_drawn _ _)

theorem userSafe_advance {words : Nat} {s t : State} (h : UserKeeps s t) : UserSafe s (advance words t) := fun u hu => by
  rw [(advance_next.1 hu).2]
  exact .inl (h.trans (userKeeps_jump _ _))

theorem userSafe_jump {s t : State} (a : Word) (h : UserKeeps s t) : UserSafe s (.next (t.jump a)) := fun u hu => by
  cases hu; exact .inl (h.trans (userKeeps_jump _ _))

/-- Both ends of a rule that makes accesses are changes that user mode may make. -/
def Act.UserVia {α : Type} (s : State) : Act α → Prop
  | .ok _ t => UserKeeps s t
  | .raise _ t => UserKeeps s t

theorem Act.userVia_andThen {α β : Type} {s : State} {m : Act α} {k : α → State → Act β} (hm : m.UserVia s)
    (hk : ∀ a t, UserKeeps s t → (k a t).UserVia s) : (m.andThen k).UserVia s := by
  cases m with
  | raise v t => exact hm
  | ok a t => exact hk a t hm

theorem userVia_memRead (a : Word) (n : Nat) {s t : State} (h : UserKeeps s t) : (memRead a n t).UserVia s := by
  unfold memRead; split <;> exact h

theorem userVia_memWrite (a : Word) (n : Nat) (v : Word) {s t : State} (h : UserKeeps s t) : (memWrite a n v t).UserVia s := by
  unfold memWrite
  split
  · exact h
  · exact h.trans (userKeeps_storeBytes _ _ _ _)

theorem userVia_push8 (v : Word) {s t : State} (hs : s.supervisor = false) (h : UserKeeps s t) : (push8 v t).UserVia s :=
  Act.userVia_andThen (userVia_memWrite _ _ _ h) fun _ _ hu => hu.trans (userKeeps_setX _ _ (hu.supervisor.trans hs))

theorem userVia_pop8 {s t : State} (hs : s.supervisor = false) (h : UserKeeps s t) : (pop8 t).UserVia s :=
  Act.userVia_andThen (userVia_memRead _ _ h) fun _ _ hu => hu.trans (userKeeps_setX _ _ (hu.supervisor.trans hs))

/-- A rule that makes accesses, in user mode. -/
theorem userSafe_finish {α : Type} {s : State} {m : Act α} {k : α → State → Result} (hw : s.mem.wf = true) (hm : m.UserVia s)
    (hk : ∀ a u, UserKeeps s u → UserSafe s (k a u)) : UserSafe s (m.finish k) := fun t ht => by
  rcases Act.finish_next.1 ht with ⟨a, u, rfl, hu⟩ | ⟨v, u, rfl, rfl⟩
  · exact hk a u hm t hu
  · exact .inr (.of_keeps hm (sysException_enters v u.pc (hm.wf hw)))

/-- An application exception, in user mode (R314, R328). -/
theorem userSafe_appException (v : AppVector) (ret : Word) {s : State} (hw : s.mem.wf = true) (hs : s.supervisor = false) :
    UserSafe s (.next (appException v ret s)) := fun t ht => by
  cases ht
  have hf : (appFrame v ret s).UserVia s :=
    Act.userVia_andThen (userVia_push8 _ hs (UserKeeps.refl s)) fun _ _ h1 =>
      Act.userVia_andThen (userVia_push8 _ hs h1) fun _ _ h2 => userVia_memRead _ _ h2
  unfold appException
  split
  · next h => rw [h] at hf; exact .inl (UserKeeps.trans hf (userKeeps_jump _ _))
  · next h => rw [h] at hf; exact .inr (.of_keeps hf (sysException_enters _ _ (hf.wf hw)))

end Sys2Proof.Machine
end

