-- ==== Sys2Proof/Laws/Values.lean ====
section
/-! SUPPORT. Immediates and displacements as integers (`spec/30_encoding.md` R97, R105). -/

namespace Sys2Proof.Machine

/-- A sign extension is the pattern of the same integer. -/
theorem signExtend_eq_ofInt {n w : Nat} (h : n ≤ w) (i : BitVec n) : i.signExtend w = BitVec.ofInt w i.toInt := by
  apply BitVec.eq_of_toInt_eq
  rw [BitVec.toInt_signExtend_of_le h, BitVec.toInt_ofInt]
  exact (BitVec.toInt_signExtend_of_le h).symm.trans
    (by rw [← BitVec.toInt_signExtend_of_le h, BitVec.toInt_bmod_cancel])

/-- A cut of a pattern is the pattern of the same integer. -/
theorem setWidth_ofInt {m w : Nat} (h : w ≤ m) (i : Int) : (BitVec.ofInt m i).setWidth w = BitVec.ofInt w i := by
  apply BitVec.eq_of_toNat_eq
  have hd : ((2 ^ w : Nat) : Int) ∣ ((2 ^ m : Nat) : Int) := by exact_mod_cast Nat.pow_dvd_pow 2 h
  have hp : (0 : Int) < ((2 ^ m : Nat) : Int) := by positivity
  have hq : (0 : Int) < ((2 ^ w : Nat) : Int) := by positivity
  apply Int.ofNat.inj
  simp only [BitVec.toNat_setWidth, BitVec.toNat_ofInt, Int.ofNat_eq_natCast]
  push_cast
  rw [Int.toNat_of_nonneg (Int.emod_nonneg _ (by positivity)), Int.toNat_of_nonneg (Int.emod_nonneg _ (by positivity)),
    Int.emod_emod_of_dvd _ (by exact_mod_cast hd)]

theorem sizeBits_le (sz : Size) : sizeBits sz ≤ 64 := by cases sz <;> decide

/-- The immediates at the operand width (R97, R130). -/
theorem imm10_eq (sz : Size) (i : BitVec 10) : imm10 sz i = immediateAt (sizeBits sz) i := by
  unfold imm10 immediateAt
  rw [signExtend_eq_ofInt (by decide), setWidth_ofInt (sizeBits_le sz)]

theorem imm32_eq (sz : Size) (i : BitVec 32) : imm32 sz i = immediateAt (sizeBits sz) i := by
  unfold imm32 immediateAt
  rw [signExtend_eq_ofInt (by decide), setWidth_ofInt (sizeBits_le sz)]

theorem imm17_eq (sz : Size) (i : BitVec 17) : imm17 sz i = immediateAt (sizeBits sz) i := by
  unfold imm17 immediateAt
  rw [signExtend_eq_ofInt (by decide), setWidth_ofInt (sizeBits_le sz)]

theorem imm64_eq (sz : Size) (i : BitVec 64) : imm64 sz i = immediateAt (sizeBits sz) i := by
  unfold imm64 immediateAt
  rw [← setWidth_ofInt (sizeBits_le sz), BitVec.ofInt_toInt]

/-- A branch displacement is four times its field (R105). -/
theorem branchDisp_eq (d : BitVec 19) : branchDisp d = BitVec.ofInt 64 (4 * d.toInt) := by
  unfold branchDisp
  rw [signExtend_eq_ofInt (by decide)]
  congr 1
  rw [BitVec.toInt_eq_toNat_cond, BitVec.toInt_eq_toNat_cond, BitVec.toNat_append]
  have := d.isLt
  simp only [BitVec.toNat_ofNat, Nat.shiftLeft_eq, Nat.zero_mod, Nat.or_zero]
  omega

theorem longBranchDisp_eq (d : BitVec 22) : longBranchDisp d = BitVec.ofInt 64 (4 * d.toInt) := by
  unfold longBranchDisp
  rw [signExtend_eq_ofInt (by decide)]
  congr 1
  rw [BitVec.toInt_eq_toNat_cond, BitVec.toInt_eq_toNat_cond, BitVec.toNat_append]
  have := d.isLt
  simp only [BitVec.toNat_ofNat, Nat.shiftLeft_eq, Nat.zero_mod, Nat.or_zero]
  omega

/-- The two forms of a displacement that are sign-extended (R281). -/
theorem dispValue_short {n : Nat} (hn : n ≤ 64) (v : BitVec n) : dispValue (.short v) = BitVec.ofInt 64 v.toInt :=
  signExtend_eq_ofInt hn v

theorem dispValue_ext32 {n : Nat} (v : BitVec 32) : dispValue (.ext32 v : Disp n) = BitVec.ofInt 64 v.toInt :=
  signExtend_eq_ofInt (by decide) v

/-- Four times a field of a return (R239 to R241). -/
theorem shiftLeft2_eq {n : Nat} (hn : n ≤ 60) (a : BitVec n) : a.setWidth 64 <<< 2 = BitVec.ofNat 64 (4 * a.toNat) := by
  apply BitVec.eq_of_toNat_eq
  have h1 := a.isLt
  have h2 : 2 ^ n ≤ 2 ^ 60 := Nat.pow_le_pow_right (by decide) hn
  simp only [BitVec.toNat_shiftLeft, BitVec.toNat_setWidth, BitVec.toNat_ofNat, Nat.shiftLeft_eq]
  rw [Nat.mod_eq_of_lt (by omega : a.toNat < 2 ^ 64)]
  omega

end Sys2Proof.Machine
end

