-- ==== Sys2Proof/Tests/Slice0.lean ====
section
/-! SUPPORT. Tests: ill-formed terms, words of the spec's encodings, the spec's vectors (`spec/95_test_vectors.md`), and states
that meet the hypotheses of the obligations. -/

namespace Sys2Proof.Tests

open Sys2Proof Sys2Proof.Machine Sys2Proof.Claims

/-! ## Well-formedness: an ill-formed term for each check, and the well-formed one beside it -/

theorem test_wellFormed_imm10_escape :
    (Instr.addI10 0#3 .o 3#5 1#5 0b1000000000#10).wellFormed = false ∧ (Instr.addI10 0#3 .o 3#5 1#5 0b1000111111#10).wellFormed = false ∧
    (Instr.addI10 0#3 .o 3#5 1#5 0b1001000000#10).wellFormed = true := by decide

theorem test_wellFormed_disp11_escape :
    (Instr.load .o .indirect 1#5 2#5 (.short 0x400#11)).wellFormed = false ∧
    (Instr.load .o .indirect 1#5 2#5 (.short 0x417#11)).wellFormed = false ∧
    (Instr.load .o .indirect 1#5 2#5 (.short 0x418#11)).wellFormed = true := by decide

theorem test_wellFormed_disp10_escape :
    (Instr.store .o .indirect 1#5 2#5 (.short 0x200#10)).wellFormed = false ∧
    (Instr.store .o .indirect 1#5 2#5 (.short 0x20B#10)).wellFormed = false ∧
    (Instr.store .o .indirect 1#5 2#5 (.short 0x20C#10)).wellFormed = true := by decide

theorem test_wellFormed_disp6_escape :
    (Instr.loadX .o 1#5 2#5 3#5 (.short 32#6)).wellFormed = false ∧ (Instr.loadX .o 1#5 2#5 3#5 (.short 34#6)).wellFormed = false ∧
    (Instr.loadX .o 1#5 2#5 3#5 (.short 35#6)).wellFormed = true := by decide

theorem test_wellFormed_disp5_escape :
    (Instr.storeX .o 1#5 2#5 3#5 (.short 16#5)).wellFormed = false ∧ (Instr.peaX .o 2#5 3#5 (.short 18#5)).wellFormed = false ∧
    (Instr.storeX .o 1#5 2#5 3#5 (.short 19#5)).wellFormed = true := by decide

theorem test_wellFormed_storeImm_escape :
    (Instr.storeImm .o .indirect (.short 16#5) 2#5 (.short 0#10)).wellFormed = false ∧
    (Instr.storeImmX .o (.short 18#5) 2#5 3#5 (.short 0#5)).wellFormed = false ∧
    (Instr.storeImm .o .indirect (.short 15#5) 2#5 (.short 0#10)).wellFormed = true := by decide

theorem test_wellFormed_csr_zero_field :
    (Instr.moveFromCsr (.field 0#7) 1#5).wellFormed = false ∧ (Instr.moveFromCsr (.extended 0#32) 1#5).wellFormed = true := by decide

theorem test_wellFormed_brk_word :
    (Instr.trapReg 0#11 0#5 0#5).wellFormed = false ∧ (Instr.trapReg 1#11 0#5 0#5).wellFormed = true := by decide

theorem test_wellFormed_push_word :
    (Instr.store .o .preUpdate 5#5 31#5 (.short 0x3F8#10)).wellFormed = false ∧
    (Instr.store .t .preUpdate 5#5 31#5 (.short 0x3FC#10)).wellFormed = false ∧
    (Instr.store .w .preUpdate 5#5 31#5 (.short 0x3FC#10)).wellFormed = true := by decide

theorem test_wellFormed_bcc_condition :
    (Instr.bcc .ra 0#3 0#19).wellFormed = false ∧ (Instr.bcc .sr 0#3 0#19).wellFormed = false ∧
    (Instr.bcc .eq 0#3 0#19).wellFormed = true := by decide

/-! ## Decoding. The words are those of the spec's vectors, or, for an instruction that has none there, written out from the
figures of `spec/30_encoding.md` (R93 to R125). -/

theorem test_decode_traps :
    decodeWord true 0x00000000#32 [] = .instr (.brk) ∧
    decodeWord true 0x00242080#32 [] = .instr (.trapReg 9#11 1#5 2#5) ∧
    decodeWord true 0x01563080#32 [] = .instr (.trapImm 3#8 0x55#11 1#5) ∧
    decodeWord true 0x200BF240#32 [] = .instr (.trapv 1#3 2#11 4#5) ∧
    decodeWord true 0x001C20E0#32 [] = .instr (.atrapReg 7#11 1#5 2#5) ∧
    decodeWord true 0x048E50E0#32 [] = .instr (.atrapImm 5#5 0x123#11 1#5) := by
  decide

theorem test_decode_swap_abs :
    decodeWord true 0x004011C1#32 [] = .instr (.swap 0#3 .t 3#5 1#5) ∧
    decodeWord true 0x0440C3C1#32 [] = .instr (.abs .o 3#5 2#5) := by
  decide

theorem test_decode_csr :
    decodeWord true 0x002008C2#32 [] = .instr (.moveFromCsr (.field 1#7) 1#5) ∧
    decodeWord true 0x002009C2#32 [] = .instr (.moveToCsr (.field 1#7) 1#5) ∧
    decodeWord true 0x002012C2#32 [] = .instr (.orCsr (.field 2#7) 1#5) ∧
    decodeWord true 0x002013C2#32 [] = .instr (.andcCsr (.field 2#7) 1#5) ∧
    decodeWord true 0x00200CC2#32 [] = .instr (.eorCsr (.field 1#7) 1#5) := by
  decide

theorem test_decode_compare :
    decodeWord true 0x20081063#32 [] = .instr (.cmpRR 1#3 .o 1#5 2#5) ∧
    decodeWord true 0x50021043#32 [0xFFFFFFFF#32] = .instr (.cmpI32 2#3 .t 1#5 false 0xFFFFFFFF#32) ∧
    decodeWord true 0x31821003#32 [0x9ABCDEF0#32, 0x12345678#32] = .instr (.cmpI64 1#3 .b 1#5 true 0x123456789ABCDEF0#64) ∧
    decodeWord true 0x00161063#32 [] = .instr (.cmpI10 0#3 .o 1#5 false 5#10) ∧
    decodeWord true 0x400810E3#32 [] = .instr (.fcmpRR 2#3 .o 1#5 2#5) ∧
    decodeWord true 0x700290C3#32 [0xFFFFFFFE#32] = .instr (.fcmpI32 3#3 .t 9#5 false 0xFFFFFFFE#32) ∧
    decodeWord true 0x718290E3#32 [0x00000001#32, 0x00000002#32] = .instr (.fcmpI64 3#3 .o 9#5 true 0x0000000200000001#64) ∧
    decodeWord true 0x408E10E3#32 [] = .instr (.fcmpI10 2#3 .o 1#5 true 3#10) := by
  decide

theorem test_decode_add :
    decodeWord true 0x209032E4#32 [] = .instr (.adcRR 1#3 .o 5#5 3#5 4#5) ∧
    decodeWord true 0xF08232A4#32 [0x00000010#32] = .instr (.adcI32 7#3 .w 5#5 3#5 0x10#32) ∧
    decodeWord true 0xF18232E4#32 [0x00000010#32, 0x80000000#32] = .instr (.adcI64 7#3 .o 5#5 3#5 0x8000000000000010#64) ∧
    decodeWord true 0x008632C4#32 [] = .instr (.adcI10 0#3 .t 5#5 3#5 1#10) ∧
    decodeWord true 0x000811E4#32 [] = .instr (.addRR 0#3 .o 3#5 1#5 2#5) ∧
    decodeWord true 0x100211E4#32 [0x80000000#32] = .instr (.addI32 0#3 .o 3#5 1#5 0x80000000#32) ∧
    decodeWord true 0x110211E4#32 [0x9ABCDEF0#32, 0x12345678#32] = .instr (.addI64 0#3 .o 3#5 1#5 0x123456789ABCDEF0#64) ∧
    decodeWord true 0x1F7E10E4#32 [] = .instr (.addI10 0#3 .o 1#5 1#5 0x3FF#10) := by
  decide

theorem test_decode_sub :
    decodeWord true 0x000811E5#32 [] = .instr (.subRR 0#3 .o 3#5 1#5 2#5) ∧
    decodeWord true 0x90825245#32 [0x0000000A#32] = .instr (.subI32 4#3 .t 4#5 5#5 true 10#32) ∧
    decodeWord true 0x91025265#32 [0x0000000A#32, 0x0000000B#32] = .instr (.subI64 4#3 .o 4#5 5#5 false 0x0000000B0000000A#64) ∧
    decodeWord true 0x002A11E5#32 [] = .instr (.subI10 0#3 .o 3#5 1#5 false 10#10) := by
  decide

theorem test_decode_multiply :
    decodeWord true 0x040811E6#32 [] = .instr (.mulsRR 0#3 .o 3#5 1#5 2#5 4#5) ∧
    decodeWord true 0x100211E6#32 [0x00000007#32] = .instr (.mulsI32 0#3 .o 3#5 1#5 7#32) ∧
    decodeWord true 0x110211E6#32 [0x00000007#32, 0x00000008#32] = .instr (.mulsI64 0#3 .o 3#5 1#5 0x0000000800000007#64) ∧
    decodeWord true 0x1F6611E6#32 [] = .instr (.mulsI10 0#3 .o 3#5 1#5 0x3F9#10) ∧
    decodeWord true 0x048811E6#32 [] = .instr (.muluRR 0#3 .o 3#5 1#5 2#5 4#5) ∧
    decodeWord true 0x108211E6#32 [0x00000007#32] = .instr (.muluI32 0#3 .o 3#5 1#5 7#32) ∧
    decodeWord true 0x118211E6#32 [0x00000007#32, 0x00000008#32] = .instr (.muluI64 0#3 .o 3#5 1#5 0x0000000800000007#64) ∧
    decodeWord true 0x1FFE11E6#32 [] = .instr (.muluI10 0#3 .o 3#5 1#5 0x3FF#10) := by
  decide

theorem test_decode_divide :
    decodeWord true 0x048811E7#32 [] = .instr (.divuRR 0#3 .o 3#5 1#5 2#5 4#5) ∧
    decodeWord true 0x100611E7#32 [0x0000000A#32] = .instr (.divuI32 0#3 .o 3#5 1#5 false 10#32) ∧
    decodeWord true 0x118611E7#32 [0x00000007#32, 0x00000008#32] = .instr (.divuI64 0#3 .o 3#5 1#5 true 0x0000000800000007#64) ∧
    decodeWord true 0x040811E7#32 [] = .instr (.divsRR 0#3 .o 3#5 1#5 2#5 4#5) ∧
    decodeWord true 0x100211E7#32 [0x0000000A#32] = .instr (.divsI32 0#3 .o 3#5 1#5 false 10#32) ∧
    decodeWord true 0x110211E7#32 [0x00000007#32, 0x00000008#32] = .instr (.divsI64 0#3 .o 3#5 1#5 false 0x0000000800000007#64) ∧
    decodeWord true 0x00AA11E7#32 [] = .instr (.divsI10 0#3 .o 3#5 1#5 true 10#10) := by
  decide

theorem test_decode_logic :
    decodeWord true 0x000811E8#32 [] = .instr (.andRR 0#3 .o 3#5 1#5 2#5) ∧
    decodeWord true 0xB0021188#32 [0x000000F0#32] = .instr (.andI32 5#3 .b 3#5 1#5 0xF0#32) ∧
    decodeWord true 0xB10211E8#32 [0x000000F0#32, 0x0000000F#32] = .instr (.andI64 5#3 .o 3#5 1#5 0x0000000F000000F0#64) ∧
    decodeWord true 0x1F7A11E8#32 [] = .instr (.andI10 0#3 .o 3#5 1#5 0x3FE#10) ∧
    decodeWord true 0x000811E9#32 [] = .instr (.orRR 0#3 .o 3#5 1#5 2#5) ∧
    decodeWord true 0xB0021189#32 [0x000000F0#32] = .instr (.orI32 5#3 .b 3#5 1#5 0xF0#32) ∧
    decodeWord true 0xB10211E9#32 [0x000000F0#32, 0x0000000F#32] = .instr (.orI64 5#3 .o 3#5 1#5 0x0000000F000000F0#64) ∧
    decodeWord true 0x0A1A11E9#32 [] = .instr (.orI10 0#3 .o 3#5 1#5 0b0101000110#10) ∧
    decodeWord true 0x000811AA#32 [] = .instr (.eorRR 0#3 .w 3#5 1#5 2#5) ∧
    decodeWord true 0xB002118A#32 [0x000000F0#32] = .instr (.eorI32 5#3 .b 3#5 1#5 0xF0#32) ∧
    decodeWord true 0xB10211EA#32 [0x000000F0#32, 0x0000000F#32] = .instr (.eorI64 5#3 .o 3#5 1#5 0x0000000F000000F0#64) ∧
    decodeWord true 0x1F7E11EA#32 [] = .instr (.eorI10 0#3 .o 3#5 1#5 0x3FF#10) := by
  decide

theorem test_decode_bits :
    decodeWord true 0x400811ED#32 [] = .instr (.bclrReg 2#3 .o 3#5 1#5 2#5) ∧
    decodeWord true 0x001611ED#32 [] = .instr (.bclrImm 0#3 .o 3#5 1#5 5#7) ∧
    decodeWord true 0x040811ED#32 [] = .instr (.bsetReg 0#3 .o 3#5 1#5 2#5) ∧
    decodeWord true 0x077E118D#32 [] = .instr (.bsetImm 0#3 .b 3#5 1#5 127#7) ∧
    decodeWord true 0x480811ED#32 [] = .instr (.bchgReg 2#3 .o 3#5 1#5 2#5) ∧
    decodeWord true 0x284611AD#32 [] = .instr (.bchgImm 1#3 .w 3#5 1#5 17#7) ∧
    decodeWord true 0x4C08106D#32 [] = .instr (.btstReg 2#3 .o 1#5 2#5) ∧
    decodeWord true 0x0D7E106D#32 [] = .instr (.btstImm 0#3 .o 1#5 63#7) := by
  decide

theorem test_decode_pairs :
    decodeWord true 0x100811ED#32 [] = .instr (.bpclrReg 0#3 .o 3#5 1#5 2#5) ∧
    decodeWord true 0x532611ED#32 [] = .instr (.bpclrImm 2#3 .o 3#5 1#5 105#7) ∧
    decodeWord true 0x580811ED#32 [] = .instr (.bpchgReg 2#3 .o 3#5 1#5 2#5) ∧
    decodeWord true 0x180211ED#32 [] = .instr (.bpchgImm 0#3 .o 3#5 1#5 0#7) ∧
    decodeWord true 0x5C08106D#32 [] = .instr (.bptstReg 2#3 .o 1#5 2#5) ∧
    decodeWord true 0x9C0A106D#32 [] = .instr (.bptstImm 4#3 .o 1#5 2#7) := by
  decide

theorem test_decode_shifts :
    decodeWord true 0x620811CE#32 [] = .instr (.aslReg 3#3 .t true 3#5 1#5 2#5) ∧
    decodeWord true 0x001211EE#32 [] = .instr (.aslImm 0#3 .o false 3#5 1#5 4#6) ∧
    decodeWord true 0x008811EE#32 [] = .instr (.asrReg 0#3 .o 3#5 1#5 2#5) ∧
    decodeWord true 0x008611EE#32 [] = .instr (.asrImm 0#3 .o 3#5 1#5 1#6) ∧
    decodeWord true 0x080811EE#32 [] = .instr (.lslReg 0#3 .o false 3#5 1#5 2#5) ∧
    decodeWord true 0x0A1211CE#32 [] = .instr (.lslImm 0#3 .t true 3#5 1#5 4#6) ∧
    decodeWord true 0x6A8811CE#32 [] = .instr (.lsrReg 3#3 .t true 3#5 1#5 2#5) ∧
    decodeWord true 0x09F211EE#32 [] = .instr (.lsrImm 0#3 .o false 3#5 1#5 60#6) := by
  decide

theorem test_decode_rotates :
    decodeWord true 0x720811CE#32 [] = .instr (.rolReg 3#3 .t true 3#5 1#5 2#5) ∧
    decodeWord true 0x1006118E#32 [] = .instr (.rolImm 0#3 .b false 3#5 1#5 1#6) ∧
    decodeWord true 0x780811CE#32 [] = .instr (.rolcReg 3#3 .t false 3#5 1#5 2#5) ∧
    decodeWord true 0x380611EE#32 [] = .instr (.rolcImm 1#3 .o false 3#5 1#5 1#6) ∧
    decodeWord true 0x708811CE#32 [] = .instr (.rorReg 3#3 .t false 3#5 1#5 2#5) ∧
    decodeWord true 0x109211AE#32 [] = .instr (.rorImm 0#3 .w false 3#5 1#5 4#6) ∧
    decodeWord true 0x7A8811CE#32 [] = .instr (.rorcReg 3#3 .t true 3#5 1#5 2#5) ∧
    decodeWord true 0x388611EE#32 [] = .instr (.rorcImm 1#3 .o false 3#5 1#5 1#6) := by
  decide

theorem test_decode_returns :
    decodeWord true 0x007DFF8F#32 [] = .instr (.rts 1023#10 31#5) ∧
    decodeWord true 0x0100208F#32 [] = .instr (.rti 2#10 1#5) ∧
    decodeWord true 0x0200400F#32 [] = .instr (.arti 4#10 0#5) := by
  decide

theorem test_decode_loads :
    decodeWord true 0xE3081DB0#32 [] = .instr (.loadX .w 1#5 2#5 3#5 (.short 0x3B#6)) ∧
    decodeWord true 0xFF083870#32 [] = .instr (.load .o .preUpdate 3#5 2#5 (.short 0x7F8#11)) ∧
    decodeWord true 0x23102EF1#32 [0x80000001#32] = .instr (.loadmX .o false 0x80000001#32 2#5 4#5 3#5 (.short 13#6)) ∧
    decodeWord true 0x00900071#32 [0x0000000A#32] = .instr (.loadm .o .indirect true 0xA#32 0#5 4#5 (.short 0#11)) := by
  decide

theorem test_decode_stores :
    decodeWord true 0xFF7C5652#32 [] = .instr (.pushT 5#5) ∧
    decodeWord true 0xFE7C5672#32 [] = .instr (.pushO 5#5) ∧
    decodeWord true 0x23081872#32 [] = .instr (.storeX .o 1#5 2#5 3#5 (.short 4#5)) ∧
    decodeWord true 0x00084532#32 [] = .instr (.store .w .postUpdate 4#5 2#5 (.short 2#10)) ∧
    decodeWord true 0x230A98F2#32 [] = .instr (.storeImmX .o (.short 9#5) 2#5 3#5 (.short 5#5)) ∧
    decodeWord true 0x800A7252#32 [0x00001000#32] = .instr (.storeImm .t .indirect (.short 7#5) 2#5 (.ext32 0x1000#32)) ∧
    decodeWord true 0x83889873#32 [0x000000FF#32, 0x00001000#32] = .instr (.storemX .o true 0xFF#32 9#5 2#5 3#5 (.ext32 0x1000#32)) ∧
    decodeWord true 0x00900273#32 [0x0000000A#32] = .instr (.storem .o .indirect true 0xA#32 0#5 4#5 (.short 0#10)) ∧
    decodeWord true 0x0308085B#32 [] = .instr (.peaX .t 2#5 3#5 (.short 0#5)) ∧
    decodeWord true 0x0408067B#32 [] = .instr (.pea .o .preUpdate 2#5 (.short 16#10)) := by
  decide

theorem test_decode_named_only :
    decodeWord true 0x00000014#32 [] = .instr (.fma 0#27) ∧
    decodeWord true 0x00000015#32 [] = .instr (.fms 0#27) ∧
    decodeWord true 0x00000016#32 [] = .instr (.fnma 0#27) ∧
    decodeWord true 0x00000017#32 [] = .instr (.fnms 0#27) := by
  decide

theorem test_decode_jumps :
    decodeWord true 0x00081078#32 [] = .instr (.jmpReg 1#5 2#5) ∧
    decodeWord true 0x10020078#32 [0x12345678#32] = .instr (.jmpI32 0#5 0x12345678#32) ∧
    decodeWord true 0x11020078#32 [0x00002000#32, 0x80000000#32] = .instr (.jmpI64 0#5 0x8000000000002000#64) ∧
    decodeWord true 0x00421078#32 [] = .instr (.jmpI10 1#5 16#10) ∧
    decodeWord true 0x00805078#32 [] = .instr (.jsrReg false 5#5 0#5) ∧
    decodeWord true 0x30820078#32 [0x00002000#32] = .instr (.jsrI32 true 0#5 0x2000#32) ∧
    decodeWord true 0x31826078#32 [0x00000040#32, 0x00000001#32] = .instr (.jsrI64 true 6#5 0x0000000100000040#64) ∧
    decodeWord true 0x00A3F078#32 [] = .instr (.jsrI10 false 31#5 8#10) := by
  decide

theorem test_decode_loadq_branches :
    decodeWord true 0x100000F9#32 [] = .instr (.loadq 0#3 .o 1#5 0x10000#17) ∧
    decodeWord true 0x0000101C#32 [] = .instr (.bra 0x200000#22) ∧
    decodeWord true 0xFFF81C3C#32 [] = .instr (.bsr 0x3FFFC0#22) ∧
    decodeWord true 0xFFFFE0DC#32 [] = .instr (.bcc .ne 0#3 0x7FFFF#19) ∧
    decodeWord true 0xFFFFC4FD#32 [] = .instr (.dbcc .eq 1#3 0x7FFFE#19) := by
  decide

/-! ## One step of each instruction, from the vectors -/

section

-- One thread: each further one reserves memory of its own.
set_option Elab.async false

/-- The parameters of the vectors; of the choices that NARROW_WB `any` leaves, `preserve`. -/
def vectorParams : Params := { defaultParams with narrowWb := .preserve, map := [⟨0, 0x10000, [1, 2, 4, 8], true, true, true⟩] }

/-- The start state of the vectors. -/
def base : State :=
  { State.reset with
    sr := 0x2000#32, ssp := 0x8000#64, usp := 0x7000#64, ac := 0x4000#64, pc := 0x1000#64, params := vectorParams }

/-- Registers before the step. -/
def regs (l : List (Reg × Word)) (s : State) : State := l.foldl (fun s p => s.setX p.1 p.2) s

/-- Octas in memory before the step. -/
def put (l : List (Word × Word)) (s : State) : State := { s with mem := l.foldl (fun m p => m.writeLE p.1 8 p.2) s.mem }

/-- The words of the instruction at the program counter. -/
def code (ws : List InsnWord) (s : State) : State := s.loadWords ws

/-- What is seen after one step, if it answers a next state. -/
def after {α : Type} (s : State) (f : State → α) : Option α :=
  match step s with
  | .next t => some (f t)
  | _ => none

/-- Vector A3: ADD.o C0,r3,r1,r2. -/
theorem test_addRR_A3 :
    after (code [0x000811E4#32] (regs [(1#5, 0x7fffffffffffffff#64), (2#5, 0x1#64)] base))
      (fun t => (t.x 3#5, t.cr 0#3, t.pc)) = some (0x8000000000000000#64, 0b1010#4, 0x1004#64) := by decide

/-- Vector A11: ADD.o r3,r1,#0x123456789ABCDEF0 (Imm64). -/
theorem test_addI64_A11 :
    after (code [0x110211E4#32, 0x9ABCDEF0#32, 0x12345678#32] (regs [(1#5, 0x10#64)] base))
      (fun t => (t.x 3#5, t.cr 0#3, t.pc)) = some (0x123456789abcdf00#64, 0b0000#4, 0x100c#64) := by decide

/-- Vector A16: ADC.o C0,r5,r3,r4. -/
theorem test_adcRR_A16 :
    after (code [0x009032E4#32] (regs [(3#5, 0xffffffffffffffff#64), (4#5, 0x0#64)] { base with ccrg := 0x1#32 }))
      (fun t => (t.x 5#5, t.cr 0#3, t.pc)) = some (0x0#64, 0b0001#4, 0x1004#64) := by decide

/-- Vector A18: ADC.t C0,r5,r3,#1. -/
theorem test_adcI10_A18 :
    after (code [0x008632C4#32] (regs [(3#5, 0x7fffffff#64)] { base with ccrg := 0x0#32 }))
      (fun t => ((t.x 5#5).setWidth 32, t.cr 0#3, t.pc)) = some (0x80000000#32, 0b1010#4, 0x1004#64) := by decide

/-- Vector A20: SUB.o r3,r1,r2. -/
theorem test_subRR_A20 :
    after (code [0x000811E5#32] (regs [(1#5, 0x0#64), (2#5, 0x1#64)] base))
      (fun t => (t.x 3#5, t.cr 0#3, t.pc)) = some (0xffffffffffffffff#64, 0b1001#4, 0x1004#64) := by decide

/-- Vector A23: SUB.o r3,r1,#10 (S=1). -/
theorem test_subI10_A23 :
    after (code [0x00AA11E5#32] (regs [(1#5, 0xc#64)] base))
      (fun t => (t.x 3#5, t.cr 0#3, t.pc)) = some (0xfffffffffffffffe#64, 0b1001#4, 0x1004#64) := by decide

/-- Vector A27: CMP.o C1,r1,r2. -/
theorem test_cmpRR_A27 :
    after (code [0x20081063#32] (regs [(1#5, 0x1#64), (2#5, 0xffffffffffffffff#64)] base))
      (fun t => (t.cr 1#3, t.pc)) = some (0b0001#4, 0x1004#64) := by decide

/-- Vector A31: CMP.o C0,r1,#5 (S=1). -/
theorem test_cmpI10_A31 :
    after (code [0x00961063#32] (regs [(1#5, 0x9#64)] base))
      (fun t => (t.cr 0#3, t.pc)) = some (0b1001#4, 0x1004#64) := by decide

/-- Vector A33: AND.o C0,r3,r1,r2. -/
theorem test_andRR_A33 :
    after (code [0x000811E8#32] (regs [(1#5, 0xf0f0#64), (2#5, 0xf0f#64)] { base with ccrg := 0x3#32 }))
      (fun t => (t.x 3#5, t.cr 0#3, t.pc)) = some (0x0#64, 0b0111#4, 0x1004#64) := by decide

/-- Vector A34: AND.o C0,r3,r1,#-2. -/
theorem test_andI10_A34 :
    after (code [0x1F7A11E8#32] (regs [(1#5, 0xffffffffffffffff#64)] { base with ccrg := 0x0#32 }))
      (fun t => (t.x 3#5, t.cr 0#3, t.pc)) = some (0xfffffffffffffffe#64, 0b1000#4, 0x1004#64) := by decide

/-- Vector A35: OR.o C0,r3,r1,r2. -/
theorem test_orRR_A35 :
    after (code [0x000811E9#32] (regs [(1#5, 0x8000000000000000#64), (2#5, 0x1#64)] { base with ccrg := 0x7#32 }))
      (fun t => (t.x 3#5, t.cr 0#3, t.pc)) = some (0x8000000000000001#64, 0b1011#4, 0x1004#64) := by decide

/-- Vector A36: OR.o r1,r0,#0x12345678 (Imm32). -/
theorem test_orI32_A36 :
    after (code [0x100200E9#32, 0x12345678#32] base)
      (fun t => (t.x 1#5, t.cr 0#3, t.pc)) = some (0x12345678#64, 0b0000#4, 0x1008#64) := by decide

/-- Vector A37: EOR.o C0,r3,r1,#-1. -/
theorem test_eorI10_A37 :
    after (code [0x1F7E11EA#32] (regs [(1#5, 0xff#64)] base))
      (fun t => (t.x 3#5, t.cr 0#3, t.pc)) = some (0xffffffffffffff00#64, 0b1000#4, 0x1004#64) := by decide

/-- Vector A38: EOR.w C0,r3,r1,r2. -/
theorem test_eorRR_A38 :
    after (code [0x000811AA#32] (regs [(1#5, 0xabcd#64), (2#5, 0xabcd#64)] { base with ccrg := 0x8#32 }))
      (fun t => ((t.x 3#5).setWidth 16, t.cr 0#3, t.pc)) = some (0x0#16, 0b0100#4, 0x1004#64) := by decide

/-- Vector A40: LOADQ.o r1,#-65536. -/
theorem test_loadq_A40 :
    after (code [0x100000F9#32] base)
      (fun t => (t.x 1#5, t.cr 0#3, t.pc)) = some (0xffffffffffff0000#64, 0b1000#4, 0x1004#64) := by decide

/-- Vector A41: LOADQ.b C3,r1,#0x100. -/
theorem test_loadq_A41 :
    after (code [0x60100099#32] ({ base with ccrg := 0x3000#32 }))
      (fun t => ((t.x 1#5).setWidth 8, t.cr 3#3, t.pc)) = some (0x0#8, 0b0111#4, 0x1004#64) := by decide

/-- Vector A43: MULS.o r3,r1,r2,r4. -/
theorem test_mulsRR_A43 :
    after (code [0x040811E6#32] (regs [(1#5, 0xfffffffffffffffd#64), (2#5, 0x5#64)] base))
      (fun t => (t.x 3#5, t.x 4#5, t.pc)) = some (0xfffffffffffffff1#64, 0xffffffffffffffff#64, 0x1004#64) := by decide

/-- Vector A46: MULS.b r3,r1,r2,r4. -/
theorem test_mulsRR_A46 :
    after (code [0x04081186#32] (regs [(1#5, 0x80#64), (2#5, 0x80#64)] base))
      (fun t => ((t.x 3#5).setWidth 8, (t.x 4#5).setWidth 8, t.pc)) = some (0x0#8, 0x40#8, 0x1004#64) := by decide

/-- Vector A49: MULU.b r3,r1,r2,r4. -/
theorem test_muluRR_A49 :
    after (code [0x04881186#32] (regs [(1#5, 0xff#64), (2#5, 0xff#64)] base))
      (fun t => ((t.x 3#5).setWidth 8, (t.x 4#5).setWidth 8, t.pc)) = some (0x1#8, 0xfe#8, 0x1004#64) := by decide

/-- Vector A50: MULU.o r3,r1,#-1 (Imm10). -/
theorem test_muluI10_A50 :
    after (code [0x1FFE11E6#32] (regs [(1#5, 0x2#64)] base))
      (fun t => (t.x 3#5, t.pc)) = some (0xfffffffffffffffe#64, 0x1004#64) := by decide

/-- Vector A54: DIVS.o r3,r1,r2,r4. -/
theorem test_divsRR_A54 :
    after (code [0x040811E7#32] (regs [(1#5, 0x7#64), (2#5, 0xfffffffffffffffe#64)] base))
      (fun t => (t.x 3#5, t.x 4#5, t.cr 0#3, t.pc)) = some (0xfffffffffffffffd#64, 0x1#64, 0b1000#4, 0x1004#64) := by decide

/-- Vector A57: DIVS.o r3,r1,#10 (S=1). -/
theorem test_divsI10_A57 :
    after (code [0x00AA11E7#32] (regs [(1#5, 0x3#64)] base))
      (fun t => (t.x 3#5, t.cr 0#3, t.pc)) = some (0x3#64, 0b0000#4, 0x1004#64) := by decide

/-- Vector A58: DIVS.o r3,r1,r2,r4. -/
theorem test_divsRR_A58 :
    after (code [0x040811E7#32] (put [(0x4000#64, 0x5000#64)] (regs [(1#5, 0x9#64), (2#5, 0x0#64), (3#5, 0x33#64), (4#5, 0x44#64)] { base with ccrg := 0xa#32 })))
      (fun t => (t.x 3#5, t.x 4#5, t.x 31#5, t.cr 0#3, t.mem.readLE 0x7FF8#64 8, t.mem.readLE 0x7FF0#64 8, t.pc)) = some (0x33#64, 0x44#64, 0x7ff0#64, 0b1010#4, 0x1004#64, 0xa#64, 0x5000#64) := by decide

/-- Vector A61: DIVU.b r3,r1,r2,r4. -/
theorem test_divuRR_A61 :
    after (code [0x04881187#32] (regs [(1#5, 0xff#64), (2#5, 0x2#64)] base))
      (fun t => ((t.x 3#5).setWidth 8, (t.x 4#5).setWidth 8, t.cr 0#3, t.pc)) = some (0x7f#8, 0x1#8, 0b0000#4, 0x1004#64) := by decide

/-- Vector A62: DIVU.o r3,r1,#10 (Imm32). -/
theorem test_divuI32_A62 :
    after (code [0x100611E7#32, 0x0000000A#32] (regs [(1#5, 0x69#64)] base))
      (fun t => (t.x 3#5, t.cr 0#3, t.pc)) = some (0xa#64, 0b0000#4, 0x1008#64) := by decide

/-- Vector A66: ABS.o r3,r2. -/
theorem test_abs_A66 :
    after (code [0x0440C3C1#32] (regs [(2#5, 0x8000000000000000#64)] base))
      (fun t => (t.x 3#5, t.pc)) = some (0x8000000000000000#64, 0x1004#64) := by decide

/-- Vector A67: ABS.b r3,r2. -/
theorem test_abs_A67 :
    after (code [0x0440C301#32] (regs [(2#5, 0x1fe#64)] base))
      (fun t => ((t.x 3#5).setWidth 8, t.pc)) = some (0x2#8, 0x1004#64) := by decide

/-- Vector A71: MOVE r1,sr. -/
theorem test_moveFromCsr_A71 :
    after (code [0x002010C2#32] base)
      (fun t => (t.x 1#5, t.pc)) = some (0x2000#64, 0x1004#64) := by decide

/-- Vector A72: MOVE r1,sr. -/
theorem test_moveFromCsr_A72 :
    after (code [0x002010C2#32] (put [(0x40#64, 0x6100#64)] ({ base with sr := 0x0#32 })))
      (fun t => (t.sr, t.ssp, t.mem.readLE 0x7FE8#64 8, t.pc)) = some (0x2000#32, 0x7fe8#64, 0x0#64, 0x6100#64) := by decide

/-- Vector A70: MOVE ccr,r1. -/
theorem test_moveToCsr_A70 :
    after (code [0x002009C2#32] (regs [(1#5, 0xaaaaaaaa12345678#64)] base))
      (fun t => (t.ccrg, t.pc)) = some (0x12345678#32, 0x1004#64) := by decide

/-- Vector A73: MOVE sr,r1. -/
theorem test_moveToCsr_A73 :
    after (code [0x002011C2#32] (regs [(1#5, 0xffffffffffffffff#64)] base))
      (fun t => (t.sr, t.pc)) = some (0xff00a707#32, 0x1004#64) := by decide

/-- Vector A74: OR sr,r1. -/
theorem test_orCsr_A74 :
    after (code [0x002012C2#32] (regs [(1#5, 0x700#64)] base))
      (fun t => (t.sr, t.pc)) = some (0x2700#32, 0x1004#64) := by decide

/-- Vector A75: ANDC sr,r1. -/
theorem test_andcCsr_A75 :
    after (code [0x002013C2#32] (regs [(1#5, 0x2000#64)] base))
      (fun t => (t.sr, t.x 31#5, t.pc)) = some (0x0#32, 0x7000#64, 0x1004#64) := by decide

/-- Vector A76: EOR ccr,r1. -/
theorem test_eorCsr_A76 :
    after (code [0x00200CC2#32] (regs [(1#5, 0xf#64)] { base with ccrg := 0x5#32 }))
      (fun t => (t.ccrg, t.pc)) = some (0xa#32, 0x1004#64) := by decide

/-- Vector B1: BCLR.o C0,r3,r1,#5. -/
theorem test_bclrImm_B1 :
    after (code [0x001611ED#32] (regs [(1#5, 0xff#64)] base))
      (fun t => (t.x 3#5, t.cr 0#3, t.pc)) = some (0xdf#64, 0b0000#4, 0x1004#64) := by decide

/-- Vector B2: BCLR.o C0,r3,r1,#5. -/
theorem test_bclrImm_B2 :
    after (code [0x001611ED#32] (regs [(1#5, 0x0#64)] { base with ccrg := 0xb#32 }))
      (fun t => (t.x 3#5, t.cr 0#3, t.pc)) = some (0x0#64, 0b1111#4, 0x1004#64) := by decide

/-- Vector B3: BSET.o C0,r3,r1,r2. -/
theorem test_bsetReg_B3 :
    after (code [0x040811ED#32] (regs [(1#5, 0x0#64), (2#5, 0x43#64)] base))
      (fun t => (t.x 3#5, t.cr 0#3, t.pc)) = some (0x8#64, 0b0100#4, 0x1004#64) := by decide

/-- Vector B4: BSET.b C0,r3,r1,#127. -/
theorem test_bsetImm_B4 :
    after (code [0x077E118D#32] (regs [(1#5, 0x0#64)] base))
      (fun t => ((t.x 3#5).setWidth 8, t.cr 0#3, t.pc)) = some (0x80#8, 0b0100#4, 0x1004#64) := by decide

/-- Vector B5: BCHG.w C1,r3,r1,#17. -/
theorem test_bchgImm_B5 :
    after (code [0x284611AD#32] (regs [(1#5, 0x2#64)] base))
      (fun t => ((t.x 3#5).setWidth 16, t.cr 1#3, t.pc)) = some (0x0#16, 0b0000#4, 0x1004#64) := by decide

/-- Vector B6: BTST.o C0,r1,#63. -/
theorem test_btstImm_B6 :
    after (code [0x0D7E106D#32] (regs [(1#5, 0x8000000000000000#64)] base))
      (fun t => (t.cr 0#3, t.pc)) = some (0b0000#4, 0x1004#64) := by decide

/-- Vector B8: BPCHG.o C0,r3,r1,#0. -/
theorem test_bpchgImm_B8 :
    after (code [0x180211ED#32] (regs [(1#5, 0xf1#64)] base))
      (fun t => (t.x 3#5, t.cr 0#3, t.pc)) = some (0xf2#64, 0b0001#4, 0x1004#64) := by decide

/-- Vector B9: BPCHG.o C0,r3,r1,#0. -/
theorem test_bpchgImm_B9 :
    after (code [0x180211ED#32] (regs [(1#5, 0xf2#64)] base))
      (fun t => (t.x 3#5, t.cr 0#3, t.pc)) = some (0xf1#64, 0b1000#4, 0x1004#64) := by decide

/-- Vector B14: BPTST.o C4,r1,#2. -/
theorem test_bptstImm_B14 :
    after (code [0x9C0A106D#32] (regs [(1#5, 0x3f#64)] base))
      (fun t => (t.cr 4#3, t.pc)) = some (0b0010#4, 0x1004#64) := by decide

/-- Vector B15: BPTST.b C3,r1,#5. -/
theorem test_bptstImm_B15 :
    after (code [0x7C16100D#32] (regs [(1#5, 0x4#64)] base))
      (fun t => (t.cr 3#3, t.pc)) = some (0b0001#4, 0x1004#64) := by decide

/-- Vector B16: BPCLR.o C0,r3,r1,r2. -/
theorem test_bpclrReg_B16 :
    after (code [0x100811ED#32] (regs [(1#5, 0xffffffffffffffff#64), (2#5, 0x3f#64)] base))
      (fun t => (t.x 3#5, t.cr 0#3, t.pc)) = some (0x3fffffffffffffff#64, 0b0010#4, 0x1004#64) := by decide

/-- Vector S1: ASL.o C0,r3,r1,#4. -/
theorem test_aslImm_S1 :
    after (code [0x001211EE#32] (regs [(1#5, 0x4000000000000001#64)] base))
      (fun t => (t.x 3#5, t.cr 0#3, t.pc)) = some (0x10#64, 0b0010#4, 0x1004#64) := by decide

/-- Vector S3: ASL.b C0,r3,r1,#8. -/
theorem test_aslImm_S3 :
    after (code [0x0022118E#32] (regs [(1#5, 0x81#64)] base))
      (fun t => ((t.x 3#5).setWidth 8, t.cr 0#3, t.pc)) = some (0x0#8, 0b0111#4, 0x1004#64) := by decide

/-- Vector S6: ASR.b C0,r3,r1,#63. -/
theorem test_asrImm_S6 :
    after (code [0x01FE118E#32] (regs [(1#5, 0x80#64)] base))
      (fun t => ((t.x 3#5).setWidth 8, t.cr 0#3, t.pc)) = some (0xff#8, 0b1001#4, 0x1004#64) := by decide +kernel

/-- Vector S7: ASR.o C0,r3,r1,r2. -/
theorem test_asrReg_S7 :
    after (code [0x008811EE#32] (regs [(1#5, 0x7fffffffffffffff#64), (2#5, 0x7e#64)] base))
      (fun t => (t.x 3#5, t.cr 0#3, t.pc)) = some (0x1#64, 0b0001#4, 0x1004#64) := by decide +kernel

/-- Vector S8: LSL.o C0,r3,r1,r2. -/
theorem test_lslReg_S8 :
    after (code [0x080811EE#32] (regs [(1#5, 0x3#64), (2#5, 0x3f#64)] base))
      (fun t => (t.x 3#5, t.cr 0#3, t.pc)) = some (0x8000000000000000#64, 0b1001#4, 0x1004#64) := by decide +kernel

/-- Vector S9: LSL.t C0,r3,r1,#4 (N=1). -/
theorem test_lslImm_S9 :
    after (code [0x0A1211CE#32] (regs [(1#5, 0xf0000001#64)] base))
      (fun t => ((t.x 3#5).setWidth 32, t.cr 0#3, t.pc)) = some (0x1f#32, 0b0001#4, 0x1004#64) := by decide

/-- Vector S10: LSR.o C0,r3,r1,#60. -/
theorem test_lsrImm_S10 :
    after (code [0x09F211EE#32] (regs [(1#5, 0xf000000000000000#64)] base))
      (fun t => (t.x 3#5, t.cr 0#3, t.pc)) = some (0xf#64, 0b0000#4, 0x1004#64) := by decide +kernel

/-- Vector S11: LSR.b C0,r3,r1,#1 (N=1). -/
theorem test_lsrImm_S11 :
    after (code [0x0A86118E#32] (regs [(1#5, 0x1#64)] base))
      (fun t => ((t.x 3#5).setWidth 8, t.cr 0#3, t.pc)) = some (0x80#8, 0b1001#4, 0x1004#64) := by decide

/-- Vector S13: ROL.b C0,r3,r1,#1 (N=1). -/
theorem test_rolImm_S13 :
    after (code [0x1206118E#32] (regs [(1#5, 0x81#64)] base))
      (fun t => ((t.x 3#5).setWidth 8, t.cr 0#3, t.pc)) = some (0x2#8, 0b0001#4, 0x1004#64) := by decide

/-- Vector S14: ROL.w C0,r3,r1,#16. -/
theorem test_rolImm_S14 :
    after (code [0x104211AE#32] (regs [(1#5, 0x1234#64)] base))
      (fun t => ((t.x 3#5).setWidth 16, t.cr 0#3, t.pc)) = some (0x1234#16, 0b0000#4, 0x1004#64) := by decide

/-- Vector S15: ROR.w C0,r3,r1,#4. -/
theorem test_rorImm_S15 :
    after (code [0x109211AE#32] (regs [(1#5, 0x1234#64)] base))
      (fun t => ((t.x 3#5).setWidth 16, t.cr 0#3, t.pc)) = some (0x4123#16, 0b0000#4, 0x1004#64) := by decide

/-- Vector S17: ROLC.o C1,r3,r1,#1 (N=1). -/
theorem test_rolcImm_S17 :
    after (code [0x3A0611EE#32] (regs [(1#5, 0x8000000000000000#64)] { base with ccrg := 0x10#32 }))
      (fun t => (t.x 3#5, t.cr 1#3, t.pc)) = some (0x0#64, 0b0100#4, 0x1004#64) := by decide

/-- Vector S18: ROLC.b C0,r3,r1,#9. -/
theorem test_rolcImm_S18 :
    after (code [0x1826118E#32] (regs [(1#5, 0xa5#64)] { base with ccrg := 0x1#32 }))
      (fun t => ((t.x 3#5).setWidth 8, t.cr 0#3, t.pc)) = some (0xa5#8, 0b1001#4, 0x1004#64) := by decide

/-- Vector S19: RORC.o C1,r3,r1,#1. -/
theorem test_rorcImm_S19 :
    after (code [0x388611EE#32] (regs [(1#5, 0x1#64)] { base with ccrg := 0x0#32 }))
      (fun t => (t.x 3#5, t.cr 1#3, t.pc)) = some (0x0#64, 0b0101#4, 0x1004#64) := by decide

/-- Vector S20: SWAP.t C0,r3,r1. -/
theorem test_swap_S20 :
    after (code [0x004011C1#32] (regs [(1#5, 0x1122334455667788#64)] base))
      (fun t => (t.x 3#5, t.pc)) = some (0x5566778811223344#64, 0x1004#64) := by decide

/-- Vector S22: SWAP.b C0,r3,r1. -/
theorem test_swap_S22 :
    after (code [0x00401181#32] (regs [(1#5, 0xabcd#64)] base))
      (fun t => ((t.x 3#5).setWidth 16, t.pc)) = some (0xcdab#16, 0x1004#64) := by decide

/-- Vector F2: BEQ C1,+16. -/
theorem test_bcc_F2 :
    after (code [0x000084FC#32] ({ base with ccrg := 0x4#32 }))
      (fun t => t.pc) = some 0x1004#64 := by decide

/-- Vector F4: BNE C0,-4. -/
theorem test_bcc_F4 :
    after (code [0xFFFFE0DC#32] ({ base with ccrg := 0x0#32 }))
      (fun t => t.pc) = some 0xffc#64 := by decide

/-- Vector F6: BGT C2,+8. -/
theorem test_bcc_F6 :
    after (code [0x000049DC#32] ({ base with ccrg := 0x400#32 }))
      (fun t => t.pc) = some 0x1004#64 := by decide

/-- Vector F10: BRA +0x7FFFFC (largest forward). -/
theorem test_bra_F10 :
    after (code [0xFFFFEC1C#32] base)
      (fun t => t.pc) = some 0x800ffc#64 := by decide

/-- Vector F11: BRA -0x800000 (largest backward). -/
theorem test_bra_F11 :
    after (code [0x0000101C#32] ({ base with pc := 0x900000#64, params := { vectorParams with map := [⟨0, 0x10000, [1, 2, 4, 8], true, true, true⟩, ⟨0x900000, 4, [4], true, true, true⟩] } }))
      (fun t => t.pc) = some 0x100000#64 := by decide

/-- Vector F14: BRK. -/
theorem test_brk_F14 :
    after (code [0x00000000#32] (put [(0x100#64, 0x6000#64)] base))
      (fun t => (t.x 31#5, t.mem.readLE 0x7FF8#64 8, t.mem.readLE 0x7FF0#64 8, t.mem.readLE 0x7FE8#64 8, t.sr, t.pc)) = some (0x7fe8#64, 0x1004#64, 0x0#64, 0x2000#64, 0x2000#32, 0x6000#64) := by decide

/-- Vector F15: BSR +0x100. -/
theorem test_bsr_F15 :
    after (code [0x0008003C#32] base)
      (fun t => (t.x 31#5, t.mem.readLE 0x7FF8#64 8, t.pc)) = some (0x7ff8#64, 0x1004#64, 0x1100#64) := by decide

/-- Vector F18: BSR +0x100. -/
theorem test_bsr_F18 :
    after (code [0x0008003C#32] (put [(0x18#64, 0x6000#64)] ({ base with sr := 0x0#32, usp := 0x7004#64 })))
      (fun t => (t.usp, t.ssp, t.mem.readLE 0x7FF8#64 8, t.mem.readLE 0x7FE8#64 8, t.sr, t.pc)) = some (0x7004#64, 0x7fe8#64, 0x1000#64, 0x0#64, 0x2000#32, 0x6000#64) := by decide

/-- Vector F20: DBcc (Cond 1) C0,-12. -/
theorem test_dbcc_F20 :
    after (code [0xFFFFA03D#32] ({ base with pc := 0x100c#64, lc := 0x0#64 }))
      (fun t => (t.lc, t.pc)) = some (0xffffffffffffffff#64, 0x1010#64) := by decide

/-- Vector F22: DBEQ C1,-8. -/
theorem test_dbcc_F22 :
    after (code [0xFFFFC4FD#32] ({ base with ccrg := 0x0#32, lc := 0x5#64 }))
      (fun t => (t.lc, t.pc)) = some (0x4#64, 0xff8#64) := by decide

/-- Vector F24: JMP (r1,r2). -/
theorem test_jmpReg_F24 :
    after (code [0x00081078#32] (regs [(1#5, 0x2000#64), (2#5, 0x40#64)] base))
      (fun t => t.pc) = some 0x2040#64 := by decide

/-- Vector F28: JMP 0x8000000000002000(r0) (Imm64). -/
theorem test_jmpI64_F28 :
    after (code [0x11020078#32, 0x00002000#32, 0x80000000#32] base)
      (fun t => t.pc) = some 0x8000000000002000#64 := by decide

/-- Vector F32: JSR 0x2000(r0), G = 1 (Imm32). -/
theorem test_jsrI32_F32 :
    after (code [0x30820078#32, 0x00002000#32] ({ base with ccrg := 0x21#32 }))
      (fun t => (t.x 31#5, t.mem.readLE 0x7FF8#64 8, t.mem.readLE 0x7FF0#64 8, t.pc)) = some (0x7ff0#64, 0x1008#64, 0x21#64, 0x2000#64) := by decide

/-- Vector F33: JSR 8(r31). -/
theorem test_jsrI10_F33 :
    after (code [0x00A3F078#32] base)
      (fun t => (t.x 31#5, t.mem.readLE 0x7FF8#64 8, t.pc)) = some (0x7ff8#64, 0x1004#64, 0x8008#64) := by decide

/-- Vector F35: RTS #2,#1. -/
theorem test_rts_F35 :
    after (code [0x0000208F#32] (put [(0x7ff0#64, 0x2000#64)] ({ base with ssp := 0x7ff0#64 })))
      (fun t => (t.x 31#5, t.pc)) = some (0x8000#64, 0x2004#64) := by decide

/-- Vector F36: RTS #1023,#31. -/
theorem test_rts_F36 :
    after (code [0x007DFF8F#32] (put [(0x7000#64, 0x2000#64)] ({ base with ssp := 0x7000#64 })))
      (fun t => (t.x 31#5, t.pc)) = some (0x8004#64, 0x207c#64) := by decide

/-- Vector F39: RTI #2,#1. -/
theorem test_rti_F39 :
    after (code [0x0100208F#32] (put [(0x7fe8#64, 0xffffffffffff2300#64), (0x7ff0#64, 0xffffffff00000021#64), (0x7ff8#64, 0x1004#64)] ({ base with ssp := 0x7fe8#64 })))
      (fun t => (t.ssp, t.sr, t.ccrg, t.pc)) = some (0x8008#64, 0xff002300#32, 0x21#32, 0x1008#64) := by decide

/-- Vector F40: RTI #0,#0. -/
theorem test_rti_F40 :
    after (code [0x0100000F#32] (put [(0x40#64, 0x6000#64)] ({ base with sr := 0x0#32 })))
      (fun t => (t.ssp, t.usp, t.sr, t.mem.readLE 0x7FF8#64 8, t.mem.readLE 0x7FE8#64 8, t.pc)) = some (0x7fe8#64, 0x7000#64, 0x2000#32, 0x1000#64, 0x0#64, 0x6000#64) := by decide

/-- Vector F41: ARTI #0,#0. -/
theorem test_arti_F41 :
    after (code [0x0200000F#32] (put [(0x7ff0#64, 0x12#64), (0x7ff8#64, 0x1004#64)] ({ base with ssp := 0x7ff0#64 })))
      (fun t => (t.x 31#5, t.ccrg, t.sr, t.pc)) = some (0x8000#64, 0x12#32, 0x2000#32, 0x1004#64) := by decide

/-- Vector F42: ARTI #4,#0. -/
theorem test_arti_F42 :
    after (code [0x0200400F#32] (put [(0x6ff0#64, 0x12#64), (0x6ff8#64, 0x1004#64)] ({ base with sr := 0x0#32, usp := 0x6ff0#64 })))
      (fun t => (t.usp, t.ccrg, t.sr, t.pc)) = some (0x7010#64, 0x12#32, 0x0#32, 0x1004#64) := by decide

/-- Vector F44: TRAP r1,#3,#0x55. -/
theorem test_trapImm_F44 :
    after (code [0x01563080#32] (put [(0x118#64, 0x6000#64)] ({ base with ccrg := 0x4#32, sr := 0x0#32, ssp := 0x9000#64 })))
      (fun t => (t.x 1#5, t.sr, t.ssp, t.usp, t.mem.readLE 0x8FF8#64 8, t.mem.readLE 0x8FF0#64 8, t.mem.readLE 0x8FE8#64 8, t.pc)) = some (0x55#64, 0x2000#32, 0x8fe8#64, 0x7000#64, 0x1004#64, 0x4#64, 0x0#64, 0x6000#64) := by decide

/-- Vector F45: TRAP r1,r2,#9. -/
theorem test_trapReg_F45 :
    after (code [0x00242080#32] (put [(0x1f8#64, 0x6100#64)] (regs [(2#5, 0x1f#64)] base)))
      (fun t => (t.x 1#5, t.x 31#5, t.pc)) = some (0x9#64, 0x7fe8#64, 0x6100#64) := by decide

/-- Vector F49: ATRAP r1,#5,#0x123. -/
theorem test_atrapImm_F49 :
    after (code [0x048E50E0#32] (put [(0x4028#64, 0x5000#64)] ({ base with ccrg := 0x12#32 })))
      (fun t => (t.x 1#5, t.x 31#5, t.mem.readLE 0x7FF8#64 8, t.mem.readLE 0x7FF0#64 8, t.sr, t.pc)) = some (0x123#64, 0x7ff0#64, 0x1004#64, 0x12#64, 0x2000#32, 0x5000#64) := by decide

/-- Vector F50: ATRAP r1,#5,#0x123. -/
theorem test_atrapImm_F50 :
    after (code [0x048E50E0#32] (put [(0x4028#64, 0x5000#64)] ({ base with ccrg := 0x12#32, sr := 0x0#32 })))
      (fun t => (t.x 1#5, t.usp, t.ssp, t.mem.readLE 0x6FF8#64 8, t.mem.readLE 0x6FF0#64 8, t.sr, t.pc)) = some (0x123#64, 0x6ff0#64, 0x8000#64, 0x1004#64, 0x12#64, 0x0#32, 0x5000#64) := by decide

/-- Vector F52: TRAPV C1,r4,#2. -/
theorem test_trapv_F52 :
    after (code [0x200BF240#32] (regs [(4#5, 0x99#64)] { base with ccrg := 0x0#32 }))
      (fun t => (t.x 4#5, t.pc)) = some (0x99#64, 0x1004#64) := by decide

/-- Vector F53: TRAPV C1,r4,#2. -/
theorem test_trapv_F53 :
    after (code [0x200BF240#32] (put [(0x40f8#64, 0x5100#64)] (regs [(4#5, 0x99#64)] { base with ccrg := 0x20#32 })))
      (fun t => (t.x 4#5, t.x 31#5, t.mem.readLE 0x7FF8#64 8, t.mem.readLE 0x7FF0#64 8, t.pc)) = some (0x2#64, 0x7ff0#64, 0x1004#64, 0x20#64, 0x5100#64) := by decide

/-- Vector LS2: LOAD.b r1,-1(r2). -/
theorem test_load_LS2 :
    after (code [0xFF081390#32] (put [(0x2000#64, 0x1122334455667788#64), (0x2008#64, 0x99aabbccddeeff00#64), (0x2010#64, 0x123456789abcdef#64)] (regs [(2#5, 0x2008#64)] base)))
      (fun t => ((t.x 1#5).setWidth 8, t.pc)) = some (0x11#8, 0x1004#64) := by decide

/-- Vector LS6: LOAD.t r3,4(r2)+. -/
theorem test_load_LS6 :
    after (code [0x00083650#32] (put [(0x2000#64, 0x1122334455667788#64), (0x2008#64, 0x99aabbccddeeff00#64), (0x2010#64, 0x123456789abcdef#64)] (regs [(2#5, 0x2000#64)] base)))
      (fun t => ((t.x 3#5).setWidth 32, t.x 2#5, t.pc)) = some (0x55667788#32, 0x2004#64, 0x1004#64) := by decide

/-- Vector LS9: LOAD.w r1,-5(r2,r3). -/
theorem test_loadX_LS9 :
    after (code [0xE3081DB0#32] (put [(0x2000#64, 0x1122334455667788#64), (0x2008#64, 0x99aabbccddeeff00#64), (0x2010#64, 0x123456789abcdef#64)] (regs [(2#5, 0x2000#64), (3#5, 0x9#64)] base)))
      (fun t => ((t.x 1#5).setWidth 16, t.pc)) = some (0x3344#16, 0x1004#64) := by decide

/-- Vector LS13: LOAD.o r1,0x1000(r2,r3) (32-bit disp). -/
theorem test_loadX_LS13 :
    after (code [0x83081C70#32, 0x00001000#32] (put [(0x2000#64, 0x1122334455667788#64), (0x2008#64, 0x99aabbccddeeff00#64), (0x2010#64, 0x123456789abcdef#64)] (regs [(2#5, 0x1000#64), (3#5, 0x8#64)] base)))
      (fun t => (t.x 1#5, t.pc)) = some (0x99aabbccddeeff00#64, 0x1008#64) := by decide

/-- Vector LS26: STORE.w r4,2(r2)+. -/
theorem test_store_LS26 :
    after (code [0x00084532#32] (put [(0x2000#64, 0x1122334455667788#64), (0x2008#64, 0x99aabbccddeeff00#64), (0x2010#64, 0x123456789abcdef#64)] (regs [(4#5, 0xbeef#64), (2#5, 0x2000#64)] base)))
      (fun t => (t.mem.readLE 0x2000#64 8, t.x 2#5, t.pc)) = some (0x112233445566beef#64, 0x2002#64, 0x1004#64) := by decide

/-- Vector LS29: STORE.o r2,+-8(r2). -/
theorem test_store_LS29 :
    after (code [0xFE082672#32] (regs [(2#5, 0x3008#64)] base))
      (fun t => (t.mem.readLE 0x3000#64 8, t.x 2#5, t.pc)) = some (0x3008#64, 0x3000#64, 0x1004#64) := by decide

/-- Vector LS34: STORE.o #-13,0(r2). -/
theorem test_storeImm_LS34 :
    after (code [0x000B3272#32] (regs [(2#5, 0x3000#64)] base))
      (fun t => (t.mem.readLE 0x3000#64 8, t.pc)) = some (0xfffffffffffffff3#64, 0x1004#64) := by decide

/-- Vector LS38: STORE.o #0x1122334455667788,0x2000(r2) (Imm64, 64-bit disp). -/
theorem test_storeImm_LS38 :
    after (code [0x810B1272#32, 0x55667788#32, 0x11223344#32, 0x00002000#32, 0x00000000#32] (regs [(2#5, 0x1000#64)] base))
      (fun t => (t.mem.readLE 0x3000#64 8, t.pc)) = some (0x1122334455667788#64, 0x1014#64) := by decide

/-- Vector LS41: PUSH.t r5. -/
theorem test_pushT_LS41 :
    after (code [0xFF7C5652#32] (regs [(5#5, 0x1122334455667788#64)] base))
      (fun t => (t.x 31#5, t.mem.readLE 0x7FFC#64 4, t.pc)) = some (0x7ffc#64, 0x55667788#64, 0x1004#64) := by decide

/-- Vector LS42: PUSH.o r31. -/
theorem test_pushO_LS42 :
    after (code [0xFE7DF672#32] base)
      (fun t => (t.x 31#5, t.mem.readLE 0x7FF8#64 8, t.pc)) = some (0x7ff8#64, 0x8000#64, 0x1004#64) := by decide

/-- Vector LS47: PEA.t 0(r2,r3). -/
theorem test_peaX_LS47 :
    after (code [0x0308085B#32] (regs [(2#5, 0x123456789#64), (3#5, 0x1#64)] base))
      (fun t => (t.x 31#5, t.mem.readLE 0x7FFC#64 4, t.pc)) = some (0x7ffc#64, 0x2345678a#64, 0x1004#64) := by decide

/-- Vector LS50: PEA.o +16(r2). -/
theorem test_pea_LS50 :
    after (code [0x0408067B#32] (regs [(2#5, 0x2000#64)] base))
      (fun t => (t.x 2#5, t.mem.readLE 0x7FF8#64 8, t.pc)) = some (0x2000#64, 0x2010#64, 0x1004#64) := by decide

/-- Vector LS52: STOREM.o {r1,r2,r3},+-24(r31). -/
theorem test_storem_LS52 :
    after (code [0xFA7C0673#32, 0x0000000E#32] (regs [(1#5, 0x11#64), (2#5, 0x22#64), (3#5, 0x33#64)] base))
      (fun t => (t.x 31#5, t.mem.readLE 0x7FE8#64 8, t.mem.readLE 0x7FF0#64 8, t.mem.readLE 0x7FF8#64 8, t.pc)) = some (0x7fe8#64, 0x11#64, 0x22#64, 0x33#64, 0x1008#64) := by decide +kernel

/-- Vector LS58: STOREM.o {r1},{PC,CCRG,SR,AC,LC},0(r4). -/
theorem test_storem_LS58 :
    after (code [0x0011F273#32, 0x00000002#32] (regs [(1#5, 0x11#64), (4#5, 0x3000#64)] { base with ccrg := 0x87654321#32, lc := 0x9#64 }))
      (fun t => (t.mem.readLE 0x3000#64 8, t.mem.readLE 0x3008#64 8, t.mem.readLE 0x3010#64 8, t.mem.readLE 0x3018#64 8, t.mem.readLE 0x3020#64 8, t.mem.readLE 0x3028#64 8, t.pc)) = some (0x11#64, 0x1008#64, 0x87654321#64, 0x2000#64, 0x4000#64, 0x9#64, 0x1008#64) := by decide +kernel

/-- Vector LS59: LOADM.o {r1},{PC,CCRG},0(r31). -/
theorem test_loadm_LS59 :
    after (code [0x007C3071#32, 0x00000002#32] (put [(0x2000#64, 0x1122334455667788#64), (0x2008#64, 0x99aabbccddeeff00#64), (0x2010#64, 0x123456789abcdef#64), (0x7fe8#64, 0x11#64), (0x7ff0#64, 0x2040#64), (0x7ff8#64, 0xffffffff00000021#64)] ({ base with ssp := 0x7fe8#64 })))
      (fun t => (t.x 1#5, t.ccrg, t.x 31#5, t.pc)) = some (0x11#64, 0x21#32, 0x7fe8#64, 0x2040#64) := by decide +kernel

/-- Vector LS62: LOADM.o {},{SR},0(r4). -/
theorem test_loadm_LS62 :
    after (code [0x00104071#32, 0x00000000#32] (put [(0x2000#64, 0x1122334455667788#64), (0x2008#64, 0x99aabbccddeeff00#64), (0x2010#64, 0x123456789abcdef#64), (0x2000#64, 0xffffffff#64)] (regs [(4#5, 0x2000#64)] base)))
      (fun t => (t.sr, t.pc)) = some (0xff00a707#32, 0x1008#64) := by decide +kernel

/-- Vector LS66: LOADM.o {r1,r2},0(r4) with the second slot outside RAM. -/
theorem test_loadm_LS66 :
    after (code [0x00100071#32, 0x00000006#32] (put [(0x2000#64, 0x1122334455667788#64), (0x2008#64, 0x99aabbccddeeff00#64), (0x2010#64, 0x123456789abcdef#64), (0xfff8#64, 0x5555#64), (0x10#64, 0x6000#64)] (regs [(1#5, 0x77#64), (2#5, 0x88#64), (4#5, 0xfff8#64)] base)))
      (fun t => (t.x 1#5, t.x 2#5, t.mem.readLE 0x7FF8#64 8, t.pc)) = some (0x5555#64, 0x88#64, 0x1000#64, 0x6000#64) := by decide +kernel

end

/-! ## States that meet the hypotheses of the obligations -/

/-- The highest program counter from which an instruction of n words can end (R26). -/
def top (n : Nat) : State := { base with pc := BitVec.ofNat 64 (2 ^ 64 - 4 * (n + 1)) }

/-- The program counter from which an instruction of n words ends at 2^64, where the platform allows every access. -/
def last (n : Nat) : State := { base with pc := BitVec.ofNat 64 (2 ^ 64 - 4 * n), params := defaultParams }

/-- The vectors' start state in user mode. -/
def user : State := { base with sr := 0#32 }

/-- A state whose stacks and code lie outside memory. -/
def lost : State := { base with ssp := 0x20000#64, usp := 0x20000#64, pc := 0x20000#64, vb := 0x20000#64 }

theorem base_inv : base.Inv := ⟨by decide, by decide, by decide, by decide⟩

theorem user_inv : user.Inv := ⟨by decide, by decide, by decide, by decide⟩

/-- The words of an instruction stand at the program counter of a state made by `code`. -/
theorem codeAt_one {s : State} {w : InsnWord} (h0 : s.pc.toNat % 4 = 0) (h1 : s.pc.toNat + 4 ≤ 2 ^ 64)
    (h2 : memOk s.params.map (s.pc + 0#64) 4 .fetch = true)
    (h3 : ∀ j, j < 4 → s.stored.has (s.pc + 0#64 + BitVec.ofNat 64 j).toNat = false)
    (h4 : (s.mem.readLE (s.pc + 0#64) 4).setWidth 32 = w) : CodeAt s [w] :=
  ⟨h0, h1, fun k h =>
    match k, h with
    | 0, _ => ⟨h2, .inr fun _ ⟨j, hj, hb⟩ => hb ▸ h3 j hj, h4⟩⟩

theorem codeAt_two {s : State} {w v : InsnWord} (h0 : s.pc.toNat % 4 = 0) (h1 : s.pc.toNat + 8 ≤ 2 ^ 64)
    (h2 : memOk s.params.map (s.pc + 0#64) 4 .fetch = true) (h2' : memOk s.params.map (s.pc + 4#64) 4 .fetch = true)
    (h3 : s.stored = []) (h4 : (s.mem.readLE (s.pc + 0#64) 4).setWidth 32 = w)
    (h4' : (s.mem.readLE (s.pc + 4#64) 4).setWidth 32 = v) : CodeAt s [w, v] :=
  ⟨h0, h1, fun k h =>
    match k, h with
    | 0, _ => ⟨h2, .inr fun _ _ => by rw [h3]; rfl, h4⟩
    | 1, _ => ⟨h2', .inr fun _ _ => by rw [h3]; rfl, h4'⟩⟩

theorem test_witness_DecodingAnEncodingGivesTheInstruction :
    (Instr.addI10 0#3 .o 3#5 1#5 0x1FF#10).wellFormed = true ∧ (Instr.load .o .indirect 1#5 2#5 (.short 0x3FF#11)).wellFormed = true := by
  decide

theorem test_witness_StrictlyDecodedWordsAreEncodings :
    [0x000A#32].length = extWordsOf 0x037C0471#32 ∧
    decodeWord true 0x037C0471#32 [0x000A#32] = .instr (.loadm .o .postUpdate false 0xA#32 0#5 31#5 (.short 24#11)) ∧
    ([] : List InsnWord).length = extWordsOf 0x000811E4#32 ∧
    decodeWord true 0x000811E4#32 [] = .instr (.addRR 0#3 .o 3#5 1#5 2#5) := by decide

/-- Major opcode 11 and 31 for the first clause; vector E14 for the second; SWAP of size 3 for the third. -/
theorem test_witness_UnassignedEncodingsRaiseUnimplemented :
    (0x0000000B#32).toNat % 32 ∈ [11, 12, 26, 30, 31] ∧ (0xFFFFFFFF#32).toNat % 32 ∈ [11, 12, 26, 30, 31] ∧
    (RunsInstruction (code [0x0000000B#32] base) ∧ CodeAt (code [0x0000000B#32] base) [0x0000000B#32] ∧
      decodeWord true 0x0000000B#32 [] = .reject .unassigned) ∧
    RunsInstruction (code [0x004011E1#32] base) ∧ CodeAt (code [0x004011E1#32] base) [0x004011E1#32] ∧
    ([] : List InsnWord).length = extWordsOf 0x004011E1#32 ∧ decodeWord true 0x004011E1#32 [] = .reject .unsupportedSize :=
  ⟨by decide, by decide,
    ⟨by decide, codeAt_one (by decide) (by decide) (by decide) (by decide) (by decide), by decide⟩,
    by decide, codeAt_one (by decide) (by decide) (by decide) (by decide) (by decide), by decide, by decide⟩

theorem test_witness_StepRunsTheDecodedInstruction :
    RunsInstruction (code [0x100211E4#32, 0x80000000#32] base) ∧
    CodeAt (code [0x100211E4#32, 0x80000000#32] base) [0x100211E4#32, 0x80000000#32] ∧
    [0x80000000#32].length = extWordsOf 0x100211E4#32 ∧
    decodeWord true 0x100211E4#32 [0x80000000#32] = .instr (.addI32 0#3 .o 3#5 1#5 0x80000000#32) :=
  ⟨by decide, codeAt_two (by decide) (by decide) (by decide) (by decide) (by decide) (by decide) (by decide), by decide, by decide⟩

/-- A step that answers a next state (vector A7). -/
theorem step_base : ∃ t, step (code [0x1F7E10E4#32] base) = .next t := ⟨_, rfl⟩

theorem test_witness_EveryStepKeepsTheInvariant :
    ∃ t, (code [0x1F7E10E4#32] base).Inv ∧ step (code [0x1F7E10E4#32] base) = .next t :=
  ⟨_, ⟨by decide, by decide, by decide, by decide⟩, rfl⟩

theorem test_witness_StepsKeepVectorBaseAndParameters : ∃ s t : State, step s = .next t := ⟨_, step_base⟩

/-- Vector F50 without its frame: a step in user mode that stays there; and a BRK. -/
theorem test_witness_UserModeLeavesOnlyBySystemException :
    (∃ t, (code [0x1F7E10E4#32] user).Inv ∧ user.supervisor = false ∧ step (code [0x1F7E10E4#32] user) = .next t) ∧
    ∃ t, user.Inv ∧ user.supervisor = false ∧ step user = .next t :=
  ⟨⟨_, ⟨by decide, by decide, by decide, by decide⟩, by decide, rfl⟩, _, user_inv, by decide, rfl⟩

/-- Level 7 above mask 6, and level 7 at mask 7 (vectors E5, E6). -/
theorem test_witness_InterruptsAboveTheMaskAreTaken :
    (State.Inv { base with sr := 0x2600#32, irq := [7#3] } ∧ ({ base with sr := 0x2600#32, irq := [7#3] } : State).stuck = false ∧
      ({ base with sr := 0x2600#32, irq := [7#3] } : State).ipl.toNat < ({ base with sr := 0x2600#32, irq := [7#3] } : State).irqLevel.toNat ∧
      CanEnterSystem (BitVec.ofNat 8 (24 + 7)) { base with sr := 0x2600#32, irq := [7#3] }) ∧
    ({ base with sr := 0x2700#32, irq := [7#3] } : State).irqLevel.toNat ≤ ({ base with sr := 0x2700#32, irq := [7#3] } : State).ipl.toNat :=
  ⟨⟨⟨by decide, by decide, by decide, by decide⟩, by decide, by decide, by decide⟩, by decide⟩

/-- A pc that is no multiple of 4; a first word outside RAM (vector E12); an extension word outside RAM (vector E13). -/
theorem test_witness_FailedFetchesRaiseTheirException :
    (RunsInstruction { base with pc := 0x1003#64 } ∧ (0x1003#64).toNat % 4 ≠ 0) ∧
    (RunsInstruction { base with pc := 0x10000#64 } ∧ (0x10000#64).toNat % 4 = 0 ∧
      memOk vectorParams.map 0x10000#64 4 .fetch = false) ∧
    RunsInstruction (code [0x100211E4#32] { base with pc := 0xFFFC#64 }) ∧
    CodeAt (code [0x100211E4#32] { base with pc := 0xFFFC#64 }) [0x100211E4#32] ∧
    decodeWord true 0x100211E4#32 [] ≠ .reject .unassigned ∧ ([] : List InsnWord).length < extWordsOf 0x100211E4#32 ∧
    (0xFFFC#64).toNat + 4 * (0 + 2) ≤ 2 ^ 64 ∧ memOk vectorParams.map (0xFFFC#64 + BitVec.ofNat 64 (4 * (0 + 1))) 4 .fetch = false :=
  ⟨by decide, by decide, by decide, codeAt_one (by decide) (by decide) (by decide) (by decide) (by decide), by decide, by decide,
    by decide, by decide⟩

/-- The stored byte is the last of the first word, and the second of the extension word; the extension word past the top of memory
is that of an instruction in the last word; the instructions that end at 2^64 have one and three words. -/
theorem test_witness_StepsOutsideTheSpecAreRefused :
    (base.stuck = false ∧ base.irqLevel.toNat ≤ base.ipl.toNat ∧ ({ base with sr := 0xA700#32 } : State).trace = true ∧
      ({ base with sr := 0x2704#32 } : State).trace = false ∧ ({ base with sr := 0x2704#32 } : State).near = true) ∧
    (RunsInstruction { base with stored := [0x1003] } ∧ base.pc.toNat % 4 = 0 ∧
      memOk base.params.map base.pc 4 .fetch = true ∧ base.params.ifetchCoherent = false ∧
      ∃ b, InBlock base.pc 4 b ∧ ({ base with stored := [0x1003] } : State).stored.has b = true) ∧
    (decodeWord true 0x100211E4#32 [] ≠ .reject .unassigned ∧ ([] : List InsnWord).length < extWordsOf 0x100211E4#32) ∧
    (RunsInstruction (code [0x100211E4#32] (last 1)) ∧ CodeAt (code [0x100211E4#32] (last 1)) [0x100211E4#32] ∧
      2 ^ 64 < (last 1).pc.toNat + 4 * (0 + 2)) ∧
    (RunsInstruction { code [0x100211E4#32] base with stored := [0x1005] } ∧
      CodeAt { code [0x100211E4#32] base with stored := [0x1005] } [0x100211E4#32] ∧
      memOk base.params.map (base.pc + BitVec.ofNat 64 (4 * (0 + 1))) 4 .fetch = true ∧
      ∃ b, InBlock (base.pc + BitVec.ofNat 64 (4 * (0 + 1))) 4 b ∧
        ({ base with stored := [0x1005] } : State).stored.has b = true) ∧
    (EndsInSequence (last 1) (.addRR 0#3 .o 3#5 1#5 2#5) ∧
      2 ^ 64 ≤ (last 1).pc.toNat + 4 * (encode (.addRR 0#3 .o 3#5 1#5 2#5)).length) ∧
    EndsInSequence (last 3) (.andI64 0#3 .o 3#5 1#5 5#64) ∧
    2 ^ 64 ≤ (last 3).pc.toNat + 4 * (encode (.andI64 0#3 .o 3#5 1#5 5#64)).length :=
  ⟨by decide, ⟨by decide, by decide, by decide, by decide, 0x1003, ⟨3, by decide, by decide⟩, by decide⟩, by decide,
    ⟨by decide, codeAt_one (by decide) (by decide) (by decide) (by decide) (by decide), by decide⟩,
    ⟨by decide,
      codeAt_one (by decide) (by decide) (by decide) (by decide) (by decide), by decide, 0x1005, ⟨1, by decide, by decide⟩, by decide⟩,
    ⟨rfl, by decide⟩, trivial, by decide⟩

theorem test_witness_RegisterWritesReadBack : base.supervisor = true ∧ user.supervisor = false ∧ (31#5 : Reg) ≠ 0#5 := by decide

theorem test_witness_MemoryReadsBackWhatWasWritten :
    Memory.wf [(0, 1#8), (0xFFFFFFFFFFFFFFFF, 2#8)] = true ∧ 8 ≤ 8 ∧ (7 < 8) ∧ ¬ InBlock 0xFFFFFFFFFFFFFFFC#64 8 4 ∧
    Memory.wf ([] : Memory) = true ∧ (∀ b, Memory.read [] b = Memory.read [] b) :=
  ⟨by decide, by decide, by decide,
    fun ⟨k, hk, h⟩ => by revert h; revert hk; revert k; decide, by decide, fun _ => rfl⟩

/-- The last words from which the forms of one, two and three words can end. -/
theorem room_top : Room 1 (top 1) ∧ Room 2 (top 2) ∧ Room 3 (top 3) := by decide

theorem test_witness_AddResultAndFrame :
    ((top 1).ac.getLsbD 2 = false ∧ Room 1 (top 1)) ∧ ((top 2).ac.getLsbD 2 = false ∧ Room 2 (top 2)) ∧
    ((top 3).ac.getLsbD 2 = false ∧ Room 3 (top 3)) := by decide

theorem test_witness_AdcResultAndFrame :
    ((top 1).ac.getLsbD 2 = false ∧ Room 1 (top 1)) ∧ ((top 2).ac.getLsbD 2 = false ∧ Room 2 (top 2)) ∧
    ((top 3).ac.getLsbD 2 = false ∧ Room 3 (top 3)) := by decide

theorem test_witness_AddAndAdcRefusedInDecimalMode : ({ base with ac := 0x4004#64 } : State).ac.getLsbD 2 = true := by decide

theorem test_witness_SubResultAndFrame :
    Room 1 (top 1) ∧ Room 2 (top 2) ∧ Room 3 (top 3) ∧ ∃ x y : Bool, x = false ∧ y = true := by decide

theorem test_witness_CompareResultAndConditions :
    Room 1 (top 1) ∧ Room 2 (top 2) ∧ Room 3 (top 3) ∧ ∃ x y : Bool, x = false ∧ y = true := by decide

theorem test_witness_MultiplyImmediateResultAndFrame : Room 1 (top 1) ∧ Room 2 (top 2) ∧ Room 3 (top 3) := room_top

theorem test_witness_MultiplyRegisterResultAndFrame :
    (((4#5 : Reg) ≠ 3#5 ∨ (3#5 : Reg) = 0#5) ∧ Room 1 (top 1)) ∧ (((0#5 : Reg) ≠ 0#5 ∨ (0#5 : Reg) = 0#5) ∧ Room 1 (top 1)) ∧
    (3#5 : Reg) = 3#5 ∧ (3#5 : Reg) ≠ 0#5 := by decide

/-- A register divisor, an immediate divisor, and with the swap bit a register divisor. -/
theorem test_witness_SignedDivideResultAndFrame :
    (Room 1 (regs [(2#5, 7#64)] (top 1)) ∧ (4#5 : Reg) ≠ 3#5 ∧ (((regs [(2#5, 7#64)] (top 1)).x 2#5).setWidth 64 : Word) ≠ 0#64) ∧
    (Room 2 (top 2) ∧ (immediateAt 64 (1#32) : Word) ≠ 0#64) ∧ (Room 3 (top 3) ∧ (immediateAt 64 (1#64) : Word) ≠ 0#64) ∧
    Room 1 (regs [(1#5, 7#64)] (top 1)) ∧ (((regs [(1#5, 7#64)] (top 1)).x 1#5).setWidth 64 : Word) ≠ 0#64 := by decide

theorem test_witness_UnsignedDivideResultAndFrame :
    (Room 1 (regs [(2#5, 7#64)] (top 1)) ∧ (4#5 : Reg) ≠ 3#5 ∧ (((regs [(2#5, 7#64)] (top 1)).x 2#5).setWidth 64 : Word) ≠ 0#64) ∧
    (Room 2 (top 2) ∧ (immediateAt 64 (1#32) : Word) ≠ 0#64) ∧ (Room 3 (top 3) ∧ (immediateAt 64 (1#64) : Word) ≠ 0#64) ∧
    Room 2 (regs [(1#5, 7#64)] (top 2)) ∧ (((regs [(1#5, 7#64)] (top 2)).x 1#5).setWidth 64 : Word) ≠ 0#64 := by decide

/-- At byte width a register that holds 0x100 is a zero divisor, and so is the Imm10 0x100. -/
theorem test_witness_DivisionByZeroRaisesApplicationException :
    ((4#5 : Reg) ≠ 3#5 ∧ ((regs [(2#5, 0x100#64)] base).x 2#5).setWidth 8 = 0#8) ∧ immediateAt 8 (0x100#32) = 0#8 ∧
    immediateAt 8 (0x100#64) = 0#8 ∧ immediateAt 8 (0x100#10) = 0#8 ∧ (3#5 : Reg) ≠ 0#5 := by decide

theorem test_witness_LogicResultAndFrame : Room 1 (top 1) ∧ Room 2 (top 2) ∧ Room 3 (top 3) := room_top

/-- The most negative byte and another one. -/
theorem test_witness_AbsAndLoadqResultAndFrame :
    Room 1 (top 1) ∧ ((regs [(2#5, 0x80#64)] (top 1)).x 2#5).setWidth 8 = BitVec.intMin 8 ∧
    ((regs [(2#5, 0x81#64)] (top 1)).x 2#5).setWidth 8 ≠ BitVec.intMin 8 := by decide

theorem test_witness_MoveFromCsrResultAndFrame : Room 1 (top 1) ∧ (top 1).supervisor = true := by decide

theorem test_witness_CsrWritesResultAndFrame : Room 1 (top 1) ∧ (top 1).supervisor = true := by decide

theorem test_witness_UndocumentedAndReadOnlyCsrsAreRefused :
    base.supervisor = true ∧
    ((0#7 : BitVec 7) ≠ 1#7 ∧ (0#7 : BitVec 7) ≠ 2#7 ∧ (0#7 : BitVec 7) ≠ 120#7 ∧ (0#7 : BitVec 7) ≠ 121#7) ∧
    (122#7 : BitVec 7) ≠ 1#7 ∧ (122#7 : BitVec 7) ≠ 2#7 ∧ (122#7 : BitVec 7) ≠ 120#7 ∧ (122#7 : BitVec 7) ≠ 121#7 := by decide

theorem test_witness_PrivilegedOperationsTrapInUserMode : user.supervisor = false ∧ (4#5).getLsbD 2 = true := by decide

theorem test_witness_FloatCompareResultAndFrame :
    ((top 1).ac.extractLsb' 0 2 = 0#2 ∧ Room 1 (top 1)) ∧ ((top 2).ac.extractLsb' 0 2 = 0#2 ∧ Room 2 (top 2)) ∧
    ((top 3).ac.extractLsb' 0 2 = 0#2 ∧ Room 3 (top 3)) ∧ ({ base with ac := 0x4002#64 } : State).ac.extractLsb' 0 2 ≠ 0#2 := by decide

theorem test_witness_NamedOnlyOpcodesAreRefused :
    (0x14#32).toNat % 32 = 20 ∧ (0xFFFFFFF5#32).toNat % 32 = 21 ∧ (0x16#32).toNat % 32 = 22 ∧ (0x17#32).toNat % 32 = 23 := by decide

theorem test_witness_SingleBitResultAndFrame : Room 1 (top 1) := by decide
theorem test_witness_BitPairResultAndFrame : Room 1 (top 1) := by decide
theorem test_witness_ShiftResultAndFrame : Room 1 (top 1) := by decide
theorem test_witness_RotateResultAndFrame : Room 1 (top 1) := by decide
theorem test_witness_RotateThroughCarryResultAndFrame : Room 1 (top 1) := by decide
theorem test_witness_SwapResultAndFrame : Room 1 (top 1) := by decide

theorem test_witness_ConditionsFollowTheTable : 24 ≤ (24#5).toNat ∧ 24 ≤ (31#5).toNat := by decide

/-- Taken and not taken; the first and the last code of a condition and of none. -/
theorem test_witness_BranchResultAndFrame :
    (2 ≤ (Cond.code .hi).toNat ∧ 2 ≤ (Cond.code .fEq).toNat ∧ 24 ≤ (24#5).toNat ∧ 24 ≤ (31#5).toNat) ∧
    condHolds .ne ((top 1).cr 0#3) = true ∧ (condHolds .eq ((top 1).cr 0#3) = false ∧ Room 1 (top 1)) := by decide

/-- DBcc with LC 1, and with LC 0. -/
theorem test_witness_JumpAndCountedBranchResultAndFrame :
    (condHolds .eq ((top 1).cr 0#3) = false ∧ ({ top 1 with lc := 1#64 } : State).lc ≠ 0#64) ∧
    (condHolds .eq ((top 1).cr 0#3) = false ∧ (top 1).lc = 0#64 ∧ Room 1 (top 1)) ∧
    condHolds .ne ((top 1).cr 0#3) = true := by decide

theorem test_witness_CallResultAndFrame :
    base.Inv ∧ (CanCall false base ∧ CanCall true base) ∧ CanCall true { base with ssp := 16#64 } ∧
    CanCall true { base with ssp := 0x10000#64 } := ⟨base_inv, by decide, by decide, by decide⟩

theorem test_witness_ReturnResultAndFrame :
    CanAccess { base with ssp := 0xFFF0#64 } .read ({ base with ssp := 0xFFF0#64 } : State).ssp 8 ∧
    CanAccess base .read (base.x 31#5) 8 ∧ CanAccess base .read (base.x 31#5 + 8#64) 8 := by decide

theorem test_witness_ReturnFromInterruptResultAndFrame :
    base.supervisor = true ∧ CanAccess base .read base.ssp 8 ∧ CanAccess base .read (base.ssp + 8#64) 8 ∧
    CanAccess base .read (base.ssp + 16#64) 8 := by decide

theorem test_witness_SystemExceptionEntry :
    (base.Inv ∧ CanEnterSystem 0#8 base) ∧ CanEnterSystem 255#8 { user with ssp := 24#64 } := ⟨⟨base_inv, by decide⟩, by decide⟩

/-- The first, the second and the third push fail, and the vector read. -/
theorem test_witness_FaultInSystemEntrySticks :
    ¬ CanEnterSystem 2#8 lost ∧ ¬ CanEnterSystem 2#8 { base with ssp := 8#64 } ∧ ¬ CanEnterSystem 2#8 { base with ssp := 16#64 } ∧
    ¬ CanEnterSystem 2#8 { base with vb := 0x20000#64 } ∧ ({ base with stuck := true } : State).stuck = true := by decide

theorem test_witness_ApplicationExceptionEntry :
    (base.Inv ∧ CanEnterApp 31#5 base) ∧ user.Inv ∧ CanEnterApp 0#5 { user with usp := 16#64 } :=
  ⟨⟨base_inv, by decide⟩, user_inv, by decide⟩

theorem test_witness_FaultInApplicationEntryIsASystemException :
    base.Inv ∧ ¬ CanAccess lost .write (lost.x 31#5 - 8#64) 8 ∧
    (CanAccess { base with ssp := 8#64 } .write (({ base with ssp := 8#64 } : State).x 31#5 - 8#64) 8 ∧
      ¬ CanAccess { base with ssp := 8#64 } .write (({ base with ssp := 8#64 } : State).x 31#5 - 16#64) 8) ∧
    CanAccess { base with ac := 0x20000#64 } .write (base.x 31#5 - 8#64) 8 ∧
    CanAccess { base with ac := 0x20000#64 } .write (base.x 31#5 - 16#64) 8 ∧
    ¬ CanAccess { base with ac := 0x20000#64 } .read (appEntryAddress { base with ac := 0x20000#64 } 5#5) 8 :=
  ⟨base_inv, by decide, by decide, by decide, by decide, by decide⟩

theorem test_witness_ReturnsUndoExceptionEntry :
    (base.Inv ∧ CanEnterSystem 32#8 base ∧ CanAccess base .read (base.ssp - 24#64) 8 ∧ CanAccess base .read (base.ssp - 16#64) 8 ∧
      CanAccess base .read (base.ssp - 8#64) 8) ∧
    user.Inv ∧ CanEnterApp 5#5 user ∧ CanAccess user .read (user.x 31#5 - 16#64) 8 ∧ CanAccess user .read (user.x 31#5 - 8#64) 8 :=
  ⟨⟨base_inv, by decide, by decide, by decide, by decide⟩, user_inv, by decide, by decide, by decide⟩

/-- Numbers 31, 32 and 223 under `offset32`, 224, and 32 under `defined31`. -/
theorem test_witness_SystemTraps :
    ((31 : Nat) < 32 ∧ (31#8).toNat = 31) ∧
    ((32#8).toNat < 224 ∧ (223#8).toNat < 224 ∧
      ({ base with params := { vectorParams with trapNumMap := .offset32 } } : State).params.trapNumMap = .offset32) ∧
    224 ≤ (224#8).toNat ∧ (32 ≤ (32#8).toNat ∧ base.params.trapNumMap = .defined31) ∧ (1#5 : Reg) ≠ 31#5 ∧
    ((regs [(2#5, 31#64)] base).x 2#5).toNat = 31 := by decide

theorem test_witness_ApplicationTraps :
    (31#5).toNat < 32 ∧ ((regs [(2#5, 31#64)] base).x 2#5).toNat < 32 ∧ 32 ≤ ((regs [(2#5, 32#64)] base).x 2#5).toNat ∧
    (1#5 : Reg) ≠ 31#5 ∧ (({ base with ccrg := 0x2#32 } : State).cr 0#3).getLsbD 1 = true ∧
    ((top 1).cr 0#3).getLsbD 1 = false ∧ Room 1 (top 1) := by decide

/-- Vectors E1 and E2, and a platform without memory at address 8. -/
theorem test_witness_ResetSequenceResult :
    (CanAccess base .read 0#64 8 ∧ CanAccess base .read 8#64 8) ∧
    ¬ CanAccess { base with params := { vectorParams with map := [] } } .read 0#64 8 ∧
    CanAccess { base with params := { vectorParams with map := [⟨0, 1, [8], true, true, true⟩] } } .read 0#64 8 ∧
    ¬ CanAccess { base with params := { vectorParams with map := [⟨0, 1, [8], true, true, true⟩] } } .read 8#64 8 := by decide

/-- The last octa of RAM; a base that is the program counter is allowed where it is not updated. -/
theorem test_witness_LoadResultAndFrame :
    (MayUpdate .postUpdate 2#5 ∧ (2#5 : Reg) ≠ 1#5 ∧
      CanAccess (regs [(2#5, 0xFFF8#64)] base) .read (address (regs [(2#5, 0xFFF8#64)] base) .postUpdate 2#5 (.short 8#11)) 8 ∧
      Room 1 base) ∧
    (MayUpdate .indirect 0#5 ∧ CanAccess base .read (address base .indirect 0#5 (.ext32 0xFFFFF000#32 : Disp 11)) 8 ∧ Room 2 base) ∧
    CanAccess base .read (indexedAddress (regs [(2#5, 0xFFF7#64)] base) 2#5 1#5 (.short 8#6)) 1 ∧ Room 1 base := by decide

theorem test_witness_StoreResultAndFrame :
    base.Inv ∧
    (MayUpdate .preUpdate 2#5 ∧
      CanAccess (regs [(2#5, 0x10000#64)] base) .write (address (regs [(2#5, 0x10000#64)] base) .preUpdate 2#5 (.short 0x3F8#10)) 8 ∧
      Room 1 base ∧ Room 5 (top 5)) ∧
    CanAccess (regs [(2#5, 0xFFF4#64)] base) .write (indexedAddress (regs [(2#5, 0xFFF4#64)] base) 2#5 1#5 (.short 4#5)) 8 ∧
    Room 1 base ∧ Room 5 base := ⟨base_inv, by decide, by decide, by decide, by decide⟩

theorem test_witness_PushResultAndFrame :
    (base.Inv ∧ Room 1 base ∧ CanAccess base .write (base.x 31#5 - 4#64) 4 ∧ CanAccess base .write (base.x 31#5 - 8#64) 8) ∧
    CanAccess user .write (user.x 31#5 - BitVec.ofNat 64 (pushBytes .o)) (pushBytes .o) ∧
    CanAccess { base with ssp := 4#64 } .write (({ base with ssp := 4#64 } : State).x 31#5 - BitVec.ofNat 64 (pushBytes .t)) (pushBytes .t) ∧
    Room 1 user ∧ Room 3 base := ⟨⟨base_inv, by decide, by decide, by decide⟩, by decide, by decide, by decide, by decide⟩

/-- The empty list reads nothing; r1 and the special register LC read two octas. -/
theorem canAccessSlots_empty (s : State) (k : AccessKind) (sz : Size) (skip : Bool) (a : Word) :
    CanAccessSlots s k sz 0#32 0#5 skip a :=
  ⟨fun i _ h => by simp at h, fun j _ h => by simp at h⟩

theorem test_witness_LoadMultipleResultAndFrame :
    (MayList .o 0x17#5 base ∧ MayList .t 0#5 user ∧ MayUpdate .postUpdate 4#5 ∧ (2#32).getLsbD (4#5 : Reg).toNat = false ∧
      (0x17#5).getLsbD 0 = true ∧ Room 2 base ∧ Room 4 base) ∧
    CanAccessSlots base .read .o 2#32 0x10#5 false (indexedAddress base 4#5 5#5 (.short 0#6)) :=
  ⟨by decide, by unfold CanAccessSlots; decide⟩

theorem test_witness_StoreMultipleResultAndFrame :
    base.Inv ∧ (MayList .o 0x17#5 base ∧ MayUpdate .preUpdate 4#5 ∧ Room 2 base ∧ Room 4 base) ∧
    CanAccessSlots base .write .o 2#32 0x10#5 true (indexedAddress base 4#5 5#5 (.short 0#5)) :=
  ⟨base_inv, by decide, by unfold CanAccessSlots; decide⟩

/-- A misaligned address, and addresses outside RAM, for LOAD and STORE. -/
theorem test_witness_FailedLoadsAndStores :
    (MayUpdate .postUpdate 2#5 ∧ (2#5 : Reg) ≠ 1#5 ∧
      ¬ CanAccess base .read (address (regs [(2#5, 0x2001#64)] base) .postUpdate 2#5 (.short 0#11)) 8 ∧
      ¬ CanAccess base .read (indexedAddress (regs [(2#5, 0x10000#64)] base) 2#5 1#5 (.short 0#6)) 8) ∧
    ¬ CanAccess base .write (address (regs [(2#5, 0x2004#64)] base) .postUpdate 2#5 (.short 0#10)) 8 ∧
    ¬ CanAccess base .write (indexedAddress (regs [(2#5, 0x10000#64)] base) 2#5 1#5 (.short 0#5)) 8 := by decide

/-- The first push, the second push, and each of the three pops, fail. -/
theorem test_witness_FailedPushesAndPops :
    (¬ CanAccess lost .write (lost.x 31#5 - 4#64) 4 ∧
      ¬ CanAccess lost .write (lost.x 31#5 - BitVec.ofNat 64 (pushBytes .t)) (pushBytes .t) ∧
      ¬ CanAccess lost .write (lost.x 31#5 - 8#64) 8) ∧
    (State.Inv { base with ssp := 8#64 } ∧
      CanAccess { base with ssp := 8#64 } .write (({ base with ssp := 8#64 } : State).x 31#5 - 8#64) 8 ∧
      ¬ CanAccess { base with ssp := 8#64 } .write (({ base with ssp := 8#64 } : State).x 31#5 - 16#64) 8) ∧
    (¬ CanAccess lost .read (lost.x 31#5) 8 ∧ lost.supervisor = true) ∧
    (CanAccess base .read 0xFFF8#64 8 ∧ ¬ CanAccess base .read (0xFFF8#64 + 8#64) 8 ∧
      ({ base with ssp := 0xFFF8#64 } : State).x 31#5 = 0xFFF8#64) ∧
    CanAccess base .read 0xFFF0#64 8 ∧ CanAccess base .read (0xFFF0#64 + 8#64) 8 ∧ ¬ CanAccess base .read (0xFFF0#64 + 16#64) 8 :=
  ⟨by decide, ⟨⟨by decide, by decide, by decide, by decide⟩, by decide⟩, by decide, by decide, by decide⟩

/-- The list of r1 and r2 fails at r2, and that of r1 and LC at LC, both at the end of RAM; with both outside it fails at r1. -/
theorem test_witness_FailedMultiples :
    base.Inv ∧ (MayList .o 0x10#5 base ∧ MayUpdate .indirect 0#5) ∧
    address base .indirect 0#5 (.ext64 0xEFF8#64 : Disp 11) = 0xFFF8#64 ∧
    FailsAfter base .read .o 6#32 0#5 false 0xFFF8#64 2#32 0#5 0x10000#64 ∧
    FailsAfter base .write .o 2#32 0x10#5 false 0xFFF8#64 2#32 0#5 0x10000#64 ∧
    FailsAfter base .write .o 6#32 0#5 false 0x10000#64 0#32 0#5 0x10000#64 :=
  ⟨base_inv, by decide, by decide,
    ⟨.inl ⟨2, by decide⟩, by unfold CanAccessSlots; decide, by decide⟩,
    ⟨.inr ⟨4, by decide⟩, by unfold CanAccessSlots; decide, by decide⟩,
    ⟨.inl ⟨1, by decide⟩, by unfold CanAccessSlots; decide, by decide⟩⟩

theorem test_witness_FailedAccessesRaiseTheirException :
    ¬ CanAccess lost .read (lost.x 31#5) 8 ∧ FailsAfter base .read .o 6#32 0#5 false 0xFFF8#64 2#32 0#5 0x10000#64 :=
  ⟨test_witness_FailedPushesAndPops.2.2.1.1, test_witness_FailedMultiples.2.2.2.1⟩

theorem test_witness_RefusedUpdatesAndLists :
    (UpdMode.postUpdate ≠ .indirect ∧ UpdMode.preUpdate ≠ .indirect) ∧ (4#5 : Reg) ≠ 0#5 ∧ MayList .b 0#5 user ∧
    (MayList .o 0x17#5 base ∧ (0x10#32).getLsbD (4#5 : Reg).toNat = true) ∧ (0x10#5 : BitVec 5) ≠ 0#5 ∧ Size.t ≠ .o := by decide

end Sys2Proof.Tests
end

section
/-! PROOFS. Flow control: the condition table (R230), and Bcc and BRA (R105, R232, R233). -/

namespace Sys2Proof.Proofs.FlowControl

open Sys2Proof Sys2Proof.Machine Sys2Proof.Claims

/-! ## The condition table (R230) -/

/-- The model's condition is that of the table. Most conditions test single flags for a value; GE, LT, GT and LE also compare
N with V, which the model writes out as a case split on the two. -/
theorem condHolds_eq_conditionTable (c : Cond) (f : BitVec 4) :
    condHolds c f = conditionTable (f.getLsbD 3) (f.getLsbD 2) (f.getLsbD 1) (f.getLsbD 0) c := by
  cases c <;> simp only [condHolds, conditionTable]
  case ge | lt | gt | le => cases f.getLsbD 3 <;> cases f.getLsbD 1 <;> simp
  all_goals simp

theorem condCode_lt (c : Cond) : c.code.toNat < 24 := by cases c <;> decide

/-- The codes are below 0x18, and every code that names a condition is that condition's. -/
theorem condOfCode_eq_none {c : BitVec 5} (h : 24 ≤ c.toNat) : Cond.ofCode c = none := by
  cases hc : Cond.ofCode c with
  | none => rfl
  | some x =>
    have hlt := condCode_lt x
    rw [Cond.code_of_ofCode hc] at hlt
    omega

/-- Settles O40. -/
theorem conditionsFollowTheTable : Obligations.ConditionsFollowTheTable :=
  ⟨condHolds_eq_conditionTable, by decide, Cond.ofCode_code, fun _ => condOfCode_eq_none⟩

/-! ## The words of format BR with major opcode 28 (R105) -/

theorem decodeWord_op28 (strict : Bool) (disp : BitVec 19) (cr : BitVec 3) (cond : BitVec 5) (ext : List InsnWord) :
    decodeWord strict (disp ++ cr ++ cond ++ 28#5) ext = decodeBcc ⟨disp, cr, cond, 28#5⟩ := by
  change decodeWord strict (BranchFields.word ⟨disp, cr, cond, 28#5⟩) ext = _
  simp [decodeWord]

/-- The codes 0 and 1, of "always" and "never", are those of BRA and BSR; the other conditions make a Bcc. -/
theorem decodeBcc_code {c : Cond} (h : 2 ≤ c.code.toNat) (disp : BitVec 19) (cr : BitVec 3) (op : BitVec 5) :
    decodeBcc ⟨disp, cr, c.code, op⟩ = .instr (.bcc c cr disp) := by
  cases c
  case ra | sr => exact absurd h (by decide)
  all_goals rfl

theorem decodeBcc_zero (disp : BitVec 19) (cr : BitVec 3) (op : BitVec 5) :
    decodeBcc ⟨disp, cr, 0#5, op⟩ = .instr (.bra (cr ++ disp)) := rfl

theorem decodeBcc_unassigned {c : BitVec 5} (h : 24 ≤ c.toNat) (disp : BitVec 19) (cr : BitVec 3) (op : BitVec 5) :
    decodeBcc ⟨disp, cr, c, op⟩ = .reject .unassigned := by
  simp [decodeBcc, condOfCode_eq_none h]

/-! ## Branches (R232, R233) -/

/-- A taken branch goes to its own address plus the displacement, and changes nothing else. -/
theorem branchOp_taken (disp : Word) (s : State) : Completes (branchOp true disp s) (JumpsTo (s.pc + disp) s) :=
  ⟨_, rfl, rfl⟩

/-- A branch not taken goes to the next instruction, and changes nothing else. -/
theorem branchOp_not_taken (disp : Word) {s : State} (h : Room 1 s) :
    Completes (branchOp false disp s) (JumpsTo (s.pc + 4#64) s) :=
  ⟨_, advance_next.2 ⟨h, rfl⟩, rfl⟩

theorem exec_bcc (c : Cond) (cr : CReg) (d : BitVec 19) (s : State) :
    exec (.bcc c cr d) s = branchOp (condHolds c (s.cr cr)) (BitVec.ofInt 64 (4 * d.toInt)) s := by
  rw [← branchDisp_eq]
  rfl

theorem exec_bra (e : BitVec 22) (s : State) : exec (.bra e) s = branchOp true (BitVec.ofInt 64 (4 * e.toInt)) s := by
  rw [← longBranchDisp_eq]
  rfl

/-- Settles O41: the decoder on words of format BR, then `branchOp` on the displacement as an integer. -/
theorem branchResultAndFrame : Obligations.BranchResultAndFrame := by
  refine ⟨fun strict c cr d h => ?bccWord, fun strict e => ?braWord, fun strict c cr d h => ?noCondition,
    fun s c cr d e => ⟨fun h => ?taken, fun h room => ?notTaken, ?always⟩⟩
  case bccWord => rw [decodeWord_op28, decodeBcc_code h]
  case braWord => rw [decodeWord_op28, decodeBcc_zero, join_3_19]
  case noCondition => rw [decodeWord_op28, decodeBcc_unassigned h]
  case taken => rw [exec_bcc, h]; exact branchOp_taken _ s
  case notTaken => rw [exec_bcc, h]; exact branchOp_not_taken _ room
  case always => rw [exec_bra]; exact branchOp_taken _ s

end Sys2Proof.Proofs.FlowControl
end

section
/-! PROOFS. What every instruction can do, said once: from its start it makes changes that user mode may make, writes SR only in
supervisor mode, and ends there or in a system exception. The invariants over all steps are two readings of that. -/

namespace Sys2Proof.Proofs.EveryStep

open Sys2Proof Sys2Proof.Machine Sys2Proof.Claims

/-- `K` is kept by each change an instruction started in `s` makes, SR being written in supervisor mode only, and `E` holds
after a system exception. -/
structure Admits (s : State) (K E : State → Prop) : Prop where
  start        : K s
  setX         : ∀ {t : State} (i : Reg) (v : Word), K t → K (t.setX i v)
  ccrg         : ∀ {t : State} (v : BitVec 32), K t → K { t with ccrg := v }
  sr           : ∀ {t : State} (v : BitVec 32), s.supervisor = true → K t → K (t.writeSr v)
  ac           : ∀ {t : State} (v : Word), K t → K (t.writeAc v)
  lc           : ∀ {t : State} (v : Word), K t → K { t with lc := v }
  jump         : ∀ {t : State} (a : Word), K t → K (t.jump a)
  store        : ∀ {t : State} (a : Word) (n : Nat) (v : Word), K t → K (t.storeBytes a n v)
  drawn        : ∀ {t : State} (n : Nat), K t → K (t.drawn n)
  sysException : ∀ {t : State} (v : SysVector) (ret : Word), K t → E (sysException v ret t)

/-- A rule that answers a next state answers one of `K` or one of `E`. -/
def Ends (K E : State → Prop) (r : Result) : Prop := ∀ t, r = .next t → K t ∨ E t

/-- A rule that makes accesses goes on with `P`, or stops in a state of `K`. -/
def Passes {α : Type} (K : State → Prop) (P : α → State → Prop) : Act α → Prop
  | .ok a t => P a t
  | .raise _ t => K t

section
variable {s : State} {K E : State → Prop}

theorem ends_refused (r : Refusal) : Ends K E (.refused r) := nofun

theorem ends_next {t : State} (ht : K t) : Ends K E (.next t) := fun _ e => by cases e; exact .inl ht

theorem ends_ite {c : Prop} [Decidable c] {a b : Result} (ha : c → Ends K E a) (hb : ¬ c → Ends K E b) :
    Ends K E (if c then a else b) := by
  split
  · next hc => exact ha hc
  · next hc => exact hb hc

theorem Passes.andThen {α β : Type} {P : α → State → Prop} {Q : β → State → Prop} {m : Act α} {k : α → State → Act β}
    (hm : Passes K P m) (hk : ∀ a t, P a t → Passes K Q (k a t)) : Passes K Q (m.andThen k) := by
  cases m with
  | ok a t => exact hk a t hm
  | raise v t => exact hm

theorem passes_memRead {t : State} (a : Word) (n : Nat) (ht : K t) : Passes K (fun _ => K) (memRead a n t) := by
  unfold memRead
  split <;> exact ht

/-! ## The shared operations -/

variable (h : Admits s K E)
include h

theorem ends_sysException {t : State} (v : SysVector) (ret : Word) (ht : K t) : Ends K E (.next (sysException v ret t)) :=
  fun _ e => by cases e; exact .inr (h.sysException v ret ht)

theorem ends_advance {t : State} (words : Nat) (ht : K t) : Ends K E (advance words t) := fun u e => by
  rw [(advance_next.1 e).2]
  exact .inl (h.jump _ ht)

theorem Admits.wb {w : Nat} {t : State} (i : Reg) (r : BitVec w) (ht : K t) : K (t.wb i r) := by
  unfold State.wb
  split
  · exact h.setX _ _ ht
  · split
    · exact h.setX _ _ ht
    · exact h.setX _ _ ht
    · exact h.setX _ _ ht
    · exact h.drawn _ (h.setX _ _ ht)

theorem Admits.setCr {t : State} (n : CReg) (v : BitVec 4) (ht : K t) : K (t.setCr n v) := h.ccrg _ ht

theorem Admits.writeFlags {t : State} (n : CReg) (m v : BitVec 4) (ht : K t) : K (t.writeFlags n m v) := by
  obtain ⟨f, k, e, -⟩ := t.writeFlags_spec n m v
  rw [e]
  exact h.drawn _ (h.setCr n f ht)

theorem Admits.updateBase {t : State} (u : Option (Reg × Word)) (ht : K t) : K (t.updateBase u) := by
  cases u with
  | none => exact ht
  | some p => exact h.setX _ _ ht

theorem passes_memWrite {t : State} (a : Word) (n : Nat) (v : Word) (ht : K t) : Passes K (fun _ => K) (memWrite a n v t) := by
  unfold memWrite
  split
  · exact ht
  · exact h.store a n v ht

theorem passes_push8 {t : State} (v : Word) (ht : K t) : Passes K (fun _ => K) (push8 v t) :=
  (passes_memWrite h _ _ _ ht).andThen fun _ _ hu => h.setX _ _ hu

theorem passes_pop8 {t : State} (ht : K t) : Passes K (fun _ => K) (pop8 t) :=
  (passes_memRead _ _ ht).andThen fun _ _ hu => h.setX _ _ hu

theorem ends_finish {α : Type} {P : α → State → Prop} {m : Act α} {k : α → State → Result} (hm : Passes K P m)
    (hk : ∀ a t, P a t → Ends K E (k a t)) : Ends K E (m.finish k) := by
  cases m with
  | ok a t => exact hk a t hm
  | raise v t => exact ends_sysException h v _ hm

theorem ends_appException {t : State} (v : AppVector) (ret : Word) (ht : K t) : Ends K E (.next (appException v ret t)) := by
  have hf : Passes K (fun _ => K) (appFrame v ret t) :=
    (passes_push8 h _ ht).andThen fun _ _ h1 => (passes_push8 h _ h1).andThen fun _ _ h2 => passes_memRead _ _ h2
  unfold appException
  split
  · next e => rw [e] at hf; exact ends_next (h.jump _ hf)
  · next e => rw [e] at hf; exact ends_sysException h _ _ hf

/-! ## Arithmetic, logic, bits, shifts (R131) -/

theorem ends_finishAlu {w : Nat} (ct : CReg) (rt : Reg) (r : BitVec w) (m f : BitVec 4) (words : Nat) :
    Ends K E (finishAlu ct rt r m f words s) := ends_advance h words (h.writeFlags ct m f (h.wb rt r h.start))

theorem ends_addOp {w : Nat} (ct : CReg) (rt : Reg) (a b : BitVec w) (words : Nat) : Ends K E (addOp ct rt a b words s) :=
  ends_ite (fun _ => ends_refused _) fun _ => ends_finishAlu h ct rt _ _ _ words

theorem ends_adcOp {w : Nat} (ct : CReg) (rt : Reg) (a b : BitVec w) (words : Nat) : Ends K E (adcOp ct rt a b words s) :=
  ends_ite (fun _ => ends_refused _) fun _ => ends_finishAlu h ct rt _ _ _ words

theorem ends_writeFlags (ct : CReg) (m f : BitVec 4) (words : Nat) : Ends K E (advance words (s.writeFlags ct m f)) :=
  ends_advance h words (h.writeFlags ct m f h.start)

theorem ends_finishMul {w : Nat} {t : State} (ct : CReg) (r : BitVec w) (v : Bool) (words : Nat) (ht : K t) :
    Ends K E (finishMul ct r v words t) := ends_advance h words (h.drawn _ (h.setCr ct _ ht))

theorem ends_mulOp {w : Nat} (ct : CReg) (rt : Reg) (r : BitVec w) (v : Bool) (words : Nat) :
    Ends K E (mulOp ct rt r v words s) := ends_finishMul h ct r v words (h.wb rt r h.start)

theorem ends_mulOpHigh {w : Nat} (ct : CReg) (rt rp : Reg) (r hi : BitVec w) (v : Bool) :
    Ends K E (mulOpHigh ct rt rp r hi v s) :=
  ends_ite (fun _ => ends_refused _) fun _ => ends_finishMul h ct r v 1 (h.wb rp hi (h.wb rt r h.start))

theorem ends_divOp {w : Nat} (ct : CReg) (rt : Reg) (b : BitVec w) (x : DivResult w) (words : Nat) :
    Ends K E (divOp ct rt b x words s) :=
  ends_ite (fun _ => ends_appException h _ _ h.start) fun _ =>
    ends_advance h words (h.setCr ct _ (h.wb rt _ (h.drawn _ h.start)))

theorem ends_divOpRem {w : Nat} (ct : CReg) (rt rr : Reg) (b : BitVec w) (x : DivResult w) :
    Ends K E (divOpRem ct rt rr b x s) :=
  ends_ite (fun _ => ends_refused _) fun _ => ends_ite (fun _ => ends_appException h _ _ h.start) fun _ =>
    ends_advance h 1 (h.setCr ct _ (h.wb rr _ (h.wb rt _ (h.drawn _ h.start))))

theorem ends_shiftOp {w : Nat} (step : ShiftState w → ShiftState w) (ct : CReg) (rt : Reg) (a : BitVec w) (n : Nat) :
    Ends K E (shiftOp step ct rt a n s) :=
  ends_ite (fun _ => ends_advance h 1 (h.drawn _ (h.setCr ct _ (h.wb rt _ h.start)))) fun _ =>
    ends_advance h 1 (h.setCr ct _ (h.wb rt _ h.start))

theorem ends_swapOp {u : Nat} (ct : CReg) (rt : Reg) (lo hi : BitVec u) : Ends K E (swapOp ct rt lo hi s) :=
  ends_advance h 1 (h.drawn _ (h.setCr ct _ (h.wb rt _ h.start)))

theorem ends_fcmpOp (ct : CReg) (sz : Size) (p : BitVec (sizeBits sz) × BitVec (sizeBits sz)) (words : Nat) :
    Ends K E (fcmpOp ct sz p words s) :=
  ends_ite (fun _ => ends_writeFlags h ct _ _ words) fun _ => ends_refused _

/-! ## Control and special registers (R137) -/

theorem ends_csrChecked (n : CsrNum) {k : CsrReg → Result}
    (hk : ∀ r, (r.privileged = true → s.supervisor = true) → Ends K E (k r)) : Ends K E (csrChecked n s k) := by
  unfold csrChecked
  split
  · exact ends_refused _
  · next r _ =>
    refine ends_ite (fun _ => ends_sysException h _ _ h.start) fun hc => hk r fun hp => ?_
    simpa [hp] using hc

theorem Admits.csrRead (r : CsrReg) : K (s.csrRead r).2 := by
  cases r
  case tick => exact h.drawn _ h.start
  all_goals exact h.start

theorem ends_csrWrite {t : State} (r : CsrReg) (v : Word) (hp : r.privileged = true → s.supervisor = true) (ht : K t) :
    Ends K E (csrWrite r v t) := by
  cases r
  case ccr => exact ends_advance h 1 (h.ccrg _ ht)
  case sr => exact ends_advance h 1 (h.sr _ (hp rfl) ht)
  case tick | coreno => exact ends_refused _

theorem ends_moveFromCsr (n : CsrNum) (rb : Reg) : Ends K E (execMoveFromCsr n rb s) :=
  ends_csrChecked h n fun r _ => ends_advance h 1 (h.setX _ _ (h.csrRead r))

theorem ends_moveToCsr (n : CsrNum) (rb : Reg) : Ends K E (execMoveToCsr n rb s) :=
  ends_csrChecked h n fun r hp => ends_csrWrite h r _ hp h.start

theorem ends_csrUpdate (f : Word → Word → Word) (n : CsrNum) (rb : Reg) : Ends K E (csrUpdate f n rb s) :=
  ends_csrChecked h n fun r hp => ends_csrWrite h r _ hp (h.csrRead r)

/-! ## Flow control -/

theorem ends_trapOp (num : Word) (data : BitVec 11) (rt : Reg) : Ends K E (trapOp num data rt s) := by
  unfold trapOp
  split
  · exact ends_refused _
  · exact ends_ite (fun _ => ends_refused _) fun _ => ends_sysException h _ _ (h.setX _ _ h.start)

theorem ends_appTrapOp (v : AppVector) (data : BitVec 11) (rt : Reg) : Ends K E (appTrapOp v data rt s) :=
  ends_ite (fun _ => ends_refused _) fun _ => ends_appException h _ _ (h.setX _ _ h.start)

theorem ends_branchOp {t : State} (taken : Bool) (disp : Word) (ht : K t) : Ends K E (branchOp taken disp t) :=
  ends_ite (fun _ => ends_next (h.jump _ ht)) fun _ => ends_advance h 1 ht

theorem ends_callOp (g : Bool) (target : Word) (words : Nat) : Ends K E (callOp g target words s) :=
  ends_finish h (P := fun _ => K)
    ((passes_push8 h _ h.start).andThen fun _ t ht => by
      cases g
      · exact ht
      · exact passes_push8 h _ ht)
    fun _ t ht => ends_next (h.jump _ ht)

theorem Admits.dropArgs {t : State} (arg : BitVec 10) (ht : K t) : K (t.dropArgs arg) := h.setX _ _ ht

theorem ends_rts (arg : BitVec 10) (rpt : BitVec 5) : Ends K E (execRts arg rpt s) :=
  ends_finish h (passes_pop8 h h.start) fun _ _ ht => ends_next (h.jump _ (h.dropArgs arg ht))

theorem ends_appReturn (arg : BitVec 10) (rpt : BitVec 5) : Ends K E (appReturn arg rpt s) :=
  ends_finish h (P := fun _ => K)
    ((passes_pop8 h h.start).andThen fun _ _ h1 => (passes_pop8 h h1).andThen fun _ _ h2 => h2)
    fun _ _ ht => ends_next (h.jump _ (h.ccrg _ (h.dropArgs arg ht)))

theorem ends_sysReturn (arg : BitVec 10) (rpt : BitVec 5) (hs : s.supervisor = true) : Ends K E (sysReturn arg rpt s) :=
  ends_finish h (P := fun _ => K)
    ((passes_pop8 h h.start).andThen fun _ _ h1 => (passes_pop8 h h1).andThen fun _ _ h2 =>
      (passes_pop8 h h2).andThen fun _ _ h3 => h3)
    fun _ _ ht => ends_next (h.jump _ (h.sr _ hs (h.ccrg _ (h.dropArgs arg ht))))

/-! ## Loads, stores and lists -/

theorem ends_loadOp (sz : Size) (rt : Reg) (a : Word) (u : Option (Reg × Word)) (words : Nat) :
    Ends K E (loadOp sz rt a u words s) :=
  ends_ite (fun _ => ends_refused _) fun _ => ends_ite (fun _ => ends_refused _) fun _ =>
    ends_finish h (passes_memRead _ _ h.start) fun _ _ ht => ends_advance h words (h.updateBase u (h.wb rt _ ht))

theorem ends_storeOp (n : Nat) (v a : Word) (u : Option (Reg × Word)) (words : Nat) : Ends K E (storeOp n v a u words s) :=
  ends_ite (fun _ => ends_refused _) fun _ =>
    ends_finish h (passes_memWrite h _ _ _ h.start) fun _ _ ht => ends_advance h words (h.updateBase u ht)

theorem ends_pushOp (n : Nat) (v : Word) (words : Nat) : Ends K E (pushOp n v words s) := ends_storeOp h n v _ _ words

theorem ends_listChecked (sz : Size) (special : BitVec 5) {k : Result}
    (hk : (special.getLsbD 2 = true → s.supervisor = true) → Ends K E k) : Ends K E (listChecked sz special s k) := by
  refine ends_ite (fun _ => ends_refused _) fun _ => ends_ite (fun _ => ends_sysException h _ _ h.start) fun hc => hk fun hp => ?_
  rw [hp] at hc
  simpa using hc

/-- A LOADM holds only values of special registers that its list has. -/
theorem passes_loadSlots (sz : Size) (ea : Word) (slots : List (Nat × Slot)) (held : List (Special × Word)) {t : State}
    (ht : K t) (hs : ∀ p ∈ slots, p.2 = .special .sr → s.supervisor = true)
    (hh : ∀ p ∈ held, p.1 = .sr → s.supervisor = true) :
    Passes K (fun held u => K u ∧ ∀ p ∈ held, p.1 = .sr → s.supervisor = true) (loadSlots sz ea slots held t) := by
  induction slots generalizing held t with
  | nil => exact ⟨ht, hh⟩
  | cons x rest ih =>
    obtain ⟨k, slot⟩ := x
    have hrest : ∀ p ∈ rest, p.2 = .special .sr → s.supervisor = true := fun p hp => hs p (List.mem_cons_of_mem _ hp)
    cases slot with
    | general r => exact (passes_memRead _ _ ht).andThen fun v u hu => ih held (h.wb r _ hu) hrest hh
    | special q =>
      refine (passes_memRead _ _ ht).andThen fun v u hu => ih _ hu hrest fun p hp => ?_
      rcases List.mem_append.1 hp with hp | hp
      · exact hh p hp
      · rw [List.mem_singleton.1 hp]
        exact fun e => hs (k, .special q) List.mem_cons_self (congrArg Slot.special e)

theorem Admits.writeSpecials (held : List (Special × Word)) (hh : ∀ p ∈ held, p.1 = .sr → s.supervisor = true) {t : State}
    (ht : K t) : K (t.writeSpecials held) := by
  induction held generalizing t with
  | nil => exact ht
  | cons x rest ih =>
    obtain ⟨q, v⟩ := x
    refine ih (fun p hp => hh p (List.mem_cons_of_mem _ hp)) ?_
    cases q with
    | pc => exact ht
    | ccrg => exact h.ccrg _ ht
    | sr => exact h.sr _ (hh _ List.mem_cons_self rfl) ht
    | ac => exact h.ac _ ht
    | lc => exact h.lc _ ht

theorem ends_finishLoadm (held : List (Special × Word)) (words : Nat) {t : State} (ht : K t) :
    Ends K E (finishLoadm held words t) := by
  unfold finishLoadm
  split
  · exact ends_next (h.jump _ ht)
  · exact ends_advance h words ht

omit h in
theorem mem_numberSlots (skip : Bool) (k : Nat) (places : List (Bool × Slot)) {x : Nat × Slot}
    (hx : x ∈ numberSlots skip k places) : (true, x.2) ∈ places := by
  induction places generalizing k with
  | nil => cases hx
  | cons p rest ih =>
    obtain ⟨b, slot⟩ := p
    cases b with
    | false => exact List.mem_cons_of_mem _ (ih _ hx)
    | true =>
      rcases List.mem_cons.1 hx with rfl | hx
      · exact List.mem_cons_self
      · exact List.mem_cons_of_mem _ (ih _ hx)

omit h in
/-- SR has a slot only where its Special bit is set (R282). -/
theorem sr_mem_slotLayout {list : BitVec 32} {special : BitVec 5} {skip : Bool} {x : Nat × Slot}
    (hx : x ∈ slotLayout list special skip) (he : x.2 = .special .sr) : special.getLsbD 2 = true := by
  have hm := mem_numberSlots skip 0 _ hx
  rw [he] at hm
  rw [listPlaces, List.mem_append] at hm
  rcases hm with hm | hm
  · obtain ⟨i, -, hi⟩ := List.mem_map.1 hm
    exact nomatch (Prod.ext_iff.1 hi).2
  · simp only [List.mem_cons, Prod.mk.injEq, List.not_mem_nil, Slot.special.injEq, reduceCtorEq, and_false, and_true, or_false,
      false_or] at hm
    exact hm.symm

theorem ends_loadmOp (sz : Size) (skip : Bool) (list : BitVec 32) (special : BitVec 5) (ea : Word) (u : Option (Reg × Word))
    (words : Nat) : Ends K E (loadmOp sz skip list special ea u words s) :=
  ends_listChecked h sz special fun hp => ends_ite (fun _ => ends_refused _) fun _ => ends_ite (fun _ => ends_refused _) fun _ =>
    ends_finish h
      (passes_loadSlots h sz ea _ [] h.start (fun _ hx he => hp (sr_mem_slotLayout hx he)) (fun _ hx => nomatch hx))
      fun held _ ht => ends_finishLoadm h held words (h.writeSpecials held ht.2 (h.updateBase u ht.1))

theorem passes_storeSlots (n : Nat) (ea : Word) (slots : List (Nat × Word)) {t : State} (ht : K t) :
    Passes K (fun _ => K) (storeSlots n ea slots t) := by
  induction slots generalizing t with
  | nil => exact ht
  | cons x rest ih => exact (passes_memWrite h _ _ _ ht).andThen fun _ _ hu => ih hu

theorem ends_storemOp (sz : Size) (skip : Bool) (list : BitVec 32) (special : BitVec 5) (ea : Word) (u : Option (Reg × Word))
    (words : Nat) : Ends K E (storemOp sz skip list special ea u words s) :=
  ends_listChecked h sz special fun _ => ends_ite (fun _ => ends_refused _) fun _ =>
    ends_finish h (passes_storeSlots h _ _ _ h.start) fun _ _ ht => ends_advance h words (h.updateBase u ht)

/-! ## Every instruction -/

/-- What an instruction answers is a state that the changes of `Admits` lead to, or a system exception from one. -/
theorem ends_exec (i : Instr) : Ends K E (exec i s) := by
  cases i
  case brk => exact ends_sysException h _ _ h.start
  case trapReg | trapImm => exact ends_trapOp h _ _ _
  case trapv => exact ends_ite (fun _ => ends_appTrapOp h _ _ _) fun _ => ends_advance h 1 h.start
  case atrapReg => exact ends_ite (fun _ => ends_refused _) fun _ => ends_appTrapOp h _ _ _
  case atrapImm => exact ends_appTrapOp h _ _ _
  case swap => exact ends_swapOp h _ _ _ _
  case abs => exact ends_advance h 1 (h.wb _ _ h.start)
  case moveFromCsr => exact ends_moveFromCsr h _ _
  case moveToCsr => exact ends_moveToCsr h _ _
  case orCsr n rb => exact ends_csrUpdate h (fun old v => old ||| v) n rb
  case andcCsr n rb => exact ends_csrUpdate h (fun old v => old &&& ~~~v) n rb
  case eorCsr n rb => exact ends_csrUpdate h (fun old v => old ^^^ v) n rb
  case cmpRR | cmpI32 | cmpI64 | cmpI10 => exact ends_writeFlags h _ _ _ _
  case fcmpRR | fcmpI32 | fcmpI64 | fcmpI10 => exact ends_fcmpOp h _ _ _ _
  case adcRR | adcI32 | adcI64 | adcI10 => exact ends_adcOp h _ _ _ _ _
  case addRR | addI32 | addI64 | addI10 => exact ends_addOp h _ _ _ _ _
  case subRR | subI32 | subI64 | subI10 => exact ends_finishAlu h _ _ _ _ _ _
  case mulsRR | muluRR => exact ends_mulOpHigh h _ _ _ _ _ _
  case mulsI32 | mulsI64 | mulsI10 | muluI32 | muluI64 | muluI10 => exact ends_mulOp h _ _ _ _ _
  case divuRR | divsRR => exact ends_divOpRem h _ _ _ _ _
  case divuI32 | divuI64 | divsI32 | divsI64 | divsI10 => exact ends_divOp h _ _ _ _ _
  case andRR | andI32 | andI64 | andI10 | orRR | orI32 | orI64 | orI10 | eorRR | eorI32 | eorI64 | eorI10 | loadq =>
    exact ends_finishAlu h _ _ _ _ _ _
  case bclrReg | bclrImm | bsetReg | bsetImm | bchgReg | bchgImm | bpclrReg | bpclrImm | bpchgReg | bpchgImm =>
    exact ends_finishAlu h _ _ _ _ _ _
  case btstReg | btstImm | bptstReg | bptstImm => exact ends_writeFlags h _ _ _ _
  case aslReg | aslImm | asrReg | asrImm | lslReg | lslImm | lsrReg | lsrImm => exact ends_shiftOp h _ _ _ _ _
  case rolReg | rolImm | rolcReg | rolcImm | rorReg | rorImm | rorcReg | rorcImm => exact ends_shiftOp h _ _ _ _ _
  case rts => exact ends_rts h _ _
  case rti => exact ends_ite (fun hs => ends_sysReturn h _ _ hs) fun _ => ends_sysException h _ _ h.start
  case arti => exact ends_appReturn h _ _
  case loadX => exact ends_loadOp h _ _ _ none _
  case load => exact ends_loadOp h _ _ _ _ _
  case loadmX | loadm => exact ends_loadmOp h _ _ _ _ _ _ _
  case pushT | pushO | peaX | pea => exact ends_pushOp h _ _ _
  case storeX | storeImmX => exact ends_storeOp h _ _ _ none _
  case store | storeImm => exact ends_storeOp h _ _ _ _ _
  case storemX | storem => exact ends_storemOp h _ _ _ _ _ _ _
  case fma | fms | fnma | fnms => exact ends_refused _
  case jmpReg | jmpI32 | jmpI64 | jmpI10 => exact ends_next (h.jump _ h.start)
  case jsrReg | jsrI32 | jsrI64 | jsrI10 | bsr => exact ends_callOp h _ _ _
  case bra => exact ends_branchOp h true _ h.start
  case bcc => exact ends_branchOp h _ _ h.start
  case dbcc => exact ends_branchOp h _ _ (h.lc _ h.start)

theorem ends_runInstr : Ends K E (runInstr s) := by
  refine ends_ite (fun _ => ends_refused _) fun _ => ends_ite (fun _ => ends_refused _) fun _ => ?_
  split
  · exact ends_exec h _
  · exact ends_sysException h _ _ h.start
  · exact ends_refused _

end

/-- A step that answers a next state is not of a stuck machine; it takes an interrupt, or runs the instruction at `pc`. -/
theorem step_next {s t : State} (e : step s = .next t) :
    s.stuck = false ∧ (t = takeInterrupt s.irqLevel s.nextBoundary ∨ runInstr s.nextBoundary = .next t) := by
  unfold step cycle at e
  split at e
  · cases e
  · next hs =>
    refine ⟨by simpa using hs, ?_⟩
    split at e
    · cases e; exact .inl rfl
    · exact .inr e

/-! ## The invariant and the fields that no step writes -/

/-- Chains of updates are such changes, and so is a system exception. -/
theorem admits_reaches (s : State) : Admits s (Reaches s) (Reaches s) where
  start := .refl
  setX i v ht := ht.tail (Upd.setX _ i v)
  ccrg v ht := ht.tail (Upd.ccrg _ v)
  sr v _ ht := ht.tail (Upd.sr _ v)
  ac v ht := ht.tail (Upd.ac _ v)
  lc v ht := ht.tail (Upd.lc _ v)
  jump a ht := ht.tail (Upd.jump _ a)
  store a n v ht := ht.tail (Upd.store _ a n v)
  drawn n ht := ht.tail (Upd.drawn _ n)
  sysException v ret ht := ht.trans (reaches_sysException v ret _)

/-- A step moves the input on and then makes a chain of updates. -/
theorem step_reaches {s t : State} (e : step s = .next t) : Reaches s.nextBoundary t := by
  rcases (step_next e).2 with rfl | hr
  · exact reaches_takeInterrupt _ _
  · exact or_self_iff.1 (ends_runInstr (admits_reaches _) t hr)

theorem inv_nextBoundary {s : State} (h : s.Inv) : s.nextBoundary.Inv := ⟨h.mem, h.stored, h.sr, h.ac⟩

/-- Settles O6: a step is a chain of updates, each of which keeps the invariant. -/
theorem everyStepKeepsTheInvariant : Obligations.EveryStepKeepsTheInvariant :=
  fun _ _ hi e => (step_reaches e).inv (inv_nextBoundary hi)

/-- Settles O8: a step is a chain of updates, none of which writes VB, a parameter or the input. -/
theorem stepsKeepVectorBaseAndParameters : Obligations.StepsKeepVectorBaseAndParameters := fun _ _ e => (step_reaches e).fixed

/-! ## User mode (R331) -/

/-- In user mode the changes keep SR and the system stack pointer, and a system exception enters by the table. -/
theorem admits_userKeeps {s : State} (hw : s.mem.wf = true) (hs : s.supervisor = false) :
    Admits s (UserKeeps s) (EntersFromUser s) where
  start := .refl s
  setX i v ht := ht.trans (userKeeps_setX i v (ht.supervisor.trans hs))
  ccrg _ ht := ht.trans ⟨rfl, rfl, rfl, rfl, id⟩
  sr _ hp _ := absurd (hs.symm.trans hp) (by decide)
  ac _ ht := ht.trans ⟨rfl, rfl, rfl, rfl, id⟩
  lc _ ht := ht.trans ⟨rfl, rfl, rfl, rfl, id⟩
  jump a ht := ht.trans (userKeeps_jump _ a)
  store a n v ht := ht.trans (userKeeps_storeBytes _ a n v)
  drawn n ht := ht.trans (userKeeps_drawn _ n)
  sysException v ret ht := .of_keeps ht (sysException_enters v ret (ht.wf hw))

/-- Raising the mask after an entry changes of SR the mask only (R322). -/
theorem EntersFromUser.setIpl {s t : State} (l : BitVec 3) (h : EntersFromUser s t) : EntersFromUser s (t.setIpl l) := by
  have hmask : ∀ l : BitVec 3, l.setWidth 32 <<< 8 &&& ~~~0x00002700#32 = 0#32 := by decide
  rcases h with h | ⟨hsup, hssp, hold, hpc, hsr⟩
  · exact .inl h
  · refine .inr ⟨?_, hssp, hold, hpc, ?_⟩
    · have hb : t.sr.getLsbD 13 = true := hsup
      simp [State.supervisor, hb]
    · rw [← hsr, State.setIpl_sr, BitVec.and_comm, BitVec.and_or_distrib_left, BitVec.and_comm _ (l.setWidth 32 <<< 8), hmask,
        BitVec.or_zero, BitVec.and_comm, BitVec.and_assoc]
      rfl

/-- Settles O9: an instruction in user mode keeps SR and SSP or takes a system exception; an interrupt takes one. -/
theorem userModeLeavesOnlyBySystemException : Obligations.UserModeLeavesOnlyBySystemException := by
  intro s t hi hu e
  obtain ⟨hstuck, he⟩ := step_next e
  have h : UserKeeps s.nextBoundary t ∨ EntersFromUser s.nextBoundary t := by
    rcases he with rfl | hr
    · exact .inr (EntersFromUser.setIpl _ (sysException_enters _ _ hi.mem))
    · exact ends_runInstr (admits_userKeeps (s := s.nextBoundary) hi.mem hu) t hr
  exact h.imp (fun k => ⟨k.supervisor.trans hu, k.sr, k.ssp, k.stuck.trans hstuck⟩) id

end Sys2Proof.Proofs.EveryStep
end

section
/-! PROOFS. The decoder reads back what the encoder writes (`spec/30_encoding.md`), opcode by opcode. -/

namespace Sys2Proof.Proofs.RoundTrip

open Sys2Proof Sys2Proof.Machine Sys2Proof.Claims Sys2Proof.Laws Sys2Proof.Proofs.FlowControl

/-! ## Words and bytes (R62) -/

theorem wordOfBytes_bytesOfWord (w : InsnWord) :
    wordOfBytes (w.extractLsb' 0 8) (w.extractLsb' 8 8) (w.extractLsb' 16 8) (w.extractLsb' 24 8) = w := by
  unfold wordOfBytes
  refine Eq.trans ?_ (BitVec.extractLsb'_eq_self (x := w))
  rw [join_cut w 8 16 8, join_cut w 16 8 8, join_cut w 24 0 8]

theorem wordsOfBytes_flatMap (ws : List InsnWord) : wordsOfBytes (ws.flatMap bytesOfWord) = ws := by
  induction ws with
  | nil => rfl
  | cons w ws ih =>
    change wordOfBytes _ _ _ _ :: wordsOfBytes (ws.flatMap bytesOfWord) = _
    rw [ih, wordOfBytes_bytesOfWord]

/-- The bytes of a first word with the extension words it calls for decode as these words do. -/
theorem decodeBytes_flatMap {strict : Bool} {w : InsnWord} {ext : List InsnWord} (h : ext.length = extWordsOf w) :
    decodeBytes strict ((w :: ext).flatMap bytesOfWord) = decodeWord strict w ext := by
  unfold decodeBytes
  rw [wordsOfBytes_flatMap]
  exact if_neg (by omega)

/-- Every well-formed instruction is encoded in a first word and the extension words that this one calls for. -/
theorem encodeLength : ∀ i, EncodeLength.Statement i
  | .brk => EncodeLength.brk | .trapReg _ _ _ => EncodeLength.trapReg _ _ _ | .trapImm _ _ _ => EncodeLength.trapImm _ _ _
  | .trapv _ _ _ => EncodeLength.trapv _ _ _ | .atrapReg _ _ _ => EncodeLength.atrapReg _ _ _
  | .atrapImm _ _ _ => EncodeLength.atrapImm _ _ _ | .swap _ _ _ _ => EncodeLength.swap _ _ _ _
  | .abs _ _ _ => EncodeLength.abs _ _ _ | .moveFromCsr _ _ => EncodeLength.moveFromCsr _ _
  | .moveToCsr _ _ => EncodeLength.moveToCsr _ _ | .orCsr _ _ => EncodeLength.orCsr _ _
  | .andcCsr _ _ => EncodeLength.andcCsr _ _ | .eorCsr _ _ => EncodeLength.eorCsr _ _
  | .cmpRR _ _ _ _ => EncodeLength.cmpRR _ _ _ _ | .cmpI32 _ _ _ _ _ => EncodeLength.cmpI32 _ _ _ _ _
  | .cmpI64 _ _ _ _ _ => EncodeLength.cmpI64 _ _ _ _ _ | .cmpI10 _ _ _ _ _ => EncodeLength.cmpI10 _ _ _ _ _
  | .fcmpRR _ _ _ _ => EncodeLength.fcmpRR _ _ _ _ | .fcmpI32 _ _ _ _ _ => EncodeLength.fcmpI32 _ _ _ _ _
  | .fcmpI64 _ _ _ _ _ => EncodeLength.fcmpI64 _ _ _ _ _ | .fcmpI10 _ _ _ _ _ => EncodeLength.fcmpI10 _ _ _ _ _
  | .adcRR _ _ _ _ _ => EncodeLength.adcRR _ _ _ _ _ | .adcI32 _ _ _ _ _ => EncodeLength.adcI32 _ _ _ _ _
  | .adcI64 _ _ _ _ _ => EncodeLength.adcI64 _ _ _ _ _ | .adcI10 _ _ _ _ _ => EncodeLength.adcI10 _ _ _ _ _
  | .addRR _ _ _ _ _ => EncodeLength.addRR _ _ _ _ _ | .addI32 _ _ _ _ _ => EncodeLength.addI32 _ _ _ _ _
  | .addI64 _ _ _ _ _ => EncodeLength.addI64 _ _ _ _ _ | .addI10 _ _ _ _ _ => EncodeLength.addI10 _ _ _ _ _
  | .subRR _ _ _ _ _ => EncodeLength.subRR _ _ _ _ _ | .subI32 _ _ _ _ _ _ => EncodeLength.subI32 _ _ _ _ _ _
  | .subI64 _ _ _ _ _ _ => EncodeLength.subI64 _ _ _ _ _ _ | .subI10 _ _ _ _ _ _ => EncodeLength.subI10 _ _ _ _ _ _
  | .mulsRR _ _ _ _ _ _ => EncodeLength.mulsRR _ _ _ _ _ _ | .mulsI32 _ _ _ _ _ => EncodeLength.mulsI32 _ _ _ _ _
  | .mulsI64 _ _ _ _ _ => EncodeLength.mulsI64 _ _ _ _ _ | .mulsI10 _ _ _ _ _ => EncodeLength.mulsI10 _ _ _ _ _
  | .muluRR _ _ _ _ _ _ => EncodeLength.muluRR _ _ _ _ _ _ | .muluI32 _ _ _ _ _ => EncodeLength.muluI32 _ _ _ _ _
  | .muluI64 _ _ _ _ _ => EncodeLength.muluI64 _ _ _ _ _ | .muluI10 _ _ _ _ _ => EncodeLength.muluI10 _ _ _ _ _
  | .divuRR _ _ _ _ _ _ => EncodeLength.divuRR _ _ _ _ _ _ | .divuI32 _ _ _ _ _ _ => EncodeLength.divuI32 _ _ _ _ _ _
  | .divuI64 _ _ _ _ _ _ => EncodeLength.divuI64 _ _ _ _ _ _ | .divsRR _ _ _ _ _ _ => EncodeLength.divsRR _ _ _ _ _ _
  | .divsI32 _ _ _ _ _ _ => EncodeLength.divsI32 _ _ _ _ _ _ | .divsI64 _ _ _ _ _ _ => EncodeLength.divsI64 _ _ _ _ _ _
  | .divsI10 _ _ _ _ _ _ => EncodeLength.divsI10 _ _ _ _ _ _ | .andRR _ _ _ _ _ => EncodeLength.andRR _ _ _ _ _
  | .andI32 _ _ _ _ _ => EncodeLength.andI32 _ _ _ _ _ | .andI64 _ _ _ _ _ => EncodeLength.andI64 _ _ _ _ _
  | .andI10 _ _ _ _ _ => EncodeLength.andI10 _ _ _ _ _ | .orRR _ _ _ _ _ => EncodeLength.orRR _ _ _ _ _
  | .orI32 _ _ _ _ _ => EncodeLength.orI32 _ _ _ _ _ | .orI64 _ _ _ _ _ => EncodeLength.orI64 _ _ _ _ _
  | .orI10 _ _ _ _ _ => EncodeLength.orI10 _ _ _ _ _ | .eorRR _ _ _ _ _ => EncodeLength.eorRR _ _ _ _ _
  | .eorI32 _ _ _ _ _ => EncodeLength.eorI32 _ _ _ _ _ | .eorI64 _ _ _ _ _ => EncodeLength.eorI64 _ _ _ _ _
  | .eorI10 _ _ _ _ _ => EncodeLength.eorI10 _ _ _ _ _ | .bclrReg _ _ _ _ _ => EncodeLength.bclrReg _ _ _ _ _
  | .bclrImm _ _ _ _ _ => EncodeLength.bclrImm _ _ _ _ _ | .bsetReg _ _ _ _ _ => EncodeLength.bsetReg _ _ _ _ _
  | .bsetImm _ _ _ _ _ => EncodeLength.bsetImm _ _ _ _ _ | .bchgReg _ _ _ _ _ => EncodeLength.bchgReg _ _ _ _ _
  | .bchgImm _ _ _ _ _ => EncodeLength.bchgImm _ _ _ _ _ | .btstReg _ _ _ _ => EncodeLength.btstReg _ _ _ _
  | .btstImm _ _ _ _ => EncodeLength.btstImm _ _ _ _ | .bpclrReg _ _ _ _ _ => EncodeLength.bpclrReg _ _ _ _ _
  | .bpclrImm _ _ _ _ _ => EncodeLength.bpclrImm _ _ _ _ _ | .bpchgReg _ _ _ _ _ => EncodeLength.bpchgReg _ _ _ _ _
  | .bpchgImm _ _ _ _ _ => EncodeLength.bpchgImm _ _ _ _ _ | .bptstReg _ _ _ _ => EncodeLength.bptstReg _ _ _ _
  | .bptstImm _ _ _ _ => EncodeLength.bptstImm _ _ _ _ | .aslReg _ _ _ _ _ _ => EncodeLength.aslReg _ _ _ _ _ _
  | .aslImm _ _ _ _ _ _ => EncodeLength.aslImm _ _ _ _ _ _ | .asrReg _ _ _ _ _ => EncodeLength.asrReg _ _ _ _ _
  | .asrImm _ _ _ _ _ => EncodeLength.asrImm _ _ _ _ _ | .lslReg _ _ _ _ _ _ => EncodeLength.lslReg _ _ _ _ _ _
  | .lslImm _ _ _ _ _ _ => EncodeLength.lslImm _ _ _ _ _ _ | .lsrReg _ _ _ _ _ _ => EncodeLength.lsrReg _ _ _ _ _ _
  | .lsrImm _ _ _ _ _ _ => EncodeLength.lsrImm _ _ _ _ _ _ | .rolReg _ _ _ _ _ _ => EncodeLength.rolReg _ _ _ _ _ _
  | .rolImm _ _ _ _ _ _ => EncodeLength.rolImm _ _ _ _ _ _ | .rolcReg _ _ _ _ _ _ => EncodeLength.rolcReg _ _ _ _ _ _
  | .rolcImm _ _ _ _ _ _ => EncodeLength.rolcImm _ _ _ _ _ _ | .rorReg _ _ _ _ _ _ => EncodeLength.rorReg _ _ _ _ _ _
  | .rorImm _ _ _ _ _ _ => EncodeLength.rorImm _ _ _ _ _ _ | .rorcReg _ _ _ _ _ _ => EncodeLength.rorcReg _ _ _ _ _ _
  | .rorcImm _ _ _ _ _ _ => EncodeLength.rorcImm _ _ _ _ _ _ | .rts _ _ => EncodeLength.rts _ _
  | .rti _ _ => EncodeLength.rti _ _ | .arti _ _ => EncodeLength.arti _ _ | .loadX _ _ _ _ _ => EncodeLength.loadX _ _ _ _ _
  | .load _ _ _ _ _ => EncodeLength.load _ _ _ _ _ | .loadmX _ _ _ _ _ _ _ => EncodeLength.loadmX _ _ _ _ _ _ _
  | .loadm _ _ _ _ _ _ _ => EncodeLength.loadm _ _ _ _ _ _ _ | .pushT _ => EncodeLength.pushT _
  | .pushO _ => EncodeLength.pushO _ | .storeX _ _ _ _ _ => EncodeLength.storeX _ _ _ _ _
  | .store _ _ _ _ _ => EncodeLength.store _ _ _ _ _ | .storeImmX _ _ _ _ _ => EncodeLength.storeImmX _ _ _ _ _
  | .storeImm _ _ _ _ _ => EncodeLength.storeImm _ _ _ _ _ | .storemX _ _ _ _ _ _ _ => EncodeLength.storemX _ _ _ _ _ _ _
  | .storem _ _ _ _ _ _ _ => EncodeLength.storem _ _ _ _ _ _ _ | .peaX _ _ _ _ => EncodeLength.peaX _ _ _ _
  | .pea _ _ _ _ => EncodeLength.pea _ _ _ _ | .fma _ => EncodeLength.fma _ | .fms _ => EncodeLength.fms _
  | .fnma _ => EncodeLength.fnma _ | .fnms _ => EncodeLength.fnms _ | .jmpReg _ _ => EncodeLength.jmpReg _ _
  | .jmpI32 _ _ => EncodeLength.jmpI32 _ _ | .jmpI64 _ _ => EncodeLength.jmpI64 _ _ | .jmpI10 _ _ => EncodeLength.jmpI10 _ _
  | .jsrReg _ _ _ => EncodeLength.jsrReg _ _ _ | .jsrI32 _ _ _ => EncodeLength.jsrI32 _ _ _
  | .jsrI64 _ _ _ => EncodeLength.jsrI64 _ _ _ | .jsrI10 _ _ _ => EncodeLength.jsrI10 _ _ _
  | .loadq _ _ _ _ => EncodeLength.loadq _ _ _ _ | .bra _ => EncodeLength.bra _ | .bsr _ => EncodeLength.bsr _
  | .bcc _ _ _ => EncodeLength.bcc _ _ _ | .dbcc _ _ _ => EncodeLength.dbcc _ _ _

/-! ## Reading back, opcode by opcode -/

/-- The words of an instruction decode to it. -/
def DecodesBack (strict : Bool) (i : Instr) : Prop :=
  ∀ w ext, encode i = w :: ext → decodeWord strict w ext = .instr i

theorem DecodesBack.of_words {strict : Bool} {i : Instr} {w : InsnWord} {ext : List InsnWord} (he : encode i = w :: ext)
    (hd : decodeWord strict w ext = .instr i) : DecodesBack strict i := fun w' ext' he' => by
  obtain ⟨rfl, rfl⟩ := List.cons.inj (he.symm.trans he')
  exact hd

/-- An Imm10 that is well formed is none of the escapes of the longer forms (R94). -/
theorem form_imm10 {f : Fields} {imm : BitVec 10} (hw : wfImm10 imm = true) (hb : f.b17 = true)
    (hh : f.hi = imm.extractLsb' 5 5) : f.form = .imm10 := by
  simp only [wfImm10, Bool.and_eq_true, bne_iff_ne] at hw
  simp [Fields.form, hb, hh, hw.1, hw.2]

theorem bcc_code_of_wellFormed {c : Cond} {cr : CReg} {d : BitVec 19} (h : (Instr.bcc c cr d).wellFormed = true) :
    2 ≤ c.code.toNat := by
  cases c
  case ra | sr => exact absurd h (by simp [Instr.wellFormed])
  all_goals decide

/-- A STORE that is well formed is no PUSH (R122). -/
theorem storeOrPush_of_wellFormed {sz : Size} {md : UpdMode} {ra rb : Reg} {d : Disp 10}
    (h : (Instr.store sz md ra rb d).wellFormed = true) : storeOrPush sz md ra rb d = .store sz md ra rb d := by
  simp only [Instr.wellFormed, Bool.and_eq_true, Bool.not_eq_true'] at h
  simp [storeOrPush, h.2]

section
variable {hi rb ra : BitVec 5} {b23 b17 : Bool} {sz : BitVec 2} {op : BitVec 5} {ext : List InsnWord} {k : Nat}
  {upd : UpdMode → Disp 10 → Decoded} {idx : Disp 5 → Decoded}

/-- The address operand of the STORE family reads back from its fields (R110). -/
theorem decodeDestination_reg (md : UpdMode) {d : Disp 10} (hw : d.wf10 = true) (he : ext.drop k = d.words) :
    decodeDestination ⟨d.high10.extractLsb' 5 3, d.high10.extractLsb' 0 5, b23, rb, b17, ra, md.code3 ++ d.low10, sz, op⟩ ext k
      upd idx = upd md d := by
  cases md <;> simp [decodeDestination, UpdMode.code3, decodeDisp10_fields hw he, withOperand]

theorem decodeDestination_index {d : Disp 5} (hw : d.wfIndexed5 = true) (he : ext.drop k = d.words) :
    decodeDestination ⟨d.index5.extractLsb' 2 3, hi, b23, rb, b17, ra, 4#3 ++ d.index5.extractLsb' 0 2, sz, op⟩ ext k upd idx =
      idx d := by
  simp [decodeDestination, decodeDisp5_fields hw he, withOperand]

end

theorem drop_words (i : StoreImm) (ws : List InsnWord) : (i.words ++ ws).drop i.extWords = ws :=
  List.drop_left' i.words_length

/-- The words of every well-formed instruction decode to it. -/
theorem decodesBack (strict : Bool) {i : Instr} (hw : i.wellFormed = true) : DecodesBack strict i := by
  cases i
  all_goals refine .of_words rfl ?_
  case brk => cases strict <;> decide
  case trapReg data rt ra =>
    have hb : isBrkWord data rt ra = false := by simpa [Instr.wellFormed] using hw
    simp [decodeWord, decodeTrap, Fields.data11, rejectIf, hb]
  case trapImm | trapv | atrapReg | atrapImm => simp [decodeWord, decodeTrap, Fields.data11, rejectIf]
  case swap => simp [decodeWord, decodeSwap, rejectIf, Decoded.ofOption]
  case abs => simp [decodeWord, decodeAbs, rejectIf]
  case moveFromCsr | moveToCsr | orCsr | andcCsr | eorCsr => simp [decodeWord, decodeCsr, rejectIf, decodeCsrNum_fields hw]
  case cmpI10 | fcmpI10 => simp [decodeWord, decodeCompare, decodeForms, rejectIf, form_imm10 hw]
  case adcI10 | addI10 => simp [decodeWord, decodeAdd, decodeForms, rejectIf, form_imm10 hw]
  case subI10 => simp [decodeWord, decodeSub, decodeForms, rejectIf, form_imm10 hw]
  case mulsI10 | muluI10 => simp [decodeWord, decodeMul, decodeForms, rejectIf, form_imm10 hw]
  case divsI10 => simp [decodeWord, decodeDiv, form_imm10 hw]
  case andI10 => simp [decodeWord, decodeAnd, decodeForms, rejectIf, form_imm10 hw]
  case orI10 => simp [decodeWord, decodeOr, decodeForms, rejectIf, form_imm10 hw]
  case eorI10 => simp [decodeWord, decodeEor, decodeForms, rejectIf, form_imm10 hw]
  case jmpI10 | jsrI10 => simp [decodeWord, decodeJump, decodeForms, rejectIf, form_imm10 hw]
  case cmpRR | cmpI32 | cmpI64 | fcmpRR | fcmpI32 | fcmpI64 =>
    simp [decodeWord, decodeCompare, decodeForms, decodeReg, rejectIf, Fields.form, extWord]
  case adcRR | adcI32 | adcI64 | addRR | addI32 | addI64 =>
    simp [decodeWord, decodeAdd, decodeForms, decodeReg, rejectIf, Fields.form, extWord]
  case subRR | subI32 | subI64 => simp [decodeWord, decodeSub, decodeForms, decodeReg, rejectIf, Fields.form, extWord]
  case mulsRR | mulsI32 | mulsI64 | muluRR | muluI32 | muluI64 =>
    simp [decodeWord, decodeMul, decodeForms, rejectIf, Fields.form, extWord]
  case divuRR | divuI32 | divuI64 | divsRR | divsI32 | divsI64 => simp [decodeWord, decodeDiv, Fields.form, extWord]
  case andRR | andI32 | andI64 => simp [decodeWord, decodeAnd, decodeForms, decodeReg, rejectIf, Fields.form, extWord]
  case orRR | orI32 | orI64 => simp [decodeWord, decodeOr, decodeForms, decodeReg, rejectIf, Fields.form, extWord]
  case eorRR | eorI32 | eorI64 => simp [decodeWord, decodeEor, decodeForms, decodeReg, rejectIf, Fields.form, extWord]
  case jmpReg | jmpI32 | jmpI64 | jsrReg | jsrI32 | jsrI64 =>
    simp [decodeWord, decodeJump, decodeForms, decodeReg, rejectIf, Fields.form, extWord]
  case bclrReg | bclrImm | bsetReg | bsetImm | bchgReg | bchgImm | btstReg | btstImm =>
    simp [decodeWord, decodeBit, decodeBitForms, rejectIf]
  case bpclrReg | bpclrImm | bpchgReg | bpchgImm | bptstReg | bptstImm =>
    simp [decodeWord, decodeBit, decodeBitForms, rejectIf]
  case aslReg | aslImm | asrReg | asrImm | lslReg | lslImm | lsrReg | lsrImm =>
    simp [decodeWord, decodeShift, decodeShiftForms, rejectIf]
  case rolReg | rolImm | rolcReg | rolcImm | rorReg | rorImm | rorcReg | rorcImm =>
    simp [decodeWord, decodeShift, decodeShiftForms, rejectIf]
  case rts | rti | arti => simp [decodeWord, decodeReturn, rejectIf]
  case loadX => simp [decodeWord, decodeLoad, rejectIf, withOperand, decodeDisp6_fields hw]
  case load md _ _ _ => 
    cases md <;> simp [decodeWord, decodeLoad, rejectIf, withOperand, UpdMode.code2, decodeDisp11_fields hw]
  case loadmX => simp [decodeWord, decodeLoadm, withOperand, decodeDisp6_fields hw, extWord]
  case loadm md _ _ _ _ _ =>
    cases md <;> simp [decodeWord, decodeLoadm, withOperand, UpdMode.code2, decodeDisp11_fields hw, extWord]
  case pushT | pushO =>
    simp [decodeWord, decodeStore, rejectIf, decodeDestination, decodeDisp10, withOperand, storeOrPush, isPush, Size.ofCode]
  case storeX _ _ _ _ d =>
    simp [decodeWord, decodeStore, rejectIf, decodeDestination_index hw (ext := d.words) (k := 0) rfl]
  case store _ md _ _ d =>
    have hd := (Bool.and_eq_true_iff.1 hw).1
    simp [decodeWord, decodeStore, rejectIf, decodeDestination_reg md hd (ext := d.words) (k := 0) rfl,
      storeOrPush_of_wellFormed hw]
  case storeImmX _ imm _ _ d =>
    obtain ⟨hi, hd⟩ := Bool.and_eq_true_iff.1 hw
    simp [decodeWord, decodeStore, rejectIf, decodeStoreImm_fields hi, withOperand,
      decodeDestination_index hd (drop_words imm d.words)]
  case storeImm _ md imm _ d =>
    obtain ⟨hi, hd⟩ := Bool.and_eq_true_iff.1 hw
    simp [decodeWord, decodeStore, rejectIf, decodeStoreImm_fields hi, withOperand,
      decodeDestination_reg md hd (drop_words imm d.words)]
  case storemX _ _ list _ _ _ d =>
    simp [decodeWord, decodeStorem, extWord, decodeDestination_index hw (ext := list :: d.words) (k := 1) rfl]
  case storem _ md _ list _ _ d =>
    simp [decodeWord, decodeStorem, extWord, decodeDestination_reg md hw (ext := list :: d.words) (k := 1) rfl]
  case peaX _ _ _ d =>
    simp [decodeWord, decodePea, rejectIf, decodeDestination_index hw (ext := d.words) (k := 0) rfl, Decoded.ofOption]
  case pea _ md _ d =>
    simp [decodeWord, decodePea, rejectIf, decodeDestination_reg md hw (ext := d.words) (k := 0) rfl, Decoded.ofOption]
  case fma | fms | fnma | fnms => simp [decodeWord]
  case loadq => simp [decodeWord, Fields.imm17]
  case bra disp => exact (decodeWord_op28 ..).trans (congrArg (fun e => Decoded.instr (.bra e)) (join_3_19 disp))
  case bsr disp => exact (decodeWord_op28 ..).trans (congrArg (fun e => Decoded.instr (.bsr e)) (join_3_19 disp))
  case bcc => exact (decodeWord_op28 ..).trans (decodeBcc_code (bcc_code_of_wellFormed hw) _ _ _)
  case dbcc => simp [decodeWord, decodeDbcc, Decoded.ofOption]

/-- Settles O1: the bytes are cut into the words again, of which the first calls for the others, and these decode back. -/
theorem decodingAnEncodingGivesTheInstruction : Obligations.DecodingAnEncodingGivesTheInstruction := by
  intro strict i hw
  obtain ⟨w, ext, he, hl⟩ := encodeLength i hw
  rw [he, decodeBytes_flatMap hl]
  exact decodesBack strict hw w ext he

end Sys2Proof.Proofs.RoundTrip
end

section
/-! PROOFS. Under STRICT_RESERVED a word that decodes is the encoding of what it decodes to (`spec/30_encoding.md`): for each
opcode, what the fields of the word are when the decoder answers an instruction. -/

namespace Sys2Proof.Proofs.StrictDecode

open Sys2Proof Sys2Proof.Machine Sys2Proof.Claims

/-- The instruction has a word, and its words are these. -/
def IsEncoding (i : Instr) (w : InsnWord) (ext : List InsnWord) : Prop := i.wellFormed = true ∧ encode i = w :: ext

/-! ## When the decoder's combinators answer an instruction -/

@[simp] theorem rejectIf_eq_instr {b : Bool} {r : Reject} {x : Decoded} {i : Instr} :
    rejectIf b r x = .instr i ↔ b = false ∧ x = .instr i := by
  cases b <;> simp [rejectIf]

@[simp] theorem ofOption_eq_instr {r : Reject} {o : Option Instr} {i : Instr} : Decoded.ofOption r o = .instr i ↔ o = some i := by
  cases o <;> simp [Decoded.ofOption]

@[simp] theorem withOperand_eq_instr {α : Type} {x : Except Reject α} {k : α → Decoded} {i : Instr} :
    withOperand x k = .instr i ↔ ∃ a, x = .ok a ∧ k a = .instr i := by
  cases x <;> simp [withOperand]

@[simp] theorem decodeReg_eq_instr {f : Fields} {i j : Instr} : decodeReg true f j = .instr i ↔ f.hi = 0#5 ∧ j = i := by
  simp [decodeReg]

theorem reject_ne_instr {r : Reject} {i : Instr} {p : Prop} (h : Decoded.reject r = .instr i) : p := nomatch h

/-! ## Extension words -/

theorem words64_of_length {ext : List InsnWord} (h : ext.length = 2) : ext = words64 (extPair ext 0) := by
  obtain ⟨lo, hi, rfl⟩ := List.length_eq_two.1 h
  exact (words64_extPair lo hi).symm

theorem extWord_drop (ext : List InsnWord) (k : Nat) : extWord ext k = extWord (ext.drop k) 0 := by simp [extWord]

theorem extPair_drop (ext : List InsnWord) (k : Nat) : extPair ext k = extPair (ext.drop k) 0 := by
  simp [extPair, extWord]

theorem drop_eq_extWord {ext : List InsnWord} {k : Nat} (h : ext.length = k + 1) : ext.drop k = [extWord ext k] := by
  obtain ⟨w, hw⟩ := List.length_eq_one_iff.1 (show (ext.drop k).length = 1 by rw [List.length_drop]; omega)
  rw [extWord_drop, hw]
  rfl

theorem drop_eq_words64 {ext : List InsnWord} {k : Nat} (h : ext.length = k + 2) : ext.drop k = words64 (extPair ext k) := by
  rw [extPair_drop]
  exact words64_of_length (by rw [List.length_drop]; omega)

theorem drop_eq_nil {ext : List InsnWord} {k : Nat} (h : ext.length = k + 0) : ext.drop k = [] :=
  List.drop_eq_nil_of_le (by omega)

/-! ## The operand forms of the ALU formats (R93 to R95) -/

theorem form_cases (f : Fields) :
    (f.form = .reg ∧ f.b17 = false) ∨ (f.form = .imm32 ∧ f.b17 = true ∧ f.hi = 16#5) ∨
    (f.form = .imm64 ∧ f.b17 = true ∧ f.hi = 17#5) ∨ (f.form = .imm10 ∧ f.b17 = true ∧ f.hi ≠ 16#5 ∧ f.hi ≠ 17#5) := by
  unfold Fields.form
  split
  · split
    · simp_all
    · split <;> simp_all
  · simp_all

theorem wfImm10_join {hi rb : BitVec 5} (h16 : hi ≠ 16#5) (h17 : hi ≠ 17#5) : wfImm10 (hi ++ rb) = true := by
  simp [wfImm10, h16, h17]

/-- In the operand forms of an ALU format an encoding stands for each form that decodes: `unused` is a `~` field of the three
immediate forms, `reg` the answer of the register form. -/
theorem forms_isEncoding {f : Fields} {ext : List InsnWord} {unused : Bool} {reg : Decoded} {i32 : BitVec 32 → Instr}
    {i64 : BitVec 64 → Instr} {i10 : BitVec 10 → Instr} {i : Instr} (hl : ext.length = formWords f)
    (hd : decodeForms true f ext unused reg i32 i64 i10 = .instr i)
    (hreg : f.b17 = false → ∀ j, reg = .instr j → IsEncoding j f.word [])
    (h32 : f.b17 = true → f.hi = 16#5 → f.rb = 0#5 → unused = false → ∀ imm, IsEncoding (i32 imm) f.word [imm])
    (h64 : f.b17 = true → f.hi = 17#5 → f.rb = 0#5 → unused = false → ∀ imm, IsEncoding (i64 imm) f.word (words64 imm))
    (h10 : f.b17 = true → unused = false → ∀ imm, wfImm10 imm = true → imm.extractLsb' 5 5 = f.hi → imm.extractLsb' 0 5 = f.rb →
      IsEncoding (i10 imm) f.word []) : IsEncoding i f.word ext := by
  rcases form_cases f with ⟨hf, hb⟩ | ⟨hf, hb, hh⟩ | ⟨hf, hb, hh⟩ | ⟨hf, hb, h16, h17⟩ <;>
    simp only [decodeForms, formWords, hf, rejectIf_eq_instr, Bool.true_and, Bool.or_eq_false_iff, bne_eq_false_iff_eq,
      Decoded.instr.injEq] at hd hl
  · rw [List.eq_nil_of_length_eq_zero hl]
    exact hreg hb i hd
  · rw [← hd.2, show ext = [extWord ext 0] from drop_eq_extWord (k := 0) hl]
    exact h32 hb hh hd.1.2 hd.1.1 _
  · rw [← hd.2, words64_of_length hl, extPair_words64]
    exact h64 hb hh hd.1.2 hd.1.1 _
  · rw [← hd.2, List.eq_nil_of_length_eq_zero hl]
    exact h10 hb hd.1 _ (wfImm10_join h16 h17) (high_5_5 _ _) (low_5_5 _ _)

/-! ## The groups with ALU operand forms -/

section
variable {f : Fields} {ext : List InsnWord} {i : Instr}

theorem compare_isEncoding (hop : f.op = 3#5) (hl : ext.length = formWords f) (hd : decodeCompare true f ext = .instr i) :
    IsEncoding i f.word ext := by
  have hrt : ∀ r : BitVec 5, r.extractLsb' 1 4 = 0#4 → (r.getLsbD 0 = true → r = 1#5) ∧ (r.getLsbD 0 = false → r = 0#5) := by
    decide
  have hrt := hrt f.rt
  unfold decodeCompare at hd
  obtain ⟨ct, hi, b23, rb, b17, ra, rt, sz, op⟩ := f
  dsimp only at hop hd hrt
  subst hop
  split at hd
  case' isTrue hb => replace hrt := fun hu => (hrt hu).1 hb
  case' isFalse hb => replace hrt := fun hu => (hrt hu).2 (eq_false_of_ne_true hb)
  all_goals
    clear hb
    refine forms_isEncoding hl hd ?_ ?_ ?_ ?_ <;> clear hd hl <;> dsimp only
    · rintro rfl j hj
      split at hj
      · exact reject_ne_instr hj
      · simp only [rejectIf_eq_instr, decodeReg_eq_instr, Bool.true_and, bne_eq_false_iff_eq] at hj
        obtain ⟨hu, rfl, rfl⟩ := hj
        simp_all [IsEncoding, encode, Instr.wellFormed]
    · rintro rfl rfl rfl hu imm
      simp [IsEncoding, encode, Instr.wellFormed, hrt (bne_eq_false_iff_eq.1 hu)]
    · rintro rfl rfl rfl hu imm
      simp [IsEncoding, encode, Instr.wellFormed, hrt (bne_eq_false_iff_eq.1 hu)]
    · rintro rfl hu imm hw rfl rfl
      simp [IsEncoding, encode, Instr.wellFormed, hrt (bne_eq_false_iff_eq.1 hu), hw]

theorem add_isEncoding (hop : f.op = 4#5) (hl : ext.length = formWords f) (hd : decodeAdd true f ext = .instr i) :
    IsEncoding i f.word ext := by
  unfold decodeAdd at hd
  obtain ⟨ct, hi, b23, rb, b17, ra, rt, sz, op⟩ := f
  dsimp only at hop hd
  split at hd
  all_goals
    refine forms_isEncoding hl hd ?_ ?_ ?_ ?_ <;> clear hd hl <;> dsimp only
    · intro hb j hj
      obtain ⟨hh, rfl⟩ := decodeReg_eq_instr.1 hj
      simp_all [IsEncoding, encode, Instr.wellFormed]
    all_goals intros; simp_all [IsEncoding, encode, Instr.wellFormed]

theorem sub_isEncoding (hop : f.op = 5#5) (hl : ext.length = formWords f) (hd : decodeSub true f ext = .instr i) :
    IsEncoding i f.word ext := by
  obtain ⟨ct, hi, b23, rb, b17, ra, rt, sz, op⟩ := f
  refine forms_isEncoding hl hd ?_ ?_ ?_ ?_ <;> clear hd hl <;> dsimp only at hop ⊢
  · intro hb j hj
    split at hj
    · exact reject_ne_instr hj
    · obtain ⟨hh, rfl⟩ := decodeReg_eq_instr.1 hj
      simp_all [IsEncoding, encode, Instr.wellFormed]
  all_goals intros; simp_all [IsEncoding, encode, Instr.wellFormed]

theorem mul_isEncoding (hop : f.op = 6#5) (hl : ext.length = formWords f) (hd : decodeMul true f ext = .instr i) :
    IsEncoding i f.word ext := by
  unfold decodeMul at hd
  obtain ⟨ct, hi, b23, rb, b17, ra, rt, sz, op⟩ := f
  dsimp only at hop hd
  split at hd
  all_goals
    refine forms_isEncoding hl hd ?_ ?_ ?_ ?_ <;> clear hd hl <;> dsimp only
    · rintro hb j ⟨⟩
      simp_all [IsEncoding, encode, Instr.wellFormed]
    all_goals intros; simp_all [IsEncoding, encode, Instr.wellFormed]

theorem div_isEncoding (hop : f.op = 7#5) (hl : ext.length = formWords f) (hd : decodeDiv f ext = .instr i) :
    IsEncoding i f.word ext := by
  rcases form_cases f with ⟨hf, hb⟩ | ⟨hf, hb, hh⟩ | ⟨hf, hb, hh⟩ | ⟨hf, hb, h16, h17⟩ <;>
    simp only [decodeDiv, formWords, hf] at hd hl <;> clear hf <;> obtain ⟨ct, hi, b23, rb, b17, ra, rt, sz, op⟩ := f
  · rw [List.eq_nil_of_length_eq_zero hl]
    split at hd <;> cases hd <;> simp_all [IsEncoding, encode, Instr.wellFormed]
  · rw [show ext = [extWord ext 0] from drop_eq_extWord (k := 0) hl]
    split at hd
    · cases hd; simp_all [IsEncoding, encode, Instr.wellFormed]
    · split at hd
      · cases hd; simp_all [IsEncoding, encode, Instr.wellFormed]
      · exact reject_ne_instr hd
  · rw [words64_of_length hl]
    split at hd
    · cases hd; simp_all [IsEncoding, encode, Instr.wellFormed]
    · split at hd
      · cases hd; simp_all [IsEncoding, encode, Instr.wellFormed]
      · exact reject_ne_instr hd
  · rw [List.eq_nil_of_length_eq_zero hl]
    cases hd
    have hw := wfImm10_join (rb := rb) h16 h17
    simp_all [IsEncoding, encode, Instr.wellFormed]

theorem and_isEncoding (hop : f.op = 8#5) (hl : ext.length = formWords f) (hd : decodeAnd true f ext = .instr i) :
    IsEncoding i f.word ext := by
  unfold decodeAnd at hd
  obtain ⟨ct, hi, b23, rb, b17, ra, rt, sz, op⟩ := f
  dsimp only at hop hd
  split at hd
  · exact reject_ne_instr hd
  · refine forms_isEncoding hl hd ?_ ?_ ?_ ?_ <;> clear hd hl <;> dsimp only
    · intro hb j hj
      obtain ⟨hh, rfl⟩ := decodeReg_eq_instr.1 hj
      simp_all [IsEncoding, encode, Instr.wellFormed]
    all_goals intros; simp_all [IsEncoding, encode, Instr.wellFormed]

theorem or_isEncoding (hop : f.op = 9#5) (hl : ext.length = formWords f) (hd : decodeOr true f ext = .instr i) :
    IsEncoding i f.word ext := by
  unfold decodeOr at hd
  obtain ⟨ct, hi, b23, rb, b17, ra, rt, sz, op⟩ := f
  dsimp only at hop hd
  split at hd
  · exact reject_ne_instr hd
  · refine forms_isEncoding hl hd ?_ ?_ ?_ ?_ <;> clear hd hl <;> dsimp only
    · intro hb j hj
      obtain ⟨hh, rfl⟩ := decodeReg_eq_instr.1 hj
      simp_all [IsEncoding, encode, Instr.wellFormed]
    all_goals intros; simp_all [IsEncoding, encode, Instr.wellFormed]

theorem eor_isEncoding (hop : f.op = 10#5) (hl : ext.length = formWords f) (hd : decodeEor true f ext = .instr i) :
    IsEncoding i f.word ext := by
  unfold decodeEor at hd
  obtain ⟨ct, hi, b23, rb, b17, ra, rt, sz, op⟩ := f
  dsimp only at hop hd
  split at hd
  · exact reject_ne_instr hd
  · refine forms_isEncoding hl hd ?_ ?_ ?_ ?_ <;> clear hd hl <;> dsimp only
    · intro hb j hj
      obtain ⟨hh, rfl⟩ := decodeReg_eq_instr.1 hj
      simp_all [IsEncoding, encode, Instr.wellFormed]
    all_goals intros; simp_all [IsEncoding, encode, Instr.wellFormed]

theorem jump_isEncoding (hop : f.op = 24#5) (hl : ext.length = formWords f) (hd : decodeJump true f ext = .instr i) :
    IsEncoding i f.word ext := by
  have htop : ∀ c : BitVec 3, c.getLsbD 2 = false → c.getLsbD 1 = false → c = jsrTop (c.getLsbD 0) := by decide
  have htop := htop f.ct
  unfold decodeJump at hd
  obtain ⟨ct, hi, b23, rb, b17, ra, rt, sz, op⟩ := f
  dsimp only at hd hop htop
  split at hd
  · exact reject_ne_instr hd
  · rename_i hg
    simp only [rejectIf_eq_instr, Bool.true_and, Bool.or_eq_false_iff, bne_eq_false_iff_eq] at hd
    obtain ⟨⟨h2, rfl⟩, h1, rfl, hd⟩ := hd
    replace htop := htop h2 h1
    clear h1 h2
    generalize ct.getLsbD 0 = g at *
    subst htop hop
    split at hd
    case' isTrue hb => subst hb; clear hg
    case' isFalse hb =>
      obtain rfl := eq_false_of_ne_true hb
      obtain rfl : g = false := by simpa using hg
      clear hg hb
      rw [show jsrTop false = 0#3 by decide]
    all_goals
      refine forms_isEncoding hl hd ?_ ?_ ?_ ?_ <;> clear hd hl <;> dsimp only
      · rintro rfl j hj
        obtain ⟨rfl, rfl⟩ := decodeReg_eq_instr.1 hj
        simp [IsEncoding, encode, Instr.wellFormed]
      · rintro rfl rfl rfl - imm
        simp [IsEncoding, encode, Instr.wellFormed]
      · rintro rfl rfl rfl - imm
        simp [IsEncoding, encode, Instr.wellFormed]
      · rintro rfl - imm hw rfl rfl
        simp [IsEncoding, encode, Instr.wellFormed, hw]

/-! ## The groups without extension words -/

theorem data11_high (a c : BitVec 5) (b : Bool) : (a ++ BitVec.ofBool b ++ c : BitVec 11).extractLsb' 6 5 = a := by
  rw [cut_high 5 6 _ c (by omega), cut_high 5 1 a _ (by omega)]
  exact BitVec.extractLsb'_eq_self

theorem data11_bit (a c : BitVec 5) (b : Bool) : (a ++ BitVec.ofBool b ++ c : BitVec 11)[5] = b :=
  (bit_high 5 _ c (by omega)).trans (bit_low a b)

theorem data11_low (a c : BitVec 5) (b : Bool) : (a ++ BitVec.ofBool b ++ c : BitVec 11).extractLsb' 0 5 = c := cut_low _ c

theorem imm17_parts (a c e : BitVec 5) (b d : Bool) :
    (a ++ BitVec.ofBool b ++ c ++ BitVec.ofBool d ++ e : BitVec 17).extractLsb' 12 5 = a ∧
    (a ++ BitVec.ofBool b ++ c ++ BitVec.ofBool d ++ e : BitVec 17)[11] = b ∧
    (a ++ BitVec.ofBool b ++ c ++ BitVec.ofBool d ++ e : BitVec 17).extractLsb' 6 5 = c ∧
    (a ++ BitVec.ofBool b ++ c ++ BitVec.ofBool d ++ e : BitVec 17)[5] = d ∧
    (a ++ BitVec.ofBool b ++ c ++ BitVec.ofBool d ++ e : BitVec 17).extractLsb' 0 5 = e := by
  refine ⟨?_, ?_, ?_, ?_, cut_low _ e⟩
  · rw [cut_high 5 12 _ e (by omega), cut_high 5 7 _ _ (by omega), cut_high 5 6 _ c (by omega), cut_high 5 1 a _ (by omega)]
    exact BitVec.extractLsb'_eq_self
  · rw [← BitVec.getLsbD_eq_getElem, bit_high 11 _ e (by omega), bit_high 6 _ _ (by omega), bit_high 5 _ c (by omega)]
    exact bit_low a b
  · rw [cut_high 5 6 _ e (by omega), cut_high 5 1 _ _ (by omega)]
    exact cut_low _ c
  · rw [← BitVec.getLsbD_eq_getElem, bit_high 5 _ e (by omega)]
    exact bit_low _ d

theorem high_3_5 (a : BitVec 3) (b : BitVec 5) : (a ++ b : BitVec 8).extractLsb' 5 3 = a :=
  (cut_high 3 5 a b (by omega)).trans BitVec.extractLsb'_eq_self

theorem low_3_5 (a : BitVec 3) (b : BitVec 5) : (a ++ b : BitVec 8).extractLsb' 0 5 = b := cut_low a b

theorem eq_ofNat_of_toNat {w k : Nat} {c : BitVec w} (h : c.toNat = k) : c = BitVec.ofNat w k := by
  rw [← h, BitVec.ofNat_toNat, BitVec.setWidth_eq]

theorem trap_isEncoding (hop : f.op = 0#5) (hl : ext.length = 0) (hd : decodeTrap true f = .instr i) :
    IsEncoding i f.word ext := by
  obtain rfl := List.eq_nil_of_length_eq_zero hl
  unfold decodeTrap Fields.data11 at hd
  obtain ⟨ct, hi, b23, rb, b17, ra, rt, sz, op⟩ := f
  dsimp only at hop hd
  subst hop
  split at hd
  case h_1 hz =>
    obtain rfl := eq_ofNat_of_toNat hz
    split at hd
    · cases hd
      simp_all [IsEncoding, encode, Instr.wellFormed, high_3_5, low_3_5, data11_high, data11_bit, data11_low]
    · simp only [rejectIf_eq_instr, Bool.true_and, bne_eq_false_iff_eq] at hd
      obtain ⟨rfl, hd⟩ := hd
      split at hd
      · cases hd
        rename_i hz
        simp only [isBrkWord, Bool.and_eq_true, beq_iff_eq] at hz
        obtain ⟨⟨hdata, rfl⟩, rfl⟩ := hz
        have hhi := data11_high hi rb b23
        have hbit := data11_bit hi rb b23
        have hrb := data11_low hi rb b23
        rw [hdata] at hhi hbit hrb
        subst hhi hrb
        rw [← hbit]
        simp_all [IsEncoding, encode, Instr.wellFormed, Fields.word]
      · cases hd
        simp_all [IsEncoding, encode, Instr.wellFormed, data11_high, data11_bit, data11_low]
  case h_2 hz =>
    obtain rfl := eq_ofNat_of_toNat hz
    split at hd
    · cases hd
      simp_all [IsEncoding, encode, Instr.wellFormed, data11_high, data11_bit, data11_low]
    · exact reject_ne_instr hd
  case h_3 hz =>
    obtain rfl := eq_ofNat_of_toNat hz
    simp only [rejectIf_eq_instr, Bool.true_and, bne_eq_false_iff_eq] at hd
    obtain ⟨rfl, hd⟩ := hd
    split at hd <;> cases hd
    all_goals simp_all [IsEncoding, encode, Instr.wellFormed, data11_high, data11_bit, data11_low]
  case h_4 => exact reject_ne_instr hd

theorem swap_isEncoding (hop : f.op = 1#5) (hl : ext.length = 0) (hd : decodeSwap true f = .instr i) :
    IsEncoding i f.word ext := by
  obtain rfl := List.eq_nil_of_length_eq_zero hl
  unfold decodeSwap at hd
  obtain ⟨ct, hi, b23, rb, b17, ra, rt, sz, op⟩ := f
  dsimp only at hop hd
  split at hd
  · exact reject_ne_instr hd
  · rename_i hc
    simp only [rejectIf_eq_instr, ofOption_eq_instr, Bool.true_and, bne_eq_false_iff_eq, Option.map_eq_some_iff] at hd
    obtain ⟨rfl, sz', hsz, rfl⟩ := hd
    rw [← HalfSize.code_of_ofCode hsz]
    simp_all [IsEncoding, encode, Instr.wellFormed]

theorem join_5_5_high {m : BitVec 10} {a : BitVec 5} (h : m.extractLsb' 5 5 = a) : a ++ m.extractLsb' 0 5 = m := by
  rw [← h]; exact join_5_5 m

theorem abs_isEncoding {g : LegacyFields} (hop : g.op = 1#5) (hb : g.b26 = true) (hl : ext.length = 0)
    (hd : decodeAbs g = .instr i) : IsEncoding i g.word ext := by
  obtain rfl := List.eq_nil_of_length_eq_zero hl
  unfold decodeAbs at hd
  obtain ⟨rc, b26, rb, mode, mid, sz, b5, op⟩ := g
  dsimp only at hop hb hd
  split at hd
  · exact reject_ne_instr hd
  · rename_i hc
    simp only [Bool.or_eq_true, not_or, Bool.not_eq_true, bne_eq_false_iff_eq] at hc
    simp only [rejectIf_eq_instr, bne_eq_false_iff_eq, Decoded.instr.injEq] at hd
    obtain ⟨rfl, rfl, rfl⟩ := hd
    simp [IsEncoding, encode, Instr.wellFormed, join_5_5_high hc.2, hc.1, hop, hb]

/-- The register form or the Imm7 form of a BIT instruction is an encoding where the two forms are. -/
theorem bitForms_isEncoding {unused : Bool} {reg : Instr} {imm : BitVec 7 → Instr}
    (hd : decodeBitForms true f unused reg imm = .instr i)
    (hreg : f.b17 = false → unused = false → f.hi = f.hi.extractLsb' 2 3 ++ 0#2 → IsEncoding reg f.word [])
    (himm : f.b17 = true → unused = false → ∀ k : BitVec 7, f.hi = f.hi.extractLsb' 2 3 ++ k.extractLsb' 5 2 →
      k.extractLsb' 0 5 = f.rb → IsEncoding (imm k) f.word []) : IsEncoding i f.word [] := by
  unfold decodeBitForms at hd
  split at hd <;>
    simp only [rejectIf_eq_instr, Bool.true_and, Bool.or_eq_false_iff, bne_eq_false_iff_eq, Decoded.instr.injEq] at hd
  · rename_i hb
    obtain ⟨hu, rfl⟩ := hd
    refine himm hb hu _ ?_ (cut_low _ _)
    rw [cut_high 2 5 _ f.rb (by omega)]
    simp
  · rename_i hb
    obtain ⟨⟨hu, hz⟩, rfl⟩ := hd
    refine hreg (eq_false_of_ne_true hb) hu ?_
    rw [← hz, join_3_2]

theorem bit_isEncoding (hop : f.op = 13#5) (hl : ext.length = 0) (hd : decodeBit true f = .instr i) :
    IsEncoding i f.word ext := by
  obtain rfl := List.eq_nil_of_length_eq_zero hl
  unfold decodeBit at hd
  obtain ⟨ct, hi, b23, rb, b17, ra, rt, sz, op⟩ := f
  dsimp only at hop hd
  subst hop
  split at hd
  · exact reject_ne_instr hd
  · rename_i hb
    obtain rfl := eq_false_of_ne_true hb
    split at hd
    case h_8 => exact reject_ne_instr hd
    all_goals
      rename_i hz
      have hh := eq_ofNat_of_toNat hz
      refine bitForms_isEncoding hd ?_ ?_ <;> clear hd <;> dsimp only
      · rintro rfl hu hhi
        rw [hh] at hhi
        simp_all [IsEncoding, encode, Instr.wellFormed]
      · rintro rfl hu k hhi rfl
        rw [hh] at hhi
        simp_all [IsEncoding, encode, Instr.wellFormed]

theorem shiftHigh_of_bits : ∀ h : BitVec 5, h.getLsbD 2 = false →
    h = shiftHigh (h.extractLsb' 3 2) (h.getLsbD 1) (h.getLsbD 0) := by decide

/-- The register form or the Imm6 form of a shift is an encoding where the two forms are. -/
theorem shiftForms_isEncoding {unused : Bool} {reg : Instr} {imm : BitVec 6 → Instr}
    (hd : decodeShiftForms true f unused reg imm = .instr i)
    (hreg : f.b17 = false → unused = false → f.hi = shiftHigh (f.hi.extractLsb' 3 2) (f.hi.getLsbD 1) false →
      IsEncoding reg f.word [])
    (himm : f.b17 = true → unused = false → ∀ k : BitVec 6,
      f.hi = shiftHigh (f.hi.extractLsb' 3 2) (f.hi.getLsbD 1) (k.getLsbD 5) → k.extractLsb' 0 5 = f.rb →
      IsEncoding (imm k) f.word []) : IsEncoding i f.word [] := by
  unfold decodeShiftForms at hd
  split at hd <;>
    simp only [rejectIf_eq_instr, Bool.true_and, Bool.or_eq_false_iff, Decoded.instr.injEq] at hd
  · rename_i hb
    obtain ⟨⟨hu, h2⟩, rfl⟩ := hd
    refine himm hb hu _ ?_ (cut_low _ _)
    rw [bit_high 5 _ f.rb (by omega), BitVec.getLsbD_ofBool]
    simpa using shiftHigh_of_bits f.hi h2
  · rename_i hb
    obtain ⟨⟨⟨hu, h2⟩, h0⟩, rfl⟩ := hd
    refine hreg (eq_false_of_ne_true hb) hu ?_
    rw [← h0]
    exact shiftHigh_of_bits f.hi h2

theorem eq_three : ∀ c : BitVec 2, c.toNat ≠ 0 → c.toNat ≠ 1 → c.toNat ≠ 2 → c = 3#2 := by decide

theorem shift_isEncoding (hop : f.op = 14#5) (hl : ext.length = 0) (hd : decodeShift true f = .instr i) :
    IsEncoding i f.word ext := by
  obtain rfl := List.eq_nil_of_length_eq_zero hl
  unfold decodeShift at hd
  obtain ⟨ct, hi, b23, rb, b17, ra, rt, sz, op⟩ := f
  dsimp only at hop hd
  subst hop
  generalize hfn : hi.extractLsb' 3 2 = fn at hd
  generalize hfill : hi.getLsbD 1 = fill at hd
  split at hd
  case' h_7 h0 h1 h2 => obtain rfl := eq_three fn h0 h1 h2
  case' h_8 h0 h1 h2 => obtain rfl := eq_three fn h0 h1 h2
  case' h_1 hz | h_2 hz | h_3 hz | h_4 hz | h_5 hz | h_6 hz => obtain rfl := eq_ofNat_of_toNat hz
  all_goals
    refine shiftForms_isEncoding hd ?_ ?_ <;> clear hd <;> dsimp only
    · rintro rfl hu hhi
      rw [hfn, hfill] at hhi
      simp_all [IsEncoding, encode, Instr.wellFormed]
    · rintro rfl hu k hhi rfl
      rw [hfn, hfill] at hhi
      simp_all [IsEncoding, encode, Instr.wellFormed]

theorem return_isEncoding (hop : f.op = 15#5) (hl : ext.length = 0) (hd : decodeReturn true f = .instr i) :
    IsEncoding i f.word ext := by
  obtain rfl := List.eq_nil_of_length_eq_zero hl
  unfold decodeReturn at hd
  obtain ⟨ct, hi, b23, rb, b17, ra, rt, sz, op⟩ := f
  dsimp only at hop hd
  subst hop
  split at hd
  · exact reject_ne_instr hd
  · rename_i hb
    obtain ⟨rfl, rfl⟩ : b23 = false ∧ b17 = false := by simpa using hb
    split at hd
    case h_4 => exact reject_ne_instr hd
    all_goals
      rename_i hz
      obtain rfl := eq_ofNat_of_toNat hz
      simp only [rejectIf_eq_instr, Bool.true_and, Bool.or_eq_false_iff, bne_eq_false_iff_eq, Decoded.instr.injEq] at hd
      obtain ⟨⟨rfl, rfl⟩, rfl⟩ := hd
      simp [IsEncoding, encode, Instr.wellFormed]

theorem loadq_isEncoding (hop : f.op = 25#5) (hl : ext.length = 0) :
    IsEncoding (.loadq f.ct (Size.ofCode f.sz) f.rt f.imm17) f.word ext := by
  obtain rfl := List.eq_nil_of_length_eq_zero hl
  obtain ⟨ct, hi, b23, rb, b17, ra, rt, sz, op⟩ := f
  dsimp only at hop
  subst hop
  simp [IsEncoding, encode, Instr.wellFormed, Fields.imm17, imm17_parts]

/-! ## Operands with extension words -/

theorem csrNum_isEncoding {n : BitVec 7} (hl : ext.length = if n = 0#7 then 1 else 0) :
    (decodeCsrNum n ext).wf = true ∧ (decodeCsrNum n ext).field7 = n ∧ (decodeCsrNum n ext).words = ext := by
  unfold decodeCsrNum
  split at hl <;> rename_i hn
  · exact ⟨by simp [hn, CsrNum.wf], by simp [hn, CsrNum.field7],
      by simpa [hn, CsrNum.words] using (drop_eq_extWord (k := 0) hl).symm⟩
  · exact ⟨by simp [hn, CsrNum.wf], by simp [hn, CsrNum.field7],
      by simpa [hn, CsrNum.words] using (List.eq_nil_of_length_eq_zero hl).symm⟩

theorem join_7_3 (m : BitVec 10) : m.extractLsb' 3 7 ++ m.extractLsb' 0 3 = m :=
  (join_cut m 7 0 3).trans BitVec.extractLsb'_eq_self

theorem csr_isEncoding {g : LegacyFields} (hop : g.op = 2#5) (hl : ext.length = if g.mid.extractLsb' 3 7 = 0#7 then 1 else 0)
    (hd : decodeCsr g ext = .instr i) : IsEncoding i g.word ext := by
  obtain ⟨hwf, hfield, hwords⟩ := csrNum_isEncoding hl
  unfold decodeCsr at hd
  obtain ⟨rc, b26, rb, mode, mid, sz, b5, op⟩ := g
  dsimp only at hop hl hd hfield hwf hwords
  generalize decodeCsrNum (mid.extractLsb' 3 7) ext = csr at *
  subst hop hwords
  split at hd
  · exact reject_ne_instr hd
  · rename_i hc
    simp only [Bool.or_eq_true, not_or, Bool.not_eq_true, bne_eq_false_iff_eq] at hc
    obtain ⟨rfl, rfl⟩ := hc
    split at hd
    case h_6 => exact reject_ne_instr hd
    all_goals
      rename_i hz
      replace hz := eq_ofNat_of_toNat hz
      simp only [rejectIf_eq_instr, bne_eq_false_iff_eq, Bool.or_eq_false_iff, Decoded.instr.injEq] at hd
      obtain ⟨⟨rfl, rfl⟩, rfl, rfl⟩ := hd
      have hmid := join_7_3 mid
      rw [hz, ← hfield] at hmid
      clear hz hfield
      subst hmid
      simp [IsEncoding, encode, Instr.wellFormed, hwf]

/-- What a displacement that was read says of its fields and words; `wf`, `high` and `low` are those of its format. -/
structure DispRead {n a b : Nat} (wf : Disp n → Bool) (high : Disp n → BitVec a) (low : Disp n → BitVec b) (hi : BitVec a)
    (lo : BitVec b) (ext : List InsnWord) (k : Nat) (d : Disp n) : Prop where
  wf : wf d = true
  high : high d = hi
  low : low d = lo
  words : ext.drop k = d.words

theorem disp11_read {hi : BitVec 8} {lo : BitVec 3} {k : Nat} {d : Disp 11} (hd : decodeDisp11 hi lo ext k = .ok d)
    (hl : ext.length = k + if hi = 0x80#8 then 1 else if hi = 0x81#8 then 2 else 0) :
    DispRead Disp.wf11 Disp.high11 Disp.low11 hi lo ext k d := by
  unfold decodeDisp11 at hd
  split at hd
  · rename_i h
    split at hd <;> cases hd
    rename_i h0
    exact ⟨rfl, h.symm, h0.symm, drop_eq_extWord (by simpa [h] using hl)⟩
  · split at hd
    · rename_i h
      split at hd <;> cases hd
      rename_i h0
      exact ⟨rfl, h.symm, h0.symm, drop_eq_words64 (by simpa [h] using hl)⟩
    · split at hd <;> cases hd
      rename_i h80 h81 h82
      have hh : (hi ++ lo : BitVec 11).extractLsb' 3 8 = hi := (cut_high 8 3 hi lo (by omega)).trans BitVec.extractLsb'_eq_self
      exact ⟨by simp [Disp.wf11, wfDispHigh, hh, h80, h81, h82], hh, cut_low _ _, drop_eq_nil (by simpa [h80, h81] using hl)⟩

theorem disp10_read {hi : BitVec 8} {lo : BitVec 2} {k : Nat} {d : Disp 10} (hd : decodeDisp10 hi lo ext k = .ok d)
    (hl : ext.length = k + if hi = 0x80#8 then 1 else if hi = 0x81#8 then 2 else 0) :
    DispRead Disp.wf10 Disp.high10 Disp.low10 hi lo ext k d := by
  unfold decodeDisp10 at hd
  split at hd
  · rename_i h
    split at hd <;> cases hd
    rename_i h0
    exact ⟨rfl, h.symm, h0.symm, drop_eq_extWord (by simpa [h] using hl)⟩
  · split at hd
    · rename_i h
      split at hd <;> cases hd
      rename_i h0
      exact ⟨rfl, h.symm, h0.symm, drop_eq_words64 (by simpa [h] using hl)⟩
    · split at hd <;> cases hd
      rename_i h80 h81 h82
      have hh : (hi ++ lo : BitVec 10).extractLsb' 2 8 = hi := (cut_high 8 2 hi lo (by omega)).trans BitVec.extractLsb'_eq_self
      exact ⟨by simp [Disp.wf10, wfDispHigh, hh, h80, h81, h82], hh, cut_low _ _, drop_eq_nil (by simpa [h80, h81] using hl)⟩

theorem disp6_read {x : BitVec 6} {k : Nat} {d : Disp 6} (hd : decodeDisp6 x ext k = .ok d)
    (hl : ext.length = k + if x = 32#6 then 1 else if x = 33#6 then 2 else 0) :
    d.wfIndexed6 = true ∧ d.index6 = x ∧ ext.drop k = d.words := by
  unfold decodeDisp6 at hd
  split at hd
  · rename_i h
    cases hd
    exact ⟨rfl, h.symm, drop_eq_extWord (by simpa [h] using hl)⟩
  · split at hd
    · rename_i h
      cases hd
      exact ⟨rfl, h.symm, drop_eq_words64 (by simpa [h] using hl)⟩
    · split at hd <;> cases hd
      rename_i h32 h33 h34
      exact ⟨by simp [Disp.wfIndexed6, h32, h33, h34], rfl, drop_eq_nil (by simpa [h32, h33] using hl)⟩

theorem disp5_read {x : BitVec 5} {k : Nat} {d : Disp 5} (hd : decodeDisp5 x ext k = .ok d)
    (hl : ext.length = k + if x = 16#5 then 1 else if x = 17#5 then 2 else 0) :
    d.wfIndexed5 = true ∧ d.index5 = x ∧ ext.drop k = d.words := by
  unfold decodeDisp5 at hd
  split at hd
  · rename_i h
    cases hd
    exact ⟨rfl, h.symm, drop_eq_extWord (by simpa [h] using hl)⟩
  · split at hd
    · rename_i h
      cases hd
      exact ⟨rfl, h.symm, drop_eq_words64 (by simpa [h] using hl)⟩
    · split at hd <;> cases hd
      rename_i h16 h17 h18
      exact ⟨by simp [Disp.wfIndexed5, h16, h17, h18], rfl, drop_eq_nil (by simpa [h16, h17] using hl)⟩

/-- An immediate of STORE #imm that was read, with more words behind it. -/
theorem storeImm_read {x : BitVec 5} {m : StoreImm} {k : Nat} (hd : decodeStoreImm x ext = .ok m)
    (hl : ext.length = (if x = 16#5 then 1 else if x = 17#5 then 2 else 0) + k) :
    m.wf = true ∧ m.field5 = x ∧ ext = m.words ++ ext.drop m.extWords ∧ ext.length = m.extWords + k := by
  unfold decodeStoreImm at hd
  split at hd
  · rename_i h
    cases hd
    simp only [h, if_true] at hl
    obtain ⟨w, rest, rfl⟩ := List.exists_cons_of_length_pos (l := ext) (by omega)
    exact ⟨rfl, h.symm, rfl, hl⟩
  · rename_i h16
    split at hd
    · rename_i h
      cases hd
      rw [if_neg h16, if_pos h] at hl
      obtain ⟨lo, rest, rfl⟩ := List.exists_cons_of_length_pos (l := ext) (by omega)
      obtain ⟨up, rest, rfl⟩ := List.exists_cons_of_length_pos (l := rest) (by simp only [List.length_cons] at hl; omega)
      refine ⟨rfl, h.symm, ?_, by simpa [h, StoreImm.extWords] using hl⟩
      exact congrArg (· ++ rest) (words64_extPair lo up).symm
    · split at hd <;> cases hd
      rename_i h17 h18
      exact ⟨by simp [StoreImm.wf, h16, h17, h18], rfl, rfl, by simpa [h16, h17, StoreImm.extWords] using hl⟩

/-! ## The memory groups -/

theorem join_rt_load (rt : BitVec 5) : rt.extractLsb' 3 2 ++ rt.extractLsb' 0 3 = rt :=
  (join_cut rt 2 0 3).trans BitVec.extractLsb'_eq_self

/-- The address operand of LOAD and LOADM outside the indexed mode, read from its fields (R108). -/
structure LoadOperand (f : Fields) (ext : List InsnWord) (k : Nat) (md : UpdMode) (d : Disp 11) : Prop where
  wf : d.wf11 = true
  ct : f.ct = d.high11.extractLsb' 5 3
  hi : f.hi = d.high11.extractLsb' 0 5
  rt : f.rt = md.code2 ++ d.low11
  words : ext.drop k = d.words

theorem loadOperand {k : Nat} {md : UpdMode} {d : Disp 11} (hm : f.rt.extractLsb' 3 2 = md.code2)
    (hd : decodeDisp11 (f.ct ++ f.hi) (f.rt.extractLsb' 0 3) ext k = .ok d) (hl : ext.length = k + loadDispWords f) :
    LoadOperand f ext k md d := by
  have hne : f.rt.extractLsb' 3 2 ≠ 3#2 := by rw [hm]; cases md <;> decide
  rw [loadDispWords, if_neg hne] at hl
  obtain ⟨hw, hhigh, hlow, hwords⟩ := disp11_read hd hl
  exact ⟨hw, by rw [hhigh, high_3_5], by rw [hhigh, low_3_5], by rw [hlow, ← hm, join_rt_load], hwords⟩

/-- The same in the indexed mode (R109). -/
structure LoadIndex (f : Fields) (ext : List InsnWord) (k : Nat) (d : Disp 6) : Prop where
  wf : d.wfIndexed6 = true
  ct : f.ct = d.index6.extractLsb' 3 3
  rt : f.rt = 3#2 ++ d.index6.extractLsb' 0 3
  words : ext.drop k = d.words

theorem loadIndex {k : Nat} {d : Disp 6} (hm : f.rt.extractLsb' 3 2 = 3#2)
    (hd : decodeDisp6 (f.ct ++ f.rt.extractLsb' 0 3) ext k = .ok d) (hl : ext.length = k + loadDispWords f) :
    LoadIndex f ext k d := by
  rw [loadDispWords, if_pos hm] at hl
  obtain ⟨hw, hx, hwords⟩ := disp6_read hd hl
  refine ⟨hw, ?_, by rw [hx, cut_low, ← hm, join_rt_load], hwords⟩
  rw [hx, cut_high 3 3 _ _ (by omega)]
  exact BitVec.extractLsb'_eq_self.symm

theorem load_isEncoding (hop : f.op = 16#5) (hl : ext.length = loadDispWords f) (hd : decodeLoad f ext = .instr i) :
    IsEncoding i f.word ext := by
  rw [← Nat.zero_add (loadDispWords f)] at hl
  unfold decodeLoad at hd
  split at hd
  · exact reject_ne_instr hd
  · rename_i hb
    replace hb := eq_false_of_ne_true hb
    simp only [rejectIf_eq_instr] at hd
    obtain ⟨h23, hd⟩ := hd
    split at hd <;> simp only [withOperand_eq_instr, Decoded.instr.injEq] at hd <;> obtain ⟨d, hd, rfl⟩ := hd
    case' h_1 hz => obtain ⟨hw, hct, hhi, hrt, hwords⟩ := loadOperand (md := .indirect) (eq_ofNat_of_toNat hz) hd hl
    case' h_2 hz => obtain ⟨hw, hct, hhi, hrt, hwords⟩ := loadOperand (md := .postUpdate) (eq_ofNat_of_toNat hz) hd hl
    case' h_3 hz => obtain ⟨hw, hct, hhi, hrt, hwords⟩ := loadOperand (md := .preUpdate) (eq_ofNat_of_toNat hz) hd hl
    case' h_4 h0 h1 h2 => obtain ⟨hw, hct, hrt, hwords⟩ := loadIndex (eq_three _ h0 h1 h2) hd hl
    all_goals
      clear hd hl
      rw [List.drop_zero] at hwords
      obtain ⟨ct, hi, b23, rb, b17, ra, rt, sz, op⟩ := f
      dsimp only at *
      subst hop hb h23 hct hrt hwords
      simp [IsEncoding, encode, Instr.wellFormed, *]

theorem ext_of_drop_one {n : Nat} {ws : List InsnWord} (hl : ext.length = 1 + n) (hw : ext.drop 1 = ws) :
    ext = extWord ext 0 :: ws := by
  obtain ⟨w, rest, rfl⟩ := List.exists_cons_of_length_pos (l := ext) (by omega)
  exact congrArg (w :: ·) hw

theorem loadm_isEncoding (hop : f.op = 17#5) (hl : ext.length = 1 + loadDispWords f) (hd : decodeLoadm f ext = .instr i) :
    IsEncoding i f.word ext := by
  unfold decodeLoadm at hd
  split at hd
  · exact reject_ne_instr hd
  · rename_i hb
    replace hb := eq_false_of_ne_true hb
    split at hd <;> simp only [withOperand_eq_instr, Decoded.instr.injEq] at hd <;> obtain ⟨d, hd, rfl⟩ := hd
    case' h_1 hz => obtain ⟨hw, hct, hhi, hrt, hwords⟩ := loadOperand (md := .indirect) (eq_ofNat_of_toNat hz) hd hl
    case' h_2 hz => obtain ⟨hw, hct, hhi, hrt, hwords⟩ := loadOperand (md := .postUpdate) (eq_ofNat_of_toNat hz) hd hl
    case' h_3 hz => obtain ⟨hw, hct, hhi, hrt, hwords⟩ := loadOperand (md := .preUpdate) (eq_ofNat_of_toNat hz) hd hl
    case' h_4 h0 h1 h2 => obtain ⟨hw, hct, hrt, hwords⟩ := loadIndex (eq_three _ h0 h1 h2) hd hl
    all_goals
      have hext := ext_of_drop_one hl hwords
      clear hd hl hwords
      generalize extWord ext 0 = list at *
      obtain ⟨ct, hi, b23, rb, b17, ra, rt, sz, op⟩ := f
      dsimp only at *
      subst hop hb hct hrt hext
      simp [IsEncoding, encode, Instr.wellFormed, *]

/-- The address operand of the STORE family outside the indexed mode, read from its fields (R110). -/
structure StoreOperand (f : Fields) (ext : List InsnWord) (k : Nat) (md : UpdMode) (d : Disp 10) : Prop where
  wf : d.wf10 = true
  ct : f.ct = d.high10.extractLsb' 5 3
  hi : f.hi = d.high10.extractLsb' 0 5
  rt : f.rt = md.code3 ++ d.low10
  words : ext.drop k = d.words

/-- The same in the indexed mode (R110). -/
structure StoreIndex (f : Fields) (ext : List InsnWord) (k : Nat) (d : Disp 5) : Prop where
  wf : d.wfIndexed5 = true
  ct : f.ct = d.index5.extractLsb' 2 3
  rt : f.rt = 4#3 ++ d.index5.extractLsb' 0 2
  words : ext.drop k = d.words

theorem storeDispWords_of_mode {md : UpdMode} (hm : f.rt.extractLsb' 2 3 = md.code3) :
    storeDispWords f = if f.ct ++ f.hi = 0x80#8 then 1 else if f.ct ++ f.hi = 0x81#8 then 2 else 0 := by
  unfold storeDispWords
  rw [hm]
  cases md <;> rfl

theorem storeOperand {k : Nat} {md : UpdMode} {d : Disp 10} (hm : f.rt.extractLsb' 2 3 = md.code3)
    (hd : decodeDisp10 (f.ct ++ f.hi) (f.rt.extractLsb' 0 2) ext k = .ok d) (hl : ext.length = k + storeDispWords f) :
    StoreOperand f ext k md d := by
  rw [storeDispWords_of_mode hm] at hl
  obtain ⟨hw, hhigh, hlow, hwords⟩ := disp10_read hd hl
  exact ⟨hw, by rw [hhigh, high_3_5], by rw [hhigh, low_3_5], by rw [hlow, ← hm, join_3_2], hwords⟩

theorem storeIndex {k : Nat} {d : Disp 5} (hm : f.rt.extractLsb' 2 3 = 4#3)
    (hd : decodeDisp5 (f.ct ++ f.rt.extractLsb' 0 2) ext k = .ok d) (hl : ext.length = k + storeDispWords f) :
    StoreIndex f ext k d := by
  unfold storeDispWords at hl
  rw [hm] at hl
  obtain ⟨hw, hx, hwords⟩ := disp5_read hd hl
  refine ⟨hw, ?_, by rw [hx, cut_low, ← hm, join_3_2], hwords⟩
  rw [hx, cut_high 3 2 _ _ (by omega)]
  exact BitVec.extractLsb'_eq_self.symm

/-- An instruction of the STORE family is read in one of the modes with an update or in the indexed mode. -/
theorem destination_cases {k : Nat} {upd : UpdMode → Disp 10 → Decoded} {idx : Disp 5 → Decoded}
    (hl : ext.length = k + storeDispWords f) (hd : decodeDestination f ext k upd idx = .instr i) :
    (∃ md d, StoreOperand f ext k md d ∧ upd md d = .instr i) ∨ ∃ d, StoreIndex f ext k d ∧ idx d = .instr i := by
  unfold decodeDestination at hd
  split at hd
  case h_5 => exact reject_ne_instr hd
  all_goals
    rename_i hz
    obtain ⟨d, hd, hi⟩ := withOperand_eq_instr.1 hd
  · exact .inl ⟨.indirect, d, storeOperand (eq_ofNat_of_toNat hz) hd hl, hi⟩
  · exact .inl ⟨.postUpdate, d, storeOperand (eq_ofNat_of_toNat hz) hd hl, hi⟩
  · exact .inl ⟨.preUpdate, d, storeOperand (eq_ofNat_of_toNat hz) hd hl, hi⟩
  · exact .inr ⟨d, storeIndex (eq_ofNat_of_toNat hz) hd hl, hi⟩

theorem storem_isEncoding (hop : f.op = 19#5) (hl : ext.length = 1 + storeDispWords f) (hd : decodeStorem f ext = .instr i) :
    IsEncoding i f.word ext := by
  unfold decodeStorem at hd
  split at hd
  · exact reject_ne_instr hd
  · rename_i hb
    replace hb := eq_false_of_ne_true hb
    obtain ⟨md, d, ⟨hw, hct, hhi, hrt, hwords⟩, hd⟩ | ⟨d, ⟨hw, hct, hrt, hwords⟩, hd⟩ := destination_cases hl hd
    all_goals
      cases hd
      have hext := ext_of_drop_one hl hwords
      clear hl hwords
      generalize extWord ext 0 = list at *
      obtain ⟨ct, hi, b23, rb, b17, ra, rt, sz, op⟩ := f
      dsimp only at *
      subst hop hb hct hrt hext
      simp [IsEncoding, encode, Instr.wellFormed, *]

theorem pea_isEncoding (hop : f.op = 27#5) (hl : ext.length = storeDispWords f) (hd : decodePea true f ext = .instr i) :
    IsEncoding i f.word ext := by
  rw [← Nat.zero_add (storeDispWords f)] at hl
  unfold decodePea at hd
  split at hd
  · exact reject_ne_instr hd
  · rename_i hb
    replace hb := eq_false_of_ne_true hb
    simp only [rejectIf_eq_instr, Bool.true_and, Bool.or_eq_false_iff, bne_eq_false_iff_eq] at hd
    obtain ⟨⟨h23, hra⟩, hd⟩ := hd
    obtain ⟨md, d, ⟨hw, hct, hhi, hrt, hwords⟩, hd⟩ | ⟨d, ⟨hw, hct, hrt, hwords⟩, hd⟩ := destination_cases hl hd
    all_goals
      obtain ⟨sz', hsz, rfl⟩ := Option.map_eq_some_iff.1 (ofOption_eq_instr.1 hd)
      replace hsz := PushSize.code_of_ofCode hsz
      clear hd hl
      rw [List.drop_zero] at hwords
      obtain ⟨ct, hi, b23, rb, b17, ra, rt, sz, op⟩ := f
      dsimp only at *
      subst hop hb h23 hra hct hrt hwords hsz
      simp [IsEncoding, encode, Instr.wellFormed, *]

/-- A word that reads as a STORE of a register stands for that STORE, or for the PUSH it is (R122). -/
theorem storeOrPush_isEncoding {ra rb : Reg} {md : UpdMode} {d : Disp 10} {sz : BitVec 2} (hw : d.wf10 = true) :
    IsEncoding (storeOrPush (Size.ofCode sz) md ra rb d)
      (Fields.word ⟨d.high10.extractLsb' 5 3, d.high10.extractLsb' 0 5, false, rb, false, ra, md.code3 ++ d.low10, sz, 18#5⟩)
      d.words := by
  unfold storeOrPush
  split
  · rename_i hp
    simp only [isPush, Bool.and_eq_true, Bool.or_eq_true, beq_iff_eq] at hp
    obtain ⟨⟨rfl, rfl⟩, ⟨hsz, rfl⟩ | ⟨hsz, rfl⟩⟩ := hp <;> rw [← Size.code_ofCode sz, hsz] <;> exact ⟨rfl, rfl⟩
  · rename_i hp
    simp [IsEncoding, encode, Instr.wellFormed, hw, hp]

theorem store_isEncoding (hop : f.op = 18#5) (hl : ext.length = storeImmWords f + storeDispWords f)
    (hd : decodeStore f ext = .instr i) : IsEncoding i f.word ext := by
  unfold decodeStore at hd
  obtain ⟨h23, hd⟩ := rejectIf_eq_instr.1 hd
  split at hd <;> rename_i hb
  · obtain ⟨imm, himm, hd⟩ := withOperand_eq_instr.1 hd
    rw [storeImmWords, if_pos hb] at hl
    obtain ⟨hm, hfield, hext, hl⟩ := storeImm_read himm hl
    obtain ⟨md, d, ⟨hw, hct, hhi, hrt, hwords⟩, hd⟩ | ⟨d, ⟨hw, hct, hrt, hwords⟩, hd⟩ := destination_cases hl hd
    all_goals
      cases hd
      rw [hwords] at hext
      clear himm hl hwords
      obtain ⟨ct, hi, b23, rb, b17, ra, rt, sz, op⟩ := f
      dsimp only at *
      subst hop hb h23 hfield hct hrt hext
      simp [IsEncoding, encode, Instr.wellFormed, *]
  · replace hb := eq_false_of_ne_true hb
    rw [storeImmWords_reg hb] at hl
    obtain ⟨md, d, ⟨hw, hct, hhi, hrt, hwords⟩, hd⟩ | ⟨d, ⟨hw, hct, hrt, hwords⟩, hd⟩ := destination_cases hl hd
    all_goals
      cases hd
      clear hl
      rw [List.drop_zero] at hwords
      obtain ⟨ct, hi, b23, rb, b17, ra, rt, sz, op⟩ := f
      dsimp only at *
      subst hop hb h23 hct hrt hwords
    · subst hhi
      exact storeOrPush_isEncoding hw
    · simp [IsEncoding, encode, Instr.wellFormed, hw]

end

/-! ## The branches and the named-only instructions -/

section
variable {ext : List InsnWord} {i : Instr} (hl : ext.length = 0)
include hl

theorem bcc_isEncoding {h : BranchFields} (hop : h.op = 28#5) (hd : decodeBcc h = .instr i) : IsEncoding i h.word ext := by
  obtain rfl := List.eq_nil_of_length_eq_zero hl
  obtain ⟨disp, cr, cond, op⟩ := h
  have hlow : (cr ++ disp : BitVec 22).extractLsb' 0 19 = disp := cut_low _ _
  have hhigh : (cr ++ disp : BitVec 22).extractLsb' 19 3 = cr := (cut_high 3 19 cr disp (by omega)).trans BitVec.extractLsb'_eq_self
  unfold decodeBcc at hd
  dsimp only at hop hd
  subst hop
  split at hd
  · exact reject_ne_instr hd
  all_goals
    rename_i hc
    cases hd
  · obtain rfl := Cond.code_of_ofCode hc
    simp [IsEncoding, encode, Instr.wellFormed, hlow, hhigh, Cond.code]
  · obtain rfl := Cond.code_of_ofCode hc
    simp [IsEncoding, encode, Instr.wellFormed, hlow, hhigh, Cond.code]
  · rename_i hra hsr _
    obtain rfl := Cond.code_of_ofCode hc
    simp_all [IsEncoding, encode, Instr.wellFormed]

theorem dbcc_isEncoding {h : BranchFields} (hop : h.op = 29#5) (hd : decodeDbcc h = .instr i) : IsEncoding i h.word ext := by
  obtain rfl := List.eq_nil_of_length_eq_zero hl
  obtain ⟨c, hc, rfl⟩ := Option.map_eq_some_iff.1 (ofOption_eq_instr.1 hd)
  obtain ⟨disp, cr, cond, op⟩ := h
  dsimp only at hop hc
  subst hop
  obtain rfl := Cond.code_of_ofCode hc
  simp [IsEncoding, encode, Instr.wellFormed]

omit hl in
theorem join_27_5 {w : InsnWord} {op : BitVec 5} (hop : (Fields.ofWord w).op = op) : w.extractLsb' 5 27 ++ op = w := by
  rw [← hop]
  exact (join_cut w 27 0 5).trans BitVec.extractLsb'_eq_self

end

theorem decodesStrictly_isEncoding {w : InsnWord} {ext : List InsnWord} {i : Instr} (hl : ext.length = extWordsOf w)
    (hd : decodeWord true w ext = .instr i) : IsEncoding i w ext := by
  have hword := Fields.word_ofWord w
  have hlegacy := LegacyFields.word_ofWord w
  have hbranch := BranchFields.word_ofWord w
  unfold decodeWord at hd
  unfold extWordsOf at hl
  dsimp only at hd hl
  split at hd
  case h_28 => exact reject_ne_instr hd
  all_goals
    rename_i hop
    rw [hop] at hl
    replace hop := eq_ofNat_of_toNat hop
  case h_2 =>
    split at hd
    · rename_i hb
      exact hlegacy ▸ abs_isEncoding hop hb hl hd
    · exact hword ▸ swap_isEncoding hop hl hd
  case h_3 =>
    have hcsr : (LegacyFields.ofWord w).mid.extractLsb' 3 7 = w.extractLsb' 11 7 :=
      (LegacyFields.word_csr _).symm.trans (by rw [hlegacy])
    exact hlegacy ▸ csr_isEncoding hop (by rw [hcsr]; exact hl) hd
  case h_1 => exact hword ▸ trap_isEncoding hop hl hd
  case h_4 => exact hword ▸ compare_isEncoding hop hl hd
  case h_5 => exact hword ▸ add_isEncoding hop hl hd
  case h_6 => exact hword ▸ sub_isEncoding hop hl hd
  case h_7 => exact hword ▸ mul_isEncoding hop hl hd
  case h_8 => exact hword ▸ div_isEncoding hop hl hd
  case h_9 => exact hword ▸ and_isEncoding hop hl hd
  case h_10 => exact hword ▸ or_isEncoding hop hl hd
  case h_11 => exact hword ▸ eor_isEncoding hop hl hd
  case h_12 => exact hword ▸ bit_isEncoding hop hl hd
  case h_13 => exact hword ▸ shift_isEncoding hop hl hd
  case h_14 => exact hword ▸ return_isEncoding hop hl hd
  case h_15 => exact hword ▸ load_isEncoding hop hl hd
  case h_16 => exact hword ▸ loadm_isEncoding hop hl hd
  case h_17 => exact hword ▸ store_isEncoding hop hl hd
  case h_18 => exact hword ▸ storem_isEncoding hop hl hd
  case h_19 | h_20 | h_21 | h_22 =>
    cases hd
    obtain rfl := List.eq_nil_of_length_eq_zero hl
    exact ⟨rfl, congrArg (fun v => [v]) (join_27_5 hop)⟩
  case h_23 => exact hword ▸ jump_isEncoding hop hl hd
  case h_24 =>
    cases hd
    have h := loadq_isEncoding hop hl
    rwa [hword] at h
  case h_25 => exact hword ▸ pea_isEncoding hop hl hd
  case h_26 => exact hbranch ▸ bcc_isEncoding hl hop hd
  case h_27 => exact hbranch ▸ dbcc_isEncoding hl hop hd

/-- Settles O2, opcode by opcode. -/
theorem strictlyDecodedWordsAreEncodings : Obligations.StrictlyDecodedWordsAreEncodings :=
  fun _ _ _ hl hd => decodesStrictly_isEncoding hl hd

end Sys2Proof.Proofs.StrictDecode
end

section
/-! PROOFS. What the shared operations over registers and flags change and what they keep, and the end of an instruction that
writes no memory: the layer the proofs about the single instructions stand on. -/

namespace Sys2Proof.Proofs.Frame

open Sys2Proof Sys2Proof.Machine Sys2Proof.Claims

/-! ## What stays -/

theorem keepsRest_refl (regs : List Reg) (crs : List CReg) (s : State) : KeepsRest regs crs s s :=
  ⟨fun _ _ => rfl, rfl, fun _ _ => rfl, rfl, rfl, rfl, rfl, rfl, rfl, rfl⟩

theorem KeepsRest.mono {a a' : List Reg} {b b' : List CReg} {s t : State} (h : KeepsRest a b s t) (ha : a ⊆ a') (hb : b ⊆ b') :
    KeepsRest a' b' s t :=
  ⟨fun i hi => h.x i (hi.imp_left fun hn hm => hn (ha hm)), h.otherSp, fun n hn => h.cr n fun hm => hn (hb hm), h.sr, h.lc, h.ac,
    h.vb, h.stuck, h.irq, h.params⟩

theorem keepsMemory_refl (s : State) : KeepsMemory s s := ⟨fun _ => rfl, rfl⟩

theorem KeepsMemory.trans {s t u : State} (h : KeepsMemory s t) (k : KeepsMemory t u) : KeepsMemory s u :=
  ⟨fun b => (k.byte b).trans (h.byte b), k.stored.trans h.stored⟩

theorem keepsMemory_of_eq {s t : State} (hm : t.mem = s.mem) (hs : t.stored = s.stored) : KeepsMemory s t :=
  ⟨fun b => by rw [hm], hs⟩

theorem otherSp_setX (s : State) (i : Reg) (v : Word) : (s.setX i v).otherSp = s.otherSp := by
  unfold State.otherSp
  rw [State.supervisor_eq_of_sr s (s.setX i v) (by simp)]
  cases h : s.supervisor
  · simpa using State.setX_ssp_of_user s i v h
  · simpa using State.setX_usp_of_supervisor s i v h

theorem keepsRest_setX (s : State) {i : Reg} (v : Word) {regs : List Reg} (crs : List CReg) (h : i ∈ regs) :
    KeepsRest regs crs s (s.setX i v) where
  x j hj := by
    by_cases h0 : j = 0#5
    · subst h0; rfl
    · exact State.x_setX_other s v fun e => hj.elim (fun hn => hn (e ▸ h)) h0
  otherSp := otherSp_setX s i v
  cr n _ := State.cr_setX s i v n
  sr := by simp
  lc := by simp
  ac := by simp
  vb := by simp
  stuck := by simp
  irq := by simp
  params := by simp

/-- A part of an instruction that writes at most the registers `regs` and the condition registers `crs`, and neither memory nor
the program counter. -/
structure Writes (regs : List Reg) (crs : List CReg) (s t : State) : Prop where
  pc     : t.pc = s.pc
  rest   : KeepsRest regs crs s t
  memory : KeepsMemory s t

theorem Writes.refl (regs : List Reg) (crs : List CReg) (s : State) : Writes regs crs s s :=
  ⟨rfl, keepsRest_refl .., keepsMemory_refl s⟩

theorem Writes.trans {regs : List Reg} {crs : List CReg} {s t u : State} (h : Writes regs crs s t) (k : Writes regs crs t u) :
    Writes regs crs s u := ⟨k.pc.trans h.pc, h.rest.trans k.rest, KeepsMemory.trans h.memory k.memory⟩

theorem Writes.setX {regs : List Reg} {crs : List CReg} {s t : State} (h : Writes regs crs s t) {i : Reg} (hi : i ∈ regs) (v : Word) :
    Writes regs crs s (t.setX i v) :=
  h.trans ⟨by simp, keepsRest_setX t v crs hi, keepsMemory_of_eq (by simp) (by simp)⟩

theorem Writes.drawn {regs : List Reg} {crs : List CReg} {s t : State} (h : Writes regs crs s t) (n : Nat) :
    Writes regs crs s (t.drawn n) :=
  h.trans ⟨rfl, ⟨fun i _ => State.x_drawn t n i, rfl, fun _ _ => rfl, rfl, rfl, rfl, rfl, rfl, rfl, rfl⟩, keepsMemory_of_eq rfl rfl⟩

theorem Writes.setCr {regs : List Reg} {crs : List CReg} {s t : State} (h : Writes regs crs s t) {n : CReg} (hn : n ∈ crs)
    (v : BitVec 4) : Writes regs crs s (t.setCr n v) :=
  h.trans ⟨rfl, ⟨fun i _ => State.x_setCr t n v i, rfl, fun _ hm => State.cr_setCr_other t v fun e => hm (e ▸ hn), rfl, rfl, rfl,
    rfl, rfl, rfl, rfl⟩, keepsMemory_of_eq rfl rfl⟩

theorem Writes.wb {regs : List Reg} {crs : List CReg} {s t : State} (h : Writes regs crs s t) {w : Nat} (hw : w ≤ 64) {i : Reg}
    (hi : i ∈ regs) (r : BitVec w) : Writes regs crs s (t.wb i r) := by
  obtain ⟨v, n, e, -⟩ := t.wb_spec hw i r
  rw [e]
  exact (h.setX hi v).drawn n

theorem Writes.writeFlags {regs : List Reg} {crs : List CReg} {s t : State} (h : Writes regs crs s t) {n : CReg} (hn : n ∈ crs)
    (mentioned v : BitVec 4) : Writes regs crs s (t.writeFlags n mentioned v) := by
  obtain ⟨f, k, e, -⟩ := t.writeFlags_spec n mentioned v
  rw [e]
  exact (h.setCr hn f).drawn k

/-! ## The end of an instruction -/

theorem pcNext_eq {s t : State} (h : t.pc = s.pc) (words : Nat) : t.pcNext words = s.pc + BitVec.ofNat 64 (4 * words) := by
  rw [State.pcNext, h]

theorem Writes.endsAt {regs : List Reg} {crs : List CReg} {s t : State} (h : Writes regs crs s t) (words : Nat) :
    EndsAt words regs crs s (t.jump (t.pcNext words)) :=
  ⟨pcNext_eq h.pc words, h.rest.jump _, KeepsMemory.trans h.memory (keepsMemory_of_eq rfl rfl)⟩

/-- An instruction that ends in sequence completes where the next one starts below 2^64 (R26). -/
theorem completes_advance {words : Nat} {s t : State} {P : State → Prop} (hpc : t.pc = s.pc) (hr : Room words s)
    (h : P (t.jump (t.pcNext words))) : Completes (advance words t) P :=
  ⟨_, if_pos (show t.pc.toNat + 4 * words < 2 ^ 64 by rw [hpc]; exact hr), h⟩

/-! ## Results -/

theorem withLow_shift {w : Nat} (up : Word) (r : BitVec w) : withLow up r >>> w = up >>> w := by
  apply BitVec.eq_of_getLsbD_eq
  intro i _
  have h : ¬ w + i < w := by omega
  simp only [withLow, BitVec.getLsbD_ushiftRight, BitVec.getLsbD_or, BitVec.getLsbD_shiftLeft, BitVec.getLsbD_setWidth,
    BitVec.getLsbD_of_ge r (w + i) (by omega), h, Bool.and_false, Bool.or_false, decide_false, Bool.not_false, Bool.and_true,
    Nat.add_sub_cancel_left]
  by_cases hi : w + i < 64
  · simp [hi]
  · simp [hi, BitVec.getLsbD_of_ge up (w + i) (by omega)]

/-- What a write of a w-bit result leaves in its register (R8). -/
theorem holdsResult_wb {w : Nat} (hw : w ≤ 64) (s : State) {i : Reg} (hi : i ≠ 0#5) (r : BitVec w) :
    HoldsResult s.params r (s.x i) ((s.wb i r).x i) := by
  constructor
  · obtain ⟨v, n, e, hv, -⟩ := s.wb_spec hw i r
    rw [e, State.x_drawn, State.x_setX_same s v hi, hv]
  · intro hlt
    have hn : ¬ 64 ≤ w := by omega
    unfold State.wb
    rw [if_neg hn]
    refine ⟨fun h => ?_, fun h => ?_, fun h => ?_⟩ <;> simp only [h, State.x_setX_same s _ hi]
    · exact withLow_shift _ r
    · exact BitVec.toInt_signExtend_of_le hw
    · exact BitVec.toNat_setWidth_of_le hw

/-- An instruction whose last write of `i` is that of `r` has written the result, whatever else it does. -/
theorem writesResult_of_x {w : Nat} (hw : w ≤ 64) {s t u : State} {i : Reg} {r : BitVec w} (hp : s.params = u.params)
    (hx : s.x i = u.x i) (h : t.x i = (u.wb i r).x i) : WritesResult i r s t := fun hi => by
  rw [h, hp, hx]
  exact holdsResult_wb hw u hi r

@[simp] theorem x_writeFlags (s : State) (n : CReg) (m v : BitVec 4) (i : Reg) : (s.writeFlags n m v).x i = s.x i := by
  obtain ⟨f, k, e, -⟩ := s.writeFlags_spec n m v
  rw [e]
  simp

@[simp] theorem cr_wb {w : Nat} (hw : w ≤ 64) (s : State) (i : Reg) (r : BitVec w) (n : CReg) : (s.wb i r).cr n = s.cr n := by
  obtain ⟨v, k, e, -⟩ := s.wb_spec hw i r
  rw [e]
  simp

@[simp] theorem cr_jump (s : State) (a : Word) (n : CReg) : (s.jump a).cr n = s.cr n := rfl

theorem params_wb {w : Nat} (hw : w ≤ 64) (s : State) (i : Reg) (r : BitVec w) : (s.wb i r).params = s.params := by
  obtain ⟨v, k, e, -⟩ := s.wb_spec hw i r
  rw [e]
  simp

theorem pc_wb {w : Nat} (hw : w ≤ 64) (s : State) (i : Reg) (r : BitVec w) : (s.wb i r).pc = s.pc :=
  (Writes.refl [i] [] s).wb hw (by simp) r |>.pc

theorem x_wb_other {w : Nat} (hw : w ≤ 64) (s : State) {i j : Reg} (r : BitVec w) (h : j ≠ i) : (s.wb i r).x j = s.x j := by
  obtain ⟨v, k, e, -⟩ := s.wb_spec hw i r
  rw [e, State.x_drawn, State.x_setX_other s v h]

/-! ## Flags -/

@[simp] theorem flags_bits (nf zf vf cf : Bool) : (flags nf zf vf cf).getLsbD 3 = nf ∧ (flags nf zf vf cf).getLsbD 2 = zf ∧
    (flags nf zf vf cf).getLsbD 1 = vf ∧ (flags nf zf vf cf).getLsbD 0 = cf := by
  revert nf zf vf cf; decide

theorem flagsAre_flags {nf zf vf cf : Bool} {n z v c : Prop} (hn : nf = true ↔ n) (hz : zf = true ↔ z) (hv : vf = true ↔ v)
    (hc : cf = true ↔ c) : FlagsAre (flags nf zf vf cf) n z v c := by
  obtain ⟨h3, h2, h1, h0⟩ := flags_bits nf zf vf cf
  exact ⟨by rw [h3, hn], by rw [h2, hz], by rw [h1, hv], by rw [h0, hc]⟩

theorem cr_writeFlags_all (s : State) (n : CReg) (v : BitVec 4) : (s.writeFlags n allFlags v).cr n = v :=
  State.cr_setCr_same s n v

theorem bit_of_and {f v m : BitVec 4} (h : f &&& m = v &&& m) {k : Nat} (hk : m.getLsbD k = true) : f.getLsbD k = v.getLsbD k := by
  have h := congrArg (fun x => x.getLsbD k) h
  simpa only [BitVec.getLsbD_and, hk, Bool.and_true] using h

/-- A flag that the instruction mentions has its new value; one that it does not keeps its old one where the parameter says so
(R131). -/
theorem cr_writeFlags_bit (s : State) (n : CReg) (m v : BitVec 4) {k : Nat} (hk : m.getLsbD k = true) :
    ((s.writeFlags n m v).cr n).getLsbD k = v.getLsbD k := by
  obtain ⟨f, j, e, hf, -⟩ := s.writeFlags_spec n m v
  rw [e, State.cr_drawn, State.cr_setCr_same]
  exact bit_of_and hf hk

theorem cr_writeFlags_kept (s : State) (n : CReg) {m : BitVec 4} (v : BitVec 4) (hm : m ≠ 0xF#4)
    (hu : s.params.unmentionedFlags = .unchanged) {k : Nat} (hk : (~~~m).getLsbD k = true) :
    ((s.writeFlags n m v).cr n).getLsbD k = (s.cr n).getLsbD k := by
  obtain ⟨f, j, e, -, -, hf⟩ := s.writeFlags_spec n m v
  rw [e, State.cr_drawn, State.cr_setCr_same]
  have hf := hf hu
  rw [if_neg hm] at hf
  exact bit_of_and hf hk

theorem msb_iff {w : Nat} (r : BitVec w) : r.msb = true ↔ r.toInt < 0 := by rw [BitVec.msb_eq_toInt, decide_eq_true_iff]

theorem negativeAndZero_writeFlags {w : Nat} (s t : State) (ct : CReg) (r : BitVec w) (vf cf : Bool) (hcr : t.cr ct = s.cr ct)
    (hp : t.params = s.params) (words : Nat) :
    NegativeAndZero ct (r.toInt < 0) (r = 0#w) s ((t.writeFlags ct nzFlags (resultFlags r vf cf)).jump
      ((t.writeFlags ct nzFlags (resultFlags r vf cf)).pcNext words)) := by
  obtain ⟨h3, h2, -, -⟩ := flags_bits r.msb (r == 0#w) vf cf
  refine ⟨?_, ?_, fun hu => ⟨?_, ?_⟩⟩
  · rw [cr_jump, cr_writeFlags_bit _ _ _ _ (by decide), resultFlags, h3, msb_iff]
  · rw [cr_jump, cr_writeFlags_bit _ _ _ _ (by decide), resultFlags, h2, beq_iff_eq]
  · rw [cr_jump, cr_writeFlags_kept _ _ _ (by decide) (hp ▸ hu) (by decide), hcr]
  · rw [cr_jump, cr_writeFlags_kept _ _ _ (by decide) (hp ▸ hu) (by decide), hcr]

/-! ## The operand forms -/

theorem sizeBits_pos (sz : Size) : 0 < sizeBits sz := by cases sz <;> decide

theorem inOrder_swapped {α : Type} {swap : Bool} {a b : α} {P : α → α → Prop} (h : P (swapped swap a b).1 (swapped swap a b).2) :
    InOrder swap a b P := by
  cases swap
  · exact ⟨fun _ => h, nofun⟩
  · exact ⟨nofun, fun _ => h⟩

/-- An operation over two operands of the operand width. -/
abbrev AluOp := {w : Nat} → CReg → Reg → BitVec w → BitVec w → Nat → State → Result

/-- An instruction with the four operand forms completes with its effect where the operation it is made of does. -/
theorem completesInFourForms {ready : State → Prop} {reg : CReg → Size → Reg → Reg → Reg → Instr}
    {i32 : CReg → Size → Reg → Reg → BitVec 32 → Instr} {i64 : CReg → Size → Reg → Reg → BitVec 64 → Instr}
    {i10 : CReg → Size → Reg → Reg → BitVec 10 → Instr}
    {effect : {w : Nat} → CReg → Reg → BitVec w → BitVec w → Nat → State → State → Prop} (op : AluOp)
    (hop : ∀ {w : Nat} (ct : CReg) (rt : Reg) (a b : BitVec w) (words : Nat) (s : State), 0 < w → w ≤ 64 → ready s → Room words s →
      Completes (op ct rt a b words s) (effect ct rt a b words s))
    (hreg : ∀ ct sz rt ra rb s, exec (reg ct sz rt ra rb) s = op ct rt (s.src sz ra) (s.src sz rb) 1 s)
    (h32 : ∀ ct sz rt ra imm s, exec (i32 ct sz rt ra imm) s = op ct rt (s.src sz ra) (imm32 sz imm) 2 s)
    (h64 : ∀ ct sz rt ra imm s, exec (i64 ct sz rt ra imm) s = op ct rt (s.src sz ra) (imm64 sz imm) 3 s)
    (h10 : ∀ ct sz rt ra imm s, exec (i10 ct sz rt ra imm) s = op ct rt (s.src sz ra) (imm10 sz imm) 1 s) :
    CompletesInFourForms ready reg i32 i64 i10 effect := by
  intro s ct sz rt ra hs
  have hw := sizeBits_pos sz
  have hw' := sizeBits_le sz
  refine ⟨fun rb hr => ?_, fun imm hr => ?_, fun imm hr => ?_, fun imm hr => ?_⟩
  · rw [hreg]
    exact hop _ _ _ _ _ _ hw hw' hs hr
  · rw [h32, imm32_eq]
    exact hop _ _ _ _ _ _ hw hw' hs hr
  · rw [h64, imm64_eq]
    exact hop _ _ _ _ _ _ hw hw' hs hr
  · rw [h10, imm10_eq]
    exact hop _ _ _ _ _ _ hw hw' hs hr

end Sys2Proof.Proofs.Frame
end

section
/-! PROOFS. ADD, ADC, SUB, CMP, AND, OR, EOR, ABS, LOADQ and FCMP (`spec/40_arithmetic.md`, `spec/41_floating_point.md`): result,
flags and frame. -/

namespace Sys2Proof.Proofs.Arithmetic

open Sys2Proof Sys2Proof.Machine Sys2Proof.Claims Sys2Proof.Proofs.Frame

/-! ## Signed and unsigned readings of a pattern -/

/-- The signed reading of a pattern of width w, where `2 ^ w` is twice `M`. -/
theorem signed_reading {w M : Nat} (hM : 2 ^ w = 2 * M) (x : BitVec w) :
    x.toNat < 2 * M ∧ ((x.msb = true ∧ M ≤ x.toNat ∧ x.toInt = x.toNat - 2 * M) ∨ (x.msb = false ∧ x.toNat < M ∧ x.toInt = x.toNat)) := by
  have hlt := x.isLt
  have hcond := BitVec.toInt_eq_toNat_cond x
  have hmsb := BitVec.msb_eq_toInt (x := x)
  rw [hM] at hlt hcond
  refine ⟨hlt, ?_⟩
  cases h : x.msb <;> rw [h] at hmsb
  · have := of_decide_eq_false hmsb.symm
    exact .inr ⟨rfl, by split at hcond <;> omega⟩
  · have := of_decide_eq_true hmsb.symm
    exact .inl ⟨rfl, by split at hcond <;> omega⟩

theorem half_of_pos {w : Nat} (hw : 0 < w) : 2 ^ w = 2 * 2 ^ (w - 1) := by
  obtain ⟨k, rfl⟩ : ∃ k, w = k + 1 := ⟨w - 1, by omega⟩
  rw [Nat.pow_succ, Nat.mul_comm]
  rfl

/-- A sum that is less than twice the modulus, reduced. -/
theorem toNat_ofNat_of_lt {w n : Nat} (h : n < 2 * 2 ^ w) :
    (BitVec.ofNat w n).toNat = if n < 2 ^ w then n else n - 2 ^ w := by
  rw [BitVec.toNat_ofNat]
  split
  · exact Nat.mod_eq_of_lt ‹_›
  · rw [Nat.mod_eq_sub_mod (by omega), Nat.mod_eq_of_lt (by omega)]

/-- The overflow flag of a sum (R11). -/
theorem addW_overflow {w : Nat} (hw : 0 < w) (a b : BitVec w) (c : Bool) :
    (addW a b c).v = true ↔ (addW a b c).r.toInt ≠ a.toInt + b.toInt + c.toNat := by
  have hM := half_of_pos hw
  generalize 2 ^ (w - 1) = M at hM
  obtain ⟨ha, ha'⟩ := signed_reading hM a
  obtain ⟨hb, hb'⟩ := signed_reading hM b
  have hc := Bool.toNat_le c
  have hr : (addW a b c).r.toNat = _ := toNat_ofNat_of_lt (w := w) (n := a.toNat + b.toNat + c.toNat) (by omega)
  obtain ⟨-, hr'⟩ := signed_reading hM (addW a b c).r
  change (a.msb == b.msb && (addW a b c).r.msb != a.msb) = true ↔ _
  generalize (addW a b c).r = r at *
  rw [hM] at hr
  rcases ha' with ⟨h1, h2, h3⟩ | ⟨h1, h2, h3⟩ <;> rcases hb' with ⟨k1, k2, k3⟩ | ⟨k1, k2, k3⟩ <;>
    rcases hr' with ⟨l1, l2, l3⟩ | ⟨l1, l2, l3⟩ <;> rw [h1, k1, l1] <;> split at hr <;> simp <;> omega

/-- The difference that SUB and CMP compute. -/
theorem subW_r {w : Nat} (a b : BitVec w) : (subW a b false).r = a - b := by
  apply BitVec.eq_of_toInt_eq
  change (BitVec.ofInt w ((a.toNat : Int) - b.toNat - (0 : Nat))).toInt = _
  rw [BitVec.toInt_ofInt, BitVec.toInt_sub, BitVec.toInt_eq_toNat_bmod a, BitVec.toInt_eq_toNat_bmod b]
  simp

/-- Where the signed difference of two patterns is: exact, or off by the modulus (R11). -/
theorem signed_difference {w M : Nat} (hM : 2 ^ w = 2 * M) (a b : BitVec w) :
    (a - b).toInt = a.toInt - b.toInt ∨ ((a - b).toInt = a.toInt - b.toInt + 2 * M ∧ a.toInt < 0 ∧ 0 ≤ b.toInt) ∨
      ((a - b).toInt = a.toInt - b.toInt - 2 * M ∧ 0 ≤ a.toInt ∧ b.toInt < 0) := by
  obtain ⟨ha, ha'⟩ := signed_reading hM a
  obtain ⟨hb, hb'⟩ := signed_reading hM b
  obtain ⟨hr, hr'⟩ := signed_reading hM (a - b)
  have hd : (a - b).toNat = _ := (BitVec.toNat_sub a b).trans
    ((BitVec.toNat_ofNat _ w).symm.trans (toNat_ofNat_of_lt (w := w) (n := 2 ^ w - b.toNat + a.toNat) (by omega)))
  rw [hM] at hd
  generalize (a - b) = r at *
  split at hd <;> omega

theorem subW_overflow {w : Nat} (hw : 0 < w) (a b : BitVec w) :
    (subW a b false).v = true ↔ (a - b).toInt ≠ a.toInt - b.toInt := by
  have hM := half_of_pos hw
  generalize 2 ^ (w - 1) = M at hM
  obtain ⟨-, ha⟩ := signed_reading hM a
  obtain ⟨-, hb⟩ := signed_reading hM b
  obtain ⟨-, hr⟩ := signed_reading hM (a - b)
  have hd := signed_difference hM a b
  change (a.msb != b.msb && (subW a b false).r.msb != a.msb) = true ↔ _
  rw [subW_r]
  generalize a - b = r at *
  rcases ha with ⟨h1, h2, h3⟩ | ⟨h1, h2, h3⟩ <;> rcases hb with ⟨k1, k2, k3⟩ | ⟨k1, k2, k3⟩ <;>
    rcases hr with ⟨l1, l2, l3⟩ | ⟨l1, l2, l3⟩ <;> rw [h1, k1, l1] <;> simp <;> omega

theorem subW_borrow {w : Nat} (a b : BitVec w) : (subW a b false).c = true ↔ a.toNat < b.toNat := by
  change decide ((a.toNat : Int) - b.toNat - (0 : Nat) < 0) = true ↔ _
  rw [decide_eq_true_iff]
  omega

theorem sub_eq_zero_iff {w : Nat} (a b : BitVec w) : a - b = 0#w ↔ a = b := by
  constructor
  · intro h
    rw [← BitVec.sub_add_cancel a b, h, BitVec.zero_add]
  · rintro rfl
    exact BitVec.sub_self a

/-- The flags of SUB and CMP (R11, R136, R150). -/
theorem differenceFlags {w : Nat} (hw : 0 < w) (a b : BitVec w) : DifferenceFlags (subW a b false).flags a b := by
  refine flagsAre_flags ?_ ?_ (subW_overflow hw a b) (subW_borrow a b)
  · rw [subW_r, msb_iff]
  · rw [subW_r, beq_iff_eq, sub_eq_zero_iff]

/-! ## ADD, ADC, SUB -/

section
variable {w : Nat} (hw : 0 < w) (hw' : w ≤ 64) {s : State} (ct : CReg) (rt : Reg) {words : Nat} (hr : Room words s)
include hw' hr

/-- An instruction with a result and all four flags (R131). -/
theorem finishAlu_completes (r : BitVec w) (f : BitVec 4) {P : State → Prop}
    (h : ∀ t, WritesResult rt r s t → t.cr ct = f → EndsAt words [rt] [ct] s t → P t) :
    Completes (finishAlu ct rt r allFlags f words s) P := by
  have hwrites := ((Writes.refl [rt] [ct] s).wb hw' (i := rt) (by simp) r).writeFlags (n := ct) (by simp) allFlags f
  refine completes_advance hwrites.pc hr (h _ ?_ ?_ (hwrites.endsAt words))
  · exact writesResult_of_x hw' rfl rfl (by simp)
  · rw [cr_jump, cr_writeFlags_all]

include hw

/-- The sum of ADD and ADC with its flags (R11); a zero result gives the zero flag `z`. -/
theorem sum_completes (a b : BitVec w) (c z : Bool) {zf : Prop} (hz : z = true ↔ zf) :
    Completes (finishAlu ct rt (addW a b c).r allFlags
        (flags (addW a b c).r.msb (if (addW a b c).r = 0#w then z else false) (addW a b c).v (addW a b c).c) words s)
      (SumEffect ct rt a b c.toNat zf words s) := by
  refine finishAlu_completes hw' ct rt hr _ _ fun t hres hcr hends => ⟨hres, ?_, hends⟩
  rw [hcr]
  refine flagsAre_flags (msb_iff _) ?_ (addW_overflow hw a b c) decide_eq_true_iff
  split
  · rename_i h0
    exact ⟨fun h => ⟨h0, hz.1 h⟩, fun h => hz.2 h.2⟩
  · rename_i h0
    exact ⟨nofun, fun h => absurd h.1 h0⟩

theorem addOp_completes (a b : BitVec w) (hd : s.ac.getLsbD 2 = false) :
    Completes (addOp ct rt a b words s) (AddEffect ct rt a b words s) := by
  have h := sum_completes hw hw' ct rt hr a b false true (zf := True) (by simp)
  have hz : (if (addW a b false).r = 0#w then true else false) = ((addW a b false).r == 0#w) := by
    rw [Bool.eq_iff_iff, beq_iff_eq]; simp
  rw [hz] at h
  unfold addOp
  rw [if_neg (by simpa [State.decimal] using hd)]
  exact h

theorem adcOp_completes (a b : BitVec w) (hd : s.ac.getLsbD 2 = false) :
    Completes (adcOp ct rt a b words s) (AdcEffect ct rt a b words s) := by
  unfold adcOp
  rw [if_neg (by simpa [State.decimal] using hd)]
  exact sum_completes hw hw' ct rt hr a b _ _ Iff.rfl

theorem subOp_completes (p : BitVec w × BitVec w) : Completes (subOp ct rt p words s) (SubEffect ct rt p.1 p.2 words s) := by
  refine finishAlu_completes hw' ct rt hr _ _ fun t hres hcr hends => ⟨?_, ?_, hends⟩
  · rwa [subW_r] at hres
  · rw [hcr]
    exact differenceFlags hw p.1 p.2

/-! ## CMP -/

omit hw' hr in
/-- What the ten integer conditions say on the flags of a difference (R230). -/
theorem conditions_of_difference {a b : BitVec w} {f : BitVec 4} (h : DifferenceFlags f a b) :
    (condHolds .hi f = true ↔ b.toNat < a.toNat) ∧ (condHolds .ls f = true ↔ a.toNat ≤ b.toNat) ∧
    (condHolds .cc f = true ↔ b.toNat ≤ a.toNat) ∧ (condHolds .cs f = true ↔ a.toNat < b.toNat) ∧
    (condHolds .ne f = true ↔ a ≠ b) ∧ (condHolds .eq f = true ↔ a = b) ∧
    (condHolds .ge f = true ↔ b.toInt ≤ a.toInt) ∧ (condHolds .lt f = true ↔ a.toInt < b.toInt) ∧
    (condHolds .gt f = true ↔ b.toInt < a.toInt) ∧ (condHolds .le f = true ↔ a.toInt ≤ b.toInt) := by
  have hM := half_of_pos hw
  generalize 2 ^ (w - 1) = M at hM
  obtain ⟨ha, ha'⟩ := signed_reading hM a
  obtain ⟨hb, hb'⟩ := signed_reading hM b
  obtain ⟨-, hr'⟩ := signed_reading hM (a - b)
  have hd := signed_difference hM a b
  obtain ⟨hn, hz, hv, hc⟩ := h
  have hzi := hz.trans (BitVec.toInt_inj (x := a) (y := b)).symm
  have hzn := hz.trans (BitVec.toNat_inj (x := a) (y := b)).symm
  generalize (a - b).toInt = r at *
  refine ⟨?_, ?_, ?_, ?_, ?_, ?_, ?_, ?_, ?_, ?_⟩ <;>
    simp only [condHolds, Bool.and_eq_true, Bool.or_eq_true, Bool.not_eq_true', Bool.eq_false_iff, ne_eq]
  case refine_5 => rw [hz]
  case refine_6 => rw [hz]
  case refine_4 => rw [hc]
  case refine_1 | refine_2 | refine_3 => simp only [hc, hzn]; omega
  all_goals simp only [hn, hv, hzi]; omega

omit hw' in
theorem cmpOp_completes (p : BitVec w × BitVec w) : Completes (cmpOp ct p words s) (CmpEffect ct p.1 p.2 words s) := by
  have hwrites := (Writes.refl [] [ct] s).writeFlags (n := ct) (by simp) allFlags (subW p.1 p.2 false).flags
  have hf := differenceFlags hw p.1 p.2
  refine completes_advance hwrites.pc hr ?_
  have hcr : ((s.writeFlags ct allFlags (subW p.1 p.2 false).flags).jump
      ((s.writeFlags ct allFlags (subW p.1 p.2 false).flags).pcNext words)).cr ct = (subW p.1 p.2 false).flags := by
    rw [cr_jump, cr_writeFlags_all]
  obtain ⟨h1, h2, h3, h4, h5, h6, h7, h8, h9, h10⟩ := conditions_of_difference hw hf
  rw [← hcr] at hf h1 h2 h3 h4 h5 h6 h7 h8 h9 h10
  exact ⟨hf, h1, h2, h3, h4, h5, h6, h7, h8, h9, h10, hwrites.endsAt words⟩

omit hw in
theorem logicOp_completes (r : BitVec w) : Completes (logicOp ct rt r words s) (LogicEffect ct rt r words s) := by
  have hwb := (Writes.refl [rt] [ct] s).wb hw' (i := rt) (by simp) r
  have hwrites := hwb.writeFlags (n := ct) (by simp) nzFlags (resultFlags r false false)
  refine completes_advance hwrites.pc hr ⟨writesResult_of_x hw' rfl rfl (by simp), ?_, hwrites.endsAt words⟩
  exact negativeAndZero_writeFlags _ _ _ _ _ _ (cr_wb hw' ..) (params_wb hw' ..) _

end

/-- Settles O16. -/
theorem addResultAndFrame : Obligations.AddResultAndFrame :=
  completesInFourForms addOp (fun ct rt a b _ _ hw hw' hd hr => addOp_completes hw hw' ct rt hr a b hd)
    (fun _ _ _ _ _ _ => rfl) (fun _ _ _ _ _ _ => rfl) (fun _ _ _ _ _ _ => rfl) (fun _ _ _ _ _ _ => rfl)

/-- Settles O17. -/
theorem adcResultAndFrame : Obligations.AdcResultAndFrame :=
  completesInFourForms adcOp (fun ct rt a b _ _ hw hw' hd hr => adcOp_completes hw hw' ct rt hr a b hd)
    (fun _ _ _ _ _ _ => rfl) (fun _ _ _ _ _ _ => rfl) (fun _ _ _ _ _ _ => rfl) (fun _ _ _ _ _ _ => rfl)

/-- Settles O18: in decimal mode the operations answer before they compute. -/
theorem addAndAdcRefusedInDecimalMode : Obligations.AddAndAdcRefusedInDecimalMode := by
  intro s ct sz rt ra hd
  have hadd : ∀ (a b : BitVec (sizeBits sz)) words, addOp ct rt a b words s = .refused .decimalMode := fun _ _ _ => if_pos hd
  have hadc : ∀ (a b : BitVec (sizeBits sz)) words, adcOp ct rt a b words s = .refused .decimalMode := fun _ _ _ => if_pos hd
  exact ⟨fun _ => ⟨hadd _ _ 1, hadc _ _ 1⟩, fun _ => ⟨hadd _ _ 2, hadc _ _ 2⟩, fun _ => ⟨hadd _ _ 3, hadc _ _ 3⟩,
    fun _ => ⟨hadd _ _ 1, hadc _ _ 1⟩⟩

/-- Settles O19. -/
theorem subResultAndFrame : Obligations.SubResultAndFrame := by
  intro s ct sz rt ra swap
  have hw := sizeBits_pos sz
  have hw' := sizeBits_le sz
  refine ⟨fun rb hr => subOp_completes hw hw' ct rt hr _, fun imm hr => inOrder_swapped ?_, fun imm hr => inOrder_swapped ?_,
    fun imm hr => inOrder_swapped ?_⟩
  · rw [← imm32_eq]
    exact subOp_completes hw hw' ct rt hr _
  · rw [← imm64_eq]
    exact subOp_completes hw hw' ct rt hr _
  · rw [← imm10_eq]
    exact subOp_completes hw hw' ct rt hr _

/-- Settles O20. -/
theorem compareResultAndConditions : Obligations.CompareResultAndConditions := by
  intro s ct sz ra swap
  have hw := sizeBits_pos sz
  refine ⟨fun rb hr => cmpOp_completes hw ct hr _, fun imm hr => inOrder_swapped ?_, fun imm hr => inOrder_swapped ?_,
    fun imm hr => inOrder_swapped ?_⟩
  · rw [← imm32_eq]
    exact cmpOp_completes hw ct hr _
  · rw [← imm64_eq]
    exact cmpOp_completes hw ct hr _
  · rw [← imm10_eq]
    exact cmpOp_completes hw ct hr _

/-- Settles O26. -/
theorem logicResultAndFrame : Obligations.LogicResultAndFrame :=
  ⟨completesInFourForms (fun ct rt a b => logicOp ct rt (a &&& b)) (fun ct rt _ _ _ _ _ hw' _ hr => logicOp_completes hw' ct rt hr _)
      (fun _ _ _ _ _ _ => rfl) (fun _ _ _ _ _ _ => rfl) (fun _ _ _ _ _ _ => rfl) (fun _ _ _ _ _ _ => rfl),
    completesInFourForms (fun ct rt a b => logicOp ct rt (a ||| b)) (fun ct rt _ _ _ _ _ hw' _ hr => logicOp_completes hw' ct rt hr _)
      (fun _ _ _ _ _ _ => rfl) (fun _ _ _ _ _ _ => rfl) (fun _ _ _ _ _ _ => rfl) (fun _ _ _ _ _ _ => rfl),
    completesInFourForms (fun ct rt a b => logicOp ct rt (a ^^^ b)) (fun ct rt _ _ _ _ _ hw' _ hr => logicOp_completes hw' ct rt hr _)
      (fun _ _ _ _ _ _ => rfl) (fun _ _ _ _ _ _ => rfl) (fun _ _ _ _ _ _ => rfl) (fun _ _ _ _ _ _ => rfl)⟩

/-! ## ABS and LOADQ -/

theorem absW_eq {w : Nat} (a : BitVec w) : absW a = a.abs := by
  unfold absW BitVec.abs
  rw [BitVec.zero_sub]
  rfl

/-- Settles O27: ABS is the absolute value of the signed reading, which only the most negative number leaves. -/
theorem absAndLoadqResultAndFrame : Obligations.AbsAndLoadqResultAndFrame := by
  intro s ct sz rt rb imm hr
  have hw' := sizeBits_le sz
  have hwrites := (Writes.refl [rt] [] s).wb hw' (i := rt) (by simp) (absW (low sz (s.x rb)))
  constructor
  · refine completes_advance hwrites.pc hr ⟨absW (low sz (s.x rb)), fun h => ?_, fun h => ?_,
      writesResult_of_x hw' rfl rfl (State.x_jump ..), hwrites.endsAt 1⟩
    · rw [absW_eq, h, BitVec.abs_intMin]
    · rw [absW_eq, BitVec.toInt_abs_eq_natAbs_of_ne_intMin h, Int.natCast_natAbs]
  · rw [← imm17_eq]
    exact logicOp_completes hw' ct rt hr _

/-! ## FCMP -/

theorem floatFlags_are (o : FloatOrder) : FlagsAre (floatFlags o) (o = .less) (o = .equal) (o ≠ .unordered) False := by
  unfold FlagsAre
  cases o <;> decide

theorem fcmpOp_completes (ct : CReg) (sz : Size) {s : State} {words : Nat} (hr : Room words s) (hd : s.ac.extractLsb' 0 2 = 0#2)
    (p : BitVec (sizeBits sz) × BitVec (sizeBits sz)) :
    Completes (fcmpOp ct sz p words s) fun t =>
      FlagsAre (t.cr ct) (Config.fcmp sz (p.1.setWidth 64) (p.2.setWidth 64) = .less)
        (Config.fcmp sz (p.1.setWidth 64) (p.2.setWidth 64) = .equal)
        (Config.fcmp sz (p.1.setWidth 64) (p.2.setWidth 64) ≠ .unordered) False ∧ EndsAt words [] [ct] s t := by
  unfold fcmpOp
  rw [if_pos (show s.decimalFp = 0#2 from hd)]
  have hwrites := (Writes.refl [] [ct] s).writeFlags (n := ct) (by simp) allFlags
    (floatFlags (Config.fcmp sz (p.1.setWidth 64) (p.2.setWidth 64)))
  refine completes_advance hwrites.pc hr ⟨?_, hwrites.endsAt words⟩
  rw [cr_jump, cr_writeFlags_all]
  exact floatFlags_are _

/-- Settles O32. -/
theorem floatCompareResultAndFrame : Obligations.FloatCompareResultAndFrame := by
  intro s ct sz ra swap
  refine ⟨fun hd => ⟨fun rb hr => fcmpOp_completes ct sz hr hd _, fun imm hr => inOrder_swapped ?_,
    fun imm hr => inOrder_swapped ?_, fun imm hr => inOrder_swapped ?_⟩, fun hd => ?_⟩
  · rw [← imm32_eq]
    exact fcmpOp_completes ct sz hr hd _
  · rw [← imm64_eq]
    exact fcmpOp_completes ct sz hr hd _
  · rw [← imm10_eq]
    exact fcmpOp_completes ct sz hr hd _
  · have hrefused : ∀ p words, fcmpOp ct sz p words s = .refused .decimalFloat := fun _ _ => if_neg hd
    exact ⟨fun _ => hrefused _ 1, fun _ => hrefused _ 2, fun _ => hrefused _ 3, fun _ => hrefused _ 1⟩

end Sys2Proof.Proofs.Arithmetic
end

section
/-! PROOFS. MULS, MULU, DIVS and DIVU (`spec/40_arithmetic.md`): result, flags and frame. -/

namespace Sys2Proof.Proofs.MulDiv

open Sys2Proof Sys2Proof.Machine Sys2Proof.Claims Sys2Proof.Proofs.Frame Sys2Proof.Proofs.Arithmetic

/-! ## Products -/

theorem lowHalf_signed {w : Nat} (a b : BitVec w) : lowHalf w (signedProduct a b) = a * b := by
  rw [lowHalf, signedProduct, BitVec.ofInt_mul, BitVec.ofInt_toInt, BitVec.ofInt_toInt]

theorem lowHalf_unsigned {w : Nat} (a b : BitVec w) : lowHalf w (unsignedProduct a b) = a * b := by
  rw [lowHalf, unsignedProduct, BitVec.ofInt_natCast]
  apply BitVec.eq_of_toNat_eq
  rw [BitVec.toNat_ofNat, BitVec.toNat_mul]

/-- The high half of an exact signed product is in the range of a pattern. -/
theorem highHalf_signed_toInt {w : Nat} (hw : 0 < w) (a b : BitVec w) :
    (highHalf w (signedProduct a b)).toInt = signedProduct a b / (2 ^ w : Nat) := by
  have ha := BitVec.toInt_lt (x := a)
  have ha' := BitVec.le_toInt a
  have hb := BitVec.toInt_lt (x := b)
  have hb' := BitVec.le_toInt b
  have hpos : (0 : Int) < 2 ^ (w - 1) := by positivity
  have hM : ((2 ^ w : Nat) : Int) = 2 * 2 ^ (w - 1) := by exact_mod_cast half_of_pos hw
  unfold highHalf signedProduct
  apply BitVec.toInt_ofInt_eq_self hw <;> rw [hM]
  · refine Int.le_ediv_of_mul_le (by positivity) ?_
    nlinarith
  · refine Int.ediv_lt_of_lt_mul (by positivity) ?_
    nlinarith

/-- An exact product is its high half times the modulus plus the unsigned reading of its low half. -/
theorem signedProduct_halves {w : Nat} (a b : BitVec w) :
    signedProduct a b = (2 ^ w : Nat) * (signedProduct a b / (2 ^ w : Nat)) + (a * b).toNat := by
  rw [← lowHalf_signed a b, lowHalf, BitVec.toNat_ofInt, Int.toNat_of_nonneg (Int.emod_nonneg _ (by positivity))]
  exact (Int.mul_ediv_add_emod _ _).symm

/-- Signed overflow of a product (R147): the product is not its low half. -/
theorem mulsOverflow_eq_false {w : Nat} (hw : 0 < w) (a b : BitVec w) :
    mulsOverflow (a * b) (highHalf w (signedProduct a b)) = false ↔ (a * b).toInt = a.toInt * b.toInt := by
  have hM := half_of_pos hw
  have hpos : 0 < 2 ^ (w - 1) := by positivity
  have hp := signedProduct_halves a b
  have hhi := highHalf_signed_toInt hw a b
  have hones : (BitVec.allOnes w).toInt = -1 := by rw [BitVec.toInt_allOnes, if_pos hw]
  generalize 2 ^ (w - 1) = M at hM hpos
  obtain ⟨-, hr⟩ := signed_reading hM (a * b)
  change _ ↔ (a * b).toInt = signedProduct a b
  rw [hM] at hp hhi
  generalize signedProduct a b / ((2 * M : Nat) : Int) = q at *
  push_cast at hp
  rw [mulsOverflow, bne_eq_false_iff_eq, ← BitVec.toInt_inj, hhi]
  rcases hr with ⟨hm, -, hr⟩ | ⟨hm, -, hr⟩
  · rw [if_pos hm, hones, hr, hp]
    constructor
    · rintro rfl
      ring
    · intro h
      have : 2 * (M : Int) * (q + 1) = 0 := by linarith
      rcases mul_eq_zero.1 this with h0 | h0 <;> omega
  · rw [if_neg (by simp [hm]), BitVec.toInt_zero, hr, hp]
    constructor
    · rintro rfl
      ring
    · intro h
      have : 2 * (M : Int) * q = 0 := by linarith
      rcases mul_eq_zero.1 this with h0 | h0 <;> omega

theorem highHalf_unsigned {w : Nat} (a b : BitVec w) :
    highHalf w (unsignedProduct a b) = BitVec.ofNat w (a.toNat * b.toNat / 2 ^ w) := by
  rw [highHalf, unsignedProduct, ← Int.natCast_ediv, BitVec.ofInt_natCast]

/-- Unsigned overflow of a product (R148): the high half is not zero. -/
theorem muluOverflow_eq_false {w : Nat} (a b : BitVec w) :
    (highHalf w (unsignedProduct a b) != 0#w) = false ↔ (a * b).toNat = a.toNat * b.toNat := by
  have hlt : a.toNat * b.toNat < 2 ^ w * 2 ^ w := Nat.mul_lt_mul'' a.isLt b.isLt
  have hpos : 0 < 2 ^ w := by positivity
  rw [bne_eq_false_iff_eq, highHalf_unsigned, ← BitVec.toNat_inj, BitVec.toNat_ofNat, BitVec.toNat_zero, BitVec.toNat_mul,
    Nat.mod_eq_of_lt (Nat.div_lt_of_lt_mul hlt), Nat.div_eq_zero_iff_lt hpos]
  exact ⟨Nat.mod_eq_of_lt, fun h => h ▸ Nat.mod_lt _ hpos⟩

/-! ## MULS and MULU -/

section
variable {w : Nat} (hw' : w ≤ 64) {s : State} (ct : CReg) (rt : Reg)

/-- The flags of a multiplication (R147, R148): the carry is free. -/
theorem product_flags {t : State} {r : BitVec w} {v c : Bool} {exact : Prop} (hv : v = false ↔ exact) (hcr : t.cr ct = resultFlags r v c) :
    ((t.cr ct).getLsbD 3 = true ↔ r.toInt < 0) ∧ ((t.cr ct).getLsbD 2 = true ↔ r = 0#w) ∧ ((t.cr ct).getLsbD 1 = false ↔ exact) := by
  obtain ⟨h3, h2, h1, -⟩ := flags_bits r.msb (r == 0#w) v c
  rw [hcr, resultFlags, h3, h2, h1, beq_iff_eq]
  exact ⟨msb_iff r, Iff.rfl, hv⟩

include hw'

theorem mulOp_completes {words : Nat} (hr : Room words s) (r : BitVec w) {v : Bool} {exact : Prop} (hv : v = false ↔ exact) :
    Completes (mulOp ct rt r v words s) fun t => ProductEffect ct rt r exact s t ∧ EndsAt words [rt] [ct] s t := by
  have hwb := (Writes.refl [rt] [ct] s).wb hw' (i := rt) (by simp) r
  have hwrites := (hwb.setCr (n := ct) (by simp) (resultFlags r v ((s.wb rt r).freeBit 0))).drawn 1
  refine completes_advance hwrites.pc hr ⟨⟨writesResult_of_x hw' rfl rfl (by simp), ?_⟩, hwrites.endsAt words⟩
  exact product_flags ct hv (c := (s.wb rt r).freeBit 0) (by simp)

/-- Of two results written one after the other, each stands in its own register. -/
theorem writesResult_both {u t : State} {i j : Reg} (hij : j ≠ i ∨ i = 0#5) (hp : s.params = u.params) (hx : ∀ k, s.x k = u.x k)
    (r q : BitVec w) (ht : ∀ k, t.x k = ((u.wb i r).wb j q).x k) : WritesResult i r s t ∧ WritesResult j q s t := by
  constructor
  · intro hi
    refine writesResult_of_x hw' hp (hx i) ?_ hi
    rw [ht, x_wb_other hw' _ _ (Ne.symm (hij.resolve_right hi))]
  · intro hj
    refine writesResult_of_x hw' (hp.trans (params_wb hw' u i r).symm) ?_ (ht j) hj
    rcases hij with h | rfl
    · rw [x_wb_other hw' _ _ h, hx]
    · rw [x_wb_other hw' _ _ hj, hx]

theorem mulOpHigh_completes (rp : Reg) (hr : Room 1 s) (hd : rp ≠ rt ∨ rt = 0#5) (r hi : BitVec w) {v : Bool} {exact : Prop}
    (hv : v = false ↔ exact) :
    Completes (mulOpHigh ct rt rp r hi v s) fun t =>
      ProductEffect ct rt r exact s t ∧ WritesResult rp hi s t ∧ EndsAt 1 [rt, rp] [ct] s t := by
  unfold mulOpHigh
  rw [if_neg (by tauto)]
  have hwb := ((Writes.refl [rt, rp] [ct] s).wb hw' (i := rt) (by simp) r).wb hw' (i := rp) (by simp) hi
  have hwrites := (hwb.setCr (n := ct) (by simp) (resultFlags r v (((s.wb rt r).wb rp hi).freeBit 0))).drawn 1
  refine completes_advance hwrites.pc hr ?_
  obtain ⟨h1, h2⟩ := writesResult_both hw' hd (u := s) rfl (fun _ => rfl) r hi
    (t := ((((s.wb rt r).wb rp hi).setCr ct (resultFlags r v (((s.wb rt r).wb rp hi).freeBit 0))).drawn 1).jump _)
    fun k => by simp
  exact ⟨⟨h1, product_flags ct hv (c := ((s.wb rt r).wb rp hi).freeBit 0) (by simp)⟩, h2, hwrites.endsAt 1⟩

theorem mulsOp_completes (hw : 0 < w) {words : Nat} (hr : Room words s) (a b : BitVec w) :
    Completes (mulsOp ct rt a b words s) (MulsEffect ct rt a b words s) := by
  unfold mulsOp
  rw [lowHalf_signed]
  exact mulOp_completes hw' ct rt hr _ (mulsOverflow_eq_false hw a b)

theorem muluOp_completes {words : Nat} (hr : Room words s) (a b : BitVec w) :
    Completes (muluOp ct rt a b words s) (MuluEffect ct rt a b words s) := by
  unfold muluOp
  rw [lowHalf_unsigned]
  exact mulOp_completes hw' ct rt hr _ (muluOverflow_eq_false a b)

theorem mulsOpHigh_completes (hw : 0 < w) (rp : Reg) (hr : Room 1 s) (hd : rp ≠ rt ∨ rt = 0#5) (a b : BitVec w) :
    Completes (mulsOpHigh ct rt rp a b s) (MulsHighEffect ct rt rp a b s) := by
  have h := mulOpHigh_completes hw' ct rt rp hr hd (a * b) (highHalf w (signedProduct a b)) (mulsOverflow_eq_false hw a b)
  unfold mulsOpHigh
  rw [lowHalf_signed]
  unfold highHalf signedProduct at h ⊢
  push_cast at h ⊢
  exact h

theorem muluOpHigh_completes (rp : Reg) (hr : Room 1 s) (hd : rp ≠ rt ∨ rt = 0#5) (a b : BitVec w) :
    Completes (muluOpHigh ct rt rp a b s) (MuluHighEffect ct rt rp a b s) := by
  have h := mulOpHigh_completes hw' ct rt rp hr hd (a * b) (highHalf w (unsignedProduct a b)) (muluOverflow_eq_false a b)
  unfold muluOpHigh
  rw [lowHalf_unsigned]
  rw [highHalf_unsigned] at h ⊢
  exact h

end

/-- Settles O21. -/
theorem multiplyImmediateResultAndFrame : Obligations.MultiplyImmediateResultAndFrame := by
  intro s ct sz rt ra
  have hw := sizeBits_pos sz
  have hw' := sizeBits_le sz
  refine ⟨fun imm hr => ?_, fun imm hr => ?_, fun imm hr => ?_, fun imm hr => ?_, fun imm hr => ?_, fun imm hr => ?_⟩
  · rw [← imm32_eq]; exact mulsOp_completes hw' ct rt hw hr _ _
  · rw [← imm64_eq]; exact mulsOp_completes hw' ct rt hw hr _ _
  · rw [← imm10_eq]; exact mulsOp_completes hw' ct rt hw hr _ _
  · rw [← imm32_eq]; exact muluOp_completes hw' ct rt hr _ _
  · rw [← imm64_eq]; exact muluOp_completes hw' ct rt hr _ _
  · rw [← imm10_eq]; exact muluOp_completes hw' ct rt hr _ _

/-- Settles O22. -/
theorem multiplyRegisterResultAndFrame : Obligations.MultiplyRegisterResultAndFrame := by
  intro s ct sz rt ra rb rp
  have hw := sizeBits_pos sz
  have hw' := sizeBits_le sz
  exact ⟨fun hd hr => ⟨mulsOpHigh_completes hw' ct rt hw rp hr hd _ _, muluOpHigh_completes hw' ct rt rp hr hd _ _⟩,
    fun he h0 => ⟨if_pos ⟨he, h0⟩, if_pos ⟨he, h0⟩⟩⟩

/-! ## Quotients -/

/-- The quotient and the remainder of DIVS where the quotient can be represented (R143). -/
theorem signedDivision {w : Nat} {a b : BitVec w} (hb : b ≠ 0#w) (ho : ¬ SignedQuotientOverflows a b) :
    (BitVec.ofInt w (a.toInt.tdiv b.toInt)).toInt = a.toInt.tdiv b.toInt ∧
    SignedDivision a b (BitVec.ofInt w (a.toInt.tdiv b.toInt)) (BitVec.ofInt w (a.toInt - a.toInt.tdiv b.toInt * b.toInt)) := by
  have hb0 : b.toInt ≠ 0 := fun h => hb (BitVec.eq_of_toInt_eq (h.trans BitVec.toInt_zero.symm))
  have hq : (BitVec.ofInt w (a.toInt.tdiv b.toInt)).toInt = a.toInt.tdiv b.toInt := by
    rw [← BitVec.toInt_sdiv_of_ne_or_ne a b (by rw [BitVec.neg_one_eq_allOnes]; unfold SignedQuotientOverflows at ho; tauto),
      BitVec.ofInt_toInt]
  have hrem : (BitVec.ofInt w (a.toInt - a.toInt.tdiv b.toInt * b.toInt)).toInt = a.toInt.tmod b.toInt := by
    rw [mul_comm, ← Int.tmod_def, ← BitVec.toInt_srem, BitVec.ofInt_toInt]
  refine ⟨hq, ?_, ?_, ?_⟩
  · rw [hq, hrem, mul_comm]
    exact (Int.mul_tdiv_add_tmod _ _).symm
  · rw [hrem, Int.abs_eq_natAbs, Int.abs_eq_natAbs, Int.natAbs_tmod]
    exact_mod_cast Nat.mod_lt _ (Int.natAbs_pos.2 hb0)
  · rw [hrem]
    have hs := Int.sign_tmod a.toInt b.toInt
    split at hs
    · exact .inl (Int.sign_eq_zero_iff_zero.1 hs)
    · exact .inr (by rw [← Int.sign_eq_neg_one_iff_neg, hs, Int.sign_eq_neg_one_iff_neg])

theorem unsignedDivision {w : Nat} {a b : BitVec w} (hb : b ≠ 0#w) :
    UnsignedDivision a b (BitVec.ofNat w (a.toNat / b.toNat)) (BitVec.ofNat w (a.toNat % b.toNat)) := by
  have hb0 : 0 < b.toNat := Nat.pos_of_ne_zero fun h => hb (BitVec.eq_of_toNat_eq (h.trans BitVec.toNat_zero.symm))
  have hq : (BitVec.ofNat w (a.toNat / b.toNat)).toNat = a.toNat / b.toNat :=
    BitVec.toNat_ofNat .. ▸ Nat.mod_eq_of_lt ((Nat.div_le_self _ _).trans_lt a.isLt)
  have hrem : (BitVec.ofNat w (a.toNat % b.toNat)).toNat = a.toNat % b.toNat :=
    BitVec.toNat_ofNat .. ▸ Nat.mod_eq_of_lt ((Nat.mod_le _ _).trans_lt a.isLt)
  refine ⟨?_, ?_⟩
  · rw [hq, hrem, Nat.mul_comm, Nat.div_add_mod]
  · rw [hrem]
    exact Nat.mod_lt _ hb0

/-! ## DIVS and DIVU -/

/-- The results and flags of a division stand in their registers (R143, R144). -/
def DivEffect {w : Nat} (ct : CReg) (rt : Reg) (rr : Option Reg) (x : DivResult w) (s t : State) : Prop :=
  WritesResult rt x.q s t ∧ (∀ i, rr = some i → WritesResult i x.rem s t) ∧ t.cr ct = x.flags

section
variable {w : Nat} (hw' : w ≤ 64) {s : State} (ct : CReg) (rt : Reg)
include hw'

theorem divOp_completes {words : Nat} (hr : Room words s) {b : BitVec w} (hb : b ≠ 0#w) (x : DivResult w) :
    Completes (divOp ct rt b x words s) fun t => DivEffect ct rt none x s t ∧ EndsAt words [rt] [ct] s t := by
  unfold divOp
  rw [if_neg hb]
  have hwrites := (((Writes.refl [rt] [ct] s).drawn x.draws).wb hw' (i := rt) (by simp) x.q).setCr (n := ct) (by simp) x.flags
  refine completes_advance hwrites.pc hr ⟨⟨?_, nofun, by simp⟩, hwrites.endsAt words⟩
  exact writesResult_of_x hw' (u := s.drawn x.draws) rfl (by simp) (by simp)

theorem divOpRem_completes (hr : Room 1 s) {b : BitVec w} (hb : b ≠ 0#w) {rr : Reg} (hd : rr ≠ rt ∨ rt = 0#5) (x : DivResult w) :
    Completes (divOpRem ct rt rr b x s) fun t => DivEffect ct rt (some rr) x s t ∧ EndsAt 1 [rt, rr] [ct] s t := by
  unfold divOpRem
  rw [if_neg (by tauto), if_neg hb]
  have hwrites := ((((Writes.refl [rt, rr] [ct] s).drawn x.draws).wb hw' (i := rt) (by simp) x.q).wb hw' (i := rr) (by simp)
    x.rem).setCr (n := ct) (by simp) x.flags
  refine completes_advance hwrites.pc hr ?_
  obtain ⟨h1, h2⟩ := writesResult_both hw' hd (u := s.drawn x.draws) (s := s) rfl (fun k => by simp) x.q x.rem
    (t := (((((s.drawn x.draws).wb rt x.q).wb rr x.rem).setCr ct x.flags)).jump _) fun k => by simp
  exact ⟨⟨h1, fun i hi => Option.some.inj hi ▸ h2, by simp⟩, hwrites.endsAt 1⟩

omit hw'

theorem divsEffect_of {words : Nat} {rr : Option Reg} {a b : BitVec w} (hb : b ≠ 0#w) {t : State}
    (h : DivEffect ct rt rr (divsW a b s) s t) (he : EndsAt words (rt :: rr.toList) [ct] s t) :
    DivsEffect ct rt rr a b words s t := by
  obtain ⟨hq, hrem, hcr⟩ := h
  refine ⟨fun ho => ?_, fun ho => ?_, he⟩
  · rw [divsW, if_pos (show a = BitVec.intMin w ∧ b = BitVec.allOnes w from ho)] at hcr
    obtain ⟨-, -, h1, h0⟩ := flags_bits (s.freeBit 2) (s.freeBit 3) true false
    exact ⟨by rw [hcr, h1], by rw [hcr, h0]⟩
  · rw [divsW, if_neg (show ¬ (a = BitVec.intMin w ∧ b = BitVec.allOnes w) from ho)] at hq hrem hcr
    obtain ⟨hqi, hdiv⟩ := signedDivision hb ho
    refine ⟨_, _, hdiv, hq, hrem, ?_⟩
    rw [hcr]
    refine flagsAre_flags ?_ ?_ (by simp) (by simp)
    · rw [hqi, decide_eq_true_iff]
    · rw [decide_eq_true_iff, ← BitVec.toInt_inj, hqi, BitVec.toInt_zero]

theorem divuEffect_of {words : Nat} {rr : Option Reg} {a b : BitVec w} (hb : b ≠ 0#w) {t : State}
    (h : DivEffect ct rt rr (divuW a b) s t) (he : EndsAt words (rt :: rr.toList) [ct] s t) :
    DivuEffect ct rt rr a b words s t := by
  obtain ⟨hq, hrem, hcr⟩ := h
  refine ⟨⟨_, _, unsignedDivision hb, hq, hrem, ?_⟩, he⟩
  rw [hcr]
  exact flagsAre_flags (msb_iff _) beq_iff_eq (by simp) (by simp)

include hw'

theorem divsOp_completes {words : Nat} (hr : Room words s) (p : BitVec w × BitVec w) (hb : p.2 ≠ 0#w) :
    Completes (divOp ct rt p.2 (divsW p.1 p.2 s) words s) (DivsEffect ct rt none p.1 p.2 words s) := by
  obtain ⟨t, e, h, he⟩ := divOp_completes hw' ct rt hr hb (divsW p.1 p.2 s)
  exact ⟨t, e, divsEffect_of ct rt hb h he⟩

theorem divuOp_completes {words : Nat} (hr : Room words s) (p : BitVec w × BitVec w) (hb : p.2 ≠ 0#w) :
    Completes (divOp ct rt p.2 (divuW p.1 p.2) words s) (DivuEffect ct rt none p.1 p.2 words s) := by
  obtain ⟨t, e, h, he⟩ := divOp_completes hw' ct rt hr hb (divuW p.1 p.2)
  exact ⟨t, e, divuEffect_of ct rt hb h he⟩

end

/-- Settles O23. -/
theorem signedDivideResultAndFrame : Obligations.SignedDivideResultAndFrame := by
  intro s ct sz rt ra swap
  have hw' := sizeBits_le sz
  refine ⟨fun rb rr hr hd hb => ?_, fun imm hr => inOrder_swapped ?_, fun imm hr => inOrder_swapped ?_,
    fun imm hr => inOrder_swapped ?_⟩
  · obtain ⟨t, e, h, he⟩ := divOpRem_completes hw' ct rt hr hb hd (divsW (low sz (s.x ra)) (low sz (s.x rb)) s)
    exact ⟨t, e, divsEffect_of ct rt hb h he⟩
  · rw [← imm32_eq]; exact divsOp_completes hw' ct rt hr _
  · rw [← imm64_eq]; exact divsOp_completes hw' ct rt hr _
  · rw [← imm10_eq]; exact divsOp_completes hw' ct rt hr _

/-- Settles O24. -/
theorem unsignedDivideResultAndFrame : Obligations.UnsignedDivideResultAndFrame := by
  intro s ct sz rt ra swap
  have hw' := sizeBits_le sz
  refine ⟨fun rb rr hr hd hb => ?_, fun imm hr => inOrder_swapped ?_, fun imm hr => inOrder_swapped ?_⟩
  · obtain ⟨t, e, h, he⟩ := divOpRem_completes hw' ct rt hr hb hd (divuW (low sz (s.x ra)) (low sz (s.x rb)))
    exact ⟨t, e, divuEffect_of ct rt hb h he⟩
  · rw [← imm32_eq]; exact divuOp_completes hw' ct rt hr _
  · rw [← imm64_eq]; exact divuOp_completes hw' ct rt hr _

theorem divOp_zero {w words : Nat} (ct : CReg) (rt : Reg) {b : BitVec w} (hb : b = 0#w) (x : DivResult w) (s : State) :
    divOp ct rt b x words s = .next (appException 0#5 (s.pc + BitVec.ofNat 64 (4 * words)) s) := if_pos hb

theorem divOpRem_zero {w : Nat} (ct : CReg) {rt rr : Reg} (hd : rr ≠ rt ∨ rt = 0#5) {b : BitVec w} (hb : b = 0#w) (x : DivResult w)
    (s : State) : divOpRem ct rt rr b x s = .next (appException 0#5 (s.pc + 4#64) s) := by
  unfold divOpRem
  rw [if_neg (by tauto), if_pos hb]
  rfl

/-- Settles O25: both checks stand before the quotient. -/
theorem divisionByZeroRaisesApplicationException : Obligations.DivisionByZeroRaisesApplicationException := by
  intro s ct sz rt ra swap
  refine ⟨fun rb rr hd hb => ⟨divOpRem_zero ct hd hb _ s, divOpRem_zero ct hd hb _ s⟩, fun imm => inOrder_swapped ?_,
    fun imm => inOrder_swapped ?_, fun imm => inOrder_swapped ?_, fun rb h0 => ⟨if_pos ⟨rfl, h0⟩, if_pos ⟨rfl, h0⟩⟩⟩
  · rw [← imm32_eq]
    exact fun hb => ⟨divOp_zero (words := 2) ct rt hb _ s, divOp_zero (words := 2) ct rt hb _ s⟩
  · rw [← imm64_eq]
    exact fun hb => ⟨divOp_zero (words := 3) ct rt hb _ s, divOp_zero (words := 3) ct rt hb _ s⟩
  · rw [← imm10_eq]
    exact fun hb => divOp_zero (words := 1) ct rt hb _ s

end Sys2Proof.Proofs.MulDiv
end

section
/-! PROOFS. The bit and bit-pair instructions (`spec/42_bit_manipulation.md`) and SWAP (`spec/43_shift_rotate.md` R220): where each
bit goes, flags and frame. -/

namespace Sys2Proof.Proofs.Bits

open Sys2Proof Sys2Proof.Machine Sys2Proof.Claims Sys2Proof.Proofs.Frame

/-! ## The masks -/

theorem bitMask_bit (sz : Size) {i k : Nat} (hi : i < sizeBits sz) : (bitMask sz k).getLsbD i = decide (i = k) := by
  have hw := sizeBits_pos sz
  rw [bitMask, BitVec.getLsbD_shiftLeft, BitVec.getLsbD_one, Bool.eq_iff_iff]
  simp only [hi, hw, decide_true, Bool.true_and, Bool.and_eq_true, decide_eq_true_eq, Bool.not_eq_true', decide_eq_false_iff_not]
  omega

theorem pairMask_bit (sz : Size) {i p : Nat} (hi : i < sizeBits sz) :
    (pairMask sz p).getLsbD i = decide (i = 2 * p ∨ i = 2 * p + 1) := by
  have h3 : ∀ j, Nat.testBit 3 j = decide (j = 0 ∨ j = 1)
    | 0 => rfl
    | 1 => rfl
    | j + 2 => by
      rw [Nat.testBit_eq_false_of_lt (lt_of_lt_of_le (by decide : 3 < 2 ^ 2) (Nat.pow_le_pow_right (by decide) (by omega)))]
      simp
  rw [pairMask, BitVec.getLsbD_shiftLeft, BitVec.getLsbD_ofNat, h3, Bool.eq_iff_iff]
  simp only [hi, decide_true, Bool.true_and, Bool.and_eq_true, decide_eq_true_eq, Bool.not_eq_true', decide_eq_false_iff_not]
  omega

/-! ## Single bits -/

section
variable {s : State} (ct : CReg) (sz : Size) (rt : Reg) (hr : Room 1 s)
include hr

omit hr in
theorem zeroOnly_writeFlags {u : State} (hcr : u.cr ct = s.cr ct) (hp : u.params = s.params) (a : BitVec (sizeBits sz)) (k : Nat) :
    ZeroOnly ct (a.getLsbD k = false) s ((u.writeFlags ct zFlag (bitFlags a k)).jump ((u.writeFlags ct zFlag (bitFlags a k)).pcNext 1)) := by
  obtain ⟨-, h2, -, -⟩ := flags_bits false (!a.getLsbD k) false false
  refine ⟨?_, fun hu => ⟨?_, ?_, ?_⟩⟩
  · rw [cr_jump, cr_writeFlags_bit _ _ _ _ (by decide), bitFlags, h2, Bool.not_eq_true']
  all_goals rw [cr_jump, cr_writeFlags_kept _ _ _ (by decide) (hp ▸ hu) (by decide), hcr]

theorem finishBit_completes {a r : BitVec (sizeBits sz)} {k : Nat} {new : Bool}
    (h : ∀ i, i < sizeBits sz → r.getLsbD i = if i = k then new else a.getLsbD i) :
    Completes (finishBit ct rt a r k s) (BitEffect ct rt a k new s) := by
  have hw' := sizeBits_le sz
  have hwrites := ((Writes.refl [rt] [ct] s).wb hw' (i := rt) (by simp) r).writeFlags (n := ct) (by simp) zFlag (bitFlags a k)
  exact completes_advance hwrites.pc hr ⟨r, h, writesResult_of_x hw' rfl rfl (by simp),
    zeroOnly_writeFlags ct sz (cr_wb hw' ..) (params_wb hw' ..) a k, hwrites.endsAt 1⟩

theorem bclrOp_completes (a : BitVec (sizeBits sz)) (idx : Nat) :
    Completes (bclrOp ct sz rt a idx s) (BitEffect ct rt a (idx % sizeBits sz) false s) :=
  finishBit_completes ct sz rt hr fun i hi => by
    rw [BitVec.getLsbD_and, BitVec.getLsbD_not, bitMask_bit sz hi]
    by_cases h : i = idx % sizeBits sz <;> simp [bitNumber, hi, h]

theorem bsetOp_completes (a : BitVec (sizeBits sz)) (idx : Nat) :
    Completes (bsetOp ct sz rt a idx s) (BitEffect ct rt a (idx % sizeBits sz) true s) :=
  finishBit_completes ct sz rt hr fun i hi => by
    rw [BitVec.getLsbD_or, bitMask_bit sz hi]
    by_cases h : i = idx % sizeBits sz <;> simp [bitNumber, h]

theorem bchgOp_completes (a : BitVec (sizeBits sz)) (idx : Nat) :
    Completes (bchgOp ct sz rt a idx s) (BitEffect ct rt a (idx % sizeBits sz) (!a.getLsbD (idx % sizeBits sz)) s) :=
  finishBit_completes ct sz rt hr fun i hi => by
    rw [BitVec.getLsbD_xor, bitMask_bit sz hi]
    by_cases h : i = idx % sizeBits sz <;> simp [bitNumber, h]

theorem btstOp_completes (a : BitVec (sizeBits sz)) (idx : Nat) : Completes (btstOp ct sz a idx s) fun t =>
    ZeroOnly ct (a.getLsbD (idx % sizeBits sz) = false) s t ∧ EndsAt 1 [] [ct] s t := by
  have hwrites := (Writes.refl [] [ct] s).writeFlags (n := ct) (by simp) zFlag (bitFlags a (bitNumber sz idx))
  exact completes_advance hwrites.pc hr ⟨zeroOnly_writeFlags ct sz rfl rfl a _, hwrites.endsAt 1⟩

/-! ## Pairs -/

omit hr in
theorem pairStatus_flags (a : BitVec (sizeBits sz)) (p : Nat) :
    PairFlags (pairStatus a p) (a.getLsbD (2 * p + 1)) (a.getLsbD (2 * p)) := by
  have hall : ∀ old : BitVec 2, PairFlags (pairFlags old) (old.getLsbD 1) (old.getLsbD 0) := by
    unfold PairFlags FlagsAre
    decide
  have h := hall (a.extractLsb' (2 * p) 2)
  rwa [BitVec.getLsbD_extractLsb', BitVec.getLsbD_extractLsb'] at h

theorem finishPair_completes {a r : BitVec (sizeBits sz)} {p : Nat} {new : Bool → Bool}
    (h : ∀ i, i < sizeBits sz → r.getLsbD i = if i = 2 * p ∨ i = 2 * p + 1 then new (a.getLsbD i) else a.getLsbD i) :
    Completes (finishPair ct rt a r p s) (PairEffect ct rt a p new s) := by
  have hw' := sizeBits_le sz
  have hwrites := ((Writes.refl [rt] [ct] s).wb hw' (i := rt) (by simp) r).writeFlags (n := ct) (by simp) allFlags (pairStatus a p)
  refine completes_advance hwrites.pc hr ⟨r, h, writesResult_of_x hw' rfl rfl (by simp), ?_, hwrites.endsAt 1⟩
  rw [cr_jump, cr_writeFlags_all]
  exact pairStatus_flags sz a p

theorem bpclrOp_completes (a : BitVec (sizeBits sz)) (idx : Nat) :
    Completes (bpclrOp ct sz rt a idx s) (PairEffect ct rt a (idx % (sizeBits sz / 2)) (fun _ => false) s) :=
  finishPair_completes ct sz rt hr fun i hi => by
    rw [BitVec.getLsbD_and, BitVec.getLsbD_not, pairMask_bit sz hi, pairNumber]
    split <;> rename_i h <;> simp [hi, h]

theorem bpchgOp_completes (a : BitVec (sizeBits sz)) (idx : Nat) :
    Completes (bpchgOp ct sz rt a idx s) (PairEffect ct rt a (idx % (sizeBits sz / 2)) (fun b => !b) s) :=
  finishPair_completes ct sz rt hr fun i hi => by
    rw [BitVec.getLsbD_xor, pairMask_bit sz hi, pairNumber]
    split <;> rename_i h <;> simp [h]

theorem bptstOp_completes (a : BitVec (sizeBits sz)) (idx : Nat) : Completes (bptstOp ct sz a idx s) fun t =>
    PairFlags (t.cr ct) (a.getLsbD (2 * (idx % (sizeBits sz / 2)) + 1)) (a.getLsbD (2 * (idx % (sizeBits sz / 2)))) ∧
    EndsAt 1 [] [ct] s t := by
  have hwrites := (Writes.refl [] [ct] s).writeFlags (n := ct) (by simp) allFlags (pairStatus a (pairNumber sz idx))
  refine completes_advance hwrites.pc hr ⟨?_, hwrites.endsAt 1⟩
  rw [cr_jump, cr_writeFlags_all]
  exact pairStatus_flags sz a _

end

/-- Settles O34. -/
theorem singleBitResultAndFrame : Obligations.SingleBitResultAndFrame := fun _ ct sz rt _ _ _ hr =>
  ⟨bclrOp_completes ct sz rt hr _ _, bclrOp_completes ct sz rt hr _ _, bsetOp_completes ct sz rt hr _ _,
    bsetOp_completes ct sz rt hr _ _, bchgOp_completes ct sz rt hr _ _, bchgOp_completes ct sz rt hr _ _,
    btstOp_completes ct sz hr _ _, btstOp_completes ct sz hr _ _⟩

/-- Settles O35. -/
theorem bitPairResultAndFrame : Obligations.BitPairResultAndFrame := fun _ ct sz rt _ _ _ hr =>
  ⟨bpclrOp_completes ct sz rt hr _ _, bpclrOp_completes ct sz rt hr _ _, bpchgOp_completes ct sz rt hr _ _,
    bpchgOp_completes ct sz rt hr _ _, bptstOp_completes ct sz hr _ _, bptstOp_completes ct sz hr _ _⟩

/-! ## SWAP -/

theorem swapped_bits {u : Nat} (v : Word) {i : Nat} (hi : i < u) :
    (v.extractLsb' 0 u ++ v.extractLsb' u u).getLsbD i = v.getLsbD (u + i) ∧
    (v.extractLsb' 0 u ++ v.extractLsb' u u).getLsbD (u + i) = v.getLsbD i := by
  have h : ¬ u + i < u := by omega
  constructor
  · rw [BitVec.getLsbD_append, if_pos hi, BitVec.getLsbD_extractLsb']
    simp [hi]
  · rw [BitVec.getLsbD_append, if_neg h, BitVec.getLsbD_extractLsb']
    simp [hi]

/-- Settles O39. -/
theorem swapResultAndFrame : Obligations.SwapResultAndFrame := by
  intro s ct sz rt ra hr
  have hw' : halfBits sz + halfBits sz ≤ 64 := by cases sz <;> decide
  have hwb := (Writes.refl [rt] [ct] s).wb hw' (i := rt) (by simp)
    ((s.x ra).extractLsb' 0 (halfBits sz) ++ (s.x ra).extractLsb' (halfBits sz) (halfBits sz))
  have hwrites := (hwb.setCr (n := ct) (by simp)
    (((State.wb rt ((s.x ra).extractLsb' 0 (halfBits sz) ++ (s.x ra).extractLsb' (halfBits sz) (halfBits sz)) s).free 0).setWidth 4)).drawn 1
  exact completes_advance hwrites.pc hr ⟨_, fun i hi => swapped_bits (s.x ra) hi, writesResult_of_x hw' rfl rfl (by simp),
    hwrites.endsAt 1⟩

end Sys2Proof.Proofs.Bits
end

section
/-! PROOFS. Shifts and rotates (`spec/43_shift_rotate.md`): each step moves every bit by one place, so after n steps the place of
each bit is known by induction on n; the closed forms of the statements have the same bits. -/

namespace Sys2Proof.Proofs.Shifts

open Sys2Proof Sys2Proof.Machine Sys2Proof.Claims Sys2Proof.Proofs.Frame

/-! ## One step, bit by bit -/

theorem shiftLeft1_bit {w i : Nat} (v : BitVec w) (low : Bool) (hi : i < w) :
    (shiftLeft1 v low).getLsbD i = if i = 0 then low else v.getLsbD (i - 1) := by
  rw [shiftLeft1, BitVec.getLsbD_or, BitVec.getLsbD_shiftLeft, BitVec.getLsbD_setWidth, BitVec.getLsbD_ofBool]
  by_cases h : i = 0
  · simp [h]
    omega
  · have h1 : ¬ i < 1 := by omega
    simp [h, h1, hi]

theorem shiftRight1_bit {w i : Nat} (v : BitVec w) (high : Bool) (hi : i < w) :
    (shiftRight1 v high).getLsbD i = if i + 1 = w then high else v.getLsbD (i + 1) := by
  rw [shiftRight1, BitVec.getLsbD_or, BitVec.getLsbD_ushiftRight, BitVec.getLsbD_shiftLeft, BitVec.getLsbD_setWidth,
    BitVec.getLsbD_ofBool, Nat.add_comm 1 i]
  by_cases h : i + 1 = w
  · subst h
    simp
  · have h1 : i < w - 1 := by omega
    rw [if_neg h]
    simp [h1]

theorem msb_eq_bit {w : Nat} (v : BitVec w) : v.msb = v.getLsbD (w - 1) := BitVec.msb_eq_getLsbD_last v

theorem iterate_succ {α : Type} (f : α → α) : ∀ (n : Nat) (x : α), iterate f (n + 1) x = f (iterate f n x)
  | 0, _ => rfl
  | n + 1, x => iterate_succ f n (f x)

/-! ## The instruction around the steps -/

/-- The end of a shift by n places (R211). -/
abbrev shifted {w : Nat} (step : ShiftState w → ShiftState w) (ct : CReg) (a : BitVec w) (n : Nat) (s : State) : ShiftState w :=
  iterate step n { v := a, c := carryOf (s.cr ct), ovf := false }

theorem shiftOp_completes {w : Nat} (hw' : w ≤ 64) {step : ShiftState w → ShiftState w} {ct : CReg} {rt : Reg} {a : BitVec w}
    {n : Nat} {s : State} (hr : Room 1 s) {vf cf : Prop} (hv : (shifted step ct a n s).ovf = true ↔ vf)
    (hc : n ≠ 0 → ((shifted step ct a n s).c = true ↔ cf)) :
    Completes (shiftOp step ct rt a n s) (ShiftEffect ct rt (shifted step ct a n s).v vf n cf s) := by
  have hwb := (Writes.refl [rt] [ct] s).wb hw' (i := rt) (by simp) (shifted step ct a n s).v
  have hflags c := flags_bits (shifted step ct a n s).v.msb ((shifted step ct a n s).v == 0#w) (shifted step ct a n s).ovf c
  unfold shiftOp
  by_cases h0 : n = 0
  · have hwrites := (hwb.setCr (n := ct) (by simp) (resultFlags (shifted step ct a n s).v (shifted step ct a n s).ovf
      ((s.wb rt (shifted step ct a n s).v).freeBit 0))).drawn 1
    obtain ⟨h3, h2, h1, -⟩ := hflags ((s.wb rt (shifted step ct a n s).v).freeBit 0)
    rw [if_pos h0]
    refine completes_advance hwrites.pc hr ⟨writesResult_of_x hw' rfl rfl (by simp), ?_, ?_, ?_, fun h => absurd h0 h,
      hwrites.endsAt 1⟩ <;> rw [cr_jump, State.cr_drawn, State.cr_setCr_same, resultFlags]
    · rw [h3, msb_iff]
    · rw [h2, beq_iff_eq]
    · rw [h1, hv]
  · have hwrites := hwb.setCr (n := ct) (by simp) (resultFlags (shifted step ct a n s).v (shifted step ct a n s).ovf
      (shifted step ct a n s).c)
    obtain ⟨h3, h2, h1, h0'⟩ := hflags (shifted step ct a n s).c
    rw [if_neg h0]
    refine completes_advance hwrites.pc hr ⟨writesResult_of_x hw' rfl rfl (by simp), ?_, ?_, ?_, fun h => ?_,
      hwrites.endsAt 1⟩ <;> rw [cr_jump, State.cr_setCr_same, resultFlags]
    · rw [h3, msb_iff]
    · rw [h2, beq_iff_eq]
    · rw [h1, hv]
    · rw [h0', hc h]

theorem Completes.mono {r : Result} {P Q : State → Prop} (h : Completes r P) (hPQ : ∀ t, P t → Q t) : Completes r Q :=
  h.imp fun t ⟨e, hP⟩ => ⟨e, hPQ t hP⟩

theorem shiftCount_eq (s : State) (rb : Reg) : s.shiftCount rb = (s.x rb).toNat % 64 := BitVec.toNat_setWidth 6 (s.x rb)

theorem testBit_iff_odd (x i : Nat) : x.testBit i = true ↔ x / 2 ^ i % 2 = 1 := by
  rw [Nat.testBit_eq_decide_div_mod_eq, decide_eq_true_iff]

theorem not_ovf {w : Nat} {step : ShiftState w → ShiftState w} (h : ∀ x, (step x).ovf = false) (ct : CReg) (a : BitVec w)
    (s : State) : ∀ n, (shifted step ct a n s).ovf = true ↔ False
  | 0 => by simp [shifted, iterate]
  | n + 1 => by rw [shifted, iterate_succ, h]; simp

/-! ## Left shifts -/

theorem leftShifted_testBit {w : Nat} (a : BitVec w) (fill : Bool) (n i : Nat) :
    (leftShifted a fill n).testBit i = if i < n then fill else a.getLsbD (i - n) := by
  have hlt : (if fill then 2 ^ n - 1 else 0) < 2 ^ n := by
    have := Nat.two_pow_pos n
    split <;> omega
  rw [leftShifted, Nat.mul_comm, Nat.testBit_two_pow_mul_add _ hlt]
  split
  · cases fill <;> simp_all
  · rfl

/-- After n steps of a left shift the operand is the closed form. -/
theorem shiftedLeft_v {w : Nat} {fill : Bool} {step : ShiftState w → ShiftState w} (h : ∀ x, (step x).v = shiftLeft1 x.v fill)
    (ct : CReg) (a : BitVec w) (s : State) : ∀ n, (shifted step ct a n s).v = BitVec.ofNat w (leftShifted a fill n)
  | 0 => by simp [shifted, iterate, leftShifted]
  | n + 1 => by
    rw [shifted, iterate_succ, h, show (iterate step n _).v = _ from shiftedLeft_v h ct a s n]
    refine BitVec.eq_of_getLsbD_eq fun i hi => ?_
    rw [shiftLeft1_bit _ _ hi, BitVec.getLsbD_ofNat, BitVec.getLsbD_ofNat, leftShifted_testBit, leftShifted_testBit]
    rcases i with - | i
    · simp [hi]
    · have h1 : i < w := by omega
      simp [hi, h1]

/-- The carry of a left shift is the bit that the last step moved out of place w-1. -/
theorem shiftedLeft_c {w : Nat} (hw : 0 < w) {fill : Bool} {step : ShiftState w → ShiftState w}
    (h : ∀ x, (step x).v = shiftLeft1 x.v fill) (hc : ∀ x, (step x).c = x.v.msb) (ct : CReg) (a : BitVec w) (s : State) {n : Nat}
    (hn : n ≠ 0) : (shifted step ct a n s).c = true ↔ leftShifted a fill n / 2 ^ w % 2 = 1 := by
  obtain ⟨m, rfl⟩ := Nat.exists_eq_succ_of_ne_zero hn
  have h1 : w - 1 < w := by omega
  rw [shifted, iterate_succ, hc, show (iterate step m _).v = _ from shiftedLeft_v h ct a s m, msb_eq_bit, BitVec.getLsbD_ofNat,
    ← testBit_iff_odd, leftShifted_testBit, leftShifted_testBit]
  obtain ⟨k, rfl⟩ : ∃ k, w = k + 1 := ⟨w - 1, by omega⟩
  simp

theorem shiftedLeft_ovf {w : Nat} (fill : Bool) (ct : CReg) (a : BitVec w) (s : State) :
    ∀ n, (shifted (aslStep fill) ct a n s).ovf = true ↔
      ∃ k, k < n ∧ (BitVec.ofNat w (leftShifted a fill k)).msb ≠ (BitVec.ofNat w (leftShifted a fill (k + 1))).msb
  | 0 => by simp [shifted, iterate]
  | n + 1 => by
    have hv := shiftedLeft_v (step := aslStep fill) (fun _ => rfl) ct a s
    have hlast : (shifted (aslStep fill) ct a (n + 1) s).ovf =
        ((shifted (aslStep fill) ct a n s).ovf ||
          ((shifted (aslStep fill) ct a (n + 1) s).v.msb != (shifted (aslStep fill) ct a n s).v.msb)) := by
      simp only [shifted, iterate_succ]
      rfl
    rw [hlast, hv, hv, Bool.or_eq_true, shiftedLeft_ovf fill ct a s n, bne_iff_ne]
    constructor
    · rintro (⟨k, hk, h⟩ | h)
      · exact ⟨k, by omega, h⟩
      · exact ⟨n, by omega, Ne.symm h⟩
    · rintro ⟨k, hk, h⟩
      rcases Nat.lt_succ_iff_lt_or_eq.1 hk with hk | rfl
      · exact .inl ⟨k, hk, h⟩
      · exact .inr (Ne.symm h)

/-! ## Right shifts -/

theorem filledAbove_testBit {w : Nat} (a : BitVec w) (fill : Bool) (n i : Nat) :
    (filledAbove a fill n).testBit i = if i < w then a.getLsbD i else fill && decide (i < w + n) := by
  have h : filledAbove a fill n = 2 ^ w * (if fill then 2 ^ n - 1 else 0) + a.toNat := by
    cases fill <;> simp [filledAbove, Nat.mul_comm, Nat.add_comm]
  rw [h, Nat.testBit_two_pow_mul_add _ a.isLt]
  split
  · rfl
  · cases fill
    · simp
    · simp only [if_true, Nat.testBit_two_pow_sub_one, Bool.true_and, decide_eq_decide]
      omega

/-- After n steps of a right shift place i holds what stood n places above, or the fill. -/
theorem shiftedRight_bit {w : Nat} {fill : Bool} {step : ShiftState w → ShiftState w} (ct : CReg) (a : BitVec w) (s : State)
    (h : ∀ n, (shifted step ct a (n + 1) s).v = shiftRight1 (shifted step ct a n s).v fill) :
    ∀ n i, i < w → (shifted step ct a n s).v.getLsbD i = if i + n < w then a.getLsbD (i + n) else fill
  | 0, i, hi => by simp [shifted, iterate, hi]
  | n + 1, i, hi => by
    rw [h, shiftRight1_bit _ _ hi]
    by_cases h1 : i + 1 = w
    · have h2 : ¬ i + (n + 1) < w := by omega
      rw [if_pos h1, if_neg h2]
    · rw [if_neg h1, shiftedRight_bit ct a s h n (i + 1) (by omega)]
      have h2 : i + 1 + n = i + (n + 1) := by omega
      rw [h2]

theorem lsr_v {w : Nat} (fill : Bool) (ct : CReg) (a : BitVec w) (n : Nat) (s : State) :
    (shifted (lsrStep fill) ct a n s).v = BitVec.ofNat w (filledAbove a fill n / 2 ^ n) := by
  refine BitVec.eq_of_getLsbD_eq fun i hi => ?_
  rw [shiftedRight_bit ct a s (fun m => by simp only [shifted, iterate_succ]; rfl) n i hi, BitVec.getLsbD_ofNat,
    ← Nat.shiftRight_eq_div_pow, Nat.testBit_shiftRight, filledAbove_testBit, Nat.add_comm n i]
  simp [hi]

theorem lsr_c {w : Nat} (hw : 0 < w) (fill : Bool) (ct : CReg) (a : BitVec w) {n : Nat} (s : State) (hn : n ≠ 0) :
    (shifted (lsrStep fill) ct a n s).c = true ↔ filledAbove a fill n / 2 ^ (n - 1) % 2 = 1 := by
  obtain ⟨m, rfl⟩ := Nat.exists_eq_succ_of_ne_zero hn
  rw [← testBit_iff_odd, filledAbove_testBit, shifted, iterate_succ]
  change (shifted (lsrStep fill) ct a m s).v.getLsbD 0 = true ↔ _
  rw [shiftedRight_bit ct a s (fun m => by simp only [shifted, iterate_succ]; rfl) m 0 hw]
  have h1 : m < w + (m + 1) := by omega
  simp [h1]

/-- An arithmetic shift right keeps the sign, so its fill is the sign of the operand throughout. -/
theorem asr_bit {w : Nat} (ct : CReg) (a : BitVec w) (s : State) : ∀ n i, i < w →
    (shifted asrStep ct a n s).v.getLsbD i = if i + n < w then a.getLsbD (i + n) else a.msb
  | 0, i, hi => by simp [shifted, iterate, hi]
  | n + 1, i, hi => by
    have hs : (shifted asrStep ct a n s).v.msb = a.msb := by
      rw [msb_eq_bit, asr_bit ct a s n _ (by omega)]
      split
      · obtain rfl : n = 0 := by omega
        rw [msb_eq_bit, Nat.add_zero]
      · rfl
    have hv : (shifted asrStep ct a (n + 1) s).v = shiftRight1 (shifted asrStep ct a n s).v (shifted asrStep ct a n s).v.msb := by
      simp only [shifted, iterate_succ]
      rfl
    rw [hv, hs, shiftRight1_bit _ _ hi]
    by_cases h1 : i + 1 = w
    · have h2 : ¬ i + (n + 1) < w := by omega
      rw [if_pos h1, if_neg h2]
    · have h2 : i + 1 + n = i + (n + 1) := by omega
      rw [if_neg h1, asr_bit ct a s n (i + 1) (by omega), h2]

theorem asr_eq_sshiftRight {w : Nat} (ct : CReg) (a : BitVec w) (n : Nat) (s : State) :
    (shifted asrStep ct a n s).v = a.sshiftRight n := by
  refine BitVec.eq_of_getLsbD_eq fun i hi => ?_
  have h : ¬ w ≤ i := by omega
  rw [asr_bit ct a s n i hi, BitVec.getLsbD_sshiftRight, Nat.add_comm n i]
  simp [h]

theorem sshiftRight_toInt {w : Nat} (a : BitVec w) (n : Nat) : (a.sshiftRight n).toInt = a.toInt / 2 ^ n := by
  simp [BitVec.toInt_sshiftRight, Int.shiftRight_eq_div_pow]

theorem asr_v {w : Nat} (ct : CReg) (a : BitVec w) (n : Nat) (s : State) :
    (shifted asrStep ct a n s).v = BitVec.ofInt w (a.toInt / 2 ^ n) := by
  rw [asr_eq_sshiftRight, ← sshiftRight_toInt, BitVec.ofInt_toInt]

theorem bit0_iff_toInt_odd {w : Nat} (hw : 0 < w) (v : BitVec w) : v.getLsbD 0 = true ↔ v.toInt % 2 = 1 := by
  obtain ⟨k, rfl⟩ : ∃ k, w = k + 1 := ⟨w - 1, by omega⟩
  rw [BitVec.getLsbD, Nat.testBit_zero, decide_eq_true_iff, BitVec.toInt_eq_toNat_cond, Nat.pow_succ]
  split <;> push_cast <;> omega

theorem asr_c {w : Nat} (hw : 0 < w) (ct : CReg) (a : BitVec w) {n : Nat} (s : State) (hn : n ≠ 0) :
    (shifted asrStep ct a n s).c = true ↔ a.toInt / 2 ^ (n - 1) % 2 = 1 := by
  obtain ⟨m, rfl⟩ := Nat.exists_eq_succ_of_ne_zero hn
  rw [← sshiftRight_toInt, ← bit0_iff_toInt_odd hw, Nat.succ_sub_one, ← asr_eq_sshiftRight ct a m s, shifted, iterate_succ]
  rfl

/-! ## Rotates -/

/-- Whether a bit that passed the end `k` times is flipped (R211). -/
theorem odd_succ (k : Nat) : (k + 1).testBit 0 = !k.testBit 0 := by
  rw [Nat.testBit_zero, Nat.testBit_zero, Bool.eq_iff_iff]
  simp only [decide_eq_true_eq, Bool.not_eq_true', decide_eq_false_iff_not]
  omega

theorem flipped_succ (b flip : Bool) (k : Nat) : (b ^^ (flip && (k + 1).testBit 0)) = ((b ^^ (flip && k.testBit 0)) ^^ flip) := by
  rw [odd_succ]
  cases b <;> cases flip <;> simp

/-- The place after `x` in a ring of `m`, and how often it has passed the end. -/
theorem mod_succ_wrap {m x : Nat} (h : x % m + 1 = m) : (x + 1) % m = 0 ∧ (x + 1) / m = x / m + 1 := by
  have hx := Nat.div_add_mod x m
  have e : x + 1 = m * (x / m + 1) := by rw [Nat.mul_add]; omega
  have hm : 0 < m := by omega
  rw [e]
  exact ⟨Nat.mul_mod_right .., Nat.mul_div_cancel_left _ hm⟩

theorem mod_succ_next {m x : Nat} (h : x % m + 1 < m) : (x + 1) % m = x % m + 1 ∧ (x + 1) / m = x / m := by
  have hx := Nat.div_add_mod x m
  have e : x + 1 = x % m + 1 + m * (x / m) := by omega
  have hm : 0 < m := by omega
  constructor
  · conv_lhs => rw [e]
    rw [Nat.add_mul_mod_self_left, Nat.mod_eq_of_lt h]
  · conv_lhs => rw [e]
    rw [Nat.add_mul_div_left _ _ hm, Nat.div_eq_of_lt h, Nat.zero_add]

theorem rol_bit {w : Nat} (flip : Bool) (ct : CReg) (a : BitVec w) (s : State) : ∀ n i, i < w →
    (shifted (rolStep flip) ct a n s).v.getLsbD ((i + n) % w) = (a.getLsbD i ^^ (flip && ((i + n) / w).testBit 0))
  | 0, i, hi => by simp [shifted, iterate, Nat.mod_eq_of_lt hi, Nat.div_eq_of_lt hi]
  | n + 1, i, hi => by
    have hv : (shifted (rolStep flip) ct a (n + 1) s).v =
        shiftLeft1 (shifted (rolStep flip) ct a n s).v ((shifted (rolStep flip) ct a n s).v.msb ^^ flip) := by
      simp only [shifted, iterate_succ]
      rfl
    have hlt : (i + n) % w < w := Nat.mod_lt _ (by omega)
    rw [hv, ← Nat.add_assoc]
    by_cases h : (i + n) % w + 1 = w
    · obtain ⟨h0, h1⟩ := mod_succ_wrap h
      have h2 : w - 1 = (i + n) % w := by omega
      rw [h0, h1, shiftLeft1_bit _ _ (by omega), if_pos rfl, msb_eq_bit, h2, rol_bit flip ct a s n i hi, flipped_succ]
    · obtain ⟨h0, h1⟩ := mod_succ_next (m := w) (x := i + n) (by omega)
      rw [h0, h1, shiftLeft1_bit _ _ (by omega), if_neg (by omega), Nat.add_sub_cancel, rol_bit flip ct a s n i hi]

theorem rol_c {w : Nat} (hw : 0 < w) (flip : Bool) (ct : CReg) (a : BitVec w) (s : State) {n : Nat} (hn : n ≠ 0) :
    (shifted (rolStep flip) ct a n s).c = true ↔ ((shifted (rolStep flip) ct a n s).v.getLsbD 0 ^^ flip) = true := by
  obtain ⟨m, rfl⟩ := Nat.exists_eq_succ_of_ne_zero hn
  rw [shifted, iterate_succ, rolStep, shiftLeft1_bit _ _ hw, if_pos rfl, Bool.xor_assoc, Bool.xor_self, Bool.xor_false]

theorem ror_bit {w : Nat} (flip : Bool) (ct : CReg) (a : BitVec w) (s : State) : ∀ n i, i < w →
    (shifted (rorStep flip) ct a n s).v.getLsbD i = (a.getLsbD ((i + n) % w) ^^ (flip && ((i + n) / w).testBit 0))
  | 0, i, hi => by simp [shifted, iterate, Nat.mod_eq_of_lt hi, Nat.div_eq_of_lt hi]
  | n + 1, i, hi => by
    have hv : (shifted (rorStep flip) ct a (n + 1) s).v =
        shiftRight1 (shifted (rorStep flip) ct a n s).v ((shifted (rorStep flip) ct a n s).v.getLsbD 0 ^^ flip) := by
      simp only [shifted, iterate_succ]
      rfl
    have hw : 0 < w := by omega
    rw [hv, shiftRight1_bit _ _ hi]
    by_cases h : i + 1 = w
    · have h1 : i + (n + 1) = n + w := by omega
      rw [if_pos h, ror_bit flip ct a s n 0 hw, h1, Nat.add_mod_right, Nat.add_div_right _ hw, flipped_succ, Nat.zero_add]
    · have h1 : i + 1 + n = i + (n + 1) := by omega
      rw [if_neg h, ror_bit flip ct a s n (i + 1) (by omega), h1]

theorem ror_c {w : Nat} (hw : 0 < w) (flip : Bool) (ct : CReg) (a : BitVec w) (s : State) {n : Nat} (hn : n ≠ 0) :
    (shifted (rorStep flip) ct a n s).c = true ↔ ((shifted (rorStep flip) ct a n s).v.getLsbD (w - 1) ^^ flip) = true := by
  obtain ⟨m, rfl⟩ := Nat.exists_eq_succ_of_ne_zero hn
  rw [shifted, iterate_succ, rorStep, shiftRight1_bit _ _ (by omega), if_pos (by omega), Bool.xor_assoc, Bool.xor_self,
    Bool.xor_false]

/-! ## Rotates through the carry -/

/-- The ring of a rotate in progress: operand and carry. -/
abbrev ring {w : Nat} (x : ShiftState w) (p : Nat) : Bool := ringBit x.c x.v p

theorem ring_rolcStep {w : Nat} (hw : 0 < w) (flip : Bool) (x : ShiftState w) {p : Nat} (hp : p ≤ w) :
    ring (rolcStep flip x) ((p + 1) % (w + 1)) = (ring x p ^^ (flip && decide (p = w ∨ p + 1 = w))) := by
  rcases Nat.lt_or_eq_of_le hp with hlt | rfl
  · have hne : p ≠ w := by omega
    rw [Nat.mod_eq_of_lt (by omega), ring, ring, ringBit, ringBit, if_neg hne]
    by_cases h1 : p + 1 = w
    · have h2 : w - 1 = p := by omega
      simp [rolcStep, h1, msb_eq_bit, h2]
    · rw [if_neg h1, rolcStep, shiftLeft1_bit _ _ (by omega)]
      simp [hne, h1]
  · have hne : (0 : Nat) ≠ p := by omega
    rw [Nat.mod_self, ring, ring, ringBit, ringBit, if_neg hne, if_pos rfl, rolcStep, shiftLeft1_bit _ _ hw]
    simp

theorem count_succ {x y z k : Nat} (h : k ≤ y) (e : z = x + 1) : y + z - k = x + y - k + 1 := by omega

theorem rolc_ring {w : Nat} (hw : 0 < w) (flip : Bool) (ct : CReg) (a : BitVec w) (s : State) : ∀ n p, p ≤ w →
    ring (shifted (rolcStep flip) ct a n s) ((p + n) % (w + 1)) = (ringBit ((s.cr ct).getLsbD 0) a p ^^
      (flip && ((p + n) / (w + 1) + (p + n + 1) / (w + 1) - (p + 1) / (w + 1)).testBit 0))
  | 0, p, hp => by
    rw [Nat.add_zero, Nat.mod_eq_of_lt (by omega), Nat.div_eq_of_lt (show p < w + 1 by omega), Nat.zero_add, Nat.sub_self]
    simp [shifted, iterate, carryOf]
  | n + 1, p, hp => by
    have hq : (p + n) % (w + 1) < w + 1 := Nat.mod_lt _ (by omega)
    have hmono : (p + 1) / (w + 1) ≤ (p + n + 1) / (w + 1) := Nat.div_le_div_right (by omega)
    have hstep := ring_rolcStep hw flip (shifted (rolcStep flip) ct a n s) (p := (p + n) % (w + 1)) (by omega)
    rw [Nat.mod_add_mod, rolc_ring hw flip ct a s n p hp] at hstep
    rw [shifted, iterate_succ, ← Nat.add_assoc, show ring _ _ = _ from hstep]
    by_cases h1 : (p + n) % (w + 1) = w
    · obtain ⟨h2, h3⟩ := mod_succ_wrap (m := w + 1) (x := p + n) (by omega)
      obtain ⟨-, h4⟩ := mod_succ_next (m := w + 1) (x := p + n + 1) (by omega)
      have h5 : (p + n + 1) / (w + 1) + (p + n + 1 + 1) / (w + 1) - (p + 1) / (w + 1) =
        (p + n) / (w + 1) + (p + n + 1) / (w + 1) - (p + 1) / (w + 1) + 1 := count_succ hmono (h4.trans h3)
      rw [h5, flipped_succ]
      simp [h1]
    · obtain ⟨h2, h3⟩ := mod_succ_next (m := w + 1) (x := p + n) (by omega)
      by_cases h6 : (p + n) % (w + 1) + 1 = w
      · obtain ⟨-, h4⟩ := mod_succ_wrap (m := w + 1) (x := p + n + 1) (by omega)
        have h5 : (p + n + 1) / (w + 1) + (p + n + 1 + 1) / (w + 1) - (p + 1) / (w + 1) =
          (p + n) / (w + 1) + (p + n + 1) / (w + 1) - (p + 1) / (w + 1) + 1 := count_succ hmono (by rw [h4, h3])
        rw [h5, flipped_succ]
        simp [h6]
      · obtain ⟨-, h4⟩ := mod_succ_next (m := w + 1) (x := p + n + 1) (by omega)
        have h5 : (p + n + 1) / (w + 1) + (p + n + 1 + 1) / (w + 1) - (p + 1) / (w + 1) =
          (p + n) / (w + 1) + (p + n + 1) / (w + 1) - (p + 1) / (w + 1) := by rw [h4, h3]
        rw [h5]
        simp [h1, h6]

theorem ring_rorcStep {w : Nat} (hw : 0 < w) (flip : Bool) (x : ShiftState w) {p : Nat} (hp : p ≤ w) :
    ring (rorcStep flip x) p = (ring x ((p + 1) % (w + 1)) ^^ (flip && decide (p + 1 = w))) := by
  rcases Nat.lt_or_eq_of_le hp with hlt | rfl
  · have hne : p ≠ w := by omega
    rw [Nat.mod_eq_of_lt (by omega), ring, ring, ringBit, ringBit, if_neg hne, rorcStep, shiftRight1_bit _ _ hlt]
    by_cases h1 : p + 1 = w <;> simp [h1]
  · have hne : (0 : Nat) ≠ p := by omega
    rw [Nat.mod_self, ring, ring, ringBit, ringBit, if_pos rfl, if_neg hne, rorcStep]
    simp

theorem rorc_ring {w : Nat} (hw : 0 < w) (flip : Bool) (ct : CReg) (a : BitVec w) (s : State) : ∀ n p, p ≤ w →
    ring (shifted (rorcStep flip) ct a n s) p = (ringBit ((s.cr ct).getLsbD 0) a ((p + n) % (w + 1)) ^^
      (flip && ((p + n + 1) / (w + 1) - (p + 1) / (w + 1)).testBit 0))
  | 0, p, hp => by
    rw [Nat.add_zero, Nat.mod_eq_of_lt (by omega), Nat.sub_self]
    simp [shifted, iterate, carryOf]
  | n + 1, p, hp => by
    rw [shifted, iterate_succ, ring_rorcStep hw flip _ hp, show ring (iterate (rorcStep flip) n _) _ = _ from
      rorc_ring hw flip ct a s n ((p + 1) % (w + 1)) (by have := Nat.mod_lt (p + 1) (show 0 < w + 1 by omega); omega), Nat.mod_add_mod]
    have h1 : p + 1 + n = p + (n + 1) := by omega
    rw [h1]
    rcases Nat.lt_or_eq_of_le hp with hlt | rfl
    · rw [Nat.mod_eq_of_lt (show p + 1 < w + 1 by omega), Nat.div_eq_of_lt (show p + 1 < w + 1 by omega), Nat.sub_zero]
      by_cases h2 : p + 1 = w
      · have h3 : p + 1 + 1 = w + 1 := by omega
        have h4 : 0 < (p + (n + 1) + 1) / (w + 1) := Nat.div_pos (by omega) (by omega)
        have h5 : (p + (n + 1) + 1) / (w + 1) = (p + 1 + n + 1) / (w + 1) - (p + 1 + 1) / (w + 1) + 1 := by
          rw [h1, h3, Nat.div_self (by omega)]
          omega
        rw [h5, flipped_succ]
        simp [h2]
      · rw [Nat.div_eq_of_lt (show p + 1 + 1 < w + 1 by omega), Nat.sub_zero]
        simp [h2, h1]
    · have h2 : p + (n + 1) + 1 = n + 1 + (p + 1) := by omega
      rw [Nat.mod_self, Nat.zero_add, Nat.zero_add, h2, Nat.add_div_right _ (by omega), Nat.div_self (by omega),
        Nat.div_eq_of_lt (show 1 < p + 1 by omega), Nat.sub_zero, Nat.succ_sub_one]
      simp

/-! ## The instructions -/

section
variable {w : Nat} (hw : 0 < w) (hw' : w ≤ 64) (ct : CReg) (rt : Reg) (a : BitVec w) (n : Nat) (fill : Bool) {s : State}
  (hr : Room 1 s)
include hw hw' hr

theorem asl_completes : Completes (shiftOp (aslStep fill) ct rt a n s) (AslEffect ct fill rt a n s) := by
  have h := shiftOp_completes (rt := rt) hw' hr (shiftedLeft_ovf fill ct a s n)
    (shiftedLeft_c hw (step := aslStep fill) (fun _ => rfl) (fun _ => rfl) ct a s)
  rwa [shiftedLeft_v (fun _ => rfl)] at h

theorem lsl_completes : Completes (shiftOp (lslStep fill) ct rt a n s) (LslEffect ct fill rt a n s) := by
  have h := shiftOp_completes (rt := rt) hw' hr (not_ovf (fun _ => rfl) ct a s n)
    (shiftedLeft_c hw (step := lslStep fill) (fun _ => rfl) (fun _ => rfl) ct a s)
  rwa [shiftedLeft_v (fun _ => rfl)] at h

theorem asr_completes : Completes (shiftOp asrStep ct rt a n s) (AsrEffect ct rt a n s) := by
  have h := shiftOp_completes (rt := rt) hw' hr (not_ovf (fun _ => rfl) ct a s n) (asr_c hw ct a s)
  rwa [asr_v] at h

theorem lsr_completes : Completes (shiftOp (lsrStep fill) ct rt a n s) (LsrEffect ct fill rt a n s) := by
  have h := shiftOp_completes (rt := rt) hw' hr (not_ovf (fun _ => rfl) ct a s n) (lsr_c hw fill ct a s)
  rwa [lsr_v] at h

theorem rol_completes : Completes (shiftOp (rolStep fill) ct rt a n s) (RolEffect ct fill rt a n s) :=
  Completes.mono (shiftOp_completes hw' hr (not_ovf (step := rolStep fill) (fun _ => rfl) ct a s n) (rol_c hw fill ct a s)) fun _ h =>
    ⟨_, rol_bit fill ct a s n, h⟩

theorem ror_completes : Completes (shiftOp (rorStep fill) ct rt a n s) (RorEffect ct fill rt a n s) :=
  Completes.mono (shiftOp_completes hw' hr (not_ovf (step := rorStep fill) (fun _ => rfl) ct a s n) (ror_c hw fill ct a s)) fun _ h =>
    ⟨_, ror_bit fill ct a s n, h⟩

theorem rolc_completes : Completes (shiftOp (rolcStep fill) ct rt a n s) (RolcEffect ct fill rt a n s) :=
  Completes.mono (shiftOp_completes hw' hr (not_ovf (step := rolcStep fill) (fun _ => rfl) ct a s n) (fun _ => Iff.rfl)) fun _ h =>
    ⟨_, _, rolc_ring hw fill ct a s n, h⟩

theorem rorc_completes : Completes (shiftOp (rorcStep fill) ct rt a n s) (RorcEffect ct fill rt a n s) :=
  Completes.mono (shiftOp_completes hw' hr (not_ovf (step := rorcStep fill) (fun _ => rfl) ct a s n) (fun _ => Iff.rfl)) fun _ h =>
    ⟨_, _, rorc_ring hw fill ct a s n, h⟩

end

/-- Settles O36. -/
theorem shiftResultAndFrame : Obligations.ShiftResultAndFrame := by
  intro s ct sz fill rt ra rb imm hr
  have hw := sizeBits_pos sz
  have hw' := sizeBits_le sz
  dsimp only
  rw [← shiftCount_eq]
  exact ⟨asl_completes hw hw' _ _ _ _ _ hr, asl_completes hw hw' _ _ _ _ _ hr, asr_completes hw hw' _ _ _ _ hr,
    asr_completes hw hw' _ _ _ _ hr, lsl_completes hw hw' _ _ _ _ _ hr, lsl_completes hw hw' _ _ _ _ _ hr,
    lsr_completes hw hw' _ _ _ _ _ hr, lsr_completes hw hw' _ _ _ _ _ hr⟩

/-- Settles O37. -/
theorem rotateResultAndFrame : Obligations.RotateResultAndFrame := by
  intro s ct sz flip rt ra rb imm hr
  have hw := sizeBits_pos sz
  have hw' := sizeBits_le sz
  dsimp only
  rw [← shiftCount_eq]
  exact ⟨rol_completes hw hw' _ _ _ _ _ hr, rol_completes hw hw' _ _ _ _ _ hr, ror_completes hw hw' _ _ _ _ _ hr,
    ror_completes hw hw' _ _ _ _ _ hr⟩

/-- Settles O38. -/
theorem rotateThroughCarryResultAndFrame : Obligations.RotateThroughCarryResultAndFrame := by
  intro s ct sz flip rt ra rb imm hr
  have hw := sizeBits_pos sz
  have hw' := sizeBits_le sz
  dsimp only
  rw [← shiftCount_eq]
  exact ⟨rolc_completes hw hw' _ _ _ _ _ hr, rolc_completes hw hw' _ _ _ _ _ hr, rorc_completes hw hw' _ _ _ _ _ hr,
    rorc_completes hw hw' _ _ _ _ _ hr⟩

end Sys2Proof.Proofs.Shifts
end

section
/-! PROOFS. The operations on control and special registers (`spec/40_arithmetic.md` R137 to R142), what is privileged
(`spec/60_exceptions.md` R319), and the opcodes that are names only (`spec/41_floating_point.md`). -/

namespace Sys2Proof.Proofs.Csr

open Sys2Proof Sys2Proof.Machine Sys2Proof.Claims Sys2Proof.Proofs.Frame

/-! ## The checks -/

theorem csrReg_none {n : BitVec 7} (h1 : n ≠ 1#7) (h2 : n ≠ 2#7) (h120 : n ≠ 120#7) (h121 : n ≠ 121#7) :
    csrReg (.field n) = none := by
  simp [csrReg, h1, h2, h120, h121]

/-- A register that user mode may access, or any in supervisor mode (R319). -/
theorem csrChecked_of_allowed {n : CsrNum} {r : CsrReg} {s : State} (k : CsrReg → Result) (hr : csrReg n = some r)
    (h : r.privileged = false ∨ s.supervisor = true) : csrChecked n s k = k r := by
  rcases h with h | h <;> simp [csrChecked, hr, h]

theorem csrChecked_of_user {n : CsrNum} {r : CsrReg} {s : State} (k : CsrReg → Result) (hr : csrReg n = some r)
    (hp : r.privileged = true) (h : s.supervisor = false) : csrChecked n s k = .next (sysException 8#8 s.pc s) := by
  simp [csrChecked, hr, hp, h, vecPrivilege]

theorem csrChecked_undocumented {n : CsrNum} (s : State) (k : CsrReg → Result) (hr : csrReg n = none) :
    csrChecked n s k = .refused .undocumentedCsr := by
  simp [csrChecked, hr]

/-! ## Reads -/

theorem writesResult_setX {s t : State} {i : Reg} {v : Word} (h : t.x i = (s.setX i v).x i) : WritesResult i v s t := fun hi =>
  ⟨by rw [h, State.x_setX_same s v hi, BitVec.setWidth_eq], fun hlt => absurd hlt (by decide)⟩

theorem exec_moveFromCsr (n : CsrNum) (rb : Reg) (s : State) :
    exec (.moveFromCsr n rb) s = csrChecked n s fun r => advance 1 ((s.csrRead r).2.setX rb (s.csrRead r).1) := rfl

/-- A read of a register that is not drawn. -/
theorem moveFromCsr_completes {n : CsrNum} {r : CsrReg} {s : State} {v : Word} (rb : Reg) (hr : csrReg n = some r)
    (h : r.privileged = false ∨ s.supervisor = true) (hv : s.csrRead r = (v, s)) (room : Room 1 s) :
    Completes (exec (.moveFromCsr n rb) s) (fun t => WritesResult rb v s t ∧ EndsAt 1 [rb] [] s t) := by
  have e : exec (.moveFromCsr n rb) s = advance 1 (s.setX rb v) := by
    rw [exec_moveFromCsr, csrChecked_of_allowed _ hr h, hv]
  have hw := (Writes.refl [rb] [] s).setX (i := rb) (by simp) v
  rw [e]
  exact completes_advance hw.pc room ⟨writesResult_setX (by simp), hw.endsAt 1⟩

theorem moveFromTick_completes {s : State} (rb : Reg) (room : Room 1 s) :
    Completes (exec (.moveFromCsr (.field 120#7) rb) s) (fun t => EndsAt 1 [rb] [] s t) := by
  have hw := ((Writes.refl [rb] [] s).drawn 1).setX (i := rb) (by simp) (s.free 0)
  exact completes_advance hw.pc room (hw.endsAt 1)

/-- Settles O28. -/
theorem moveFromCsrResultAndFrame : Obligations.MoveFromCsrResultAndFrame := fun _ rb room =>
  ⟨moveFromCsr_completes rb rfl (.inl rfl) rfl room, moveFromTick_completes rb room, fun h =>
    ⟨moveFromCsr_completes rb rfl (.inr h) rfl room, moveFromCsr_completes rb rfl (.inr h) rfl room⟩⟩

/-! ## Writes -/

/-- A CSR instruction that writes `f old operand`. -/
abbrev Updates (op : CsrNum → Reg → Instr) (f : Word → Word → Word) : Prop :=
  ∀ n rb s, exec (op n rb) s = csrUpdate f n rb s

theorem csrUpdate_moveTo : Updates .moveToCsr fun _ v => v := by
  intro n _ s
  change csrChecked n s _ = csrChecked n s _
  congr 1
  funext r
  cases r <;> rfl

theorem csrUpdates_of_updates {op : CsrNum → Reg → Instr} {f : Word → Word → Word} (h : Updates op f) : CsrUpdates op f := by
  intro s rb room
  refine ⟨?_, fun hs => ?_⟩ <;> rw [h, csrUpdate]
  · rw [csrChecked_of_allowed (r := .ccr) _ rfl (.inl rfl)]
    exact ⟨_, advance_next.2 ⟨room, rfl⟩, rfl, rfl, rfl, ⟨rfl, rfl, rfl⟩, rfl, rfl, rfl, rfl, rfl, rfl, keepsMemory_of_eq rfl rfl⟩
  · rw [csrChecked_of_allowed (r := .sr) _ rfl (.inr hs)]
    exact ⟨_, advance_next.2 ⟨room, rfl⟩, rfl, rfl, rfl, ⟨rfl, rfl, rfl⟩, rfl, rfl, rfl, rfl, rfl, rfl, keepsMemory_of_eq rfl rfl⟩

theorem csrNumberRefused_of_updates {op : CsrNum → Reg → Instr} {f : Word → Word → Word} (h : Updates op f) :
    CsrNumberRefused op := fun s _ =>
  ⟨fun _ => (h _ _ _).trans (csrChecked_undocumented s _ rfl), fun _ h1 h2 h120 h121 =>
    (h _ _ _).trans (csrChecked_undocumented s _ (csrReg_none h1 h2 h120 h121))⟩

theorem csrWriteRefused_of_updates {op : CsrNum → Reg → Instr} {f : Word → Word → Word} (h : Updates op f) :
    CsrWriteRefused op := fun _ _ =>
  ⟨(h _ _ _).trans (csrChecked_of_allowed (r := .tick) _ rfl (.inl rfl)), fun hs =>
    (h _ _ _).trans (csrChecked_of_allowed (r := .coreno) _ rfl (.inr hs))⟩

theorem csrPrivileged_of_updates {op : CsrNum → Reg → Instr} {f : Word → Word → Word} (h : Updates op f) :
    CsrPrivileged op := fun _ _ hs =>
  ⟨(h _ _ _).trans (csrChecked_of_user (r := .sr) _ rfl rfl hs), (h _ _ _).trans (csrChecked_of_user (r := .coreno) _ rfl rfl hs)⟩

theorem updates_or : Updates .orCsr fun old v => old ||| v := fun _ _ _ => rfl

theorem updates_andc : Updates .andcCsr fun old v => old &&& ~~~v := fun _ _ _ => rfl

theorem updates_eor : Updates .eorCsr fun old v => old ^^^ v := fun _ _ _ => rfl

/-- Settles O29. -/
theorem csrWritesResultAndFrame : Obligations.CsrWritesResultAndFrame :=
  ⟨csrUpdates_of_updates csrUpdate_moveTo, csrUpdates_of_updates updates_or, csrUpdates_of_updates updates_andc,
    csrUpdates_of_updates updates_eor⟩

theorem moveFromCsr_numberRefused : CsrNumberRefused .moveFromCsr := fun s _ =>
  ⟨fun _ => (exec_moveFromCsr ..).trans (csrChecked_undocumented s _ rfl), fun _ h1 h2 h120 h121 =>
    (exec_moveFromCsr ..).trans (csrChecked_undocumented s _ (csrReg_none h1 h2 h120 h121))⟩

/-- Settles O30. -/
theorem undocumentedAndReadOnlyCsrsAreRefused : Obligations.UndocumentedAndReadOnlyCsrsAreRefused :=
  ⟨moveFromCsr_numberRefused, csrNumberRefused_of_updates csrUpdate_moveTo, csrNumberRefused_of_updates updates_or,
    csrNumberRefused_of_updates updates_andc, csrNumberRefused_of_updates updates_eor,
    csrWriteRefused_of_updates csrUpdate_moveTo, csrWriteRefused_of_updates updates_or, csrWriteRefused_of_updates updates_andc,
    csrWriteRefused_of_updates updates_eor⟩

/-! ## Privilege (R319) -/

theorem moveFromCsr_privileged : CsrPrivileged .moveFromCsr := fun _ _ hs =>
  ⟨(exec_moveFromCsr ..).trans (csrChecked_of_user (r := .sr) _ rfl rfl hs),
    (exec_moveFromCsr ..).trans (csrChecked_of_user (r := .coreno) _ rfl rfl hs)⟩

theorem listChecked_user {special : BitVec 5} {s : State} (k : Result) (h2 : special.getLsbD 2 = true) (hs : s.supervisor = false) :
    listChecked .o special s k = .next (sysException 8#8 s.pc s) := by
  have h : ¬ (special ≠ 0#5 ∧ Size.o ≠ .o) := fun h => h.2 rfl
  rw [listChecked, if_neg h, if_pos (by simp [h2, hs])]
  rfl

theorem rti_user {s : State} (arg : BitVec 10) (rpt : BitVec 5) (hs : s.supervisor = false) :
    exec (.rti arg rpt) s = .next (sysException 8#8 s.pc s) := by
  change execRti arg rpt s = _
  rw [execRti, if_neg (by simp [hs])]
  rfl

/-- Settles O31. -/
theorem privilegedOperationsTrapInUserMode : Obligations.PrivilegedOperationsTrapInUserMode :=
  ⟨moveFromCsr_privileged, csrPrivileged_of_updates csrUpdate_moveTo, csrPrivileged_of_updates updates_or,
    csrPrivileged_of_updates updates_andc, csrPrivileged_of_updates updates_eor, fun _ hs =>
    ⟨fun arg rpt => rti_user arg rpt hs, fun _ _ _ _ _ h2 =>
      ⟨fun _ _ => listChecked_user _ h2 hs, fun _ => listChecked_user _ h2 hs, fun _ _ => listChecked_user _ h2 hs,
        fun _ => listChecked_user _ h2 hs⟩⟩⟩

/-! ## Opcodes that are names only -/

theorem op_toNat (w : InsnWord) : (Fields.ofWord w).op.toNat = w.toNat % 32 := by
  simp [Fields.ofWord]

/-- The decoder's case for the word's major opcode. -/
theorem decodeWord_named (strict : Bool) (w : InsnWord) (ext : List InsnWord) :
    (w.toNat % 32 = 20 → decodeWord strict w ext = .instr (.fma (w.extractLsb' 5 27))) ∧
    (w.toNat % 32 = 21 → decodeWord strict w ext = .instr (.fms (w.extractLsb' 5 27))) ∧
    (w.toNat % 32 = 22 → decodeWord strict w ext = .instr (.fnma (w.extractLsb' 5 27))) ∧
    (w.toNat % 32 = 23 → decodeWord strict w ext = .instr (.fnms (w.extractLsb' 5 27))) := by
  refine ⟨fun h => ?_, fun h => ?_, fun h => ?_, fun h => ?_⟩ <;> simp only [decodeWord, op_toNat, h]

/-- Settles O33. -/
theorem namedOnlyOpcodesAreRefused : Obligations.NamedOnlyOpcodesAreRefused := by
  refine ⟨fun _ _ => ⟨rfl, rfl, rfl, rfl⟩, fun strict w ext => ?_⟩
  obtain ⟨hfma, hfms, hfnma, hfnms⟩ := decodeWord_named strict w ext
  exact ⟨fun h => ⟨_, hfma h⟩, fun h => ⟨_, hfms h⟩, fun h => ⟨_, hfnma h⟩, fun h => ⟨_, hfnms h⟩⟩

end Sys2Proof.Proofs.Csr
end

section
/-! PROOFS. Registers, memory, addresses, the state after reset, and the example words of the spec (`spec/10_state.md`,
`spec/20_memory.md` R60 to R64, `spec/45_memory_ops.md` R270, R271, R281). -/

namespace Sys2Proof.Proofs.Storage

open Sys2Proof Sys2Proof.Machine Sys2Proof.Claims Sys2Proof.Proofs.Frame

/-! ## Registers -/

theorem x_sp_supervisor {s : State} (h : s.supervisor = true) : s.x 31#5 = s.ssp := by
  simp [State.x, h]

theorem x_sp_user {s : State} (h : s.supervisor = false) : s.x 31#5 = s.usp := by
  simp [State.x, h]

/-- Settles O13. -/
theorem registerWritesReadBack : Obligations.RegisterWritesReadBack := fun s i v =>
  ⟨State.x_zero s, State.setX_zero s v, x_sp_supervisor, x_sp_user, State.x_setX_same s v, State.setX_pc s i v,
    keepsRest_setX s v [] (by simp), keepsMemory_of_eq (by simp) (by simp)⟩

/-! ## Memory -/

/-- A byte of a value, as the k-th byte of a store has it. -/
theorem setWidth_ushiftRight_eq_extractLsb (v : Word) (k : Nat) : (v >>> (8 * k)).setWidth 8 = v.extractLsb' (8 * k) 8 := by
  refine BitVec.eq_of_getLsbD_eq fun i hi => ?_
  rw [BitVec.getLsbD_setWidth, BitVec.getLsbD_ushiftRight, BitVec.getLsbD_extractLsb']

theorem read_writeLE_byte {m : Memory} (h : m.wf = true) (a : Word) {n : Nat} (hn : n ≤ 8) (v : Word) {k : Nat} (hk : k < n) :
    (m.writeLE a n v).read (a + BitVec.ofNat 64 k).toNat = v.extractLsb' (8 * k) 8 :=
  (Memory.read_writeLE_inside h a n v hk (by omega)).trans (setWidth_ushiftRight_eq_extractLsb v k)

/-- Settles O14. -/
theorem memoryReadsBackWhatWasWritten : Obligations.MemoryReadsBackWhatWasWritten :=
  ⟨fun m a n v h hn =>
    ⟨Memory.readLE_writeLE h a n hn v, fun _ hk => read_writeLE_byte h a hn v hk,
      fun _ hb => Memory.read_writeLE_of_not m a n v hb, Memory.wf_writeLE a n v h⟩,
    fun _ _ h h' hr => Memory.eq_of_reads h h' hr⟩

/-! ## Addresses -/

/-- The model's address is that of the statements: R271 reads register 0 as the program counter in both. -/
theorem ea_eq_address {n : Nat} (s : State) (md : UpdMode) (rb : Reg) (d : Disp n) : s.ea md rb d = address s md rb d := by
  cases md <;> rfl

theorem eaIndexed_eq_address {n : Nat} (s : State) (rb rc : Reg) (d : Disp n) :
    s.eaIndexed rb rc d = indexedAddress s rb rc d := rfl

/-- Settles O15: a sign extension is, by its definition, the pattern of the same integer. -/
theorem effectiveAddresses : Obligations.EffectiveAddresses :=
  ⟨fun s rb rc _ d => ⟨fun md => ea_eq_address s md rb d, eaIndexed_eq_address s rb rc d⟩, fun _ _ => ⟨rfl, rfl⟩,
    fun _ _ => ⟨rfl, rfl⟩, fun _ _ => ⟨rfl, rfl⟩, fun _ => ⟨rfl, rfl⟩, fun _ => ⟨rfl, rfl⟩, fun _ => ⟨rfl, rfl⟩⟩

/-! ## Reset -/

theorem inv_reset : State.reset.Inv := ⟨rfl, rfl, by decide, by decide⟩

/-- Settles O7. -/
theorem resetStateMeetsTheInvariant : Obligations.ResetStateMeetsTheInvariant :=
  ⟨inv_reset, rfl, rfl, rfl, rfl, rfl, rfl, by decide, by decide⟩

/-! ## Example words -/

/-- Settles O3, by running the decoder on the fourteen words. -/
theorem specExampleWordsDecode : Obligations.SpecExampleWordsDecode :=
  ⟨rfl, rfl, rfl, rfl, rfl, rfl, rfl, rfl, rfl, rfl, rfl, rfl, rfl, rfl⟩

end Sys2Proof.Proofs.Storage
end

section
/-! PROOFS. Taking an exception and the reset sequence (`spec/60_exceptions.md` R313, R314, R328,
`spec/70_reset_and_hazards.md` R350). -/

namespace Sys2Proof.Proofs.Entries

open Sys2Proof Sys2Proof.Machine Sys2Proof.Claims Sys2Proof.Proofs.Frame Sys2Proof.Proofs.Storage

/-! ## System exception entry -/

/-- Settles O46: the state after the three pushes, with the program counter of the handler. -/
theorem systemExceptionEntry : Obligations.SystemExceptionEntry := by
  intro v ret s hi h
  obtain ⟨hsr, hcc, hpc⟩ := sysPushed_reads ret hi.mem
  have e2 : s.ssp - 24#64 + 8#64 = s.ssp - 16#64 := by bv_omega
  have e3 : s.ssp - 24#64 + 16#64 = s.ssp - 8#64 := by bv_omega
  rw [sysException_of_can ret h]
  constructor
  case pc => rfl
  case oldSr => simpa using hsr
  case oldCc => simpa [e2] using hcc
  case oldPc => simpa [e3] using hpc
  case memory => exact (sysPushed_block ret s).of_eq rfl rfl rfl rfl
  all_goals simp [srS]

/-- Settles O47. -/
theorem faultInSystemEntrySticks : Obligations.FaultInSystemEntrySticks :=
  ⟨fun _ ret _ h => sysException_of_not ret h, fun _ h => if_pos h⟩

/-! ## Application exception entry -/

/-- Settles O48. -/
theorem applicationExceptionEntry : Obligations.ApplicationExceptionEntry := by
  intro v ret s hi h
  obtain ⟨hsp, hcc, hpc, hblock, hrest⟩ := appPushed_facts ret s hi.mem
  have e : s.x 31#5 - 16#64 + 8#64 = s.x 31#5 - 8#64 := by bv_omega
  rw [appException_of_can ret h]
  constructor
  case pc => rfl
  case sp => simpa using hsp
  case oldCc => simpa [hsp] using hcc
  case oldPc => simpa [hsp, e] using hpc
  case memory => exact hblock.of_eq rfl rfl rfl rfl
  case rest => exact hrest.jump _

theorem appException_first_fails {v : AppVector} {s : State} (ret : Word) (h : ¬ CanAccess s .write (s.x 31#5 - 8#64) 8) :
    appException v ret s = sysException (faultVector s (s.x 31#5 - 8#64) 8) s.pc s := by
  unfold appException appFrame
  rw [push8_of_not ret h]
  rfl

theorem appException_second_fails {v : AppVector} {s : State} (ret : Word) (h1 : CanAccess s .write (s.x 31#5 - 8#64) 8)
    (h2 : ¬ CanAccess s .write (s.x 31#5 - 16#64) 8) :
    appException v ret s = sysException (faultVector s (s.x 31#5 - 16#64) 8) s.pc (s.pushed ret) := by
  have e := push8_at_not (s.ccrg.setWidth 64) (pushed_params ret s) (a := s.x 31#5 - 16#64) (by simp [BitVec.sub_sub]) h2
  unfold appException appFrame
  simp only [push8_of_can ret h1, pushed_ccrg, e, Act.andThen, pushed_pc, faultVector_congr (pushed_params ret s)]

theorem appException_read_fails {v : AppVector} {s : State} (ret : Word) (h1 : CanAccess s .write (s.x 31#5 - 8#64) 8)
    (h2 : CanAccess s .write (s.x 31#5 - 16#64) 8) (h3 : ¬ CanAccess s .read (appEntryAddress s v) 8) :
    appException v ret s = sysException (faultVector s (appEntryAddress s v) 8) s.pc (s.appPushed ret) := by
  have hp : (s.appPushed ret).params = s.params := by simp [State.appPushed]
  have e : memRead ((s.appPushed ret).appVectorAddr v) 8 (s.appPushed ret) =
      .raise (faultVector s (appEntryAddress s v) 8) (s.appPushed ret) := by
    rw [appVectorAddr_eq, appEntryAddress_congr (t := s.appPushed ret) (s := s) (by simp [State.appPushed]) v,
      memRead_of_not fun h => h3 ((canAccess_congr hp _ _ _).1 h), faultVector_congr hp]
  have hpc : (s.appPushed ret).pc = s.pc := by simp [State.appPushed]
  unfold appException appFrame
  simp only [push8_of_can ret h1, pushed_ccrg, appPush_second ret h2, e, Act.andThen, hpc]

/-- Settles O49: which of the three accesses fails, with the pushes before it. -/
theorem faultInApplicationEntryIsASystemException : Obligations.FaultInApplicationEntryIsASystemException := by
  intro v ret s hi
  refine ⟨appException_first_fails ret, fun h1 h2 => ?_, fun h1 h2 h3 => ?_⟩
  · exact ⟨_, appException_second_fails ret h1 h2, pushed_pc ret s, pushed_sp ret s, pushed_top ret s hi.mem, pushed_block ret s,
      keeps_pushed ret s⟩
  · obtain ⟨hsp, hcc, hpc, hblock, hrest⟩ := appPushed_facts ret s hi.mem
    exact ⟨_, appException_read_fails ret h1 h2 h3, by simp [State.appPushed], hsp, hpc, hcc, hblock, hrest⟩

/-! ## Reset -/

/-- Settles O53: the two reads, of which the second stands after the write of the stack pointer. -/
theorem resetSequenceResult : Obligations.ResetSequenceResult := by
  intro s
  unfold resetSequence
  refine ⟨fun h0 h8 => ?_, fun h0 => ?_, fun h0 h8 => ?_⟩ <;> dsimp only
  · rw [memRead_of_can (by exact h0)]
    dsimp only [Act.andThen]
    rw [memRead_of_can (by exact h8)]
    rfl
  · rw [memRead_of_not (by exact h0)]
    exact ⟨rfl, rfl⟩
  · rw [memRead_of_can (by exact h0)]
    dsimp only [Act.andThen]
    rw [memRead_of_not (by exact h8)]
    exact ⟨rfl, rfl⟩

end Sys2Proof.Proofs.Entries
end

section
/-! PROOFS. One step: the interrupt, the refused modes, the fetch and the decoding, in the order of `spec/60_exceptions.md`
R326. -/

namespace Sys2Proof.Proofs.Cycle

open Sys2Proof Sys2Proof.Machine Sys2Proof.Claims Sys2Proof.Proofs.Csr Sys2Proof.Proofs.Entries

/-! ## Interrupts (R322) -/

theorem interruptAccepted_iff (s : State) : s.interruptAccepted = true ↔ s.ipl.toNat < s.irqLevel.toNat := decide_eq_true_iff

theorem step_of_interrupt {s : State} (hs : s.stuck = false) (h : s.ipl.toNat < s.irqLevel.toNat) :
    step s = .next (takeInterrupt s.irqLevel s.nextBoundary) := by
  unfold step cycle
  rw [if_neg (by simp [hs]), if_pos ((interruptAccepted_iff s).2 h)]

theorem step_of_no_interrupt {s : State} (hs : s.stuck = false) (h : s.irqLevel.toNat ≤ s.ipl.toNat) :
    step s = runInstr s.nextBoundary := by
  have hn : ¬ s.interruptAccepted = true := fun hi => by
    have := (interruptAccepted_iff s).1 hi
    omega
  unfold step cycle
  rw [if_neg (by simp [hs]), if_neg hn]

theorem interruptVector_eq (l : BitVec 3) : 24#8 + l.setWidth 8 = BitVec.ofNat 8 (24 + l.toNat) := by
  revert l; decide

/-- The mask after it was raised, and the other bits of SR. -/
theorem setIpl_fields (s : State) (l : BitVec 3) :
    (s.setIpl l).ipl = l ∧ (s.setIpl l).sr &&& ~~~0x00000700#32 = s.sr &&& ~~~0x00000700#32 := by
  have hfield : ∀ l : BitVec 3, (l.setWidth 32 <<< 8).extractLsb' 8 3 = l ∧ (l.setWidth 32 <<< 8) &&& ~~~0x00000700#32 = 0#32 := by
    decide
  obtain ⟨h1, h2⟩ := hfield l
  constructor
  · rw [State.ipl, State.setIpl_sr, BitVec.extractLsb'_or, BitVec.extractLsb'_and, h1,
      show (~~~0x00000700#32).extractLsb' 8 3 = 0#3 by decide, BitVec.and_zero, BitVec.zero_or]
  · rw [State.setIpl_sr, BitVec.and_or_distrib_right, h2, BitVec.and_assoc, BitVec.and_self, BitVec.or_zero]

theorem step_of_stuck {s : State} (hs : s.stuck = true) : step s = .fault .stuck := if_pos hs

/-- Settles O10. -/
theorem interruptsAboveTheMaskAreTaken : Obligations.InterruptsAboveTheMaskAreTaken := by
  refine ⟨fun s hi hs h hc => ?_, fun s h => ?_⟩
  · obtain ⟨hipl, hsr⟩ := setIpl_fields (sysException (BitVec.ofNat 8 (24 + s.irqLevel.toNat)) s.pc s.nextBoundary) s.irqLevel
    refine ⟨_, step_of_interrupt hs h, sysException (BitVec.ofNat 8 (24 + s.irqLevel.toNat)) s.pc s.nextBoundary, ?_, ?_⟩
    · exact systemExceptionEntry _ _ _ ⟨hi.mem, hi.stored, hi.sr, hi.ac⟩ hc
    · rw [takeInterrupt, interruptVector_eq]
      exact ⟨rfl, hipl, hsr⟩
  · have h0 : ({ s with irq := 0#3 :: s.irq.tail } : State).irqLevel.toNat ≤
      ({ s with irq := 0#3 :: s.irq.tail } : State).ipl.toNat := Nat.zero_le _
    rcases Bool.eq_false_or_eq_true s.stuck with hs | hs
    · exact (step_of_stuck hs).trans (step_of_stuck (s := { s with irq := 0#3 :: s.irq.tail }) hs).symm
    · exact (step_of_no_interrupt hs h).trans (step_of_no_interrupt (s := { s with irq := 0#3 :: s.irq.tail }) hs h0).symm

/-! ## The instruction at the program counter -/

/-- The words to fetch for a word that is an instruction, or would be one in another size, are those it calls for (R118, R120). -/
theorem extWordsToFetch_of_decoded {strict : Bool} {w : InsnWord} {ext : List InsnWord}
    (h : decodeWord strict w ext ≠ .reject .unassigned) : extWordsToFetch strict w = extWordsOf w :=
  extWordsToFetch_assigned fun e => h ((unassigned_together strict w ext []).2 e)

theorem fetchInstr_instr {s : State} {w : InsnWord} {ext : List InsnWord} {i : Instr} (h : CodeAt s (w :: ext))
    (hl : ext.length = extWordsToFetch s.params.strictReserved w) (hd : decodeWord s.params.strictReserved w ext = .instr i) :
    fetchInstr s = .ok i := by
  rw [fetchInstr_of_code h hl, hd]

theorem fetchInstr_reject {s : State} {w : InsnWord} {ext : List InsnWord} {r : Reject} (h : CodeAt s (w :: ext))
    (hl : ext.length = extWordsToFetch s.params.strictReserved w) (hd : decodeWord s.params.strictReserved w ext = .reject r) :
    fetchInstr s = .error (rejectStop r) := by
  rw [fetchInstr_of_code h hl, hd]

theorem step_of_fetch_raise {s : State} {v : SysVector} (h : RunsInstruction s) (hf : fetchInstr s.nextBoundary = .error (.raise v)) :
    step s = .next (sysException v s.pc s.nextBoundary) := by
  rw [step_of_runs h, hf]

theorem step_of_fetch_refuse {s : State} {r : Refusal} (h : RunsInstruction s) (hf : fetchInstr s.nextBoundary = .error (.refuse r)) :
    step s = .refused r := by
  rw [step_of_runs h, hf]

/-- Settles O5. -/
theorem stepRunsTheDecodedInstruction : Obligations.StepRunsTheDecodedInstruction := by
  intro s w ext i h hc hl hd
  have hw := extWordsToFetch_of_decoded (strict := s.params.strictReserved) (w := w) (ext := ext) (by simp [hd])
  rw [step_of_runs h, fetchInstr_instr hc.nextBoundary (hl.trans hw.symm) hd]

theorem decodeWord_unassigned_op {strict : Bool} {w : InsnWord} (h : w.toNat % 32 ∈ [11, 12, 26, 30, 31]) :
    decodeWord strict w [] = .reject .unassigned := by
  simp only [List.mem_cons, List.not_mem_nil, or_false] at h
  rcases h with h | h | h | h | h <;> simp only [decodeWord, op_toNat, h]

/-- Settles O4: an unassigned first word has no words after it to wait for (R118). -/
theorem unassignedEncodingsRaiseUnimplemented : Obligations.UnassignedEncodingsRaiseUnimplemented := by
  refine ⟨fun _ _ => decodeWord_unassigned_op, fun s w h hc hd => ?_, fun s w ext h hc hl hd => ?_⟩
  · have hw : ([] : List InsnWord).length = extWordsToFetch s.params.strictReserved w := (if_pos hd).symm
    exact step_of_fetch_raise h (fetchInstr_reject hc.nextBoundary hw hd)
  · have hw := extWordsToFetch_of_decoded (strict := s.params.strictReserved) (w := w) (ext := ext) (by simp [hd])
    exact step_of_fetch_raise h (fetchInstr_reject hc.nextBoundary (hl.trans hw.symm) hd)

/-! ## Fetches that fail -/

theorem fetchInstr_misaligned {s : State} (h : s.pc.toNat % 4 ≠ 0) : fetchInstr s = .error (.raise vecAddressError) := if_pos h

theorem fetchInstr_first_fails {s : State} {e : FetchStop} (h : s.pc.toNat % 4 = 0) (he : fetchWord s 0 = .error e) :
    fetchInstr s = .error e := by
  unfold fetchInstr
  rw [if_neg (by simpa using h), he]

/-- A first word lies below 2^64, since the program counter is a multiple of 4. -/
theorem first_word_fits {s : State} (h : s.pc.toNat % 4 = 0) : s.pc.toNat + 4 * 0 + 4 ≤ 2 ^ 64 := by
  have := s.pc.isLt
  omega

theorem pcNext_zero (s : State) : s.pcNext 0 = s.pc := BitVec.add_zero s.pc

/-- Settles O11. -/
theorem failedFetchesRaiseTheirException : Obligations.FailedFetchesRaiseTheirException := by
  refine fun s h => ⟨fun ha => ?_, fun ha hm => ?_, fun w ext hc hd hl hp hm => ?_⟩
  · exact step_of_fetch_raise h (fetchInstr_misaligned ha)
  · exact step_of_fetch_raise h (fetchInstr_first_fails ha
      (fetchWord_busError (s := s.nextBoundary) (first_word_fits ha) (by rw [pcNext_zero]; exact hm)))
  · have hw : ext.length < extWordsToFetch s.params.strictReserved w := by rwa [extWordsToFetch_assigned hd]
    exact step_of_fetch_raise h (fetchInstr_error hc.nextBoundary hw (fetchWord_busError (by rw [State.nextBoundary_pc]; omega) hm))

theorem step_of_modes {s : State} (hs : s.stuck = false) (h : s.irqLevel.toNat ≤ s.ipl.toNat) :
    (s.trace = true → step s = .refused .traceMode) ∧
    (s.trace = false → s.near = true → step s = .refused .shortAddressing) := by
  rw [step_of_no_interrupt hs h]
  refine ⟨fun ht => if_pos ht, fun ht hn => ?_⟩
  have ht' : ¬ s.nextBoundary.trace = true := fun e => by rw [show s.trace = true from e] at ht; cases ht
  rw [runInstr, if_neg ht', if_pos (by exact hn)]

/-- A fetch of a byte stored since reset, of the first word (R74). -/
theorem step_of_stored_first {s : State} (h : RunsInstruction s) (ha : s.pc.toNat % 4 = 0)
    (hm : memOk s.params.map s.pc 4 .fetch = true) (hco : s.params.ifetchCoherent = false)
    (hb : ∃ b, InBlock s.pc 4 b ∧ s.stored.has b = true) : step s = .refused .fetchOfStoredByte :=
  step_of_fetch_refuse h (fetchInstr_first_fails ha (fetchWord_stored (s := s.nextBoundary) (first_word_fits ha)
    (by rw [pcNext_zero]; exact hm) hco (by rw [pcNext_zero]; exact hb)))

/-- An extension word that lies past the top of memory, or holds a byte stored since reset. -/
theorem step_of_extension_refused {s : State} {w : InsnWord} {ext : List InsnWord} (h : RunsInstruction s)
    (hc : CodeAt s (w :: ext)) (hd : decodeWord s.params.strictReserved w [] ≠ .reject .unassigned)
    (hl : ext.length < extWordsOf w) :
    (2 ^ 64 < s.pc.toNat + 4 * (ext.length + 2) → step s = .refused .pastTopOfMemory) ∧
    (s.pc.toNat + 4 * (ext.length + 2) ≤ 2 ^ 64 →
      memOk s.params.map (s.pc + BitVec.ofNat 64 (4 * (ext.length + 1))) 4 .fetch = true →
      s.params.ifetchCoherent = false →
      (∃ b, InBlock (s.pc + BitVec.ofNat 64 (4 * (ext.length + 1))) 4 b ∧ s.stored.has b = true) →
      step s = .refused .fetchOfStoredByte) := by
  have hw : ext.length < extWordsToFetch s.params.strictReserved w := by rwa [extWordsToFetch_assigned hd]
  refine ⟨fun hp => ?_, fun hp hm hco hb => ?_⟩
  · exact step_of_fetch_refuse h (fetchInstr_error hc.nextBoundary hw (fetchWord_pastTop (by rw [State.nextBoundary_pc]; omega)))
  · exact step_of_fetch_refuse h (fetchInstr_error hc.nextBoundary hw
      (fetchWord_stored (by rw [State.nextBoundary_pc]; omega) hm hco hb))

end Sys2Proof.Proofs.Cycle
end

section
/-! PROOFS. Jumps, calls, returns and traps (`spec/44_flow_control.md`). -/

namespace Sys2Proof.Proofs.Transfers

open Sys2Proof Sys2Proof.Machine Sys2Proof.Claims Sys2Proof.Proofs.Frame Sys2Proof.Proofs.Storage Sys2Proof.Proofs.Entries
open Sys2Proof.Proofs.FlowControl

/-! ## JMP and DBcc -/

theorem imm64_octa (imm : BitVec 64) : imm64 .o imm = imm := by
  rw [imm64_eq]
  exact BitVec.ofInt_toInt

theorem dbcc_taken_iff (c : Bool) (lc : Word) : (!c && (lc - 1#64 != BitVec.allOnes 64)) = true ↔ c = false ∧ lc ≠ 0#64 := by
  have h : lc - 1#64 = BitVec.allOnes 64 ↔ lc = 0#64 := by
    rw [BitVec.sub_eq_iff_eq_add]
    rfl
  rw [Bool.and_eq_true, Bool.not_eq_true', bne_iff_ne, Ne, h]

theorem exec_dbcc (c : Cond) (cr : CReg) (d : BitVec 19) (s : State) :
    exec (.dbcc c cr d) s = branchOp (!condHolds c (s.cr cr) && (s.lc - 1#64 != BitVec.allOnes 64))
      (BitVec.ofInt 64 (4 * d.toInt)) { s with lc := s.lc - 1#64 } := by
  rw [← branchDisp_eq]
  rfl

/-- Settles O42. -/
theorem jumpAndCountedBranchResultAndFrame : Obligations.JumpAndCountedBranchResultAndFrame := by
  refine fun s ra c cr d => ⟨fun rb => ⟨_, rfl, rfl⟩, fun imm => ⟨_, rfl, ?_⟩, fun imm => ⟨_, rfl, ?_⟩, fun imm => ⟨_, rfl, ?_⟩,
    fun hc hlc => ?_, fun h room => ?_⟩
  · rw [imm32_eq]; rfl
  · rw [imm64_octa]; rfl
  · rw [imm10_eq]; rfl
  · rw [exec_dbcc, (dbcc_taken_iff _ _).2 ⟨hc, hlc⟩]
    exact branchOp_taken _ _
  · have hn : (!condHolds c (s.cr cr) && (s.lc - 1#64 != BitVec.allOnes 64)) = false := by
      rw [Bool.eq_false_iff, Ne, dbcc_taken_iff]
      rintro ⟨hc, hlc⟩
      exact h.elim (fun hc' => by rw [hc] at hc'; cases hc') hlc
    rw [exec_dbcc, hn]
    exact branchOp_not_taken (s := { s with lc := s.lc - 1#64 }) _ room

/-! ## Calls -/

theorem callOp_completes {g : Bool} {s : State} (target : Word) (words : Nat) (hi : s.Inv) (h : CanCall g s) :
    Completes (callOp g target words s) (CallEffect g target words s) := by
  obtain ⟨h1, h2⟩ := h
  cases g with
  | false =>
    refine ⟨(s.pushed (s.pcNext words)).jump target, ?_, rfl, pushed_top _ s hi.mem, fun _ => ⟨?_, ?_⟩, nofun,
      (keeps_pushed _ s).jump _⟩
    · rw [callOp, push8_of_can _ h1]
      rfl
    · simp
    · exact (pushed_block _ s).of_eq rfl rfl rfl rfl
  | true =>
    obtain ⟨hsp, hcc, hpc, hblock, hrest⟩ := appPushed_facts (s.pcNext words) s hi.mem
    refine ⟨(s.appPushed (s.pcNext words)).jump target, ?_, rfl, hpc, nofun, fun _ => ⟨by simpa using hsp, hcc, ?_⟩, hrest.jump _⟩
    · rw [callOp, push8_of_can _ h1]
      simp only [Act.andThen, if_true, pushed_ccrg, appPush_second _ (h2 rfl)]
      rfl
    · exact hblock.of_eq rfl rfl rfl rfl

/-- Settles O43. -/
theorem callResultAndFrame : Obligations.CallResultAndFrame := by
  refine fun s g ra hi => ⟨fun e h => ?_, fun h => ⟨fun rb => ?_, fun imm => ?_, fun imm => ?_, fun imm => ?_⟩⟩
  · rw [← longBranchDisp_eq]
    exact callOp_completes _ 1 hi h
  · exact callOp_completes _ 1 hi h
  · rw [show BitVec.ofInt 64 imm.toInt = imm32 .o imm from (imm32_eq .o imm).symm]
    exact callOp_completes _ 2 hi h
  · have hc := callOp_completes (s.target ra (imm64 .o imm)) 3 hi h
    rwa [imm64_octa] at hc
  · rw [show BitVec.ofInt 64 imm.toInt = imm10 .o imm from (imm10_eq .o imm).symm]
    exact callOp_completes _ 1 hi h

/-! ## Pops -/

/-- The stack pointer of the current mode, written twice. -/
theorem setX_sp_twice (s : State) (v u : Word) : (s.setX 31#5 v).setX 31#5 u = s.setX 31#5 u := by
  unfold State.setX
  cases hs : s.supervisor <;> simp_all [State.supervisor]

theorem setX_sp_supervisor {s : State} (v : Word) (h : s.supervisor = true) : s.setX 31#5 v = { s with ssp := v } := by
  simp [State.setX, h]

/-- A pop from a known address, in a state that differs from `s` in its stack pointer only. -/
theorem pop8_at {s : State} {a b : Word} (h : CanAccess s .read a 8) (hb : a + 8#64 = b) :
    pop8 (s.setX 31#5 a) = .ok (s.mem.readLE a 8) (s.setX 31#5 b) := by
  have hx : (s.setX 31#5 a).x 31#5 = a := State.x_setX_same s a (by decide)
  rw [pop8_of_can (by rw [hx]; exact (canAccess_congr (by simp) _ _ _).2 h), hx, setX_sp_twice, State.setX_mem, hb]

theorem pop8_at_not {s : State} {a : Word} (h : ¬ CanAccess s .read a 8) :
    pop8 (s.setX 31#5 a) = .raise (faultVector s a 8) (s.setX 31#5 a) := by
  have hx : (s.setX 31#5 a).x 31#5 = a := State.x_setX_same s a (by decide)
  have hp : (s.setX 31#5 a).params = s.params := by simp
  rw [pop8_of_not (by rw [hx]; exact fun hc => h ((canAccess_congr hp _ _ _).1 hc)), hx, faultVector_congr hp]

theorem dropArgs_setX (s : State) (a : Word) (arg : BitVec 10) :
    (s.setX 31#5 a).dropArgs arg = s.setX 31#5 (a + BitVec.ofNat 64 (4 * arg.toNat)) := by
  rw [State.dropArgs, State.x_setX_same s a (by decide), setX_sp_twice, shiftLeft2_eq (by decide)]

theorem returnTarget_eq (a : Word) (rpt : BitVec 5) : returnTarget a rpt = a + BitVec.ofNat 64 (4 * rpt.toNat) := by
  rw [returnTarget, shiftLeft2_eq (by decide)]

theorem add_ofNat_add (a : Word) (m n : Nat) : a + BitVec.ofNat 64 m + BitVec.ofNat 64 n = a + BitVec.ofNat 64 (m + n) := by
  rw [BitVec.add_assoc, BitVec.ofNat_add]

/-! ## Returns -/

theorem exec_rts {s : State} (arg : BitVec 10) (rpt : BitVec 5) (h : CanAccess s .read (s.x 31#5) 8) :
    exec (.rts arg rpt) s = .next ((s.setX 31#5 (s.x 31#5 + BitVec.ofNat 64 (8 + 4 * arg.toNat))).jump
      (s.mem.readLE (s.x 31#5) 8 + BitVec.ofNat 64 (4 * rpt.toNat))) := by
  change execRts arg rpt s = _
  rw [execRts, pop8_of_can h, Act.finish, dropArgs_setX, returnTarget_eq, show (8#64 : Word) = BitVec.ofNat 64 8 from rfl,
    add_ofNat_add]

/-- The state ARTI ends in. -/
theorem exec_arti {s : State} (arg : BitVec 10) (rpt : BitVec 5) (h1 : CanAccess s .read (s.x 31#5) 8)
    (h2 : CanAccess s .read (s.x 31#5 + 8#64) 8) :
    exec (.arti arg rpt) s = .next (({ s.setX 31#5 (s.x 31#5 + BitVec.ofNat 64 (16 + 4 * arg.toNat)) with
      ccrg := (s.mem.readLE (s.x 31#5) 8).setWidth 32 } : State).jump
        (s.mem.readLE (s.x 31#5 + 8#64) 8 + BitVec.ofNat 64 (4 * rpt.toNat))) := by
  have e2 := pop8_at (b := s.x 31#5 + BitVec.ofNat 64 16) h2 (by rw [BitVec.add_assoc]; rfl)
  change appReturn arg rpt s = _
  rw [appReturn, pop8_of_can h1, Act.andThen, e2]
  dsimp only [Act.andThen, Act.finish]
  rw [dropArgs_setX, returnTarget_eq, add_ofNat_add]

/-- A write of the whole condition code group. -/
theorem writes_ccrg {regs : List Reg} {s t : State} (h : Writes regs [0#3, 1#3, 2#3, 3#3, 4#3, 5#3, 6#3, 7#3] s t) (v : BitVec 32) :
    Writes regs [0#3, 1#3, 2#3, 3#3, 4#3, 5#3, 6#3, 7#3] s { t with ccrg := v } := by
  have hall : ∀ n : CReg, n ∈ ([0#3, 1#3, 2#3, 3#3, 4#3, 5#3, 6#3, 7#3] : List CReg) := by decide
  exact h.trans ⟨rfl, ⟨fun i _ => State.x_eq_of_fields _ _ rfl rfl rfl rfl i, rfl, fun n hn => absurd (hall n) hn, rfl, rfl, rfl, rfl,
    rfl, rfl, rfl⟩, keepsMemory_of_eq rfl rfl⟩

/-- Settles O44. -/
theorem returnResultAndFrame : Obligations.ReturnResultAndFrame := by
  refine fun s arg rpt h1 => ⟨⟨_, exec_rts arg rpt h1, rfl, ?_, ?_, ?_⟩, fun h2 => ⟨_, exec_arti arg rpt h1 h2, rfl, ?_, rfl, ?_, ?_⟩⟩
  · rw [State.x_jump, State.x_setX_same s _ (by decide)]
  · exact (keepsRest_setX s _ [] (by simp)).jump _
  · exact keepsMemory_of_eq (by simp) (by simp)
  · rw [State.x_jump]
    exact (State.x_eq_of_fields _ _ rfl rfl rfl rfl 31#5).trans (State.x_setX_same s _ (by decide))
  · exact (writes_ccrg ((Writes.refl [31#5] _ s).setX (i := 31#5) (by simp) _) _).rest.jump _
  · exact keepsMemory_of_eq (by simp) (by simp)

/-- Settles O45: three pops, each of which moves the system stack pointer. -/
theorem returnFromInterruptResultAndFrame : Obligations.ReturnFromInterruptResultAndFrame := by
  intro s arg rpt hs h1 h2 h3
  have hx := x_sp_supervisor hs
  have e2 := pop8_at (b := s.ssp + BitVec.ofNat 64 16) h2 (by rw [BitVec.add_assoc]; rfl)
  have e3 := pop8_at (b := s.ssp + BitVec.ofNat 64 24) (show CanAccess s .read (s.ssp + BitVec.ofNat 64 16) 8 from h3)
    (by rw [BitVec.add_assoc]; rfl)
  refine ⟨_, ?_, rfl⟩
  change execRti arg rpt s = _
  rw [execRti, if_pos hs, sysReturn, pop8_of_can (by rwa [hx]), hx, Act.andThen, e2]
  dsimp only [Act.andThen]
  rw [e3]
  dsimp only [Act.finish]
  rw [dropArgs_setX, returnTarget_eq, add_ofNat_add, setX_sp_supervisor _ hs]
  rfl

/-! ## Returns undo entries -/

theorem StoresBlock.keeps {a : Word} {n : Nat} {s t u : State} (h : StoresBlock a n s t) (k : KeepsMemory t u) :
    StoresBlock a n s u :=
  ⟨fun b hb => (k.byte b).trans (h.outside b hb), fun b => by rw [k.stored, h.stored]⟩

theorem gpr_eq_of_x {s t : State} (h : ∀ i, i ≠ 31#5 → t.x i = s.x i) : t.gpr = s.gpr := by
  refine Vector.ext fun k hk => ?_
  have hk' : (BitVec.ofNat 5 (k + 1)).toNat = k + 1 := by simp; omega
  have h31 : BitVec.ofNat 5 (k + 1) ≠ 31#5 := fun e => by have := congrArg BitVec.toNat e; rw [hk'] at this; simp at this; omega
  have h0 : BitVec.ofNat 5 (k + 1) ≠ 0#5 := fun e => by have := congrArg BitVec.toNat e; rw [hk'] at this; simp at this
  have hx := h _ h31
  unfold State.x at hx
  rw [if_neg h0, if_neg h31, if_neg h0, if_neg h31, hk'] at hx
  simpa [hk] using hx

theorem keepsFile_of_sp {s t : State} (hx : ∀ i, i ≠ 31#5 → t.x i = s.x i) (hsr : t.sr = s.sr) (hsp : t.x 31#5 = s.x 31#5)
    (ho : t.otherSp = s.otherSp) : KeepsFile s t := by
  have hs := State.supervisor_eq_of_sr s t hsr
  unfold State.otherSp at ho
  refine ⟨gpr_eq_of_x hx, ?_, ?_⟩ <;> cases hm : s.supervisor <;> simp_all [State.x]

theorem sr_of_saved {s : State} (hi : s.Inv) : (s.sr.setWidth 64).setWidth 32 &&& 0xFF00A707#32 = s.sr := by
  have h : s.sr &&& srMask ||| s.sr &&& ~~~srMask = s.sr := by
    rw [← BitVec.and_or_distrib_left, show srMask ||| ~~~srMask = BitVec.allOnes 32 by decide, BitVec.and_allOnes]
  rw [hi.sr, BitVec.or_zero] at h
  rwa [BitVec.setWidth_setWidth_of_le _ (by decide), BitVec.setWidth_eq]

theorem ccrg_of_saved (v : BitVec 32) : (v.setWidth 64).setWidth 32 = v := by
  rw [BitVec.setWidth_setWidth_of_le _ (by decide), BitVec.setWidth_eq]

theorem rti_undoes_sysException {v : SysVector} {s : State} (ret : Word) (hi : s.Inv) (h : CanEnterSystem v s)
    (h1 : CanAccess s .read (s.ssp - 24#64) 8) (h2 : CanAccess s .read (s.ssp - 16#64) 8) (h3 : CanAccess s .read (s.ssp - 8#64) 8) :
    Completes (exec (.rti 0#10 0#5) (sysException v ret s)) fun t =>
      t.pc = ret ∧ t.sr = s.sr ∧ t.ccrg = s.ccrg ∧ KeepsFile s t ∧ t.lc = s.lc ∧ t.ac = s.ac ∧
      StoresBlock (s.ssp - 24#64) 24 s t := by
  have he := systemExceptionEntry v ret s hi h
  have hc k a n := (canAccess_congr he.params k a n).2
  have hs : (sysException v ret s).supervisor = true := by simp [State.supervisor, he.sr]
  have e2 : s.ssp - 24#64 + 8#64 = s.ssp - 16#64 := by bv_omega
  have e3 : s.ssp - 24#64 + 16#64 = s.ssp - 8#64 := by bv_omega
  have e0 : s.ssp - 24#64 + BitVec.ofNat 64 24 = s.ssp := BitVec.sub_add_cancel ..
  obtain ⟨t, ht, rfl⟩ := returnFromInterruptResultAndFrame (sysException v ret s) 0#10 0#5 hs (by rw [he.ssp]; exact hc _ _ _ h1)
    (by rw [he.ssp, e2]; exact hc _ _ _ h2) (by rw [he.ssp, e3]; exact hc _ _ _ h3)
  refine ⟨_, ht, ?_, ?_, ?_, ⟨he.gpr, he.usp, ?_⟩, he.lc, he.ac, he.memory.of_eq rfl rfl rfl rfl⟩
  · exact (BitVec.add_zero _).trans he.oldPc
  · change (Memory.readLE _ _ _).setWidth 32 &&& _ = _
    rw [he.oldSr, sr_of_saved hi]
  · change (Memory.readLE _ _ _).setWidth 32 = _
    rw [he.oldCc, ccrg_of_saved]
  · change (sysException v ret s).ssp + _ = _
    rw [he.ssp]
    exact e0

theorem arti_undoes_appException {v : AppVector} {s : State} (ret : Word) (hi : s.Inv) (h : CanEnterApp v s)
    (h1 : CanAccess s .read (s.x 31#5 - 16#64) 8) (h2 : CanAccess s .read (s.x 31#5 - 8#64) 8) :
    Completes (exec (.arti 0#10 0#5) (appException v ret s)) fun t =>
      t.pc = ret ∧ t.sr = s.sr ∧ t.ccrg = s.ccrg ∧ KeepsFile s t ∧ t.lc = s.lc ∧ t.ac = s.ac ∧
      StoresBlock (s.x 31#5 - 16#64) 16 s t := by
  have he := applicationExceptionEntry v ret s hi h
  have hc k a n := (canAccess_congr he.rest.params k a n).2
  have e : s.x 31#5 - 16#64 + 8#64 = s.x 31#5 - 8#64 := by bv_omega
  obtain ⟨-, harti⟩ := returnResultAndFrame (appException v ret s) 0#10 0#5 (by rw [he.sp]; exact hc _ _ _ h1)
  obtain ⟨t, ht, hpc, hsp, hcc, hrest, hmem⟩ := harti (by rw [he.sp, e]; exact hc _ _ _ h2)
  have hsr := hrest.sr.trans he.rest.sr
  refine ⟨t, ht, ?_, hsr, ?_, keepsFile_of_sp (fun i hn => ?_) hsr ?_ (hrest.otherSp.trans he.rest.otherSp),
    hrest.lc.trans he.rest.lc, hrest.ac.trans he.rest.ac, StoresBlock.keeps he.memory hmem⟩
  · rw [hpc, he.oldPc]
    exact BitVec.add_zero _
  · rw [hcc, he.oldCc, ccrg_of_saved]
  · exact (hrest.x i (.inl (by simpa using hn))).trans (he.rest.x i (.inl (by simpa using hn)))
  · rw [hsp, he.sp]
    exact BitVec.sub_add_cancel ..

/-- Settles O50. -/
theorem returnsUndoExceptionEntry : Obligations.ReturnsUndoExceptionEntry :=
  ⟨fun _ ret _ hi h h1 h2 h3 => rti_undoes_sysException ret hi h h1 h2 h3, fun _ ret _ hi h h1 h2 =>
    arti_undoes_appException ret hi h h1 h2⟩

/-! ## Traps -/

theorem trapVector_some {m : TrapNumMap} {n : Nat} (h : n < 32 ∨ (n < 224 ∧ m = .offset32)) :
    trapVector m n = some (BitVec.ofNat 8 (32 + n)) := by
  cases m with
  | defined31 => exact if_pos (by simp only [reduceCtorEq, and_false, or_false] at h; omega)
  | offset32 => exact if_pos (by omega)

theorem trapVector_none {m : TrapNumMap} {n : Nat} (h : 224 ≤ n ∨ (32 ≤ n ∧ m = .defined31)) : trapVector m n = none := by
  cases m with
  | defined31 => exact if_neg (by omega)
  | offset32 => exact if_neg (by simp only [reduceCtorEq, and_false, or_false] at h; omega)

theorem trapOp_taken {s : State} {num : Word} (data : BitVec 11) {rt : Reg} {v : SysVector}
    (h : trapVector s.params.trapNumMap num.toNat = some v) :
    (rt ≠ 31#5 → trapOp num data rt s = .next (sysException v (s.pc + 4#64) (s.setX rt (data.setWidth 64)))) ∧
    (rt = 31#5 → trapOp num data rt s = .refused .trapDataIntoStackPointer) := by
  simp only [trapOp, h]
  exact ⟨fun hr => if_neg hr, fun hr => if_pos hr⟩

theorem trapOp_refused {s : State} {num : Word} (data : BitVec 11) (rt : Reg)
    (h : trapVector s.params.trapNumMap num.toNat = none) : trapOp num data rt s = .refused .trapNumber := by
  simp only [trapOp, h]

/-- Settles O51. -/
theorem systemTraps : Obligations.SystemTraps := by
  refine fun s data rt ra => ⟨rfl, fun i n hi => ?_⟩
  obtain ⟨num, he, rfl⟩ : ∃ num : Word, exec i s = trapOp num data rt s ∧ n = num.toNat := by
    rcases hi with ⟨rfl, rfl⟩ | ⟨num, rfl, rfl⟩
    · exact ⟨s.x ra, rfl, rfl⟩
    · exact ⟨num.setWidth 64, rfl, (BitVec.toNat_setWidth_of_le (by decide)).symm⟩
  rw [he]
  exact ⟨fun h => trapOp_taken data (trapVector_some h), fun h => trapOp_refused data rt (trapVector_none h)⟩

theorem appTrapOp_cases (v : AppVector) (data : BitVec 11) (rt : Reg) (s : State) :
    (rt ≠ 31#5 → appTrapOp v data rt s = .next (appException v (s.pc + 4#64) (s.setX rt (data.setWidth 64)))) ∧
    (rt = 31#5 → appTrapOp v data rt s = .refused .trapDataIntoStackPointer) :=
  ⟨fun hr => if_neg hr, fun hr => if_pos hr⟩

theorem atrapReg_small {s : State} {ra : Reg} (data : BitVec 11) (rt : Reg) (h : (s.x ra).toNat < 32) :
    exec (.atrapReg data rt ra) s = appTrapOp (BitVec.ofNat 5 (s.x ra).toNat) data rt s := by
  change execAtrapReg data rt ra s = _
  rw [execAtrapReg, if_neg (by omega)]
  rfl

theorem atrapReg_large {s : State} {ra : Reg} (data : BitVec 11) (rt : Reg) (h : 32 ≤ (s.x ra).toNat) :
    exec (.atrapReg data rt ra) s = .refused .appTrapNumber := if_pos (by omega)

theorem exec_trapv (cr : CReg) (data : BitVec 11) (rt : Reg) (s : State) :
    exec (.trapv cr data rt) s = if (s.cr cr).getLsbD 1 then appTrapOp 31#5 data rt s else advance 1 s := rfl

/-- Settles O52. -/
theorem applicationTraps : Obligations.ApplicationTraps := by
  refine fun s data rt ra => ⟨fun i n hi => ?_, fun cr => ⟨fun h => ?_, fun h room => ?_⟩⟩
  · rcases hi with ⟨rfl, rfl⟩ | ⟨num, rfl, rfl⟩
    · refine ⟨fun h => ?_, atrapReg_large data rt⟩
      rw [atrapReg_small data rt h]
      exact appTrapOp_cases _ data rt s
    · have hn := num.isLt
      refine ⟨fun _ => ?_, fun h => by omega⟩
      rw [BitVec.ofNat_toNat, BitVec.setWidth_eq]
      exact appTrapOp_cases num data rt s
  · rw [exec_trapv, if_pos h]
    exact appTrapOp_cases _ data rt s
  · rw [exec_trapv, h, if_neg Bool.false_ne_true]
    exact ⟨_, advance_next.2 ⟨room, rfl⟩, rfl⟩

end Sys2Proof.Proofs.Transfers
end

section
/-! PROOFS. Single loads and stores and pushes (`spec/45_memory_ops.md` R270 to R278), and the updates and lists without a
meaning (R272, R282). -/

namespace Sys2Proof.Proofs.Accesses

open Sys2Proof Sys2Proof.Machine Sys2Proof.Claims Sys2Proof.Proofs.Frame Sys2Proof.Proofs.Storage

/-! ## The base register -/

/-- The registers that an update writes. -/
def updateRegs : Option (Reg × Word) → List Reg
  | none => []
  | some (rb, _) => [rb]

section
variable {n : Nat} {s : State} {md : UpdMode} {rb : Reg} {d : Disp n}

theorem updateRegs_baseUpdate : updateRegs (s.baseUpdate md rb d) = updated md rb := by
  cases md <;> rfl

theorem updatesPc_of_may (h : MayUpdate md rb) : updatesPc (s.baseUpdate md rb d) = false := by
  cases md
  · rfl
  all_goals simpa [MayUpdate, State.baseUpdate, updatesPc] using h

theorem updatesPc_zero (h : md ≠ .indirect) : updatesPc (s.baseUpdate md 0#5 d) = true := by
  cases md
  · exact absurd rfl h
  all_goals rfl

theorem updatesReg_of_ne {rt : Reg} (h : md = .indirect ∨ rb ≠ rt) : updatesReg (s.baseUpdate md rb d) rt = false := by
  cases md
  · rfl
  all_goals simpa [State.baseUpdate, updatesReg] using h

theorem updatesReg_self (h : md ≠ .indirect) : updatesReg (s.baseUpdate md rb d) rb = true := by
  cases md
  · exact absurd rfl h
  all_goals exact beq_self_eq_true rb

theorem updatesListed_of_not {list : BitVec 32} (h : md = .indirect ∨ list.getLsbD rb.toNat = false) :
    updatesListed (s.baseUpdate md rb d) list = false := by
  cases md
  · rfl
  all_goals simpa [State.baseUpdate, updatesListed] using h

theorem updatesListed_of_listed {list : BitVec 32} (h : md ≠ .indirect) (hl : list.getLsbD rb.toNat = true) :
    updatesListed (s.baseUpdate md rb d) list = true := by
  cases md
  · exact absurd rfl h
  all_goals exact hl

/-- The new value of a base that is not the program counter, in any state the update is made in (R272 a). -/
theorem x_updateBase_base (t : State) (hm : MayUpdate md rb) (h : md ≠ .indirect) :
    (t.updateBase (s.baseUpdate md rb d)).x rb = s.x rb + dispValue d := by
  have h0 : rb ≠ 0#5 := hm.resolve_left h
  cases md
  · exact absurd rfl h
  all_goals exact State.x_setX_same t _ h0

end

section
variable {u : Option (Reg × Word)}

theorem not_mem_updateRegs {rt : Reg} (h : updatesReg u rt = false) : rt ∉ updateRegs u := by
  rcases u with - | ⟨rb, v⟩
  · exact List.not_mem_nil
  · rw [updatesReg, beq_eq_false_iff_ne] at h
    simpa [updateRegs] using h.symm

theorem x_updateBase_other (t : State) {i : Reg} (h : i ∉ updateRegs u) : (t.updateBase u).x i = t.x i := by
  rcases u with - | ⟨rb, v⟩
  · rfl
  · exact State.x_setX_other t v (by simpa [updateRegs] using h)

theorem writes_updateBase {regs : List Reg} {crs : List CReg} {s t : State} (h : Writes regs crs s t) (hu : updateRegs u ⊆ regs) :
    Writes regs crs s (t.updateBase u) := by
  rcases u with - | ⟨rb, v⟩
  · exact h
  · exact h.setX (hu List.mem_cons_self) v

end

/-! ## LOAD -/

theorem sizeBytes_le (sz : Size) : sizeBytes sz ≤ 8 := by cases sz <;> decide

theorem loadOp_of_can {sz : Size} {rt : Reg} {a : Word} {u : Option (Reg × Word)} (words : Nat) {s : State}
    (hpc : updatesPc u = false) (hreg : updatesReg u rt = false) (h : CanAccess s .read a (sizeBytes sz)) :
    loadOp sz rt a u words s =
      advance words ((s.wb rt ((s.mem.readLE a (sizeBytes sz)).setWidth (sizeBits sz))).updateBase u) := by
  rw [loadOp, if_neg (by simp [hpc]), if_neg (by simp [hreg]), memRead_of_can h, Act.finish]

theorem loadOp_completes {sz : Size} {rt : Reg} {a : Word} {u : Option (Reg × Word)} {words : Nat} {s : State}
    (hpc : updatesPc u = false) (hreg : updatesReg u rt = false) (h : CanAccess s .read a (sizeBytes sz)) (room : Room words s) :
    Completes (loadOp sz rt a u words s) fun t => LoadEffect sz rt a (updateRegs u) words s t ∧
      ∃ t', t.x = (State.updateBase u t').x := by
  have hw := sizeBits_le sz
  have hwrites := writes_updateBase (u := u) ((Writes.refl (rt :: updateRegs u) [] s).wb hw (i := rt) (by simp)
    ((s.mem.readLE a (sizeBytes sz)).setWidth (sizeBits sz))) (by simp)
  rw [loadOp_of_can words hpc hreg h]
  refine completes_advance hwrites.pc room ⟨⟨writesResult_of_x hw rfl rfl ?_, hwrites.endsAt words⟩, _, funext (State.x_jump _ _)⟩
  rw [State.x_jump, x_updateBase_other _ (not_mem_updateRegs hreg)]

theorem loadOp_raises {sz : Size} {rt : Reg} {a : Word} {u : Option (Reg × Word)} {words : Nat} {s : State}
    (hpc : updatesPc u = false) (hreg : updatesReg u rt = false) (h : ¬ CanAccess s .read a (sizeBytes sz)) :
    Raises (loadOp sz rt a u words s) a (sizeBytes sz) s s := by
  rw [Raises, loadOp, if_neg (by simp [hpc]), if_neg (by simp [hreg]), memRead_of_not h, Act.finish]

theorem exec_load (sz : Size) (md : UpdMode) (rt rb : Reg) (d : Disp 11) (s : State) :
    exec (.load sz md rt rb d) s = loadOp sz rt (address s md rb d) (s.baseUpdate md rb d) (1 + d.extWords) s := by
  rw [← ea_eq_address]
  rfl

theorem exec_loadX (sz : Size) (rt rb rc : Reg) (d : Disp 6) (s : State) :
    exec (.loadX sz rt rb rc d) s = loadOp sz rt (indexedAddress s rb rc d) none (1 + d.extWords) s := rfl

/-- Settles O54. -/
theorem loadResultAndFrame : Obligations.LoadResultAndFrame := by
  refine fun s sz rt rb rc => ⟨fun md d hm hl h room => ?_, fun d h room => ?_⟩
  · obtain ⟨t, ht, he, t', hx⟩ := loadOp_completes (updatesPc_of_may hm) (updatesReg_of_ne (s := s) (d := d) hl) h room
    rw [updateRegs_baseUpdate] at he
    exact ⟨t, (exec_load ..).trans ht, he, fun hne => by rw [hx, x_updateBase_base t' hm hne]⟩
  · obtain ⟨t, ht, he, -⟩ := loadOp_completes (u := none) rfl (rt := rt) rfl h room
    exact ⟨t, (exec_loadX ..).trans ht, he⟩

/-! ## STORE -/

theorem keepsRest_storeBytes (regs : List Reg) (crs : List CReg) (s : State) (a : Word) (n : Nat) (v : Word) :
    KeepsRest regs crs s (s.storeBytes a n v) :=
  ⟨fun i _ => State.x_storeBytes s a n v i, rfl, fun _ _ => rfl, rfl, rfl, rfl, rfl, rfl, rfl, rfl⟩

theorem storesValue_storeBytes {s : State} (hi : s.Inv) {n : Nat} (hn : n ≤ 8) (a v : Word) :
    StoresValue a n v s (s.storeBytes a n v) :=
  ⟨fun _ hk => read_writeLE_byte hi.mem a hn v hk, storeBytes_block s a n v⟩

/-- What a store leaves, whatever is done to registers after it. -/
theorem storesValue_of_keeps {s t u : State} {a v : Word} {n : Nat} (h : StoresValue a n v s t) (k : KeepsMemory t u) :
    StoresValue a n v s u :=
  ⟨fun j hj => (k.byte _).trans (h.inside j hj), fun b hb => (k.byte b).trans (h.block.outside b hb),
    fun b => by rw [k.stored, h.block.stored]⟩

theorem storeOp_of_can {n : Nat} {a : Word} {u : Option (Reg × Word)} (v : Word) (words : Nat) {s : State}
    (hpc : updatesPc u = false) (h : CanAccess s .write a n) :
    storeOp n v a u words s = advance words ((s.storeBytes a n v).updateBase u) := by
  rw [storeOp, if_neg (by simp [hpc]), memWrite_of_can v h, Act.finish]

theorem storeOp_completes {n : Nat} {v a : Word} {u : Option (Reg × Word)} {words : Nat} {s : State} (hi : s.Inv) (hn : n ≤ 8)
    (hpc : updatesPc u = false) (h : CanAccess s .write a n) (room : Room words s) :
    Completes (storeOp n v a u words s) fun t => StoreEffect n v a (updateRegs u) words s t ∧
      ∃ t', t.x = (State.updateBase u t').x := by
  have hwrites := writes_updateBase (u := u) (Writes.refl (updateRegs u) [] (s.storeBytes a n v)) (List.Subset.refl _)
  obtain ⟨hnext, hrest, hmem⟩ := hwrites.endsAt words
  rw [storeOp_of_can v words hpc h]
  exact completes_advance hwrites.pc room ⟨⟨storesValue_of_keeps (storesValue_storeBytes hi hn a v) hmem, hnext,
    (keepsRest_storeBytes _ _ s a n v).trans hrest⟩, _, funext (State.x_jump _ _)⟩

theorem storeOp_raises {n : Nat} {v a : Word} {u : Option (Reg × Word)} {words : Nat} {s : State}
    (hpc : updatesPc u = false) (h : ¬ CanAccess s .write a n) : Raises (storeOp n v a u words s) a n s s := by
  rw [Raises, storeOp, if_neg (by simp [hpc]), memWrite_of_not v h, Act.finish]

theorem exec_store (sz : Size) (md : UpdMode) (ra rb : Reg) (d : Disp 10) (s : State) :
    exec (.store sz md ra rb d) s =
      storeOp (sizeBytes sz) (s.x ra) (address s md rb d) (s.baseUpdate md rb d) (1 + d.extWords) s := by
  rw [← ea_eq_address]
  rfl

theorem exec_storeImm (sz : Size) (md : UpdMode) (imm : StoreImm) (rb : Reg) (d : Disp 10) (s : State) :
    exec (.storeImm sz md imm rb d) s = storeOp (sizeBytes sz) (storeImmValue imm) (address s md rb d) (s.baseUpdate md rb d)
      (1 + imm.extWords + d.extWords) s := by
  rw [← ea_eq_address]
  rfl

theorem exec_storeX (sz : Size) (ra rb rc : Reg) (d : Disp 5) (s : State) :
    exec (.storeX sz ra rb rc d) s =
      storeOp (sizeBytes sz) (s.x ra) (indexedAddress s rb rc d) none (1 + d.extWords) s := rfl

theorem exec_storeImmX (sz : Size) (imm : StoreImm) (rb rc : Reg) (d : Disp 5) (s : State) :
    exec (.storeImmX sz imm rb rc d) s =
      storeOp (sizeBytes sz) (storeImmValue imm) (indexedAddress s rb rc d) none (1 + imm.extWords + d.extWords) s := rfl

theorem store_completes {sz : Size} {md : UpdMode} {v : Word} {rb : Reg} {d : Disp 10} {words : Nat} {s : State} (hi : s.Inv)
    (hm : MayUpdate md rb) (h : CanAccess s .write (address s md rb d) (sizeBytes sz)) (room : Room words s) :
    Completes (storeOp (sizeBytes sz) v (address s md rb d) (s.baseUpdate md rb d) words s) fun t =>
      StoreEffect (sizeBytes sz) v (address s md rb d) (updated md rb) words s t ∧ BaseUpdated md rb d s t := by
  obtain ⟨t, ht, he, t', hx⟩ := storeOp_completes (v := v) hi (sizeBytes_le sz) (updatesPc_of_may (s := s) (d := d) hm) h room
  rw [updateRegs_baseUpdate] at he
  exact ⟨t, ht, he, fun hne => by rw [hx, x_updateBase_base t' hm hne]⟩

theorem storeX_completes {sz : Size} {v a : Word} {words : Nat} {s : State} (hi : s.Inv) (h : CanAccess s .write a (sizeBytes sz))
    (room : Room words s) :
    Completes (storeOp (sizeBytes sz) v a none words s) (StoreEffect (sizeBytes sz) v a [] words s) := by
  obtain ⟨t, ht, he, -⟩ := storeOp_completes (v := v) (u := none) hi (sizeBytes_le sz) rfl h room
  exact ⟨t, ht, he⟩

/-- Settles O55. -/
theorem storeResultAndFrame : Obligations.StoreResultAndFrame := by
  refine fun s sz ra rb rc hi => ⟨fun md d hm h => ⟨fun room => ?_, fun imm room => ?_⟩, fun d h =>
    ⟨fun room => storeX_completes hi h room, fun imm room => storeX_completes hi h room⟩⟩
  · rw [exec_store]
    exact store_completes hi hm h room
  · rw [exec_storeImm]
    exact store_completes hi hm h room

/-! ## PUSH and PEA -/

theorem pushBytes_le (sz : PushSize) : pushBytes sz ≤ 8 := by cases sz <;> decide

theorem pushOp_completes {n : Nat} {v : Word} {words : Nat} {s : State} (hi : s.Inv) (hn : n ≤ 8)
    (h : CanAccess s .write (s.x 31#5 - BitVec.ofNat 64 n) n) (room : Room words s) :
    Completes (pushOp n v words s) (PushEffect n v words s) := by
  obtain ⟨t, ht, he, t', hx⟩ := storeOp_completes (v := v) (u := some (31#5, s.x 31#5 - BitVec.ofNat 64 n)) hi hn rfl h room
  exact ⟨t, ht, he, by rw [hx]; exact State.x_setX_same t' _ (by decide)⟩

theorem pushOp_raises {n : Nat} {v : Word} {words : Nat} {s : State}
    (h : ¬ CanAccess s .write (s.x 31#5 - BitVec.ofNat 64 n) n) :
    Raises (pushOp n v words s) (s.x 31#5 - BitVec.ofNat 64 n) n s s := storeOp_raises rfl h

theorem exec_pea (sz : PushSize) (md : UpdMode) (rb : Reg) (d : Disp 10) (s : State) :
    exec (.pea sz md rb d) s = pushOp (pushBytes sz) (address s md rb d) (1 + d.extWords) s := by
  rw [← ea_eq_address]
  rfl

theorem exec_peaX (sz : PushSize) (rb rc : Reg) (d : Disp 5) (s : State) :
    exec (.peaX sz rb rc d) s = pushOp (pushBytes sz) (indexedAddress s rb rc d) (1 + d.extWords) s := rfl

theorem exec_pushT (ra : Reg) (s : State) : exec (.pushT ra) s = pushOp 4 (s.x ra) 1 s := rfl

theorem exec_pushO (ra : Reg) (s : State) : exec (.pushO ra) s = pushOp 8 (s.x ra) 1 s := rfl

/-- Settles O56. -/
theorem pushResultAndFrame : Obligations.PushResultAndFrame := by
  refine fun s hi => ⟨fun ra room => ⟨fun h => ?_, fun h => ?_⟩, fun sz rb rc h => ⟨fun md d room => ?_, fun d room => ?_⟩⟩
  · exact exec_pushT ra s ▸ pushOp_completes hi (by decide) h room
  · exact exec_pushO ra s ▸ pushOp_completes hi (by decide) h room
  · exact exec_pea sz md rb d s ▸ pushOp_completes hi (pushBytes_le sz) h room
  · exact exec_peaX sz rb rc d s ▸ pushOp_completes hi (pushBytes_le sz) h room

/-! ## Updates and lists without a meaning -/

theorem listChecked_of_may {sz : Size} {special : BitVec 5} {s : State} (k : Result) (h : MayList sz special s) :
    listChecked sz special s k = k := by
  obtain ⟨ho, hs⟩ := h
  have h1 : ¬ (special ≠ 0#5 ∧ sz ≠ .o) := fun hn => ho.elim hn.1 hn.2
  have h2 : ¬ (special.getLsbD 2 && !s.supervisor) = true := fun hn => by
    rw [Bool.and_eq_true, Bool.not_eq_true'] at hn
    rw [hs hn.1] at hn
    exact absurd hn.2 (by decide)
  rw [listChecked, if_neg h1, if_neg h2]

theorem listChecked_narrow {sz : Size} {special : BitVec 5} {s : State} (k : Result) (h : special ≠ 0#5) (ho : sz ≠ .o) :
    listChecked sz special s k = .refused .specialNeedsOcta := if_pos ⟨h, ho⟩

theorem loadOp_refused_pc {sz : Size} {rt : Reg} {a : Word} {u : Option (Reg × Word)} {words : Nat} {s : State}
    (h : updatesPc u = true) : loadOp sz rt a u words s = .refused .updateOfProgramCounter := if_pos h

theorem loadOp_refused_loaded {sz : Size} {rt : Reg} {a : Word} {u : Option (Reg × Word)} {words : Nat} {s : State}
    (hpc : updatesPc u = false) (h : updatesReg u rt = true) : loadOp sz rt a u words s = .refused .updateOfLoadedRegister := by
  rw [loadOp, if_neg (by simp [hpc]), if_pos h]

theorem storeOp_refused_pc {n : Nat} {v a : Word} {u : Option (Reg × Word)} {words : Nat} {s : State} (h : updatesPc u = true) :
    storeOp n v a u words s = .refused .updateOfProgramCounter := if_pos h

theorem loadmOp_refused_pc {sz : Size} {skip : Bool} {list : BitVec 32} {special : BitVec 5} {a : Word} {u : Option (Reg × Word)}
    {words : Nat} {s : State} (hl : MayList sz special s) (h : updatesPc u = true) :
    loadmOp sz skip list special a u words s = .refused .updateOfProgramCounter := by
  rw [loadmOp, listChecked_of_may _ hl, if_pos h]

theorem loadmOp_refused_loaded {sz : Size} {skip : Bool} {list : BitVec 32} {special : BitVec 5} {a : Word}
    {u : Option (Reg × Word)} {words : Nat} {s : State} (hl : MayList sz special s) (hpc : updatesPc u = false)
    (h : updatesListed u list = true) : loadmOp sz skip list special a u words s = .refused .updateOfLoadedRegister := by
  rw [loadmOp, listChecked_of_may _ hl, if_neg (by simp [hpc]), if_pos h]

theorem storemOp_refused_pc {sz : Size} {skip : Bool} {list : BitVec 32} {special : BitVec 5} {a : Word} {u : Option (Reg × Word)}
    {words : Nat} {s : State} (hl : MayList sz special s) (h : updatesPc u = true) :
    storemOp sz skip list special a u words s = .refused .updateOfProgramCounter := by
  rw [storemOp, listChecked_of_may _ hl, if_pos h]

/-- Settles O60. -/
theorem refusedUpdatesAndLists : Obligations.RefusedUpdatesAndLists := fun _ _ _ _ _ _ _ _ =>
  ⟨fun hmd => ⟨fun _ _ => loadOp_refused_pc (updatesPc_zero hmd), fun _ _ => storeOp_refused_pc (updatesPc_zero hmd),
    fun _ _ => storeOp_refused_pc (updatesPc_zero hmd),
    fun _ h0 => loadOp_refused_loaded (updatesPc_of_may (.inr h0)) (updatesReg_self hmd), fun hl =>
    ⟨fun _ => loadmOp_refused_pc hl (updatesPc_zero hmd), fun _ => storemOp_refused_pc hl (updatesPc_zero hmd),
      fun _ h0 hb => loadmOp_refused_loaded hl (updatesPc_of_may (.inr h0)) (updatesListed_of_listed hmd hb)⟩⟩,
    fun h ho => ⟨fun _ => listChecked_narrow _ h ho, fun _ => listChecked_narrow _ h ho, fun _ => listChecked_narrow _ h ho,
      fun _ => listChecked_narrow _ h ho⟩⟩

end Sys2Proof.Proofs.Accesses
end

section
/-! PROOFS. Register lists (`spec/45_memory_ops.md` R280): the slots of a list in closed form, and the slots before one of them. -/

namespace Sys2Proof.Proofs.Lists

open Sys2Proof Sys2Proof.Machine Sys2Proof.Claims

/-! ## Numbering -/

/-- How many slots the places below `i` take (R280). -/
def slotsBefore (sel : Nat → Bool) (skip : Bool) (i : Nat) : Nat := if skip then i else (List.range i).countP sel

/-- How many slots some places take. -/
def slotsOf (skip : Bool) (places : List (Bool × Slot)) : Nat := if skip then places.length else places.countP Prod.fst

theorem numberSlots_append (skip : Bool) (ys : List (Bool × Slot)) : ∀ (xs : List (Bool × Slot)) (k : Nat),
    numberSlots skip k (xs ++ ys) = numberSlots skip k xs ++ numberSlots skip (k + slotsOf skip xs) ys
  | [], k => by cases skip <;> simp [numberSlots, slotsOf]
  | (true, x) :: rest, k => by
    have h : k + 1 + slotsOf skip rest = k + slotsOf skip ((true, x) :: rest) := by
      cases skip <;> (simp [slotsOf]; omega)
    simp only [List.cons_append, numberSlots, numberSlots_append skip ys rest (k + 1), h]
  | (false, x) :: rest, k => by
    have h : (if skip then k + 1 else k) + slotsOf skip rest = k + slotsOf skip ((false, x) :: rest) := by
      cases skip
      · simp [slotsOf]
      · simp only [slotsOf, if_true, List.length_cons]
        omega
    simp only [List.cons_append, numberSlots, numberSlots_append skip ys rest, h]

theorem slotsOf_range (skip : Bool) (sel : Nat → Bool) (x : Nat → Slot) (n : Nat) :
    slotsOf skip ((List.range n).map fun i => (sel i, x i)) = slotsBefore sel skip n := by
  cases skip
  · simp [slotsOf, slotsBefore, List.countP_map, Function.comp_def]
  · simp [slotsOf, slotsBefore]

theorem numberSlots_range (skip : Bool) (sel : Nat → Bool) (x : Nat → Slot) (k : Nat) : ∀ n,
    numberSlots skip k ((List.range n).map fun i => (sel i, x i)) =
      ((List.range n).filter sel).map fun i => (k + slotsBefore sel skip i, x i)
  | 0 => rfl
  | n + 1 => by
    rw [List.range_succ, List.map_append, numberSlots_append, numberSlots_range skip sel x k n, slotsOf_range, List.filter_append,
      List.map_append]
    cases hn : sel n <;> simp [numberSlots, hn]

/-! ## The slots of a list -/

/-- The special register of a bit of Special (R282). -/
def specialOf : Nat → Special
  | 0 => .pc
  | 1 => .ccrg
  | 2 => .sr
  | 3 => .ac
  | _ => .lc

/-- The slots of the general registers of a list, in order. -/
def generalSlots (list : BitVec 32) (skip : Bool) : List (Nat × Reg) :=
  ((List.range 32).filter fun i => list.getLsbD i).map fun i => (registerSlot list skip i, BitVec.ofNat 5 i)

/-- The slots of the special registers of a list, in order. -/
def specialSlots (list : BitVec 32) (special : BitVec 5) (skip : Bool) : List (Nat × Special) :=
  ((List.range 5).filter fun j => special.getLsbD j).map fun j => (specialSlot list special skip j, specialOf j)

theorem specialSlot_eq (list : BitVec 32) (special : BitVec 5) (skip : Bool) (j : Nat) : specialSlot list special skip j =
    slotsBefore (fun i => list.getLsbD i) skip 32 + slotsBefore (fun i => special.getLsbD i) skip j := by
  cases skip <;> rfl

theorem slotLayout_eq (list : BitVec 32) (special : BitVec 5) (skip : Bool) : slotLayout list special skip =
    ((generalSlots list skip).map fun p => (p.1, Slot.general p.2)) ++
      (specialSlots list special skip).map fun p => (p.1, Slot.special p.2) := by
  have hp : listPlaces list special = ((List.range 32).map fun i => (list.getLsbD i, Slot.general (BitVec.ofNat 5 i))) ++
    (List.range 5).map fun j => (special.getLsbD j, Slot.special (specialOf j)) := rfl
  rw [slotLayout, hp, numberSlots_append, slotsOf_range, numberSlots_range, numberSlots_range, generalSlots, specialSlots,
    List.map_map, List.map_map]
  congr 1
  · refine List.map_congr_left fun i _ => ?_
    rw [Nat.zero_add]
    rfl
  · refine List.map_congr_left fun j _ => ?_
    rw [Nat.zero_add, ← specialSlot_eq]
    rfl

theorem ofNat_toNat_reg {i : Nat} (h : i < 32) : (BitVec.ofNat 5 i).toNat = i := by
  rw [BitVec.toNat_ofNat, Nat.mod_eq_of_lt h]

theorem mem_generalSlots {list : BitVec 32} {skip : Bool} {p : Nat × Reg} :
    p ∈ generalSlots list skip ↔ list.getLsbD p.2.toNat = true ∧ p.1 = registerSlot list skip p.2.toNat := by
  obtain ⟨k, r⟩ := p
  simp only [generalSlots, List.mem_map, List.mem_filter, List.mem_range, Prod.mk.injEq]
  constructor
  · rintro ⟨i, ⟨hi, hl⟩, rfl, rfl⟩
    rw [ofNat_toNat_reg hi]
    exact ⟨hl, rfl⟩
  · rintro ⟨hl, rfl⟩
    exact ⟨r.toNat, ⟨r.isLt, hl⟩, rfl, BitVec.eq_of_toNat_eq (ofNat_toNat_reg r.isLt)⟩

theorem mem_specialSlots {list : BitVec 32} {special : BitVec 5} {skip : Bool} {p : Nat × Special} :
    p ∈ specialSlots list special skip ↔ ∃ j, j < 5 ∧ special.getLsbD j = true ∧ p = (specialSlot list special skip j, specialOf j) := by
  simp only [specialSlots, List.mem_map, List.mem_filter, List.mem_range, and_assoc, eq_comm]

theorem generalSlots_registers (list : BitVec 32) (skip : Bool) : (generalSlots list skip).map Prod.snd = listed list := by
  rw [generalSlots, listed, List.map_map]
  rfl

theorem mem_listed {list : BitVec 32} {i : Reg} : i ∈ listed list ↔ list.getLsbD i.toNat = true := by
  rw [← generalSlots_registers list false, List.mem_map]
  constructor
  · rintro ⟨p, hp, rfl⟩
    exact (mem_generalSlots.1 hp).1
  · exact fun h => ⟨(registerSlot list false i.toNat, i), mem_generalSlots.2 ⟨h, rfl⟩, rfl⟩

theorem nodup_listed (list : BitVec 32) : (listed list).Nodup := by
  refine List.Nodup.map_on (fun i hi j hj e => ?_) (List.nodup_range.filter _)
  rw [List.mem_filter, List.mem_range] at hi hj
  rw [← ofNat_toNat_reg hi.1, e, ofNat_toNat_reg hj.1]

/-- Every slot of the layout is one of a selected register. -/
theorem exists_mem_slotLayout {list : BitVec 32} {special : BitVec 5} {skip : Bool} {P : Nat → Prop} :
    (∃ x ∈ slotLayout list special skip, P x.1) ↔
      (∃ i, i < 32 ∧ list.getLsbD i = true ∧ P (registerSlot list skip i)) ∨
      (∃ j, j < 5 ∧ special.getLsbD j = true ∧ P (specialSlot list special skip j)) := by
  rw [slotLayout_eq]
  simp only [List.mem_append, or_and_right, exists_or, List.mem_map, generalSlots, specialSlots, List.mem_filter, List.mem_range]
  constructor
  · rintro (⟨_, ⟨_, ⟨i, ⟨hi, hl⟩, rfl⟩, rfl⟩, h⟩ | ⟨_, ⟨_, ⟨j, ⟨hj, hl⟩, rfl⟩, rfl⟩, h⟩)
    · exact .inl ⟨i, hi, hl, h⟩
    · exact .inr ⟨j, hj, hl, h⟩
  · rintro (⟨i, hi, hl, h⟩ | ⟨j, hj, hl, h⟩)
    · exact .inl ⟨_, ⟨_, ⟨i, ⟨hi, hl⟩, rfl⟩, rfl⟩, h⟩
    · exact .inr ⟨_, ⟨_, ⟨j, ⟨hj, hl⟩, rfl⟩, rfl⟩, h⟩

theorem forall_mem_slotLayout {list : BitVec 32} {special : BitVec 5} {skip : Bool} {P : Nat → Prop} :
    (∀ x ∈ slotLayout list special skip, P x.1) ↔
      (∀ i, i < 32 → list.getLsbD i = true → P (registerSlot list skip i)) ∧
      (∀ j, j < 5 → special.getLsbD j = true → P (specialSlot list special skip j)) := by
  have h := not_congr (exists_mem_slotLayout (list := list) (special := special) (skip := skip) (P := fun k => ¬ P k))
  simpa only [not_exists, not_and, not_or, not_not] using h

theorem canAccessSlots_iff {s : State} {k : AccessKind} {sz : Size} {list : BitVec 32} {special : BitVec 5} {skip : Bool} {ea : Word} :
    CanAccessSlots s k sz list special skip ea ↔
      ∀ x ∈ slotLayout list special skip, CanAccess s k (slotAt ea sz x.1) (sizeBytes sz) :=
  (forall_mem_slotLayout (P := fun n => CanAccess s k (slotAt ea sz n) (sizeBytes sz))).symm

theorem inSlots_iff {sz : Size} {list : BitVec 32} {special : BitVec 5} {skip : Bool} {ea : Word} {b : Nat} :
    InSlots sz list special skip ea b ↔ ∃ x ∈ slotLayout list special skip, InBlock (slotAt ea sz x.1) (sizeBytes sz) b :=
  (exists_mem_slotLayout (P := fun n => InBlock (slotAt ea sz n) (sizeBytes sz) b)).symm

/-! ## Slots are apart -/

theorem numberSlots_bounds {skip : Bool} {x : Nat × Slot} : ∀ (places : List (Bool × Slot)) (k : Nat),
    x ∈ numberSlots skip k places → k ≤ x.1 ∧ x.1 < k + places.length
  | [], _, h => nomatch h
  | (true, y) :: rest, k, h => by
    rw [numberSlots, List.mem_cons] at h
    rcases h with rfl | h
    · simp
    · have := numberSlots_bounds rest (k + 1) h
      simp only [List.length_cons]
      omega
  | (false, y) :: rest, k, h => by
    have := numberSlots_bounds rest _ h
    simp only [List.length_cons]
    split at this <;> omega

theorem numberSlots_pairwise (skip : Bool) : ∀ (places : List (Bool × Slot)) (k : Nat),
    (numberSlots skip k places).Pairwise fun x y => x.1 ≠ y.1
  | [], _ => List.Pairwise.nil
  | (true, y) :: rest, k => List.Pairwise.cons (fun x hx => by
      have := numberSlots_bounds rest (k + 1) hx
      dsimp only
      omega) (numberSlots_pairwise skip rest (k + 1))
  | (false, y) :: rest, k => numberSlots_pairwise skip rest _

theorem slotLayout_pairwise (list : BitVec 32) (special : BitVec 5) (skip : Bool) :
    (slotLayout list special skip).Pairwise fun x y => x.1 ≠ y.1 := numberSlots_pairwise skip _ 0

theorem slotLayout_lt {list : BitVec 32} {special : BitVec 5} {skip : Bool} {x : Nat × Slot} (h : x ∈ slotLayout list special skip) :
    x.1 < 37 := by
  obtain ⟨-, hlt⟩ := numberSlots_bounds _ 0 h
  simpa [listPlaces] using hlt

/-! ## The slots before one of them -/

theorem getLsbD_below {w : Nat} (m : Nat) (l : BitVec w) (k : Nat) : (below m l).getLsbD k = (decide (k < m) && l.getLsbD k) := by
  rw [below, BitVec.getLsbD_and, BitVec.getLsbD_ofNat, Nat.testBit_two_pow_sub_one]
  by_cases hk : k < w
  · simp [hk, Bool.and_comm]
  · simp [BitVec.getLsbD_of_ge l k (by omega)]

theorem filter_split {sel : Nat → Bool} {n i : Nat} (hi : i < n) (h : sel i = true) :
    ∃ rest, (List.range n).filter sel = (List.range n).filter (fun k => decide (k < i) && sel k) ++ i :: rest := by
  obtain ⟨m, rfl⟩ : ∃ m, n = i + (m + 1) := ⟨n - i - 1, by omega⟩
  have hbelow : (List.range i).filter (fun k => decide (k < i) && sel k) = (List.range i).filter sel :=
    List.filter_congr fun k hk => by simp [List.mem_range.1 hk]
  have habove : ((List.range (m + 1)).map (i + ·)).filter (fun k => decide (k < i) && sel k) = [] := by
    rw [List.filter_eq_nil_iff]
    rintro k hk
    obtain ⟨j, -, rfl⟩ := List.mem_map.1 hk
    simp
  rw [List.range_add, List.filter_append, List.filter_append, hbelow, habove, List.append_nil, List.range_succ_eq_map]
  simp [h]

theorem slotsBefore_below {sel : Nat → Bool} {i k : Nat} (skip : Bool) (h : k ≤ i) :
    slotsBefore (fun k => decide (k < i) && sel k) skip k = slotsBefore sel skip k := by
  cases skip
  · refine List.countP_congr fun j hj => ?_
    have : j < i := Nat.lt_of_lt_of_le (List.mem_range.1 hj) h
    simp [this]
  · rfl

theorem registerSlot_below {list : BitVec 32} {i k : Nat} (skip : Bool) (h : k ≤ i) :
    registerSlot (below i list) skip k = registerSlot list skip k := by
  change slotsBefore (fun k => (below i list).getLsbD k) skip k = slotsBefore (fun k => list.getLsbD k) skip k
  simp only [getLsbD_below, slotsBefore_below skip h]

theorem specialSlot_below {list : BitVec 32} {special : BitVec 5} {j k : Nat} (skip : Bool) (h : k ≤ j) :
    specialSlot list (below j special) skip k = specialSlot list special skip k := by
  rw [specialSlot_eq, specialSlot_eq]
  simp only [getLsbD_below, slotsBefore_below skip h]

theorem lt_of_mem_filter_below {n i k : Nat} {sel : Nat → Bool}
    (h : k ∈ (List.range n).filter fun k => decide (k < i) && sel k) : k < i := by
  have h := (List.mem_filter.1 h).2
  rw [Bool.and_eq_true, decide_eq_true_iff] at h
  exact h.1

theorem generalSlots_split {list : BitVec 32} {i : Nat} (skip : Bool) (hi : i < 32) (h : list.getLsbD i = true) :
    ∃ rest, generalSlots list skip =
      generalSlots (below i list) skip ++ (registerSlot list skip i, BitVec.ofNat 5 i) :: rest := by
  obtain ⟨rest, hr⟩ := filter_split (sel := fun k => list.getLsbD k) hi h
  refine ⟨rest.map fun k => (registerSlot list skip k, BitVec.ofNat 5 k), ?_⟩
  rw [generalSlots, hr, List.map_append, List.map_cons, generalSlots]
  simp only [getLsbD_below]
  congr 1
  refine List.map_congr_left fun k hk => ?_
  rw [registerSlot_below skip (lt_of_mem_filter_below hk).le]

theorem specialSlots_split {list : BitVec 32} {special : BitVec 5} {j : Nat} (skip : Bool) (hj : j < 5)
    (h : special.getLsbD j = true) : ∃ rest, specialSlots list special skip =
      specialSlots list (below j special) skip ++ (specialSlot list special skip j, specialOf j) :: rest := by
  obtain ⟨rest, hr⟩ := filter_split (sel := fun k => special.getLsbD k) hj h
  refine ⟨rest.map fun k => (specialSlot list special skip k, specialOf k), ?_⟩
  rw [specialSlots, hr, List.map_append, List.map_cons, specialSlots]
  simp only [getLsbD_below]
  congr 1
  refine List.map_congr_left fun k hk => ?_
  rw [specialSlot_below skip (lt_of_mem_filter_below hk).le]

theorem specialSlots_zero (list : BitVec 32) (skip : Bool) : specialSlots list 0#5 skip = [] := by
  simp [specialSlots]

/-- The slots before the access that fails are those of `list'` and `special'`. -/
theorem slotLayout_of_failsAfter {s : State} {k : AccessKind} {sz : Size} {list list' : BitVec 32} {special special' : BitVec 5}
    {skip : Bool} {ea a : Word} (h : FailsAfter s k sz list special skip ea list' special' a) :
    ∃ x rest, slotLayout list special skip = slotLayout list' special' skip ++ x :: rest ∧ a = slotAt ea sz x.1 := by
  obtain ⟨⟨i, hi, hl, rfl, rfl, rfl⟩ | ⟨j, hj, hl, rfl, rfl, rfl⟩, -⟩ := h
  · obtain ⟨rest, hr⟩ := generalSlots_split skip hi hl
    refine ⟨(registerSlot list skip i, .general (BitVec.ofNat 5 i)),
      (rest.map fun p => (p.1, .general p.2)) ++ (specialSlots list special skip).map fun p => (p.1, .special p.2), ?_, rfl⟩
    rw [slotLayout_eq, hr, slotLayout_eq, specialSlots_zero, List.map_append, List.map_cons, List.map_nil, List.append_nil,
      List.append_assoc, List.cons_append]
  · obtain ⟨rest, hr⟩ := specialSlots_split (list := list') skip hj hl
    refine ⟨(specialSlot list' special skip j, .special (specialOf j)), rest.map fun p => (p.1, .special p.2), ?_, rfl⟩
    rw [slotLayout_eq, hr, slotLayout_eq, List.map_append, List.map_cons, List.append_assoc]

end Sys2Proof.Proofs.Lists
end

section
/-! PROOFS. STOREM (`spec/45_memory_ops.md` R279): the slots are apart, so each holds its value at the end whatever is stored
after it. -/

namespace Sys2Proof.Proofs.StoreMultiple

open Sys2Proof Sys2Proof.Machine Sys2Proof.Claims Sys2Proof.Proofs.Frame Sys2Proof.Proofs.Storage Sys2Proof.Proofs.Accesses
open Sys2Proof.Proofs.Lists

/-! ## A list of stores -/

/-- The state after stores of n bytes in slots of `ea`. -/
def State.storedSlots (n : Nat) (ea : Word) : List (Nat × Word) → State → State
  | [], s => s
  | (k, v) :: rest, s => State.storedSlots n ea rest (s.storeBytes (slotAddr ea n k) n v)

theorem storeSlots_of_can {n : Nat} {ea : Word} : ∀ {vals : List (Nat × Word)} {s : State},
    (∀ p ∈ vals, CanAccess s .write (slotAddr ea n p.1) n) → storeSlots n ea vals s = .ok () (State.storedSlots n ea vals s)
  | [], _, _ => rfl
  | (k, v) :: rest, s, h => by
    rw [storeSlots, memWrite_of_can v (h (k, v) List.mem_cons_self), Act.andThen]
    exact storeSlots_of_can fun p hp => h p (List.mem_cons_of_mem _ hp)

theorem params_storedSlots (n : Nat) (ea : Word) : ∀ (vals : List (Nat × Word)) (s : State),
    (State.storedSlots n ea vals s).params = s.params
  | [], _ => rfl
  | (k, v) :: rest, s => params_storedSlots n ea rest (s.storeBytes (slotAddr ea n k) n v)

theorem keepsRest_storedSlots (n : Nat) (ea : Word) : ∀ (vals : List (Nat × Word)) (s : State),
    KeepsRest [] [] s (State.storedSlots n ea vals s) ∧ (State.storedSlots n ea vals s).pc = s.pc
  | [], s => ⟨keepsRest_refl _ _ s, rfl⟩
  | (k, v) :: rest, s => by
    obtain ⟨hrest, hpc⟩ := keepsRest_storedSlots n ea rest (s.storeBytes (slotAddr ea n k) n v)
    exact ⟨(keepsRest_storeBytes [] [] s _ n v).trans hrest, hpc⟩

/-- Stores of which the one after the first few fails. -/
theorem storeSlots_of_not {n : Nat} {ea : Word} {p : Nat × Word} {rest : List (Nat × Word)} : ∀ {vals : List (Nat × Word)} {s : State},
    (∀ q ∈ vals, CanAccess s .write (slotAddr ea n q.1) n) → ¬ CanAccess s .write (slotAddr ea n p.1) n →
    storeSlots n ea (vals ++ p :: rest) s =
      .raise (faultVector s (slotAddr ea n p.1) n) (State.storedSlots n ea vals s)
  | [], s, _, h => by
    rw [List.nil_append, storeSlots, memWrite_of_not p.2 h]
    rfl
  | (k, v) :: vals, s, hall, h => by
    rw [List.cons_append, storeSlots, memWrite_of_can v (hall (k, v) List.mem_cons_self), Act.andThen]
    exact storeSlots_of_not (s := s.storeBytes (slotAddr ea n k) n v) (fun q hq => hall q (List.mem_cons_of_mem _ hq)) h

/-! ## What they leave in memory -/

theorem storedSlots_outside {n : Nat} {ea : Word} {b : Nat} : ∀ {vals : List (Nat × Word)} {s : State},
    (∀ p ∈ vals, ¬ InBlock (slotAddr ea n p.1) n b) → (State.storedSlots n ea vals s).mem.read b = s.mem.read b
  | [], _, _ => rfl
  | (k, v) :: rest, s, h => by
    rw [State.storedSlots, storedSlots_outside fun p hp => h p (List.mem_cons_of_mem _ hp)]
    exact Memory.read_writeLE_of_not _ _ n v (h (k, v) List.mem_cons_self)

theorem storedSlots_stored {n : Nat} {ea : Word} {b : Nat} : ∀ {vals : List (Nat × Word)} {s : State},
    (State.storedSlots n ea vals s).stored.has b = true ↔
      s.stored.has b = true ∨ ∃ p ∈ vals, InBlock (slotAddr ea n p.1) n b
  | [], s => by simp [State.storedSlots]
  | (k, v) :: rest, s => by
    rw [State.storedSlots, storedSlots_stored, State.storeBytes_stored, AddrSet.has_insertRange, or_assoc]
    simp

/-- Two slots of a list are apart. -/
theorem slotAddr_apart {n j k b : Nat} {ea : Word} (hn : n ≤ 8) (hj : j < 37) (hk : k < 37) (hne : j ≠ k)
    (h : InBlock (slotAddr ea n j) n b) : ¬ InBlock (slotAddr ea n k) n b := by
  have hadd : ∀ {i m : Nat}, i < m → slotAddr ea n m = slotAddr ea n i + BitVec.ofNat 64 ((m - i) * n) := fun {i m} him => by
    rw [slotAddr, slotAddr, BitVec.add_assoc, ← BitVec.ofNat_add, ← Nat.add_mul, Nat.add_sub_cancel' him.le]
  have hdist : ∀ {i m : Nat}, i < m → m < 37 → n ≤ (m - i) * n ∧ (m - i) * n + n ≤ 2 ^ 64 := fun {i m} him hm => by
    have h1 : (m - i) * n ≤ 37 * 8 := Nat.mul_le_mul (by omega) hn
    exact ⟨Nat.le_mul_of_pos_left n (by omega), by omega⟩
  rcases Nat.lt_or_gt_of_ne hne with hlt | hlt
  · obtain ⟨h1, h2⟩ := hdist hlt hk
    rw [hadd hlt]
    exact not_inBlock_of_offset' h1 h2 h
  · obtain ⟨h1, h2⟩ := hdist hlt hj
    rw [hadd hlt] at h
    exact not_inBlock_of_offset h1 h2 h

/-- Each slot holds its value at the end. -/
theorem storedSlots_reads {n : Nat} {ea : Word} (hn : n ≤ 8) : ∀ {vals : List (Nat × Word)} {s : State}, s.mem.wf = true →
    vals.Pairwise (fun p q => p.1 ≠ q.1) → (∀ p ∈ vals, p.1 < 37) →
    ∀ p ∈ vals, (State.storedSlots n ea vals s).mem.readLE (slotAddr ea n p.1) n = (p.2.setWidth (8 * n)).setWidth 64
  | [], _, _, _, _, _, hp => nomatch hp
  | (k, v) :: rest, s, hwf, hpw, hlt, p, hp => by
    rw [List.pairwise_cons] at hpw
    obtain ⟨hk, hpw⟩ := hpw
    have hlt' : ∀ q ∈ rest, q.1 < 37 := fun q hq => hlt q (List.mem_cons_of_mem _ hq)
    rw [State.storedSlots]
    rcases List.mem_cons.1 hp with rfl | hp
    · rw [← Memory.readLE_writeLE hwf (slotAddr ea n k) n hn v]
      refine Memory.readLE_congr _ n fun j hj => storedSlots_outside fun q hq => ?_
      exact slotAddr_apart hn (hlt (k, v) List.mem_cons_self) (hlt' q hq) (hk q hq) ⟨j, hj, rfl⟩
    · exact storedSlots_reads hn (Memory.wf_writeLE _ n v hwf) hpw hlt' p hp

/-! ## The slots of STOREM -/

theorem slotValues_canAccess {s : State} {sz : Size} {list : BitVec 32} {special : BitVec 5} {skip : Bool} {ea : Word} {next : Word}
    (h : CanAccessSlots s .write sz list special skip ea) :
    ∀ p ∈ s.slotValues next (slotLayout list special skip), CanAccess s .write (slotAddr ea (sizeBytes sz) p.1) (sizeBytes sz) := by
  intro p hp
  obtain ⟨x, hx, rfl⟩ := List.mem_map.1 hp
  exact canAccessSlots_iff.1 h x hx

theorem special_octa {sz : Size} {special : BitVec 5} {s : State} (h : MayList sz special s) {j : Nat} (hj : special.getLsbD j = true) :
    sz = .o := h.1.resolve_left fun e => by subst e; simp at hj

theorem readSpecial_specialOf (s : State) (words : Nat) {j : Nat} (hj : j < 5) :
    s.readSpecial (s.pcNext words) (specialOf j) = specialValue s words j := by
  match j, hj with
  | 0, _ | 1, _ | 2, _ | 3, _ | 4, _ => rfl

theorem sizeBits_eq (sz : Size) : sizeBits sz = 8 * sizeBytes sz := by cases sz <;> rfl

/-- The state in which the slots of a list are stored. -/
abbrev storedList (sz : Size) (skip : Bool) (list : BitVec 32) (special : BitVec 5) (ea : Word) (words : Nat) (s : State) : State :=
  State.storedSlots (sizeBytes sz) ea (s.slotValues (s.pcNext words) (slotLayout list special skip)) s

section
variable {sz : Size} {skip : Bool} {list : BitVec 32} {special : BitVec 5} {ea : Word} {words : Nat} {s : State}

theorem storedList_reads (hi : s.Inv) {k : Nat} {x : Slot} (hx : (k, x) ∈ slotLayout list special skip) :
    (storedList sz skip list special ea words s).mem.readLE (slotAt ea sz k) (sizeBytes sz) =
      ((s.slotValue (s.pcNext words) x).setWidth (8 * sizeBytes sz)).setWidth 64 := by
  refine storedSlots_reads (sizeBytes_le sz) hi.mem ?_ (fun p hp => ?_) (k, s.slotValue (s.pcNext words) x) (List.mem_map.2 ⟨_, hx, rfl⟩)
  · exact List.pairwise_map.2 (slotLayout_pairwise list special skip)
  · obtain ⟨y, hy, rfl⟩ := List.mem_map.1 hp
    exact slotLayout_lt hy

theorem storedList_general (hi : s.Inv) {i : Nat} (hi32 : i < 32) (hl : list.getLsbD i = true) :
    ((storedList sz skip list special ea words s).mem.readLE (slotAt ea sz (registerSlot list skip i)) (sizeBytes sz)).setWidth
      (sizeBits sz) = (s.x (BitVec.ofNat 5 i)).setWidth (sizeBits sz) := by
  have hx : (registerSlot list skip i, Slot.general (BitVec.ofNat 5 i)) ∈ slotLayout list special skip := by
    rw [slotLayout_eq, List.mem_append, List.mem_map]
    refine .inl ⟨(registerSlot list skip i, BitVec.ofNat 5 i), mem_generalSlots.2 ?_, rfl⟩
    rw [ofNat_toNat_reg hi32]
    exact ⟨hl, rfl⟩
  have hle := sizeBits_le sz
  rw [storedList_reads hi hx, ← sizeBits_eq, BitVec.setWidth_setWidth_of_le _ hle, BitVec.setWidth_eq]
  rfl

theorem storedList_special (hi : s.Inv) (hm : MayList sz special s) {j : Nat} (hj : j < 5) (hl : special.getLsbD j = true) :
    (storedList sz skip list special ea words s).mem.readLE (slotAt ea sz (specialSlot list special skip j)) 8 =
      specialValue s words j := by
  have hx : (specialSlot list special skip j, Slot.special (specialOf j)) ∈ slotLayout list special skip := by
    rw [slotLayout_eq, List.mem_append, List.mem_map, List.mem_map]
    exact .inr ⟨(specialSlot list special skip j, specialOf j), mem_specialSlots.2 ⟨j, hj, hl, rfl⟩, rfl⟩
  obtain rfl := special_octa hm hl
  rw [← readSpecial_specialOf s words hj]
  exact (storedList_reads hi hx).trans (by rw [show 8 * sizeBytes .o = 64 from rfl, BitVec.setWidth_eq, BitVec.setWidth_eq]; rfl)

theorem storedList_outside {b : Nat} (h : ¬ InSlots sz list special skip ea b) :
    (storedList sz skip list special ea words s).mem.read b = s.mem.read b := by
  refine storedSlots_outside fun p hp hb => h ?_
  obtain ⟨x, hx, rfl⟩ := List.mem_map.1 hp
  exact inSlots_iff.2 ⟨x, hx, hb⟩

theorem storedList_stored (b : Nat) : (storedList sz skip list special ea words s).stored.has b = true ↔
    s.stored.has b = true ∨ InSlots sz list special skip ea b := by
  rw [storedSlots_stored, inSlots_iff]
  simp only [State.slotValues, List.mem_map, exists_exists_and_eq_and]
  rfl

/-! ## STOREM -/

variable {u : Option (Reg × Word)}

theorem storemOp_of_can (hm : MayList sz special s) (hpc : updatesPc u = false)
    (h : CanAccessSlots s .write sz list special skip ea) : storemOp sz skip list special ea u words s =
      advance words ((storedList sz skip list special ea words s).updateBase u) := by
  rw [storemOp, listChecked_of_may _ hm, if_neg (by simp [hpc]), storeSlots_of_can (slotValues_canAccess h), Act.finish]

theorem storemOp_completes (hi : s.Inv) (hm : MayList sz special s) (hpc : updatesPc u = false)
    (h : CanAccessSlots s .write sz list special skip ea) (room : Room words s) :
    Completes (storemOp sz skip list special ea u words s) fun t =>
      StoremEffect sz skip list special ea (updateRegs u) words s t ∧ ∃ t', t.x = (State.updateBase u t').x := by
  obtain ⟨hrest, hpc'⟩ := keepsRest_storedSlots (sizeBytes sz) ea (s.slotValues (s.pcNext words) (slotLayout list special skip)) s
  have hwrites := writes_updateBase (u := u) (Writes.refl (updateRegs u) [] (storedList sz skip list special ea words s))
    (List.Subset.refl _)
  obtain ⟨hnext, hbase, hmem⟩ := hwrites.endsAt words
  have hread : ∀ a n, _ = _ := fun a n => Memory.readLE_congr a n fun j _ => hmem.byte (a + BitVec.ofNat 64 j).toNat
  rw [storemOp_of_can hm hpc h]
  refine completes_advance (hwrites.pc.trans hpc') room ⟨⟨fun i hi32 hl => ?_, fun j hj hl => ?_, fun b hb => ?_, fun b => ?_,
    hnext.trans ?_, (KeepsRest.mono hrest (List.nil_subset _) (List.nil_subset _)).trans hbase⟩, _, funext (State.x_jump _ _)⟩
  · rw [hread, storedList_general hi hi32 hl]
  · rw [hread, storedList_special hi hm hj hl]
  · rw [hmem.byte, storedList_outside hb]
  · rw [hmem.stored, storedList_stored]
  · rw [hpc']

/-- The special registers before the access that fails are allowed where all are. -/
theorem mayList_of_failsAfter {k : AccessKind} {list' : BitVec 32} {special' : BitVec 5} {a : Word} (hm : MayList sz special s)
    (h : FailsAfter s k sz list special skip ea list' special' a) : MayList sz special' s := by
  obtain ⟨⟨-, -, -, -, hs, -⟩ | ⟨j, -, hj, -, hs, -⟩, -⟩ := h <;> rw [hs]
  · exact ⟨.inl rfl, fun h2 => absurd h2 (by decide)⟩
  · refine ⟨.inr (special_octa hm hj), fun h2 => hm.2 ?_⟩
    rw [getLsbD_below, Bool.and_eq_true] at h2
    exact h2.2

theorem storemOp_stops {list' : BitVec 32} {special' : BitVec 5} {a : Word} (hi : s.Inv) (hm : MayList sz special s)
    (hpc : updatesPc u = false) (h : FailsAfter s .write sz list special skip ea list' special' a) :
    StoremStops sz skip list' special' words ea a (storemOp sz skip list special ea u words s) s := by
  obtain ⟨x, rest, hsplit, ha⟩ := slotLayout_of_failsAfter h
  have hm' : MayList sz special' s := mayList_of_failsAfter hm h
  obtain ⟨-, hcan, hnot⟩ := h
  subst ha
  obtain ⟨hrest, hpc'⟩ := keepsRest_storedSlots (sizeBytes sz) ea (s.slotValues (s.pcNext words) (slotLayout list' special' skip)) s
  refine ⟨storedList sz skip list' special' ea words s, ?_, hpc', fun i hi32 hl => storedList_general hi hi32 hl,
    fun j hj hl => storedList_special hi hm' hj hl, fun b hb => storedList_outside hb, storedList_stored, hrest⟩
  have e : storeSlots (sizeBytes sz) ea (s.slotValues (s.pcNext words) (slotLayout list special skip)) s =
      .raise (faultVector s (slotAt ea sz x.1) (sizeBytes sz)) (storedList sz skip list' special' ea words s) := by
    rw [hsplit, State.slotValues, List.map_append, List.map_cons]
    exact storeSlots_of_not (slotValues_canAccess hcan) hnot
  rw [storemOp, listChecked_of_may _ hm, if_neg (by simp [hpc]), e, Act.finish, hpc']

end

theorem exec_storem (sz : Size) (md : UpdMode) (skip : Bool) (list : BitVec 32) (special : BitVec 5) (rb : Reg) (d : Disp 10)
    (s : State) : exec (.storem sz md skip list special rb d) s =
      storemOp sz skip list special (address s md rb d) (s.baseUpdate md rb d) (2 + d.extWords) s := by
  rw [← ea_eq_address]
  rfl

theorem exec_storemX (sz : Size) (skip : Bool) (list : BitVec 32) (special : BitVec 5) (rb rc : Reg) (d : Disp 5) (s : State) :
    exec (.storemX sz skip list special rb rc d) s =
      storemOp sz skip list special (indexedAddress s rb rc d) none (2 + d.extWords) s := rfl

/-- Settles O58. -/
theorem storeMultipleResultAndFrame : Obligations.StoreMultipleResultAndFrame := by
  refine fun s sz skip list special rb rc hi hm => ⟨fun md d hmay h room => ?_, fun d h room => ?_⟩
  · obtain ⟨t, ht, he, t', hx⟩ := storemOp_completes hi hm (updatesPc_of_may (s := s) (d := d) hmay) h room
    rw [updateRegs_baseUpdate] at he
    exact ⟨t, (exec_storem ..).trans ht, he, fun hne => by rw [hx, x_updateBase_base t' hmay hne]⟩
  · obtain ⟨t, ht, he, -⟩ := storemOp_completes (u := none) hi hm rfl h room
    exact ⟨t, (exec_storemX ..).trans ht, he⟩

end Sys2Proof.Proofs.StoreMultiple
end

section
/-! PROOFS. LOADM (`spec/45_memory_ops.md` R274): the general registers are loaded as their slots are read, the special ones at
the end. -/

namespace Sys2Proof.Proofs.LoadMultiple

open Sys2Proof Sys2Proof.Machine Sys2Proof.Claims Sys2Proof.Proofs.Frame Sys2Proof.Proofs.Storage Sys2Proof.Proofs.Accesses
open Sys2Proof.Proofs.Lists Sys2Proof.Proofs.StoreMultiple

/-! ## A list of loads -/

/-- What a slot holds. -/
abbrev slotContent (sz : Size) (ea : Word) (m : Memory) (k : Nat) : Word := m.readLE (slotAt ea sz k) (sizeBytes sz)

/-- The state after loads of general registers from their slots. -/
def State.loadedRegs (sz : Size) (ea : Word) (m : Memory) : List (Nat × Reg) → State → State
  | [], s => s
  | (k, r) :: rest, s => State.loadedRegs sz ea m rest (s.wb r ((slotContent sz ea m k).setWidth (sizeBits sz)))

theorem mem_wb (sz : Size) (s : State) (i : Reg) (r : BitVec (sizeBits sz)) : (s.wb i r).mem = s.mem := by
  obtain ⟨v, n, e, -⟩ := s.wb_spec (sizeBits_le sz) i r
  rw [e]
  simp

theorem ccrg_wb (sz : Size) (s : State) (i : Reg) (r : BitVec (sizeBits sz)) : (s.wb i r).ccrg = s.ccrg := by
  obtain ⟨v, n, e, -⟩ := s.wb_spec (sizeBits_le sz) i r
  rw [e]
  simp

theorem ccrg_loadedRegs (sz : Size) (ea : Word) (m : Memory) : ∀ (loads : List (Nat × Reg)) (s : State),
    (State.loadedRegs sz ea m loads s).ccrg = s.ccrg
  | [], _ => rfl
  | (_, _) :: rest, s => (ccrg_loadedRegs sz ea m rest _).trans (ccrg_wb sz s ..)

theorem writes_loadedRegs (sz : Size) (ea : Word) (m : Memory) {regs : List Reg} : ∀ {loads : List (Nat × Reg)} {s t : State},
    loads.map Prod.snd ⊆ regs → Writes regs [] s t → Writes regs [] s (State.loadedRegs sz ea m loads t)
  | [], _, _, _, ht => ht
  | (k, r) :: rest, s, t, h, ht => by
    rw [List.map_cons, List.cons_subset] at h
    exact writes_loadedRegs sz ea m (loads := rest) h.2 (ht.wb (sizeBits_le sz) h.1 _)

theorem x_loadedRegs_other (sz : Size) (ea : Word) (m : Memory) {i : Reg} : ∀ {loads : List (Nat × Reg)} {s : State},
    i ∉ loads.map Prod.snd → (State.loadedRegs sz ea m loads s).x i = s.x i
  | [], _, _ => rfl
  | (k, r) :: rest, s, h => by
    rw [List.map_cons, List.mem_cons, not_or] at h
    exact (x_loadedRegs_other sz ea m h.2).trans (x_wb_other (sizeBits_le sz) s _ h.1)

/-- Each register has the content of its slot at the end, since it is loaded once. -/
theorem holdsResult_loadedRegs (sz : Size) (ea : Word) (m : Memory) : ∀ {loads : List (Nat × Reg)} {s : State},
    (loads.map Prod.snd).Nodup → ∀ p ∈ loads, p.2 ≠ 0#5 →
    HoldsResult s.params ((slotContent sz ea m p.1).setWidth (sizeBits sz)) (s.x p.2) ((State.loadedRegs sz ea m loads s).x p.2)
  | [], _, _, _, hp, _ => nomatch hp
  | (k, r) :: rest, s, hnd, p, hp, h0 => by
    rw [List.map_cons, List.nodup_cons] at hnd
    obtain ⟨hr, hnd⟩ := hnd
    have hw := sizeBits_le sz
    rw [State.loadedRegs]
    rcases List.mem_cons.1 hp with rfl | hp
    · rw [x_loadedRegs_other sz ea m hr]
      exact holdsResult_wb hw s h0 _
    · have hne : p.2 ≠ r := by
        intro e
        rw [← e] at hr
        exact hr (List.mem_map.2 ⟨p, hp, rfl⟩)
      have h := holdsResult_loadedRegs sz ea m (s := s.wb r ((slotContent sz ea m k).setWidth (sizeBits sz))) hnd p hp h0
      rwa [params_wb hw, x_wb_other hw s _ hne] at h

theorem loadSlots_generals {sz : Size} {ea : Word} (tail : List (Nat × Slot)) (held : List (Special × Word)) :
    ∀ {loads : List (Nat × Reg)} {s : State}, (∀ p ∈ loads, CanAccess s .read (slotAt ea sz p.1) (sizeBytes sz)) →
    loadSlots sz ea ((loads.map fun p => (p.1, Slot.general p.2)) ++ tail) held s =
      loadSlots sz ea tail held (State.loadedRegs sz ea s.mem loads s)
  | [], _, _ => rfl
  | (k, r) :: rest, s, h => by
    have hp := params_wb (sizeBits_le sz) s r ((slotContent sz ea s.mem k).setWidth (sizeBits sz))
    have ih := loadSlots_generals tail held (loads := rest) (s := s.wb r ((slotContent sz ea s.mem k).setWidth (sizeBits sz)))
      fun p hm => (canAccess_congr hp _ _ _).2 (h p (List.mem_cons_of_mem _ hm))
    rw [mem_wb] at ih
    have hk : CanAccess s .read (slotAddr ea (sizeBytes sz) k) (sizeBytes sz) := h (k, r) List.mem_cons_self
    rw [List.map_cons, List.cons_append, loadSlots, memRead_of_can (by exact hk), Act.andThen]
    exact ih

theorem loadSlots_specials {sz : Size} {ea : Word} (tail : List (Nat × Slot)) : ∀ {loads : List (Nat × Special)} {s : State}
    (held : List (Special × Word)), (∀ p ∈ loads, CanAccess s .read (slotAt ea sz p.1) (sizeBytes sz)) →
    loadSlots sz ea ((loads.map fun p => (p.1, Slot.special p.2)) ++ tail) held s =
      loadSlots sz ea tail (held ++ loads.map fun p => (p.2, slotContent sz ea s.mem p.1)) s
  | [], _, held, _ => by rw [List.map_nil, List.map_nil, List.nil_append, List.append_nil]
  | (k, r) :: rest, s, held, h => by
    have hk : CanAccess s .read (slotAddr ea (sizeBytes sz) k) (sizeBytes sz) := h (k, r) List.mem_cons_self
    rw [List.map_cons, List.cons_append, loadSlots, memRead_of_can (by exact hk), Act.andThen,
      loadSlots_specials tail _ fun p hm => h p (List.mem_cons_of_mem _ hm), List.map_cons, List.append_assoc]
    rfl

theorem loadSlots_of_not {sz : Size} {ea : Word} {x : Nat × Slot} (rest : List (Nat × Slot)) (held : List (Special × Word)) {s : State}
    (h : ¬ CanAccess s .read (slotAt ea sz x.1) (sizeBytes sz)) :
    loadSlots sz ea (x :: rest) held s = .raise (faultVector s (slotAt ea sz x.1) (sizeBytes sz)) s := by
  obtain ⟨k, r | p⟩ := x <;> rw [loadSlots, show slotAddr ea (sizeBytes sz) k = slotAt ea sz k from rfl, memRead_of_not h] <;> rfl

/-! ## The special registers -/

section
variable (sel : Nat → Bool) (val : Nat → Word)

/-- The special registers that are selected, with their values. -/
abbrev heldOf : List (Special × Word) := ((List.range 5).filter sel).map fun j => (specialOf j, val j)

/-- A special register written where it is selected. -/
def State.writeSelected (s : State) (j : Nat) : State := if sel j then s.writeSpecial (specialOf j) (val j) else s

theorem writeSelected_pc (s : State) : State.writeSelected sel val s 0 = s := ite_self s

theorem writeSelected_ccrg (s : State) :
    State.writeSelected sel val s 1 = { s with ccrg := if sel 1 then (val 1).setWidth 32 else s.ccrg } := by
  cases h : sel 1 <;> rw [State.writeSelected, h] <;> rfl

theorem writeSelected_sr (s : State) :
    State.writeSelected sel val s 2 = { s with sr := if sel 2 then (val 2).setWidth 32 &&& srMask else s.sr } := by
  cases h : sel 2 <;> rw [State.writeSelected, h] <;> rfl

theorem writeSelected_ac (s : State) :
    State.writeSelected sel val s 3 = { s with ac := if sel 3 then val 3 &&& acMask else s.ac } := by
  cases h : sel 3 <;> rw [State.writeSelected, h] <;> rfl

theorem writeSelected_lc (s : State) : State.writeSelected sel val s 4 = { s with lc := if sel 4 then val 4 else s.lc } := by
  cases h : sel 4 <;> rw [State.writeSelected, h] <;> rfl

theorem writeSpecials_heldOf (s : State) : s.writeSpecials (heldOf sel val) = { s with
    ccrg := if sel 1 then (val 1).setWidth 32 else s.ccrg
    sr := if sel 2 then (val 2).setWidth 32 &&& srMask else s.sr
    ac := if sel 3 then val 3 &&& acMask else s.ac
    lc := if sel 4 then val 4 else s.lc } := by
  rw [State.writeSpecials, heldOf, List.foldl_map, List.foldl_filter]
  change [0, 1, 2, 3, 4].foldl (State.writeSelected sel val) s = _
  simp only [List.foldl, writeSelected_pc, writeSelected_ccrg, writeSelected_sr, writeSelected_ac, writeSelected_lc]

theorem heldPc_heldOf : heldPc (heldOf sel val) = if sel 0 then some (val 0) else none := by
  have hnone : ∀ l : List Nat, 0 ∉ l → heldPc (l.map fun j => (specialOf j, val j)) = none := by
    intro l
    induction l with
    | nil => exact fun _ => rfl
    | cons j l ih =>
      intro h
      rw [List.mem_cons, not_or] at h
      match j, h.1 with
      | 1, _ | 2, _ | 3, _ | _ + 4, _ => exact ih h.2
  change heldPc (((0 :: [1, 2, 3, 4] : List Nat).filter sel).map fun j => (specialOf j, val j)) = _
  rw [List.filter_cons]
  split
  · rfl
  · exact hnone _ fun h => absurd (List.mem_filter.1 h).1 (by decide)

end

/-! ## LOADM -/

section
variable {sz : Size} {skip : Bool} {list : BitVec 32} {special : BitVec 5} {ea : Word} {words : Nat} {s : State}

/-- The state in which the general registers of a list are loaded. -/
abbrev loadedList (sz : Size) (skip : Bool) (list : BitVec 32) (ea : Word) (s : State) : State :=
  State.loadedRegs sz ea s.mem (generalSlots list skip) s

/-- The values of the special registers of a list; their slots are octas (R282). -/
abbrev heldList (sz : Size) (skip : Bool) (list : BitVec 32) (special : BitVec 5) (ea : Word) (s : State) : List (Special × Word) :=
  heldOf (fun j => special.getLsbD j) fun j => s.mem.readLE (slotAt ea sz (specialSlot list special skip j)) 8

theorem writes_loadedList : Writes (listed list) [] s (loadedList sz skip list ea s) :=
  writes_loadedRegs sz ea s.mem (by rw [generalSlots_registers]; exact List.Subset.refl _) (Writes.refl _ _ s)

theorem mem_loadedRegs (sz : Size) (ea : Word) (m : Memory) : ∀ (loads : List (Nat × Reg)) (s : State),
    (State.loadedRegs sz ea m loads s).mem = s.mem
  | [], _ => rfl
  | (_, _) :: rest, s => (mem_loadedRegs sz ea m rest _).trans (mem_wb sz s ..)

theorem holdsResult_loadedList {i : Reg} (h0 : i ≠ 0#5) (hl : list.getLsbD i.toNat = true) :
    HoldsResult s.params ((s.mem.readLE (slotAt ea sz (registerSlot list skip i.toNat)) (sizeBytes sz)).setWidth (sizeBits sz))
      (s.x i) ((loadedList sz skip list ea s).x i) :=
  holdsResult_loadedRegs sz ea s.mem (by rw [generalSlots_registers]; exact nodup_listed list)
    (registerSlot list skip i.toNat, i) (mem_generalSlots.2 ⟨hl, rfl⟩) h0

theorem heldList_eq (hm : MayList sz special s) : (specialSlots list special skip).map (fun p => (p.2, slotContent sz ea s.mem p.1)) =
    heldList sz skip list special ea s := by
  rw [specialSlots, List.map_map]
  refine List.map_congr_left fun j hj => ?_
  obtain rfl := special_octa hm (List.mem_filter.1 hj).2
  rfl

theorem generals_canAccess (h : CanAccessSlots s .read sz list special skip ea) :
    ∀ p ∈ generalSlots list skip, CanAccess s .read (slotAt ea sz p.1) (sizeBytes sz) := fun p hp => by
  obtain ⟨hl, hk⟩ := mem_generalSlots.1 hp
  rw [hk]
  exact h.1 _ p.2.isLt hl

theorem specials_canAccess {t : State} (ht : t.params = s.params) (h : CanAccessSlots s .read sz list special skip ea) :
    ∀ p ∈ specialSlots list special skip, CanAccess t .read (slotAt ea sz p.1) (sizeBytes sz) := fun p hp => by
  obtain ⟨j, hj, hl, rfl⟩ := mem_specialSlots.1 hp
  exact (canAccess_congr ht _ _ _).2 (h.2 j hj hl)

/-- The slots of a list are read, and the others after them. -/
theorem loadSlots_layout (hm : MayList sz special s) (h : CanAccessSlots s .read sz list special skip ea) (tail : List (Nat × Slot)) :
    loadSlots sz ea (slotLayout list special skip ++ tail) [] s =
      loadSlots sz ea tail (heldList sz skip list special ea s) (loadedList sz skip list ea s) := by
  have hp : (loadedList sz skip list ea s).params = s.params := writes_loadedList.rest.params
  rw [slotLayout_eq, List.append_assoc, loadSlots_generals _ _ (generals_canAccess h),
    loadSlots_specials tail [] (specials_canAccess hp h), mem_loadedRegs, heldList_eq hm, List.nil_append]

variable {u : Option (Reg × Word)}

theorem loadmOp_of_can (hm : MayList sz special s) (hpc : updatesPc u = false) (hl : updatesListed u list = false)
    (h : CanAccessSlots s .read sz list special skip ea) : loadmOp sz skip list special ea u words s =
      finishLoadm (heldList sz skip list special ea s) words
        (((loadedList sz skip list ea s).updateBase u).writeSpecials (heldList sz skip list special ea s)) := by
  have hload := loadSlots_layout hm h []
  rw [List.append_nil] at hload
  rw [loadmOp, listChecked_of_may _ hm, if_neg (by simp [hpc]), if_neg (by simp [hl]), hload]
  rfl

theorem loadmOp_stops {list' : BitVec 32} {special' : BitVec 5} {a : Word} (hm : MayList sz special s)
    (hpc : updatesPc u = false) (hl : updatesListed u list = false)
    (h : FailsAfter s .read sz list special skip ea list' special' a) :
    LoadmStops sz skip list' ea a (loadmOp sz skip list special ea u words s) s := by
  obtain ⟨x, rest, hsplit, ha⟩ := slotLayout_of_failsAfter h
  have hm' : MayList sz special' s := mayList_of_failsAfter hm h
  obtain ⟨-, hcan, hnot⟩ := h
  subst ha
  have hw : Writes (listed list') [] s (loadedList sz skip list' ea s) := writes_loadedList
  have hp := hw.rest.params
  have e : loadSlots sz ea (slotLayout list special skip) [] s =
      .raise (faultVector s (slotAt ea sz x.1) (sizeBytes sz)) (loadedList sz skip list' ea s) := by
    rw [hsplit, loadSlots_layout hm' hcan, loadSlots_of_not rest _ fun hc => hnot ((canAccess_congr hp _ _ _).1 hc),
      faultVector_congr hp]
  refine ⟨loadedList sz skip list' ea s, ?_, hw.pc, fun i h0 hi => holdsResult_loadedList h0 hi, hw.rest, hw.memory⟩
  rw [loadmOp, listChecked_of_may _ hm, if_neg (by simp [hpc]), if_neg (by simp [hl]), e, Act.finish, hw.pc]

theorem not_mem_updateRegs_of_listed {i : Reg} (hl : updatesListed u list = false) (hi : list.getLsbD i.toNat = true) :
    i ∉ updateRegs u := by
  rcases u with - | ⟨rb, v⟩
  · exact List.not_mem_nil
  · rw [updateRegs, List.mem_singleton]
    rintro rfl
    rw [updatesListed, hi] at hl
    cases hl

theorem regIn_of_fields {t t' : State} (hg : t.gpr = t'.gpr) (hu : t.usp = t'.usp) (hs : t.ssp = t'.ssp) (hsr : t'.sr = s.sr)
    (i : Reg) : regIn s.supervisor t i = t'.x i := by
  rw [← State.supervisor_eq_of_sr s t' hsr, regIn]
  by_cases h31 : i = 31#5
  · subst h31
    simp [State.x, hu, hs]
  · rw [if_neg h31, State.x, State.x, if_neg h31, if_neg h31, hg]

theorem ccrg_updateBase (t : State) : (t.updateBase u).ccrg = t.ccrg := by
  rcases u with - | ⟨rb, v⟩
  · rfl
  · exact State.setX_ccrg t rb v

/-- The program counter a LOADM ends with. -/
abbrev loadmNext (sz : Size) (skip : Bool) (list : BitVec 32) (special : BitVec 5) (ea : Word) (words : Nat) (s : State) : Word :=
  if special.getLsbD 0 then s.mem.readLE (slotAt ea sz (specialSlot list special skip 0)) 8 else s.pc + BitVec.ofNat 64 (4 * words)

theorem finishLoadm_heldList {t : State} (hpc : t.pc = s.pc) (room : special.getLsbD 0 = true ∨ Room words s) :
    finishLoadm (heldList sz skip list special ea s) words t = .next (t.jump (loadmNext sz skip list special ea words s)) := by
  rw [finishLoadm, heldPc_heldOf, loadmNext]
  cases h0 : special.getLsbD 0
  · have hroom : Room words s := room.resolve_left (Bool.eq_false_iff.1 h0)
    exact advance_next.2 ⟨by rw [hpc]; exact hroom, by rw [State.pcNext, hpc]; rfl⟩
  · rfl

theorem loadmOp_completes (hm : MayList sz special s) (hpc : updatesPc u = false) (hl : updatesListed u list = false)
    (h : CanAccessSlots s .read sz list special skip ea) (room : special.getLsbD 0 = true ∨ Room words s) :
    Completes (loadmOp sz skip list special ea u words s) fun t =>
      LoadmEffect sz skip list special ea (updateRegs u) words s t ∧
      ∃ t', ∀ i, regIn s.supervisor t i = (State.updateBase u t').x i := by
  have hsub : listed list ⊆ listed list ++ updateRegs u := List.subset_append_left ..
  have hload : Writes (listed list ++ updateRegs u) [] s (loadedList sz skip list ea s) :=
    writes_loadedRegs sz ea s.mem (by rw [generalSlots_registers]; exact hsub) (Writes.refl _ _ s)
  obtain ⟨hpc', hrest, hmem⟩ := writes_updateBase (u := u) hload (List.subset_append_right ..)
  have hccrg : ((loadedList sz skip list ea s).updateBase u).ccrg = s.ccrg := (ccrg_updateBase _).trans (ccrg_loadedRegs ..)
  rw [loadmOp_of_can hm hpc hl h, writeSpecials_heldOf, finishLoadm_heldList (by exact hpc') room]
  have hx t hg hu hs := regIn_of_fields (s := s) (t := t) (t' := (loadedList sz skip list ea s).updateBase u) hg hu hs hrest.sr
  have ho := hrest.otherSp
  have hs := State.supervisor_eq_of_sr _ _ hrest.sr
  refine ⟨_, rfl, ⟨fun i h0 hi => ?_, fun i hi => ?_, ?_, rfl, ?_, ?_, ?_, ?_, hrest.vb, hrest.stuck, hrest.irq, hrest.params,
    ⟨hmem.byte, hmem.stored⟩⟩, loadedList sz skip list ea s, fun i => by rw [hx] <;> rfl⟩
  · rw [hx, x_updateBase_other _ (not_mem_updateRegs_of_listed hl hi)]
    · exact holdsResult_loadedList h0 hi
    all_goals rfl
  · rw [hx]
    · refine hrest.x i (hi.symm.imp_left ?_)
      rintro ⟨hlist, hreg⟩ hmem
      rcases List.mem_append.1 hmem with h1 | h1
      · rw [mem_listed.1 h1] at hlist
        cases hlist
      · exact hreg h1
    all_goals rfl
  · rw [State.otherSp, hs, State.otherSp] at ho
    cases hmode : s.supervisor <;> simpa [hmode] using ho
  · rw [← hccrg]
    rfl
  · rw [← hrest.sr]
    rfl
  · rw [← hrest.ac]
    rfl
  · rw [← hrest.lc]
    rfl

end

theorem exec_loadm (sz : Size) (md : UpdMode) (skip : Bool) (list : BitVec 32) (special : BitVec 5) (rb : Reg) (d : Disp 11)
    (s : State) : exec (.loadm sz md skip list special rb d) s =
      loadmOp sz skip list special (address s md rb d) (s.baseUpdate md rb d) (2 + d.extWords) s := by
  rw [← ea_eq_address]
  rfl

theorem exec_loadmX (sz : Size) (skip : Bool) (list : BitVec 32) (special : BitVec 5) (rb rc : Reg) (d : Disp 6) (s : State) :
    exec (.loadmX sz skip list special rb rc d) s =
      loadmOp sz skip list special (indexedAddress s rb rc d) none (2 + d.extWords) s := rfl

/-- Settles O57. -/
theorem loadMultipleResultAndFrame : Obligations.LoadMultipleResultAndFrame := by
  refine fun s sz skip list special rb rc hm => ⟨fun md d hmay hlist h room => ?_, fun d h room => ?_⟩
  · obtain ⟨t, ht, he, t', hx⟩ := loadmOp_completes hm (updatesPc_of_may (s := s) (d := d) hmay) (updatesListed_of_not hlist) h room
    rw [updateRegs_baseUpdate] at he
    exact ⟨t, (exec_loadm ..).trans ht, he, fun hne => by rw [hx, x_updateBase_base t' hmay hne]⟩
  · obtain ⟨t, ht, he, -⟩ := loadmOp_completes (u := none) hm rfl rfl h room
    exact ⟨t, (exec_loadmX ..).trans ht, he⟩

end Sys2Proof.Proofs.LoadMultiple
end

section
/-! PROOFS. Accesses that fail (`spec/20_memory.md` R63, R66, R77): the exception, and what was done before it. -/

namespace Sys2Proof.Proofs.Failures

open Sys2Proof Sys2Proof.Machine Sys2Proof.Claims Sys2Proof.Proofs.Frame Sys2Proof.Proofs.Storage Sys2Proof.Proofs.Accesses
open Sys2Proof.Proofs.Transfers Sys2Proof.Proofs.StoreMultiple Sys2Proof.Proofs.LoadMultiple

/-! ## Loads, stores and pushes -/

theorem failedLoadsAndStores : FailedLoadsAndStores := by
  refine fun s sz rt ra rb rc => ⟨fun md d hm hl h => ?_, fun d h => loadOp_raises (u := none) rfl rfl h,
    fun md d hm h => ⟨?_, fun imm => ?_⟩, fun d h => ⟨storeOp_raises (u := none) rfl h, fun imm => storeOp_raises (u := none) rfl h⟩⟩
  · rw [Raises, exec_load]
    exact loadOp_raises (updatesPc_of_may hm) (updatesReg_of_ne hl) h
  · rw [Raises, exec_store]
    exact storeOp_raises (updatesPc_of_may hm) h
  · rw [Raises, exec_storeImm]
    exact storeOp_raises (updatesPc_of_may hm) h

theorem callOp_first_fails {g : Bool} {s : State} (target : Word) (words : Nat) (h : ¬ CanAccess s .write (s.x 31#5 - 8#64) 8) :
    Raises (callOp g target words s) (s.x 31#5 - 8#64) 8 s s := by
  rw [Raises, callOp, push8_of_not _ h]
  rfl

theorem callOp_second_fails {s : State} (target : Word) (words : Nat) (hi : s.Inv) (h1 : CanAccess s .write (s.x 31#5 - 8#64) 8)
    (h2 : ¬ CanAccess s .write (s.x 31#5 - 16#64) 8) : SecondPushFails words (callOp true target words s) s := by
  refine ⟨s.pushed (s.pcNext words), ?_, by simp, by simp, pushed_top _ s hi.mem, pushed_block _ s, keeps_pushed _ s⟩
  have e := push8_at_not (t := s.pushed (s.pcNext words)) (s := s) ((s.pushed (s.pcNext words)).ccrg.setWidth 64) (by simp)
    (a := s.x 31#5 - 16#64) (by simp [BitVec.sub_sub]) h2
  rw [Raises, callOp, push8_of_can _ h1, Act.andThen, if_pos rfl, e, Act.finish, pushed_pc,
    faultVector_congr (pushed_params _ s)]

theorem failedPushes : FailedPushes := by
  refine fun s g sz ra rb rc => ⟨pushOp_raises, fun h => ⟨fun md d => ?_, fun d => pushOp_raises h⟩, fun h =>
    ⟨pushOp_raises h, fun e => callOp_first_fails _ 1 h, callOp_first_fails _ 1 h, fun _ => callOp_first_fails _ 2 h,
      fun _ => callOp_first_fails _ 3 h, fun _ => callOp_first_fails _ 1 h⟩, fun hi h1 h2 =>
    ⟨callOp_second_fails _ 1 hi h1 h2, fun _ => callOp_second_fails _ 2 hi h1 h2, fun _ => callOp_second_fails _ 3 hi h1 h2,
      fun _ => callOp_second_fails _ 1 hi h1 h2⟩⟩
  rw [Raises, exec_pea]
  exact pushOp_raises h

/-! ## Pops -/

theorem sysReturn_fails_first {s : State} (arg : BitVec 10) (rpt : BitVec 5) (h : ¬ CanAccess s .read (s.x 31#5) 8) :
    Raises (sysReturn arg rpt s) (s.x 31#5) 8 s s := by
  rw [Raises, sysReturn, pop8_of_not h]
  rfl

theorem exec_rti {s : State} (arg : BitVec 10) (rpt : BitVec 5) (hs : s.supervisor = true) :
    exec (.rti arg rpt) s = sysReturn arg rpt s := if_pos hs

theorem sysReturn_fails_second {s : State} (arg : BitVec 10) (rpt : BitVec 5) (h1 : CanAccess s .read (s.x 31#5) 8)
    (h2 : ¬ CanAccess s .read (s.x 31#5 + 8#64) 8) :
    Raises (sysReturn arg rpt s) (s.x 31#5 + 8#64) 8 s (s.setX 31#5 (s.x 31#5 + 8#64)) := by
  rw [Raises, sysReturn, pop8_of_can h1, Act.andThen, pop8_at_not h2]
  dsimp only [Act.andThen, Act.finish]
  rw [State.setX_pc]

theorem sysReturn_fails_third {s : State} (arg : BitVec 10) (rpt : BitVec 5) (h1 : CanAccess s .read (s.x 31#5) 8)
    (h2 : CanAccess s .read (s.x 31#5 + 8#64) 8) (h3 : ¬ CanAccess s .read (s.x 31#5 + 16#64) 8) :
    Raises (sysReturn arg rpt s) (s.x 31#5 + 16#64) 8 s (s.setX 31#5 (s.x 31#5 + 16#64)) := by
  rw [Raises, sysReturn, pop8_of_can h1, Act.andThen, pop8_at (b := s.x 31#5 + 16#64) h2 (by rw [BitVec.add_assoc]; rfl)]
  dsimp only [Act.andThen]
  rw [pop8_at_not h3]
  dsimp only [Act.finish]
  rw [State.setX_pc]

theorem failedPops : FailedPops := by
  refine fun s arg rpt => ⟨fun h => ⟨?_, ?_, fun hs => ?_⟩, fun h1 h2 => ⟨?_, fun hs => ?_⟩, fun hs h1 h2 h3 => ?_⟩
  · change Raises (execRts arg rpt s) _ _ _ _
    rw [Raises, execRts, pop8_of_not h]
    rfl
  · change Raises (appReturn arg rpt s) _ _ _ _
    rw [Raises, appReturn, pop8_of_not h]
    rfl
  · rw [Raises, exec_rti arg rpt hs]
    exact sysReturn_fails_first arg rpt h
  · change Raises (appReturn arg rpt s) _ _ _ _
    rw [Raises, appReturn, pop8_of_can h1, Act.andThen, pop8_at_not h2]
    dsimp only [Act.andThen, Act.finish]
    rw [State.setX_pc]
  · have h := sysReturn_fails_second arg rpt h1 h2
    rwa [Raises, exec_rti arg rpt hs, x_sp_supervisor hs, setX_sp_supervisor _ hs] at *
  · have hx := x_sp_supervisor hs
    have h := sysReturn_fails_third arg rpt (s := s) (by rwa [hx]) (by rwa [hx]) (by rwa [hx])
    rw [hx, setX_sp_supervisor _ hs] at h
    rw [Raises, exec_rti arg rpt hs]
    exact h

/-! ## Multiple loads and stores -/

theorem failedMultiples : FailedMultiples := by
  refine fun s sz skip list special rb rc list' special' a hm => ⟨fun md d hmay hl h => ?_, fun d h =>
    loadmOp_stops (u := none) hm rfl rfl h, fun md d hi hmay h => ?_, fun d hi h => storemOp_stops (u := none) hi hm rfl h⟩
  · rw [exec_loadm]
    exact loadmOp_stops hm (updatesPc_of_may hmay) (updatesListed_of_not hl) h
  · rw [exec_storem]
    exact storemOp_stops hi hm (updatesPc_of_may hmay) h

/-- Settles O59. -/
theorem failedAccessesRaiseTheirException : Obligations.FailedAccessesRaiseTheirException :=
  ⟨failedLoadsAndStores, failedPushes, failedPops, failedMultiples⟩

end Sys2Proof.Proofs.Failures
end

section
/-! PROOFS. The top of memory (`spec/10_state.md` R26): every instruction that ends in sequence does so by `advance`, which
refuses where the next instruction would start at 2^64 or above; and the other steps the spec gives no meaning. -/

namespace Sys2Proof.Proofs.TopOfMemory

open Sys2Proof Sys2Proof.Machine Sys2Proof.Claims Sys2Proof.Proofs.Frame Sys2Proof.Proofs.Csr Sys2Proof.Proofs.Cycle
open Sys2Proof.Proofs.FlowControl Sys2Proof.Proofs.Transfers Sys2Proof.Proofs.Accesses Sys2Proof.Proofs.StoreMultiple
open Sys2Proof.Proofs.LoadMultiple

/-- A result that is the end in sequence of an instruction of `words` words that started in `s`. -/
def Advances (words : Nat) (s : State) (r : Result) : Prop := ∃ t, t.pc = s.pc ∧ r = advance words t

theorem Advances.refused {words : Nat} {s : State} {r : Result} (h : Advances words s r) (htop : 2 ^ 64 ≤ s.pc.toNat + 4 * words) :
    r = .refused .pastTopOfMemory := by
  obtain ⟨t, hpc, rfl⟩ := h
  rw [← hpc] at htop
  exact if_neg (Nat.not_lt.2 htop)

theorem advances_of_pc {words : Nat} {s t : State} (h : t.pc = s.pc) : Advances words s (advance words t) := ⟨t, h, rfl⟩

@[simp] theorem writeFlags_pc (s : State) (n : CReg) (m v : BitVec 4) : (s.writeFlags n m v).pc = s.pc := by
  obtain ⟨f, k, e, -⟩ := s.writeFlags_spec n m v
  rw [e]
  rfl

/-! ## Results and flags -/

section
variable {w : Nat} (hw : w ≤ 64) (s : State) (ct : CReg) (rt : Reg)

theorem cmpOp_advances (p : BitVec w × BitVec w) (words : Nat) : Advances words s (cmpOp ct p words s) :=
  advances_of_pc (by simp)

theorem fcmpOp_advances (sz : Size) (p : BitVec (sizeBits sz) × BitVec (sizeBits sz)) (words : Nat)
    (h : s.ac.extractLsb' 0 2 = 0#2) : Advances words s (fcmpOp ct sz p words s) := by
  rw [fcmpOp, if_pos (by exact h)]
  exact advances_of_pc (by simp)

include hw

theorem finishAlu_advances (r : BitVec w) (mentioned f : BitVec 4) (words : Nat) :
    Advances words s (finishAlu ct rt r mentioned f words s) :=
  advances_of_pc (by simp [pc_wb hw])

theorem addOp_advances (a b : BitVec w) (words : Nat) (h : s.ac.getLsbD 2 = false) :
    Advances words s (addOp ct rt a b words s) := by
  rw [addOp, if_neg (by simpa [State.decimal] using h)]
  exact finishAlu_advances hw s ct rt _ _ _ words

theorem adcOp_advances (a b : BitVec w) (words : Nat) (h : s.ac.getLsbD 2 = false) :
    Advances words s (adcOp ct rt a b words s) := by
  rw [adcOp, if_neg (by simpa [State.decimal] using h)]
  exact finishAlu_advances hw s ct rt _ _ _ words

theorem subOp_advances (p : BitVec w × BitVec w) (words : Nat) : Advances words s (subOp ct rt p words s) :=
  finishAlu_advances hw s ct rt _ _ _ words

theorem logicOp_advances (r : BitVec w) (words : Nat) : Advances words s (logicOp ct rt r words s) :=
  finishAlu_advances hw s ct rt r _ _ words

theorem writeBack_advances (r : BitVec w) : Advances 1 s (advance 1 (s.wb rt r)) :=
  advances_of_pc (pc_wb hw s rt r)

/-! ## Multiplication and division -/

theorem mulOp_advances (r : BitVec w) (v : Bool) (words : Nat) : Advances words s (mulOp ct rt r v words s) :=
  advances_of_pc (by simp [pc_wb hw])

theorem mulOpHigh_advances (rp : Reg) (r hi : BitVec w) (v : Bool) (h : rp ≠ rt ∨ rt = 0#5) :
    Advances 1 s (mulOpHigh ct rt rp r hi v s) := by
  rw [mulOpHigh, if_neg (by tauto)]
  exact advances_of_pc (by simp [pc_wb hw])

theorem divOp_advances {b : BitVec w} (x : DivResult w) (words : Nat) (h : b ≠ 0#w) :
    Advances words s (divOp ct rt b x words s) := by
  rw [divOp, if_neg h]
  exact advances_of_pc (by simp [pc_wb hw])

theorem divOpRem_advances {b : BitVec w} (rr : Reg) (x : DivResult w) (h : (rr ≠ rt ∨ rt = 0#5) ∧ b ≠ 0#w) :
    Advances 1 s (divOpRem ct rt rr b x s) := by
  obtain ⟨hd, hb⟩ := h
  rw [divOpRem, if_neg (by tauto), if_neg hb]
  exact advances_of_pc (by simp [pc_wb hw])

omit hw

theorem divisor_ne {swap : Bool} {a imm v : BitVec w} (hv : v = imm) (h : InOrder swap a imm fun _ b => b ≠ 0#w) :
    (swapped swap a v).2 ≠ 0#w := by
  obtain ⟨hplain, hswap⟩ := h
  subst hv
  cases swap with
  | false => exact hplain rfl
  | true => exact hswap rfl

/-! ## Bits, shifts and exchanges -/

theorem testFlags_advances (mentioned f : BitVec 4) : Advances 1 s (advance 1 (s.writeFlags ct mentioned f)) :=
  advances_of_pc (by simp)

include hw

theorem shiftOp_advances (step : ShiftState w → ShiftState w) (a : BitVec w) (n : Nat) :
    Advances 1 s (shiftOp step ct rt a n s) := by
  unfold shiftOp
  split <;> exact advances_of_pc (by simp [pc_wb hw])

end

theorem swapOp_advances {u : Nat} (hu : u + u ≤ 64) (s : State) (ct : CReg) (rt : Reg) (lo hi : BitVec u) :
    Advances 1 s (swapOp ct rt lo hi s) :=
  advances_of_pc (by simp [pc_wb hu])

theorem halves_le (sz : HalfSize) : halfBits sz + halfBits sz ≤ 64 := by cases sz <;> decide

/-! ## Control registers, traps and branches -/

theorem csrWrite_advances {r : CsrReg} (hr : r = .ccr ∨ r = .sr) (v : Word) (s : State) : Advances 1 s (csrWrite r v s) := by
  rcases hr with rfl | rfl
  · exact advances_of_pc (t := { s with ccrg := v.setWidth 32 }) rfl
  · exact advances_of_pc (t := s.writeSr (v.setWidth 32)) rfl

/-- The number of a writable CSR stands in the first word. -/
theorem csrUpdate_advances {op : CsrNum → Reg → Instr} {f : Word → Word → Word} (hop : Updates op f) {n : CsrNum} (rb : Reg)
    {s : State} (w : InsnWord) (h : n = .field 1#7 ∨ (s.supervisor = true ∧ n = .field 2#7)) :
    Advances (w :: n.words).length s (exec (op n rb) s) := by
  rw [hop, csrUpdate]
  rcases h with rfl | ⟨hs, rfl⟩
  · rw [csrChecked_of_allowed (r := .ccr) _ rfl (.inl rfl)]
    exact csrWrite_advances (.inl rfl) _ s
  · rw [csrChecked_of_allowed (r := .sr) _ rfl (.inr hs)]
    exact csrWrite_advances (.inr rfl) _ s

theorem csrRead_pc (s : State) (r : CsrReg) : (s.csrRead r).2.pc = s.pc := by cases r <;> rfl

theorem moveFromCsr_advances {n : CsrNum} (rb : Reg) {s : State} (w : InsnWord)
    (h : n = .field 1#7 ∨ n = .field 120#7 ∨ (s.supervisor = true ∧ (n = .field 2#7 ∨ n = .field 121#7))) :
    Advances (w :: n.words).length s (exec (.moveFromCsr n rb) s) := by
  have hread : ∀ {m : BitVec 7} {r : CsrReg}, csrReg (.field m) = some r → (r.privileged = false ∨ s.supervisor = true) →
      Advances 1 s (exec (.moveFromCsr (.field m) rb) s) := by
    intro m r hr hp
    rw [exec_moveFromCsr, csrChecked_of_allowed _ hr hp]
    exact ⟨_, (State.setX_pc _ _ _).trans (csrRead_pc s r), rfl⟩
  rcases h with rfl | rfl | ⟨hs, rfl | rfl⟩
  · exact hread (r := .ccr) rfl (.inl rfl)
  · exact hread (r := .tick) rfl (.inl rfl)
  · exact hread (r := .sr) rfl (.inr hs)
  · exact hread (r := .coreno) rfl (.inr hs)

theorem trapv_advances {cr : CReg} (data : BitVec 11) (rt : Reg) {s : State} (h : (s.cr cr).getLsbD 1 = false) :
    Advances 1 s (exec (.trapv cr data rt) s) := by
  rw [exec_trapv, h]
  exact ⟨s, rfl, rfl⟩

theorem bcc_advances {c : Cond} {cr : CReg} (d : BitVec 19) {s : State} (h : condHolds c (s.cr cr) = false) :
    Advances 1 s (exec (.bcc c cr d) s) := by
  rw [exec_bcc, h]
  exact ⟨s, rfl, rfl⟩

theorem dbcc_advances {c : Cond} {cr : CReg} (d : BitVec 19) {s : State} (h : condHolds c (s.cr cr) = true ∨ s.lc = 0#64) :
    Advances 1 s (exec (.dbcc c cr d) s) := by
  have hn : (!condHolds c (s.cr cr) && (s.lc - 1#64 != BitVec.allOnes 64)) = false := by
    rw [Bool.eq_false_iff, Ne, dbcc_taken_iff]
    rintro ⟨hc, hlc⟩
    exact h.elim (fun hc' => by rw [hc] at hc'; cases hc') hlc
  rw [exec_dbcc, hn]
  exact ⟨{ s with lc := s.lc - 1#64 }, rfl, rfl⟩

/-! ## Accesses -/

theorem updateBase_pc (u : Option (Reg × Word)) (t : State) : (t.updateBase u).pc = t.pc := by
  rcases u with - | ⟨rb, v⟩
  · rfl
  · exact State.setX_pc t rb v

section
variable {s : State} {u : Option (Reg × Word)} {words : Nat} (hpc : updatesPc u = false)
include hpc

theorem loadOp_advances {sz : Size} {rt : Reg} {a : Word} (hreg : updatesReg u rt = false)
    (h : CanAccess s .read a (sizeBytes sz)) : Advances words s (loadOp sz rt a u words s) :=
  ⟨_, (updateBase_pc u _).trans (pc_wb (sizeBits_le sz) s rt _), loadOp_of_can words hpc hreg h⟩

theorem storeOp_advances {n : Nat} {v a : Word} (h : CanAccess s .write a n) : Advances words s (storeOp n v a u words s) :=
  ⟨_, updateBase_pc u (s.storeBytes a n v), storeOp_of_can v words hpc h⟩

variable {sz : Size} {skip : Bool} {list : BitVec 32} {special : BitVec 5} {ea : Word}

theorem storemOp_advances (hm : MayList sz special s) (h : CanAccessSlots s .write sz list special skip ea) :
    Advances words s (storemOp sz skip list special ea u words s) :=
  ⟨_, (updateBase_pc u _).trans (keepsRest_storedSlots _ ea _ s).2, storemOp_of_can hm hpc h⟩

theorem loadmOp_advances (hm : MayList sz special s) (h0 : special.getLsbD 0 = false) (hl : updatesListed u list = false)
    (h : CanAccessSlots s .read sz list special skip ea) : Advances words s (loadmOp sz skip list special ea u words s) := by
  have hheld : heldPc (heldList sz skip list special ea s) = none := by rw [heldPc_heldOf, h0]; rfl
  refine ⟨((loadedList sz skip list ea s).updateBase u).writeSpecials (heldList sz skip list special ea s), ?_, ?_⟩
  · rw [writeSpecials_heldOf]
    exact (updateBase_pc u _).trans writes_loadedList.pc
  · rw [loadmOp_of_can hm hpc hl h, finishLoadm, hheld]

end

theorem pushOp_advances (n : Nat) {v : Word} {words : Nat} {s : State} (h : CanAccess s .write (s.x 31#5 - BitVec.ofNat 64 n) n) :
    Advances words s (pushOp n v words s) := storeOp_advances rfl h

/-! ## The words of an instruction with a displacement -/

theorem length_disp {n : Nat} (d : Disp n) : d.words.length = d.extWords := by cases d <;> rfl

theorem length_storeImm (imm : StoreImm) : imm.words.length = imm.extWords := by cases imm <;> rfl

theorem length_word_disp {n : Nat} (w : InsnWord) (d : Disp n) : (w :: d.words).length = 1 + d.extWords := by
  rw [List.length_cons, length_disp, Nat.add_comm]

theorem length_list_disp {n : Nat} (w list : InsnWord) (d : Disp n) : (w :: list :: d.words).length = 2 + d.extWords := by
  rw [List.length_cons, length_word_disp]
  omega

theorem length_imm_disp {n : Nat} (w : InsnWord) (imm : StoreImm) (d : Disp n) :
    (w :: (imm.words ++ d.words)).length = 1 + imm.extWords + d.extWords := by
  rw [List.length_cons, List.length_append, length_storeImm, length_disp]
  omega

/-- An instruction that ends in sequence ends so after all the words of its encoding. -/
theorem exec_advances (s : State) : ∀ i : Instr, EndsInSequence s i → Advances (encode i).length s (exec i s)
  | .addRR .., h | .addI32 .., h | .addI64 .., h | .addI10 .., h => addOp_advances (sizeBits_le _) s _ _ _ _ _ h
  | .adcRR .., h | .adcI32 .., h | .adcI64 .., h | .adcI10 .., h => adcOp_advances (sizeBits_le _) s _ _ _ _ _ h
  | .subRR .., _ | .subI32 .., _ | .subI64 .., _ | .subI10 .., _ => subOp_advances (sizeBits_le _) s _ _ _ _
  | .cmpRR .., _ | .cmpI32 .., _ | .cmpI64 .., _ | .cmpI10 .., _ => cmpOp_advances s _ _ _
  | .fcmpRR .., h | .fcmpI32 .., h | .fcmpI64 .., h | .fcmpI10 .., h => fcmpOp_advances s _ _ _ _ h
  | .mulsI32 .., _ | .mulsI64 .., _ | .mulsI10 .., _ | .muluI32 .., _ | .muluI64 .., _ | .muluI10 .., _ =>
    mulOp_advances (sizeBits_le _) s _ _ _ _ _
  | .mulsRR .., h | .muluRR .., h => mulOpHigh_advances (sizeBits_le _) s _ _ _ _ _ _ h
  | .divsRR .., h | .divuRR .., h => divOpRem_advances (sizeBits_le _) s _ _ _ _ h
  | .divsI32 .., h | .divuI32 .., h => divOp_advances (sizeBits_le _) s _ _ _ _ (divisor_ne (imm32_eq _ _) h)
  | .divsI64 .., h | .divuI64 .., h => divOp_advances (sizeBits_le _) s _ _ _ _ (divisor_ne (imm64_eq _ _) h)
  | .divsI10 .., h => divOp_advances (sizeBits_le _) s _ _ _ _ (divisor_ne (imm10_eq _ _) h)
  | .andRR .., _ | .andI32 .., _ | .andI64 .., _ | .andI10 .., _ | .orRR .., _ | .orI32 .., _ | .orI64 .., _
  | .orI10 .., _ | .eorRR .., _ | .eorI32 .., _ | .eorI64 .., _ | .eorI10 .., _ | .loadq .., _ =>
    logicOp_advances (sizeBits_le _) s _ _ _ _
  | .abs .., _ => writeBack_advances (sizeBits_le _) s _ _
  | .swap _ sz _ _, _ => swapOp_advances (halves_le sz) s _ _ _ _
  | .moveFromCsr _ rb, h => moveFromCsr_advances rb _ h
  | .moveToCsr _ rb, h => csrUpdate_advances csrUpdate_moveTo rb _ h
  | .orCsr _ rb, h => csrUpdate_advances updates_or rb _ h
  | .andcCsr _ rb, h => csrUpdate_advances updates_andc rb _ h
  | .eorCsr _ rb, h => csrUpdate_advances updates_eor rb _ h
  | .bclrReg .., _ | .bclrImm .., _ | .bsetReg .., _ | .bsetImm .., _ | .bchgReg .., _ | .bchgImm .., _ | .bpclrReg .., _
  | .bpclrImm .., _ | .bpchgReg .., _ | .bpchgImm .., _ => finishAlu_advances (sizeBits_le _) s _ _ _ _ _ _
  | .btstReg .., _ | .btstImm .., _ | .bptstReg .., _ | .bptstImm .., _ => testFlags_advances s _ _ _
  | .aslReg .., _ | .aslImm .., _ | .asrReg .., _ | .asrImm .., _ | .lslReg .., _ | .lslImm .., _ | .lsrReg .., _
  | .lsrImm .., _ | .rolReg .., _ | .rolImm .., _ | .rolcReg .., _ | .rolcImm .., _ | .rorReg .., _ | .rorImm .., _
  | .rorcReg .., _ | .rorcImm .., _ => shiftOp_advances (sizeBits_le _) s _ _ _ _ _
  | .trapv _ data rt, h => trapv_advances data rt h
  | .bcc _ _ d, h => bcc_advances d h
  | .dbcc _ _ d, h => dbcc_advances d h
  | .load .., ⟨hmay, hreg, h⟩ => by
    rw [exec_load, encode, length_word_disp]
    exact loadOp_advances (updatesPc_of_may hmay) (updatesReg_of_ne hreg) h
  | .loadX .., h => by
    rw [exec_loadX, encode, length_word_disp]
    exact loadOp_advances rfl rfl h
  | .loadm .., ⟨hm, h0, hmay, hlist, h⟩ => by
    rw [exec_loadm, encode, length_list_disp]
    exact loadmOp_advances (updatesPc_of_may hmay) hm h0 (updatesListed_of_not hlist) h
  | .loadmX .., ⟨hm, h0, h⟩ => by
    rw [exec_loadmX, encode, length_list_disp]
    exact loadmOp_advances rfl hm h0 rfl h
  | .pushT _, h => pushOp_advances 4 h
  | .pushO _, h => pushOp_advances 8 h
  | .pea .., h => by
    rw [exec_pea, encode, length_word_disp]
    exact pushOp_advances _ h
  | .peaX .., h => by
    rw [exec_peaX, encode, length_word_disp]
    exact pushOp_advances _ h
  | .store .., ⟨hmay, h⟩ => by
    rw [exec_store, encode, length_word_disp]
    exact storeOp_advances (updatesPc_of_may hmay) h
  | .storeX .., h => by
    rw [exec_storeX, encode, length_word_disp]
    exact storeOp_advances rfl h
  | .storeImm .., ⟨hmay, h⟩ => by
    rw [exec_storeImm, encode, length_imm_disp]
    exact storeOp_advances (updatesPc_of_may hmay) h
  | .storeImmX .., h => by
    rw [exec_storeImmX, encode, length_imm_disp]
    exact storeOp_advances rfl h
  | .storem .., ⟨hm, hmay, h⟩ => by
    rw [exec_storem, encode, length_list_disp]
    exact storemOp_advances (updatesPc_of_may hmay) hm h
  | .storemX .., ⟨hm, h⟩ => by
    rw [exec_storemX, encode, length_list_disp]
    exact storemOp_advances rfl hm h

/-- Settles O12. -/
theorem stepsOutsideTheSpecAreRefused : Obligations.StepsOutsideTheSpecAreRefused :=
  ⟨fun _ hs h => step_of_modes hs h, fun _ h => ⟨step_of_stored_first h, fun _ _ hc hd hl => step_of_extension_refused h hc hd hl⟩,
    fun s i h => (exec_advances s i h).refused⟩

end Sys2Proof.Proofs.TopOfMemory
end
